-- ==== Sys2Proof/Word.lean ====
section
/-!
DEFINITION. Widths of the VHS-4120 (R1, R18): the scalar word, the byte, the short vector, and the names of registers.
-/

namespace Sys2Proof

/-- A 64-bit register or word. -/
abbrev Word := BitVec 64

/-- One byte of memory. -/
abbrev Byte := BitVec 8

/-- A short vector of 16 lanes of 32 bits (R48). -/
abbrev Vec := BitVec 512

/-- Name of a g or v register, as encoded (R126). -/
abbrev Reg := BitVec 5

/-- Name of a predicate p0 to p15. -/
abbrev PReg := BitVec 4

/-- Name of a mask, shape or stream register, 0 to 7. -/
abbrev QReg := BitVec 3

end Sys2Proof
end

