-- ==== Sys2Proof/Config.lean ====
section
/-!
DEFINITION. What the spec leaves to the implementation, as constants without a body: no proof can see their values, so a
claim holds whatever they are. Each is named in the assumption log.
-/

namespace Sys2Proof.Config

/-- Which of the two adjacent results VEXP, VLOG2 and VSIG give for an argument (R224): function number and operand bits.
Fixed per input, otherwise open. (Log entry 7: DESIGN CHOICE, safe.) -/
opaque approxHigh : Nat → Nat → Bool

/-- The part-defined ident word of the management window (R439). (Log entry 8: DESIGN CHOICE, safe.) -/
opaque ident : Word

/-- The signature of an attestation report with the device identity key, whose private half never leaves the controller (R448).
(Log entry 8: DESIGN CHOICE, safe.) -/
opaque identitySign : List Byte → List Byte

/-- What TRAPPC's site word names for a thread on a walker or steward core, which R357 does not say: by core.
(Log entry 8: DESIGN CHOICE, safe.) -/
opaque serviceSite : Nat → Word

/-- Values the spec states no result for, drawn in turn with the state's counter. (Log entry 6: DESIGN CHOICE, safe.) -/
opaque freeValue : Nat → Word

end Sys2Proof.Config
end

