-- ==== Sys2Proof/Syntax.lean ====
section
/-!
DEFINITION. Syntax of the VHS-4120's operations: ONE inductive `Instr`, one constructor per row of the table of
operations and events. Strand words and forge slot operations carry the fields of their encodings (R124 to R143) as
bit vectors of the encoded width; device steps carry the units they act on and, where the outside world acts, the data
it brings. Which field values are assigned is `Sys2Proof.WellFormed`; what an operation does is `Sys2Proof.Machine`.
-/

namespace Sys2Proof

/-- Guard of a strand word: inversion bit and predicate p0 to p7 (R124). -/
structure Guard where
  gn : BitVec 1
  gp : BitVec 3
  deriving DecidableEq, Repr

/-- The unguarded form, gp = 0 with gn = 0 (R125). -/
def Guard.always : Guard := ⟨0, 0⟩

/-- Guard of a bundle slot: inversion bit and predicate p0 to p15 (R139). -/
structure SlotGuard where
  gn : BitVec 1
  gp : BitVec 4
  deriving DecidableEq, Repr

def SlotGuard.always : SlotGuard := ⟨0, 0⟩

/-- A thread is named by its context address within its address space (R21). -/
structure ThreadId where
  asid : BitVec 10
  ctx  : BitVec 44
  deriving DecidableEq, Repr

/-- The unit whose debug module is meant (R413): a strand core or a hearth's forge sequencer. -/
inductive DebugUnit where
  | core (n : Nat)
  | sequencer (hearth : Nat)
  deriving DecidableEq, Repr

/-- How a response to a remote request ends (R424, R426). -/
inductive RemoteResult where
  | data (bytes : List (BitVec 8))
  | wrongWorld
  | noMemory
  | poisoned
  deriving DecidableEq, Repr

/-- A request that arrives from the fabric (R423, R426, R427), performed against this package's memory. -/
inductive RemoteRequest where
  | load (secure : Bool) (pa : BitVec 52) (len : Nat)
  | store (secure : Bool) (pa : BitVec 52) (bytes : List (BitVec 8))
  | atomic (secure : Bool) (op : BitVec 5) (pa : BitVec 52) (len : Nat) (operand expect : Nat)
  | update (secure : Bool) (op : BitVec 2) (fmt : BitVec 5) (pa : BitVec 52) (operand : Nat)
  /-- A store under a bit mask: of sub-byte elements, or of some bytes of a line (R96, R111). -/
  | masked (secure : Bool) (pa : BitVec 52) (len data mask : Nat)
  | packet (dst : ThreadId) (words : List (BitVec 64))
  | mailbox (asid : BitVec 10) (secure : Bool) (hearth : Nat) (words : List (BitVec 64))
  | unit (hearth : Nat) (channel : BitVec 16) (bytes : List (BitVec 8))
  | arrival (domain : Nat) (word : BitVec 64) (member : ThreadId)
  deriving DecidableEq, Repr

/-- The operations of the engine slots 4 to 7 of a bundle (R140), as the bundle decoder gives them. They are constructors of
`Instr` too (`EngineSlot.instr`); the bundle is run from this form, because compiled code can build only the first 244
constructors of an inductive that carry fields. (Log entry 13: DESIGN CHOICE, safe.) -/
inductive EngineSlot where
  /-- AWLD, R271. -/
  | awld (g : SlotGuard) (bank : BitVec 1) (src : BitVec 2) (a : Reg) (pw : BitVec 3)
  /-- ASWAP of slot 4 (R140, R272): the table's row ASWAP names this form too. -/
  | aswapSlot (g : SlotGuard) (set bank : BitVec 1)
  /-- AISS, R273. -/
  | aiss (g : SlotGuard) (q : QReg) (rb two : BitVec 1) (pa : BitVec 4) (r : BitVec 7)
  /-- AZERO, R275. -/
  | azero (g : SlotGuard) (r n : BitVec 7)
  /-- ASHOUT, R275. -/
  | ashout (g : SlotGuard) (q : QReg) (fmt : BitVec 2) (clr : BitVec 1) (r n : BitVec 7)
  /-- APROV, R276. -/
  | aprov (g : SlotGuard) (d : Reg) (st clr : BitVec 1)
  /-- TCOPY, R270. -/
  | tcopy (g : SlotGuard) (d a b : Reg)
  /-- TGATH, R270. -/
  | tgath (g : SlotGuard) (d a b : Reg)
  /-- TSCAT, R270. -/
  | tscat (g : SlotGuard) (d a b : Reg)
  /-- TXFER, R270. -/
  | txfer (g : SlotGuard) (d a b : Reg)
  /-- TSEND, R270. -/
  | tsend (g : SlotGuard) (d a b : Reg) (q : QReg)
  /-- XPERM, R264. -/
  | xperm (g : SlotGuard) (d a b : Reg) (w : BitVec 2)
  /-- XBCAST, R264. -/
  | xbcast (g : SlotGuard) (d a : Reg) (w : BitVec 2) (s : BitVec 6)
  /-- XROT, R264. -/
  | xrot (g : SlotGuard) (d a : Reg) (w : BitVec 2) (s : BitVec 6)
  /-- QBIND, R265. -/
  | qbind (g : SlotGuard) (q : QReg) (kind unit : BitVec 2) (sh : BitVec 3) (a : Reg)
  /-- QADV, R268. -/
  | qadv (g : SlotGuard) (q : QReg) (a : Reg)
  /-- QWAITF, R268. -/
  | qwaitf (g : SlotGuard) (q : QReg) (n : BitVec 8)
  /-- QWAITE, R268. -/
  | qwaite (g : SlotGuard) (q : QReg)
  /-- SCEXP, R274. -/
  | scexp (g : SlotGuard) (a : Reg)
  deriving DecidableEq, Repr

/-- The operations and events of the part. -/
inductive Instr where
  -- strand words (R124 to R138)
  /-- ADD, R158. -/
  | add (g : Guard) (d : Reg) (a : Reg) (b : Reg)
  /-- SUB, R158. -/
  | sub (g : Guard) (d : Reg) (a : Reg) (b : Reg)
  /-- MUL, R158. -/
  | mul (g : Guard) (d : Reg) (a : Reg) (b : Reg)
  /-- MULH, R158. -/
  | mulh (g : Guard) (d : Reg) (a : Reg) (b : Reg)
  /-- MULHZ, R158. -/
  | mulhz (g : Guard) (d : Reg) (a : Reg) (b : Reg)
  /-- DIV, R159. -/
  | div (g : Guard) (d : Reg) (a : Reg) (b : Reg)
  /-- DIVZ, R159. -/
  | divz (g : Guard) (d : Reg) (a : Reg) (b : Reg)
  /-- REM, R159. -/
  | rem (g : Guard) (d : Reg) (a : Reg) (b : Reg)
  /-- REMZ, R159. -/
  | remz (g : Guard) (d : Reg) (a : Reg) (b : Reg)
  /-- AND, R158. -/
  | and (g : Guard) (d : Reg) (a : Reg) (b : Reg)
  /-- OR, R158. -/
  | or (g : Guard) (d : Reg) (a : Reg) (b : Reg)
  /-- XOR, R158. -/
  | xor (g : Guard) (d : Reg) (a : Reg) (b : Reg)
  /-- ANDN, R158. -/
  | andn (g : Guard) (d : Reg) (a : Reg) (b : Reg)
  /-- SHL, R158. -/
  | shl (g : Guard) (d : Reg) (a : Reg) (b : Reg)
  /-- SHR, R158. -/
  | shr (g : Guard) (d : Reg) (a : Reg) (b : Reg)
  /-- SHA, R158. -/
  | sha (g : Guard) (d : Reg) (a : Reg) (b : Reg)
  /-- ROL, R158. -/
  | rol (g : Guard) (d : Reg) (a : Reg) (b : Reg)
  /-- MIN, R158. -/
  | min (g : Guard) (d : Reg) (a : Reg) (b : Reg)
  /-- MAX, R158. -/
  | max (g : Guard) (d : Reg) (a : Reg) (b : Reg)
  /-- MINZ, R158. -/
  | minz (g : Guard) (d : Reg) (a : Reg) (b : Reg)
  /-- MAXZ, R158. -/
  | maxz (g : Guard) (d : Reg) (a : Reg) (b : Reg)
  /-- CLZ, R158. -/
  | clz (g : Guard) (d : Reg) (a : Reg)
  /-- CTZ, R158. -/
  | ctz (g : Guard) (d : Reg) (a : Reg)
  /-- POPC, R158. -/
  | popc (g : Guard) (d : Reg) (a : Reg)
  /-- BSWAP, R158. -/
  | bswap (g : Guard) (d : Reg) (a : Reg)
  /-- SEXT, R160. -/
  | sext (g : Guard) (d : Reg) (a : Reg) (w : BitVec 2)
  /-- ZEXT, R160. -/
  | zext (g : Guard) (d : Reg) (a : Reg) (w : BitVec 2)
  /-- SEL, R158. -/
  | sel (g : Guard) (d : Reg) (a : Reg) (b : Reg)
  /-- ADDI, R161. -/
  | addi (g : Guard) (d : Reg) (a : Reg) (i : BitVec 12)
  /-- ANDI, R161. -/
  | andi (g : Guard) (d : Reg) (a : Reg) (i : BitVec 12)
  /-- ORI, R161. -/
  | ori (g : Guard) (d : Reg) (a : Reg) (i : BitVec 12)
  /-- XORI, R161. -/
  | xori (g : Guard) (d : Reg) (a : Reg) (i : BitVec 12)
  /-- SHLI, R161. -/
  | shli (g : Guard) (d : Reg) (a : Reg) (s : BitVec 6)
  /-- SHRI, R161. -/
  | shri (g : Guard) (d : Reg) (a : Reg) (s : BitVec 6)
  /-- SHAI, R161. -/
  | shai (g : Guard) (d : Reg) (a : Reg) (s : BitVec 6)
  /-- LI, R161. -/
  | li (g : Guard) (d : Reg) (i : BitVec 17)
  /-- LIH, R161. -/
  | lih (g : Guard) (d : Reg) (i : BitVec 16)
  /-- BFX, R161. -/
  | bfx (g : Guard) (d : Reg) (a : Reg) (e : BitVec 6) (o : BitVec 6)
  /-- BFI, R161. -/
  | bfi (g : Guard) (d : Reg) (a : Reg) (e : BitVec 6) (o : BitVec 6)
  /-- CMP, R162. -/
  | cmp (g : Guard) (d : BitVec 4) (a : Reg) (b : Reg) (c : BitVec 7)
  /-- CMPI, R162. -/
  | cmpi (g : Guard) (d : BitVec 4) (a : Reg) (c : BitVec 3) (i : BitVec 9)
  /-- PAND, R163. -/
  | pand (g : Guard) (d : BitVec 4) (a : BitVec 4) (b : BitVec 4)
  /-- POR, R163. -/
  | por (g : Guard) (d : BitVec 4) (a : BitVec 4) (b : BitVec 4)
  /-- PXOR, R163. -/
  | pxor (g : Guard) (d : BitVec 4) (a : BitVec 4) (b : BitVec 4)
  /-- PANDN, R163. -/
  | pandn (g : Guard) (d : BitVec 4) (a : BitVec 4) (b : BitVec 4)
  /-- PNOT, R163. -/
  | pnot (g : Guard) (d : BitVec 4) (a : BitVec 4)
  /-- PSET, R163. -/
  | pset (g : Guard) (d : BitVec 4)
  /-- PCLR, R163. -/
  | pclr (g : Guard) (d : BitVec 4)
  /-- PADD, R164. -/
  | padd (g : Guard) (d : Reg) (a : Reg) (b : Reg)
  /-- PADDI, R164. -/
  | paddi (g : Guard) (d : Reg) (a : Reg) (i : BitVec 12)
  /-- PTAG, R164. -/
  | ptag (g : Guard) (d : Reg) (a : Reg) (f : BitVec 5) (k : BitVec 3)
  /-- PGETF, R164. -/
  | pgetf (g : Guard) (d : Reg) (a : Reg)
  /-- PGETB, R164. -/
  | pgetb (g : Guard) (d : Reg) (a : Reg)
  /-- PSTRIP, R164. -/
  | pstrip (g : Guard) (d : Reg) (a : Reg)
  /-- BR, R165. -/
  | br (g : Guard) (o : BitVec 22)
  /-- BRL, R165. -/
  | brl (g : Guard) (o : BitVec 22)
  /-- JR, R166. -/
  | jr (g : Guard) (a : Reg)
  /-- JRL, R166. -/
  | jrl (g : Guard) (d : Reg) (a : Reg)
  /-- LOOP, R168. -/
  | loop (g : Guard) (d : Reg) (l : BitVec 12)
  /-- LIDX, R171. -/
  | lidx (g : Guard) (d : Reg) (k : BitVec 5)
  /-- LBRK, R171. -/
  | lbrk (g : Guard) (k : BitVec 5)
  /-- LCNT, R171. -/
  | lcnt (g : Guard) (d : Reg) (k : BitVec 5)
  /-- FRAME, R173. -/
  | frame (g : Guard) (a : Reg) (s : BitVec 5) (c : BitVec 4)
  /-- YIELD, R177. -/
  | yield (g : Guard)
  /-- EXIT, R180. -/
  | exit (g : Guard) (a : Reg)
  /-- SELF, R178. -/
  | self (g : Guard) (d : Reg) (s : BitVec 8)
  /-- SPAWN, R179. -/
  | spawn (g : Guard) (d : Reg) (a : Reg) (b : Reg)
  /-- SPAWNN, R179. -/
  | spawnn (g : Guard) (d : Reg) (a : Reg) (b : Reg)
  /-- JOIN, R181. -/
  | join (g : Guard) (d : Reg) (a : Reg)
  /-- PRIO, R182. -/
  | prio (g : Guard) (d : Reg) (a : Reg)
  /-- PARK, R183. -/
  | park (g : Guard)
  /-- WAKE, R183. -/
  | wake (g : Guard) (a : Reg)
  /-- FORGE, R184. -/
  | forge (g : Guard)
  /-- LD, R187. -/
  | ld (g : Guard) (d : Reg) (b : Reg) (z : BitVec 2) (o : BitVec 10)
  /-- LDZ, R187. -/
  | ldz (g : Guard) (d : Reg) (b : Reg) (z : BitVec 2) (o : BitVec 10)
  /-- ST, R187. -/
  | st (g : Guard) (d : Reg) (b : Reg) (z : BitVec 2) (o : BitVec 10)
  /-- LDV, R187. -/
  | ldv (g : Guard) (d : Reg) (b : Reg) (o : BitVec 10)
  /-- STV, R187. -/
  | stv (g : Guard) (d : Reg) (b : Reg) (o : BitVec 10)
  /-- LDF, R189. -/
  | ldf (g : Guard) (d : Reg) (b : Reg) (o : BitVec 10)
  /-- STF, R189. -/
  | stf (g : Guard) (d : Reg) (b : Reg) (o : BitVec 10)
  /-- LDA, R190. -/
  | lda (g : Guard) (d : Reg) (a : Reg) (c : BitVec 3) (z : BitVec 2)
  /-- STRL, R190. -/
  | strl (g : Guard) (d : Reg) (a : Reg) (c : BitVec 3) (z : BitVec 2)
  /-- LDX, R190. -/
  | ldx (g : Guard) (d : Reg) (a : Reg) (b : Reg) (z : BitVec 2)
  /-- LDZX, R190. -/
  | ldzx (g : Guard) (d : Reg) (a : Reg) (b : Reg) (z : BitVec 2)
  /-- STX, R190. -/
  | stx (g : Guard) (d : Reg) (a : Reg) (b : Reg) (z : BitVec 2)
  /-- PREF, R191. -/
  | pref (g : Guard) (a : Reg) (b : Reg)
  /-- AADD, R192. -/
  | aadd (g : Guard) (d : Reg) (a : Reg) (b : Reg) (z : BitVec 2)
  /-- AAND, R192. -/
  | aand (g : Guard) (d : Reg) (a : Reg) (b : Reg) (z : BitVec 2)
  /-- AOR, R192. -/
  | aor (g : Guard) (d : Reg) (a : Reg) (b : Reg) (z : BitVec 2)
  /-- AXOR, R192. -/
  | axor (g : Guard) (d : Reg) (a : Reg) (b : Reg) (z : BitVec 2)
  /-- AMIN, R192. -/
  | amin (g : Guard) (d : Reg) (a : Reg) (b : Reg) (z : BitVec 2)
  /-- AMAX, R192. -/
  | amax (g : Guard) (d : Reg) (a : Reg) (b : Reg) (z : BitVec 2)
  /-- AMINZ, R192. -/
  | aminz (g : Guard) (d : Reg) (a : Reg) (b : Reg) (z : BitVec 2)
  /-- AMAXZ, R192. -/
  | amaxz (g : Guard) (d : Reg) (a : Reg) (b : Reg) (z : BitVec 2)
  /-- ASWAP, R192. -/
  | aswap (g : Guard) (d : Reg) (a : Reg) (b : Reg) (z : BitVec 2)
  /-- ACAS, R192. -/
  | acas (g : Guard) (d : Reg) (a : Reg) (b : Reg) (z : BitVec 2)
  /-- ACAS16, R192. -/
  | acas16 (g : Guard) (d : Reg) (a : Reg) (b : Reg)
  /-- CADD, R194. -/
  | cadd (g : Guard) (a : Reg) (b : Reg) (f : BitVec 5)
  /-- CMAX, R194. -/
  | cmax (g : Guard) (a : Reg) (b : Reg) (f : BitVec 5)
  /-- CMIN, R194. -/
  | cmin (g : Guard) (a : Reg) (b : Reg) (f : BitVec 5)
  /-- COR, R194. -/
  | cor (g : Guard) (a : Reg) (b : Reg) (f : BitVec 5)
  /-- FENCE, R196. -/
  | fence (g : Guard) (s : BitVec 3)
  /-- FENCEE, R196. -/
  | fencee (g : Guard) (s : BitVec 3)
  /-- SYNC, R197. -/
  | sync (g : Guard) (d : Reg) (a : Reg) (l : BitVec 8)
  /-- DOMGET, R34. -/
  | domget (g : Guard) (d : Reg) (l : BitVec 8)
  /-- PHASE, R198. -/
  | phase (g : Guard) (d : Reg)
  /-- XCHG, R199. -/
  | xchg (g : Guard) (d : Reg) (a : Reg) (l : BitVec 8)
  /-- SNAP, R103. -/
  | snap (g : Guard) (d : Reg) (a : Reg)
  /-- ACCEPT, R110. -/
  | accept (g : Guard) (d : Reg) (a : Reg)
  /-- REJECT, R112. -/
  | reject (g : Guard) (d : Reg) (a : Reg)
  /-- SNAPQ, R117. -/
  | snapq (g : Guard) (d : Reg) (a : Reg)
  /-- TORDER, R118. -/
  | torder (g : Guard) (a : Reg) (l : BitVec 8)
  /-- TBEGIN, R119. -/
  | tbegin (g : Guard) (a : Reg)
  /-- TCOMMIT, R120. -/
  | tcommit (g : Guard)
  /-- TABORT, R120. -/
  | tabort (g : Guard)
  /-- TSTAT, R123. -/
  | tstat (g : Guard) (d : Reg)
  /-- TLWAIT, R203. -/
  | tlwait (g : Guard) (d : Reg) (a : Reg) (e : BitVec 3)
  /-- TLREAD, R204. -/
  | tlread (g : Guard) (d : Reg) (l : BitVec 1) (e : BitVec 3)
  /-- MSEND, R208. -/
  | msend (g : Guard) (a : Reg) (b : Reg)
  /-- MSENDE, R208. -/
  | msende (g : Guard) (a : Reg) (b : Reg)
  /-- DEPOSIT, R213. -/
  | deposit (g : Guard) (d : Reg) (a : Reg) (r : BitVec 5) (c : BitVec 3)
  /-- NREAD, R215. -/
  | nread (g : Guard) (d : Reg) (a : Reg) (r : BitVec 5) (n : BitVec 3)
  /-- MRECV, R211. -/
  | mrecv (g : Guard) (d : Reg) (n : BitVec 3) (k : BitVec 1) (m : BitVec 1)
  /-- REBIND, R217. -/
  | rebind (g : Guard) (d : Reg) (a : Reg) (b : Reg)
  /-- BINDQ, R218. -/
  | bindq (g : Guard) (d : Reg) (a : Reg) (s : BitVec 8)
  /-- RNGX, R244. -/
  | rngx (g : Guard) (d : Reg) (a : Reg) (b : Reg)
  /-- RNGS_DRAW, R245. -/
  | rngsDraw (g : Guard) (d : Reg) (a : Reg) (h : BitVec 1)
  /-- RNGS_LOAD, R245. -/
  | rngsLoad (g : Guard) (d : Reg) (a : Reg) (h : BitVec 1)
  /-- HINIT, R248. -/
  | hinit (g : Guard) (a : Reg) (k : BitVec 3)
  /-- HSIFT, R248. -/
  | hsift (g : Guard) (d : Reg) (a : Reg) (b : Reg)
  /-- HPOP, R248. -/
  | hpop (g : Guard) (d : Reg) (a : Reg) (n : BitVec 4)
  /-- VADD, R222. -/
  | vadd (g : Guard) (d : Reg) (a : Reg) (b : Reg) (t : BitVec 4)
  /-- VSUB, R222. -/
  | vsub (g : Guard) (d : Reg) (a : Reg) (b : Reg) (t : BitVec 4)
  /-- VMUL, R222. -/
  | vmul (g : Guard) (d : Reg) (a : Reg) (b : Reg) (t : BitVec 4)
  /-- VFMA, R222. -/
  | vfma (g : Guard) (d : Reg) (a : Reg) (b : Reg) (t : BitVec 4)
  /-- VFMS, R222. -/
  | vfms (g : Guard) (d : Reg) (a : Reg) (b : Reg) (t : BitVec 4)
  /-- VMIN, R223. -/
  | vmin (g : Guard) (d : Reg) (a : Reg) (b : Reg) (t : BitVec 4)
  /-- VMAX, R223. -/
  | vmax (g : Guard) (d : Reg) (a : Reg) (b : Reg) (t : BitVec 4)
  /-- VDIV, R222. -/
  | vdiv (g : Guard) (d : Reg) (a : Reg) (b : Reg) (t : BitVec 4)
  /-- VABS, R224. -/
  | vabs (g : Guard) (d : Reg) (a : Reg) (t : BitVec 4)
  /-- VNEG, R224. -/
  | vneg (g : Guard) (d : Reg) (a : Reg) (t : BitVec 4)
  /-- VSQRT, R224. -/
  | vsqrt (g : Guard) (d : Reg) (a : Reg) (t : BitVec 4)
  /-- VRCP, R224. -/
  | vrcp (g : Guard) (d : Reg) (a : Reg) (t : BitVec 4)
  /-- VRSQ, R224. -/
  | vrsq (g : Guard) (d : Reg) (a : Reg) (t : BitVec 4)
  /-- VEXP, R224. -/
  | vexp (g : Guard) (d : Reg) (a : Reg) (t : BitVec 4)
  /-- VLOG2, R224. -/
  | vlog2 (g : Guard) (d : Reg) (a : Reg) (t : BitVec 4)
  /-- VSIG, R224. -/
  | vsig (g : Guard) (d : Reg) (a : Reg) (t : BitVec 4)
  /-- VIADD, R226. -/
  | viadd (g : Guard) (d : Reg) (a : Reg) (b : Reg) (t : BitVec 4)
  /-- VISUB, R226. -/
  | visub (g : Guard) (d : Reg) (a : Reg) (b : Reg) (t : BitVec 4)
  /-- VIMUL, R226. -/
  | vimul (g : Guard) (d : Reg) (a : Reg) (b : Reg) (t : BitVec 4)
  /-- VAND, R226. -/
  | vand (g : Guard) (d : Reg) (a : Reg) (b : Reg) (t : BitVec 4)
  /-- VOR, R226. -/
  | vor (g : Guard) (d : Reg) (a : Reg) (b : Reg) (t : BitVec 4)
  /-- VXOR, R226. -/
  | vxor (g : Guard) (d : Reg) (a : Reg) (b : Reg) (t : BitVec 4)
  /-- VSHL, R226. -/
  | vshl (g : Guard) (d : Reg) (a : Reg) (b : Reg) (t : BitVec 4)
  /-- VSHR, R226. -/
  | vshr (g : Guard) (d : Reg) (a : Reg) (b : Reg) (t : BitVec 4)
  /-- VCMP, R227. -/
  | vcmp (g : Guard) (d : BitVec 3) (a : Reg) (b : Reg) (t : BitVec 4) (c : BitVec 3)
  /-- VSELM, R228. -/
  | vselm (g : Guard) (d : Reg) (a : Reg) (b : BitVec 3) (t : BitVec 4)
  /-- MAND, R228. -/
  | mand (g : Guard) (d : BitVec 3) (a : BitVec 3) (b : BitVec 3)
  /-- MOR, R228. -/
  | mor (g : Guard) (d : BitVec 3) (a : BitVec 3) (b : BitVec 3)
  /-- MXOR, R228. -/
  | mxor (g : Guard) (d : BitVec 3) (a : BitVec 3) (b : BitVec 3)
  /-- MNOT, R228. -/
  | mnot (g : Guard) (d : BitVec 3) (a : BitVec 3)
  /-- MPOP, R228. -/
  | mpop (g : Guard) (d : Reg) (a : BitVec 3)
  /-- MFIRST, R228. -/
  | mfirst (g : Guard) (d : Reg) (a : BitVec 3)
  /-- VCVT, R229. -/
  | vcvt (g : Guard) (d : Reg) (a : Reg) (r : BitVec 3) (c : BitVec 2) (t : BitVec 4)
  /-- VQNT, R230. -/
  | vqnt (g : Guard) (d : Reg) (a : Reg) (b : Reg) (t : BitVec 4)
  /-- VDQNT, R231. -/
  | vdqnt (g : Guard) (d : Reg) (a : Reg) (b : Reg) (t : BitVec 4)
  /-- VPERM, R232. -/
  | vperm (g : Guard) (d : Reg) (a : Reg) (b : Reg) (t : BitVec 4)
  /-- VBCAST, R232. -/
  | vbcast (g : Guard) (d : Reg) (a : Reg) (t : BitVec 4)
  /-- VEXT, R232. -/
  | vext (g : Guard) (d : Reg) (a : Reg) (b : Reg) (t : BitVec 4)
  /-- VINS, R232. -/
  | vins (g : Guard) (d : Reg) (a : Reg) (b : Reg) (t : BitVec 4)
  /-- VSLIDE, R232. -/
  | vslide (g : Guard) (d : Reg) (a : Reg) (b : Reg) (t : BitVec 4)
  /-- VREDADD, R233. -/
  | vredadd (g : Guard) (d : Reg) (a : Reg) (b : BitVec 3) (t : BitVec 4)
  /-- VREDMAX, R233. -/
  | vredmax (g : Guard) (d : Reg) (a : Reg) (b : BitVec 3) (t : BitVec 4)
  /-- VREDMIN, R233. -/
  | vredmin (g : Guard) (d : Reg) (a : Reg) (b : BitVec 3) (t : BitVec 4)
  /-- VREDX, R233. -/
  | vredx (g : Guard) (d : Reg) (a : Reg) (b : BitVec 3) (t : BitVec 4)
  /-- SHSET, R236. -/
  | shset (g : Guard) (d : BitVec 3) (a : Reg)
  /-- SHGET, R236. -/
  | shget (g : Guard) (d : Reg) (a : BitVec 3)
  /-- TSEW, R239. -/
  | tsew (g : Guard) (d : BitVec 3) (a : BitVec 3) (b : BitVec 3) (o : BitVec 4)
  /-- TSRED, R240. -/
  | tsred (g : Guard) (d : BitVec 3) (a : BitVec 3) (o : BitVec 4)
  /-- TSCVT, R241. -/
  | tscvt (g : Guard) (d : BitVec 3) (a : BitVec 3) (r : BitVec 2)
  /-- MMJ, R284. -/
  | mmj (g : Guard) (a : Reg)
  /-- MCOMMIT, R285. -/
  | mcommit (g : Guard) (d : Reg)
  /-- MWAIT, R286. -/
  | mwait (g : Guard) (d : Reg) (a : Reg) (b : Reg)
  /-- ACCREL, R287. -/
  | accrel (g : Guard) (a : Reg)
  /-- ACCRD, R288. -/
  | accrd (g : Guard) (a : Reg) (b : Reg)
  /-- CPY, R293. -/
  | cpy (g : Guard) (d : Reg) (a : Reg) (b : Reg)
  /-- GATH, R293. -/
  | gath (g : Guard) (d : Reg) (a : Reg) (b : Reg)
  /-- SCAT, R293. -/
  | scat (g : Guard) (d : Reg) (a : Reg) (b : Reg)
  /-- XFER, R295. -/
  | xfer (g : Guard) (d : Reg) (a : Reg)
  /-- DSPCNT, R297. -/
  | dspcnt (g : Guard) (d : Reg) (a : Reg) (b : Reg)
  /-- DSPGO, R298. -/
  | dspgo (g : Guard) (d : Reg) (a : Reg)
  /-- DSPCMB, R300. -/
  | dspcmb (g : Guard) (d : Reg) (a : Reg)
  /-- GMM, R303. -/
  | gmm (g : Guard) (d : Reg) (a : Reg)
  /-- GMMQ, R305. -/
  | gmmq (g : Guard) (d : Reg) (s : BitVec 8)
  /-- WSTREAM, R307. -/
  | wstream (g : Guard) (d : Reg) (a : Reg)
  /-- WPIN, R309. -/
  | wpin (g : Guard) (d : Reg) (a : Reg) (b : Reg)
  /-- WUNPIN, R309. -/
  | wunpin (g : Guard) (d : Reg) (a : Reg) (b : Reg)
  /-- WPOL, R310. -/
  | wpol (g : Guard) (d : Reg) (a : Reg) (b : Reg)
  /-- LAUNCH, R314. -/
  | launch (g : Guard) (d : Reg) (a : Reg)
  /-- LSTAT, R315. -/
  | lstat (g : Guard) (d : Reg) (a : Reg) (s : BitVec 8)
  /-- SRD, R362. -/
  | srd (g : Guard) (d : Reg) (m : BitVec 12)
  /-- SWR, R362. -/
  | swr (g : Guard) (d : Reg) (m : BitVec 12)
  /-- TRET_RESUME, R363. -/
  | tretResume (g : Guard) (d : Reg) (c : BitVec 1)
  /-- TRET_SKIP, R363. -/
  | tretSkip (g : Guard) (d : Reg) (c : BitVec 1)
  /-- TRET_KILL, R363. -/
  | tretKill (g : Guard) (d : Reg) (c : BitVec 1)
  /-- TLBW, R392. -/
  | tlbw (g : Guard) (d : Reg) (c : BitVec 5)
  /-- TLBINV, R393. -/
  | tlbinv (g : Guard) (d : Reg) (a : Reg) (n : BitVec 1) (s : BitVec 3)
  /-- TLBQ, R394. -/
  | tlbq (g : Guard) (d : Reg) (a : Reg) (s : BitVec 2)
  /-- CTXEVICT, R396. -/
  | ctxevict (g : Guard) (d : Reg) (k : BitVec 5)
  /-- CTXFILL, R396. -/
  | ctxfill (g : Guard) (d : Reg) (k : BitVec 5)
  /-- HALTC_QUIESCE, R365. -/
  | haltcQuiesce (g : Guard) (d : Reg)
  /-- HALTC_RELEASE, R365. -/
  | haltcRelease (g : Guard) (d : Reg)
  /-- TRAPI, R364. -/
  | trapi (g : Guard) (a : Reg) (x : BitVec 8)
  /-- BRK, R364. -/
  | brk (g : Guard) (x : BitVec 8)
  -- forge slot operations (R139 to R143)
  /-- BBR, R260. -/
  | bbr (g : SlotGuard) (off : BitVec 22)
  /-- BLOOP, R260. -/
  | bloop (g : SlotGuard) (d : Reg) (len : BitVec 12)
  /-- BLEAVE, R250. -/
  | bleave (g : SlotGuard)
  /-- NOP, R139. -/
  | nop (slot : BitVec 3)
  /-- SADD, R261. -/
  | sadd (g : SlotGuard) (d a b : Reg) (i : BitVec 1) (x : BitVec 6)
  /-- SSUB, R261. -/
  | ssub (g : SlotGuard) (d a b : Reg) (i : BitVec 1) (x : BitVec 6)
  /-- SMUL, R261. -/
  | smul (g : SlotGuard) (d a b : Reg) (i : BitVec 1) (x : BitVec 6)
  /-- SAND, R261. -/
  | sand (g : SlotGuard) (d a b : Reg) (i : BitVec 1) (x : BitVec 6)
  /-- SOR, R261. -/
  | sor (g : SlotGuard) (d a b : Reg) (i : BitVec 1) (x : BitVec 6)
  /-- SXOR, R261. -/
  | sxor (g : SlotGuard) (d a b : Reg) (i : BitVec 1) (x : BitVec 6)
  /-- SSHL, R261. -/
  | sshl (g : SlotGuard) (d a b : Reg) (i : BitVec 1) (x : BitVec 6)
  /-- SSHR, R261. -/
  | sshr (g : SlotGuard) (d a b : Reg) (i : BitVec 1) (x : BitVec 6)
  /-- SLI, R261. -/
  | sli (g : SlotGuard) (d : Reg) (i : BitVec 17)
  /-- SCMP, R261. -/
  | scmp (g : SlotGuard) (d : PReg) (a b : Reg) (i : BitVec 1) (c : BitVec 3)
  /-- SMOVQ_POP, R262. -/
  | smovqPop (g : SlotGuard) (d : Reg) (q : QReg)
  /-- SMOVQ_APPEND, R262. -/
  | smovqAppend (g : SlotGuard) (q : QReg) (a : Reg)
  /-- BVADD, R263. -/
  | bvadd (g : SlotGuard) (sl : BitVec 1) (d a b : Reg) (ty : BitVec 2) (qa qb qd : BitVec 1)
  /-- BVMUL, R263. -/
  | bvmul (g : SlotGuard) (sl : BitVec 1) (d a b : Reg) (ty : BitVec 2) (qa qb qd : BitVec 1)
  /-- BVFMA, R263. -/
  | bvfma (g : SlotGuard) (sl : BitVec 1) (d a b : Reg) (ty : BitVec 2) (qa qb : BitVec 1)
  /-- BVMAX, R263. -/
  | bvmax (g : SlotGuard) (sl : BitVec 1) (d a b : Reg) (ty : BitVec 2) (qa qb qd : BitVec 1)
  /-- BVCVT, R263. -/
  | bvcvt (g : SlotGuard) (sl : BitVec 1) (d a : Reg) (ty : BitVec 2) (qa qd : BitVec 1) (mode : BitVec 3)
  /-- BVQNT, R263. -/
  | bvqnt (g : SlotGuard) (sl : BitVec 1) (d a b : Reg) (ty : BitVec 2) (qa qd : BitVec 1)
  /-- BVCMP, R263. -/
  | bvcmp (g : SlotGuard) (sl : BitVec 1) (d : PReg) (a b : Reg) (ty : BitVec 2) (mode : BitVec 2) (c : BitVec 3)
  /-- BVMOV, R263. -/
  | bvmov (g : SlotGuard) (sl : BitVec 1) (d a : Reg) (qa qd : BitVec 1)
  /-- BWAITTL, R260. -/
  | bwaittl (g : SlotGuard) (a : Reg) (e : BitVec 3)
  /-- BSYNC, R260. -/
  | bsync (g : SlotGuard) (d a : Reg) (l : BitVec 3)
  /-- BVSEL, R263. -/
  | bvsel (g : SlotGuard) (sl : BitVec 1) (d a b : Reg) (s : PReg)
  /-- AWLD, R271. -/
  | awld (g : SlotGuard) (bank : BitVec 1) (src : BitVec 2) (a : Reg) (pw : BitVec 3)
  /-- ASWAP of slot 4 (R140, R272): the table's row ASWAP names this form too. -/
  | aswapSlot (g : SlotGuard) (set bank : BitVec 1)
  /-- AISS, R273. -/
  | aiss (g : SlotGuard) (q : QReg) (rb two : BitVec 1) (pa : BitVec 4) (r : BitVec 7)
  /-- AZERO, R275. -/
  | azero (g : SlotGuard) (r n : BitVec 7)
  /-- ASHOUT, R275. -/
  | ashout (g : SlotGuard) (q : QReg) (fmt : BitVec 2) (clr : BitVec 1) (r n : BitVec 7)
  /-- APROV, R276. -/
  | aprov (g : SlotGuard) (d : Reg) (st clr : BitVec 1)
  /-- TCOPY, R270. -/
  | tcopy (g : SlotGuard) (d a b : Reg)
  /-- TGATH, R270. -/
  | tgath (g : SlotGuard) (d a b : Reg)
  /-- TSCAT, R270. -/
  | tscat (g : SlotGuard) (d a b : Reg)
  /-- TXFER, R270. -/
  | txfer (g : SlotGuard) (d a b : Reg)
  /-- TSEND, R270. -/
  | tsend (g : SlotGuard) (d a b : Reg) (q : QReg)
  /-- XPERM, R264. -/
  | xperm (g : SlotGuard) (d a b : Reg) (w : BitVec 2)
  /-- XBCAST, R264. -/
  | xbcast (g : SlotGuard) (d a : Reg) (w : BitVec 2) (s : BitVec 6)
  /-- XROT, R264. -/
  | xrot (g : SlotGuard) (d a : Reg) (w : BitVec 2) (s : BitVec 6)
  /-- QBIND, R265. -/
  | qbind (g : SlotGuard) (q : QReg) (kind unit : BitVec 2) (sh : BitVec 3) (a : Reg)
  /-- QADV, R268. -/
  | qadv (g : SlotGuard) (q : QReg) (a : Reg)
  /-- QWAITF, R268. -/
  | qwaitf (g : SlotGuard) (q : QReg) (n : BitVec 8)
  /-- QWAITE, R268. -/
  | qwaite (g : SlotGuard) (q : QReg)
  /-- SCEXP, R274. -/
  | scexp (g : SlotGuard) (a : Reg)
  -- device steps and events: no encoding
  /-- RESULT_LANDING, R251. -/
  | resultLanding (hearth : Nat)
  /-- SCALE_PORT_SUMS, R274. -/
  | scalePortSums (hearth : Nat)
  /-- ASHOUT_ROW_DRAIN, R275. -/
  | ashoutRowDrain (hearth : Nat)
  /-- BANK_LOAD_COMPLETE, R271. -/
  | bankLoadComplete (hearth : Nat) (bank : BitVec 1)
  /-- BELLOWS_TILE_DELIVER, R307. -/
  | bellowsTileDeliver (t : ThreadId) (n : Nat)
  /-- STREAM_UNIT_ARRIVE, R265. -/
  | streamUnitArrive (hearth : Nat) (q : BitVec 3)
  /-- STREAM_WRITE_PERFORM, R100. -/
  | streamWritePerform (hearth : Nat) (q : BitVec 3)
  /-- CHANNEL_UNIT_RECEIVE, R427. -/
  | channelUnitReceive (i : Nat)
  /-- FREEZE_WATCHDOG, R382. -/
  | freezeWatchdog (hearth : Nat)
  /-- PACKET_WATCHDOG, R210. -/
  | packetWatchdog (t : ThreadId)
  /-- ORDER_STALL_TIMEOUT, R120. -/
  | orderStallTimeout (t : ThreadId)
  /-- FORGE_SEAT_GRANT, R29. -/
  | forgeSeatGrant (hearth : Nat)
  /-- FORGE_PREEMPT, R380. -/
  | forgePreempt (hearth : Nat)
  /-- THREAD_SEAT, R375. -/
  | threadSeat (hearth : Nat)
  /-- SEAT_PREEMPT, R375. -/
  | seatPreempt (hearth : Nat)
  /-- PRIORITY_AGING, R41. -/
  | priorityAging (t : ThreadId)
  /-- REGISTER_BLOCK_ARRIVE, R28. -/
  | registerBlockArrive (t : ThreadId) (block : BitVec 4)
  /-- BLOCK_WRITEBACK_FAIL, R397. -/
  | blockWritebackFail (t : ThreadId) (block : BitVec 4)
  /-- DEPOSIT_ARRIVE, R214. -/
  | depositArrive (i : Nat)
  /-- NREAD_REPLY, R215. -/
  | nreadReply (t : ThreadId)
  /-- NREAD_TIMEOUT, R215. -/
  | nreadTimeout (t : ThreadId)
  /-- PACKET_DELIVER, R208. -/
  | packetDeliver (i : Nat)
  /-- TRAP_PACKET_DELIVER, R358. -/
  | trapPacketDeliver (t : ThreadId)
  /-- BARRIER_ARRIVAL_MESSAGE, R372. -/
  | barrierArrivalMessage (domain node : Nat)
  /-- BARRIER_COMPLETE, R33. -/
  | barrierComplete (domain : Nat)
  /-- ROUTINE_ENTRY_START, R36. -/
  | routineEntryStart (launch pos : Nat)
  /-- EXCHANGE_PHASE, R40. -/
  | exchangePhase (launch : Nat)
  /-- SUPERSTEP_START, R35. -/
  | superstepStart (launch : Nat)
  /-- LOCKSTEP_MISMATCH, R406. -/
  | lockstepMismatch (launch pos unit count : Nat)
  /-- LAUNCH_ACCEPT, R369. -/
  | launchAccept
  /-- TILE_THREAD_START, R343. -/
  | tileThreadStart (launch : Nat)
  /-- LAUNCH_COMPLETE, R314. -/
  | launchComplete (launch : Nat)
  /-- HOST_LAUNCH_COMPLETION, R368. -/
  | hostLaunchCompletion (launch : Nat)
  /-- MATRIX_GROUP_COMPLETE, R285. -/
  | matrixGroupComplete (t : ThreadId) (n : Nat)
  /-- TONGS_OP_COMPLETE, R293. -/
  | tongsOpComplete (t : ThreadId) (n : Nat)
  /-- DSPCNT_COMPLETE, R297. -/
  | dspcntComplete (t : ThreadId) (n : Nat)
  /-- DISPATCH_PERMIT_GRANT, R299. -/
  | dispatchPermitGrant (t : ThreadId) (n rows : Nat)
  /-- DSPGO_COMPLETE, R298. -/
  | dspgoComplete (t : ThreadId) (n : Nat)
  /-- DSPCMB_COMPLETE, R300. -/
  | dspcmbComplete (t : ThreadId) (n : Nat)
  /-- GMM_COMPLETE, R303. -/
  | gmmComplete (t : ThreadId) (n : Nat)
  /-- BELLOWS_OP_COMPLETE, R307. -/
  | bellowsOpComplete (t : ThreadId) (n : Nat)
  /-- MEMORY_REPLY, R398. -/
  | memoryReply (t : ThreadId)
  /-- TLB_BENCH_MISS, R388. -/
  | tlbBenchMiss (bench : Nat) (t : ThreadId) (page : BitVec 44) (kind : BitVec 2)
  /-- MISS_MESSAGE_SEND, R389. -/
  | missMessageSend (bench index : Nat)
  /-- SHOOTDOWN_COMPLETE, R393. -/
  | shootdownComplete (bench : Nat)
  /-- UPDATE_LINE_MERGE, R97. -/
  | updateLineMerge (i : Nat)
  /-- REFRESH_WINDOW_END, R84. -/
  | refreshWindowEnd (die bank : Nat)
  /-- ECC_UNCORRECTABLE, R402. -/
  | eccUncorrectable (source : BitVec 2) (pa : BitVec 52) (lasting : Bool)
  /-- REMOTE_REQUEST_SERVE, R423. -/
  | remoteRequestServe (r : RemoteRequest)
  /-- REMOTE_RESPONSE, R426. -/
  | remoteResponse (i : Nat) (r : RemoteResult)
  /-- REMOTE_TIMEOUT, R424. -/
  | remoteTimeout (i : Nat)
  /-- MARKED_RESPONSE, R428. -/
  | markedResponse (node : BitVec 11)
  /-- RATE_INCREASE, R428. -/
  | rateIncrease (node : BitVec 11)
  /-- FABRIC_STATE_UPDATE, R432. -/
  | fabricStateUpdate
  /-- CYC_SLEW_STEP, R15. -/
  | cycSlewStep (add : Bool)
  /-- TRACE_TIMESTAMP, R419. -/
  | traceTimestamp (u : DebugUnit)
  /-- DOORBELL_WRITE, R434. -/
  | doorbellWrite (q : BitVec 14) (count : BitVec 32)
  /-- RING_ENTRY_FETCH, R435. -/
  | ringEntryFetch (q : BitVec 14) (entry : Option (List (BitVec 8)))
  /-- QUEUE_NOT_READY, R435. -/
  | queueNotReady (q : BitVec 14) (stamp : BitVec 16)
  /-- FAB_EN, R15. -/
  | fabEn (reference : BitVec 64)
  /-- MGMT_WINDOW_WRITE, R439. -/
  | mgmtWindowWrite (off : BitVec 20) (val : BitVec 64) (controller : Bool)
  /-- POISCLR, R403. -/
  | poisclr (die : Nat) (val : BitVec 64)
  /-- MBOXBIND, R359. -/
  | mboxbind (hearth : Nat) (val : BitVec 64)
  /-- TRAPVEC, R356. -/
  | trapvec (cls : BitVec 2) (val : BitVec 64)
  /-- HWORLD, R354. -/
  | hworld (hearth : Nat) (val : BitVec 64)
  /-- VLGRP, R377. -/
  | vlgrp (hearth : Nat) (val : BitVec 64)
  /-- THRSTAT, R355. -/
  | thrstat (val : BitVec 64)
  /-- DBGCTL_STOP, R414. -/
  | dbgctlStop (u : DebugUnit)
  /-- DBGCTL_RUN, R414. -/
  | dbgctlRun (u : DebugUnit)
  /-- PWRCAP, R450. -/
  | pwrcap (val : BitVec 64)
  /-- POWER_CAP_TAKES_EFFECT, R450. -/
  | powerCapTakesEffect
  /-- THERMAL_LIMIT_ENTER, R451. -/
  | thermalLimitEnter (temp : BitVec 8)
  /-- THERMAL_LIMIT_EXIT, R451. -/
  | thermalLimitExit (temp : BitVec 8)
  /-- THERMTRIP, R451. -/
  | thermtrip (temp : BitVec 8)
  /-- POWER_ON_RESET, R445. -/
  | powerOnReset
  /-- ATTESTATION_REQUEST, R448. -/
  | attestationRequest (nonce : List (BitVec 8))
  /-- HOST_MEMORY_ACCESS, R81. -/
  | hostMemoryAccess (pa : BitVec 52) (write : Option (List (BitVec 8))) (len : Nat)
  /-- STORE_COMPLETION, R87. -/
  | storeCompletion (i : Nat)
  /-- REGISTER_BLOCK_WRITEBACK, R27. -/
  | registerBlockWriteback (t : ThreadId) (block : BitVec 4)
  /-- MATRIX_JOB_COMPLETE, R284. -/
  | matrixJobComplete (hearth : Nat)
  /-- VECTOR_ENTRY_COMPLETE, R379. -/
  | vectorEntryComplete (core : Nat)
  /-- LANE_GROUP_BIND, R379. -/
  | laneGroupBind (hearth : Nat)
  /-- POWER_BUDGET_BINDS, R19. -/
  | powerBudgetBinds (power : BitVec 12) (binds : Bool)
  /-- LINK_LOST, R424. -/
  | linkLost (nodes : List (BitVec 11))
  deriving DecidableEq, Repr

/-- The instruction that an engine slot holds. -/
noncomputable def EngineSlot.instr : EngineSlot → Instr
  | .awld g bank src a pw => .awld g bank src a pw
  | .aswapSlot g set bank => .aswapSlot g set bank
  | .aiss g q rb two pa r => .aiss g q rb two pa r
  | .azero g r n => .azero g r n
  | .ashout g q fmt clr r n => .ashout g q fmt clr r n
  | .aprov g d st clr => .aprov g d st clr
  | .tcopy g d a b => .tcopy g d a b
  | .tgath g d a b => .tgath g d a b
  | .tscat g d a b => .tscat g d a b
  | .txfer g d a b => .txfer g d a b
  | .tsend g d a b q => .tsend g d a b q
  | .xperm g d a b w => .xperm g d a b w
  | .xbcast g d a w s => .xbcast g d a w s
  | .xrot g d a w s => .xrot g d a w s
  | .qbind g q kind unit sh a => .qbind g q kind unit sh a
  | .qadv g q a => .qadv g q a
  | .qwaitf g q n => .qwaitf g q n
  | .qwaite g q => .qwaite g q
  | .scexp g a => .scexp g a

end Sys2Proof
end

