-- ==== Sys2Proof/Machine/State.lean ====
section
/-!
DEFINITION. The state of one VHS-4120 package, as plain data: the threads with everything their frames hold (R21, R24),
the units of R11 with their registers and memories, the domains and launches, the engine operations in progress, the
packets and requests on their way, and physical memory. What the part's registers read right after reset is
`State.reset`.
-/

namespace Sys2Proof.Machine

/-- Why the machine stops. -/
inductive Fault where
  /-- Raised by the one physical access operation when a device or an outside agent names a physical address at which R383
  says there is no memory. Safe: the part gives no behaviour for it. -/
  | noMemory (pa : Nat)
  /-- Raised by translation when a thread on a walker or steward core, which lies in no hearth (R353), accesses the self
  window: R78 gives the window the memory of the hearth where the access is performed. Safe. -/
  | noHearth (va : Nat)
  deriving DecidableEq, Repr

/-- Why an instruction has no meaning. -/
inductive Refusal where
  /-- Answered by `exec` for an instruction whose meaning this model does not give. Safe. -/
  | notModelled (mnemonic : String)
  deriving DecidableEq, Repr

/-- Trap causes (R356). -/
inductive Cause where
  | illegalWord | illegalBundle | illegalSchedule | privilege | world | misaligned | format
  | pageData | pageFetch | pageContext | protection | ingotReadonly
  | shadowExhausted | snapDepth | orderStall | accExhausted | exchangeFull
  | watchdog | phaseViolation
  | lockstepLasting | poison | fabric
  | breakpoint | trapi | step
  deriving DecidableEq, Repr

/-- States of a thread (R355, R373). -/
inductive TState where
  | unborn | ready | seated | running | stalledRegister | stalledMemory | frozen | parked | trapped | done
  deriving DecidableEq, Repr

/-- Where a thread sits: nowhere, a strand seat, the forge seat, a walker core or a steward core (R11, R373). -/
inductive Place where
  | off
  | strand (core : Nat)
  | forge (hearth : Nat)
  | walker (bench : Nat)
  | steward (die : Nat)
  deriving DecidableEq, Repr

/-- One entry of the loop stack (R169). -/
structure Loop where
  start : BitVec 54 := 0
  valid : Bool := false
  index : BitVec 26 := 0
  count : BitVec 26 := 0
  len : BitVec 12 := 0
  deriving DecidableEq, Repr

/-- FRAME state (R26); n = 0 means that no FRAME is active. -/
structure FrameState where
  count : BitVec 24 := 0
  j : BitVec 24 := 0
  stride : BitVec 5 := 0
  n : BitVec 5 := 0
  deriving DecidableEq, Repr

/-- A random-stream handle (R245): key and bits [127:64] of the counter base. -/
structure Handle where
  key : Word := 0
  base : Word := 0
  deriving DecidableEq, Repr

/-- The part of a thread's frame that TBEGIN saves and an abort restores (R119). -/
structure Regs where
  g : Vector Word 32 := Vector.replicate 32 0
  v : Vector Vec 32 := Vector.replicate 32 0
  m : Vector Word 8 := Vector.replicate 8 0
  p : BitVec 16 := 0
  sh : Vector Word 8 := Vector.replicate 8 0
  loops : Vector Loop 6 := Vector.replicate 6 ({} : Loop)
  frame : FrameState := {}
  rng : Vector Handle 2 := Vector.replicate 2 ({} : Handle)
  rnd : BitVec 3 := 0
  ftz : Bool := false
  flags : BitVec 6 := 0
  pc : Word := 0
  deriving DecidableEq, Repr

/-- A store (bytes under a bit mask) or a commutative update, as it waits in a queue (R101, R102, R194). -/
inductive StoreOp where
  | bytes (n : Nat) (data mask : Nat)
  | update (op : BitVec 2) (fmt : BitVec 5) (c : Word)
  deriving DecidableEq, Repr

/-- An entry of the replay queue (R101): a store and its virtual address, and the tag of the level that covered it when it was
issued, with whose rejection it goes (R112, R122). -/
structure Queued where
  va : Nat
  op : StoreOp
  level : Option Word := none
  deriving DecidableEq, Repr

/-- A shadow line of the crucible (R107): virtual line number, byte mask and bytes. (Log entry 47: DEDUCED, unsafe.) -/
structure ShadowLine where
  line : Nat
  die : Nat
  mask : BitVec 128
  data : BitVec 1024
  poisoned : Bool := false
  deriving DecidableEq, Repr

/-- An open snapshot level (R104 to R107), of a thread or of a domain; a task level also has its read lines (R119).
(Log entry 155: DESIGN CHOICE, unsafe.) -/
structure Level where
  tag : Word
  task : Bool := false
  base : Nat
  len : Nat
  fallback : Word
  lines : List ShadowLine := []
  reads : List Nat := []
  deriving DecidableEq, Repr

/-- What a pending change of a thread's course is, applied when it next issues (R114, R122): a restart at once, or once the task
holds the cursor. -/
inductive Redirect where
  | restart (hold : Bool)
  | fallback (pc : Word)
  deriving DecidableEq, Repr

/-- One timeline (R98): the last number issued, and the numbers that are complete. -/
structure Timeline where
  last : Nat := 0
  completed : Nat := 0
  ahead : List Nat := []
  deriving DecidableEq, Repr

/-- Why a parked thread waits (R373). The instruction at its PC is executed again when the wait ends. -/
inductive Wait where
  | none
  /-- PARK, past the word already (R183). -/
  | park
  | join (t : ThreadId)
  /-- A collective of the domain with this number: SYNC, or a domain SNAP, ACCEPT or REJECT. -/
  | collective (domain : Nat)
  /-- Completed value of an engine context (R203). -/
  | timeline (e n : Nat)
  /-- Every issued operation of every context (R196, R180). -/
  | engines
  | recv
  | mailbox (hearth : Nat)
  | commit (domain : Nat) (t : Word)
  | matrix
  | halted (hearth : Nat)
  | shootdown (bench n : Nat)
  | forgeSeat
  /-- The hearth's forge queue is full (R380). -/
  | forgeQueue (hearth : Nat)
  /-- The vector queue holds entries of this thread (R184). -/
  | vector
  deriving DecidableEq, Repr

/-- The trap record of a frame, words 0xF20 to 0xF4F (R357). (Log entry 24: DEDUCED, unsafe.) -/
structure TrapRecord where
  head : Word := 0
  pc : Word := 0
  value : Word := 0
  handler : Word := 0
  cyc : Word := 0
  site : Word := 0
  deriving DecidableEq, Repr

/-- An open packet in its hearth's buffer (R208, R210). -/
structure OpenPacket where
  dst : Word
  words : List Word
  hearth : Nat
  seatedCycles : Nat := 0
  deriving DecidableEq, Repr

/-- A reply that a stalled access waits for, or has received (R398, R424). -/
structure RemoteReply where
  pa : Nat
  node : BitVec 11
  len : Nat
  result : RemoteResult
  deriving DecidableEq, Repr

/-- A TLB entry, two words (R385). -/
structure TlbEntry where
  w0 : Word
  w1 : Word
  deriving DecidableEq, Repr

/-- Kinds of access that translation tells apart (R386, R389). -/
inductive AccessKind where
  | load | store | atomic | fetch | block
  deriving DecidableEq, Repr

/-- What a miss-table entry holds up (R388, R398). -/
inductive Waiter where
  /-- A stalled load, atomic or fetch of a strand thread. -/
  | access (t : ThreadId)
  /-- A store in the replay queue of a thread. -/
  | queued (t : ThreadId)
  /-- A register block of a thread. -/
  | block (t : ThreadId) (b : Nat)
  /-- The forge pipeline of a hearth: bundle fetch or reply. -/
  | pipeline (hearth : Nat)
  /-- A unit of a stream register. -/
  | stream (hearth q : Nat)
  /-- Operation n of engine context e of a thread. -/
  | operation (t : ThreadId) (e n : Nat)
  deriving DecidableEq, Repr

/-- A parked access: who waits, for which address and access. -/
structure Parked where
  who : Waiter
  va : Nat
  kind : AccessKind
  deriving DecidableEq, Repr

/-- An entry of a bench's miss table (R388, R389). -/
structure Miss where
  index : Nat
  asid : BitVec 10
  page : BitVec 44
  kinds : BitVec 4
  secure : Bool
  priv : BitVec 2
  hearth : Nat
  ctx : BitVec 44
  cyc : Word
  sent : Bool := false
  waiters : List Parked := []
  deriving DecidableEq, Repr

/-- A TLBINV that is not complete (R393): what it matches, the benches of its scope, and the launches, each with its superstep, that
hold deferred stores through an entry that it removed. -/
structure Shootdown where
  issuer : Nat
  n : Nat
  base : Nat
  word : Word
  benches : List Nat
  cyc : Word
  phases : List (Nat × Nat) := []
  deriving DecidableEq, Repr

/-- An entry of the binding table of an address space (R217). -/
structure Binding where
  base : Word := 0
  length : Nat := 0
  gen : BitVec 32 := 0
  deriving DecidableEq, Repr

/-- The collectives of a domain (R33, R105). -/
inductive Collective where
  | sync
  | snap (base length fallback flags : Word)
  | accept (tag : Word)
  | reject (tag : Word)
  deriving DecidableEq, Repr

/-- A member's arrival at the domain's current generation (R197, R201). -/
structure Arrival where
  t : ThreadId
  kind : Collective
  operand : Word
  /-- The register that takes the result (R197). -/
  dst : Reg := 0
  deriving DecidableEq, Repr

/-- What a completed collective left for a member (R33, R105, R111, R201). -/
inductive Outcome where
  | value (w : Word)
  | trap (c : Cause) (v : Word)
  deriving DecidableEq, Repr

/-- An ordering group (R118 to R120). -/
structure Group where
  base : Word
  cursor : Word
  taken : List Word := []
  abandoned : List Word := []
  deriving DecidableEq, Repr

/-- A synchronisation domain (R31 to R33, R371, R372). -/
structure Domain where
  launch : Nat
  level : Nat
  index : Nat
  members : List ThreadId
  /-- Placed root threads that are not created yet (R371). -/
  unborn : Nat := 0
  /-- It has members in other packages (R31, R371). -/
  outside : Bool := false
  nodes : List Nat
  sent : List Nat := []
  generation : Nat := 0
  arrivals : List Arrival := []
  results : List (ThreadId × Outcome) := []
  pendingBytes : Nat := 0
  levels : List Level := []
  group : Option Group := none
  deriving DecidableEq, Repr

/-- Where a packet goes (R206), or whose source it is. -/
inductive PacketDst where
  | thread (t : ThreadId)
  | mailbox (node : BitVec 11) (hearth : Nat)
  deriving DecidableEq, Repr

/-- What a device packet reports, so that its delivery can be recorded (R358, R389). -/
inductive PacketKind where
  | plain
  | trap (t : ThreadId)
  | miss (bench index : Nat)
  deriving DecidableEq, Repr

/-- A closed packet on its way: header and payload (R208, R209). -/
structure Packet where
  kind : PacketKind
  dst : PacketDst
  src : ThreadId
  srcHearth : Nat
  secure : Bool
  words : List Word
  /-- Mail of a deterministic launch, delivered in the order of R40 (R212). -/
  inTurn : Bool := false
  deriving DecidableEq, Repr

/-- A DEPOSIT on its way (R213, R214): its sender, and where the sender's translation puts the target's frame. -/
structure Deposit where
  src : ThreadId
  pa : Nat
  node : Option (BitVec 11)
  target : ThreadId
  cls : BitVec 3
  reg : BitVec 5
  value : Word
  deriving DecidableEq, Repr

/-- An NREAD that waits at its target's hearth (R215), with the value of the first cycle in which it found the target ready. -/
structure NRead where
  reader : ThreadId
  target : ThreadId
  reg : BitVec 5
  issued : Word
  found : Option Word := none
  reply : Option (Option Word) := none
  deriving DecidableEq, Repr

/-- A store performed at its hearth and nowhere else yet (R87), or a commutative update held in a line (R97). -/
structure Pending where
  hearth : Nat
  pa : Nat
  op : StoreOp
  deriving DecidableEq, Repr

/-- An exact accumulator cell (R66). -/
structure Cell where
  i : BitVec 96 := 0
  x : BitVec 16 := 0
  sticky : Bool := false
  alignLoss : Bool := false
  saturated : Bool := false
  inexactQ : Bool := false
  deriving DecidableEq, Repr

/-- A provenance record (R75). -/
structure Prov where
  w0 : Word := 0
  w1 : Word := 0
  deriving DecidableEq, Repr

/-- Who loaded a weight bank last (R455). -/
inductive Loader where
  | awld | matrix | gmm | pin
  deriving DecidableEq, Repr

/-- A weight bank (R271, R309, R455): the tile's bytes as stored, by offset, what the bank records, the cycles until a load that is
under way has completed, and the advancing cycles for which rows in flight defer it. -/
structure Bank where
  valid : Bool := false
  fmt : Nat := 0
  blk : Nat := 0
  planes : Nat := 0
  asid : BitVec 10 := 0
  secure : Bool := false
  loader : Loader := .awld
  va : Nat := 0
  pinned : Option Nat := none
  loading : Option Nat := none
  defer : Nat := 0
  data : List Host.Cell := []
  deriving DecidableEq, Repr

/-- One Anvil A row (R266): its format, log2 of its block length, and for each block the exponent and the integers. -/
structure Row where
  fmt : Nat
  len : Nat
  blocks : List (Int × List Int)
  deriving DecidableEq, Repr

/-- A unit of a stream (R266): as an appending slot gives it, as bytes with a format code and a blk field, or the fault that
its read met (R269). -/
inductive StreamUnit where
  | scalar (w : Word)
  | vector (v : Vec)
  | bytes (fmt blk : Nat) (bs : List Byte)
  | faulty (c : Cause) (va : Nat)
  deriving DecidableEq, Repr

/-- A shape record as it was read (R234, R235): its address and its eight words. -/
structure Shape where
  place : Nat
  words : List Word
  deriving DecidableEq, Repr

/-- A bound stream register (R265 to R268). -/
structure Stream where
  kind : BitVec 2
  unit : BitVec 2
  shape : Shape
  /-- Units fetched so far (read, receive) or positions passed by appends that were performed (write). -/
  position : Nat := 0
  /-- Units popped, or appends issued, landed or not. -/
  used : Nat := 0
  units : List StreamUnit := []
  appends : List (Nat × StreamUnit) := []
  channel : BitVec 16 := 0
  node : BitVec 11 := 0
  peer : Nat := 0
  base : Nat := 0
  size : Nat := 0
  held : Bool := false
  /-- Pieces of the unit in hand that are read or stored, with the bytes read; the pieces of the first append are all sent; and a page
  whose miss a TLBW has failed for a write. -/
  piece : Nat := 0
  got : List Byte := []
  sent : Bool := false
  failed : Option (Nat × Cause) := none
  deriving DecidableEq, Repr

/-- What a result in flight will be written to (R251, R257). -/
inductive ResultDst where
  | g (r : Reg)
  | p (r : PReg)
  | v (r : Reg)
  | q (r : QReg)
  deriving DecidableEq, Repr

/-- A result in flight (R251, R257): who issued it, where it lands, its value, and the advancing cycles still to go. -/
structure InFlight where
  slot : Nat
  dst : ResultDst
  value : StreamUnit
  remain : Nat
  deriving DecidableEq, Repr

/-- An entry of the exponent queue (R273): the rows' block exponents, the captured tile's by column, the first row and whether
there are two. -/
structure ExpEntry where
  exps : List (List Int)
  tile : List (List Int)
  r : Nat
  two : Bool
  deriving DecidableEq, Repr

/-- Partial sums on their way to the scale port (R273, R274): advancing cycles to go, per row and column the sums over the
K-blocks, and what the AISS was: its index in the sequence, the formats, the elements of a block. -/
structure PortSums where
  remain : Nat
  rows : List (List (List Int))
  index : Nat
  fmtA : Nat
  fmtB : Nat
  len : Nat
  deriving DecidableEq, Repr

/-- An ASHOUT that has rows to read (R275). -/
structure Drain where
  q : QReg
  fmt : Nat
  clr : Bool
  r : Nat
  n : Nat
  k : Nat := 0
  wait : Nat
  deriving DecidableEq, Repr

/-- A channel unit on its way to a receive buffer (R267, R270, R427), with who waits for it to be entered. -/
structure ChannelUnit where
  hearth : Nat
  channel : BitVec 16
  item : StreamUnit
  src : Option Waiter := none
  deriving DecidableEq, Repr

/-- The forge state of one thread (R249, R259), the weight banks apart. -/
structure ForgeState where
  streams : Vector (Option Stream) 8 := Vector.replicate 8 none
  cells : List (Nat × Cell) := []
  rowFmts : List (Nat × (Nat × Nat)) := []
  rowBuf : List Row := []
  expQueue : List ExpEntry := []
  port : List PortSums := []
  drain : Option Drain := none
  drained : List (QReg × Nat × StreamUnit) := []
  sel : BitVec 1 := 0
  scexpMiss : Bool := false
  scexpIdle : Bool := false
  prov : Prov := {}
  /-- AISS issued in the sequence, and cycles until the Anvil takes the next one (R273, R276). -/
  issued : Nat := 0
  busy : Nat := 0
  busyBank : BitVec 1 := 0
  /-- BLEAVE has issued and the pipeline drains (R250). -/
  leaving : Bool := false
  /-- The stream whose faulted write is performed again before the next bundle (R256). -/
  stuck : Option QReg := none
  deriving DecidableEq, Repr

/-- A latched pipeline (R257). -/
structure Replay where
  cause : BitVec 8
  entries : List InFlight
  deriving DecidableEq, Repr

/-- Kinds of engine operation (R98, R277). -/
inductive EngineKind where
  | group | cpy | gath | scat | xfer | send | dspcnt | dspgo | dspcmb | gmm | wstream | wpin | wunpin | wpol | launch
  deriving DecidableEq, Repr

/-- What an access, or another effect that is taken once, gave to an operation: performed, with what it read or chose, or its fault. -/
inductive Logged where
  | done
  | bytes (bs : List Byte)
  | word (w : Word)
  | bank (k : Option (BitVec 1)) (fresh : Bool) (tile : Bank)
  | fault (c : Cause) (v : Word)
  deriving DecidableEq, Repr

/-- An engine operation in progress (R277, R279): its thread, number and context, where it was issued, its copy of the
descriptor, and how far it has come. -/
structure EngineOp where
  t : ThreadId
  e : Nat
  n : Nat
  kind : EngineKind
  hearth : Nat
  /-- The bench of its translations, and that a walker or steward core issued it, which lies in no hearth (R279, R353). -/
  bench : Nat := 0
  service : Bool := false
  secure : Bool
  priv : BitVec 2
  launch : Nat := 0
  addr : Nat := 0
  desc : List Word := []
  arg : Word := 0
  domain : Option Nat := none
  /-- Bytes still counted in the domain's pending-byte counter (R199), or entries that a GMM has re-routed (R304). -/
  counted : Nat := 0
  /-- Units performed and the aux field of the status (R278). -/
  progress : Nat := 0
  aux : Nat := 0
  /-- Rows granted by permits, the runs of slots they are for (expert, first slot, length), and the row that waits for one: its
  expert, slot, capacity, and the receiving engine (R298, R299). -/
  permits : Nat := 0
  runs : List (Nat × Nat × Nat) := []
  request : Option (Nat × Nat × Nat × Nat) := none
  /-- 0 while its effects are to be performed, 1 when they are, 2 when its status is written. -/
  phase : Nat := 0
  /-- A page whose miss a TLBW has failed, and the fault the operation has ended with, at its address (R279, R392). -/
  failed : Option (Cause × Nat) := none
  fault : Option (Cause × Nat) := none
  replies : List RemoteReply := []
  /-- What its accesses and other effects have given so far, the last first; those that the present pass has still to meet, in
  order; how many came before those of its status; the new ones that this event allows, and the pieces of the access in hand that are
  performed (R94). -/
  log : List Logged := []
  todo : List Logged := []
  base : Nat := 0
  steps : Option Nat := none
  hand : List (Nat × List Byte) := []
  /-- Rows that a DSPGO holds for lack of a permit (R432), or that the bin in hand has written (R304). -/
  rows : Nat := 0
  /-- The thread's ftz bit at issue, and the sticky flags and the provenance record of the operation (R56, R75, R300). -/
  ftz : Bool := false
  flags : BitVec 6 := 0
  prov : Prov := {}
  deriving DecidableEq, Repr

/-- A matrix job (R282 to R284): its thread, the name of its entry among the operations, and its group and place there. -/
structure MatrixJob where
  t : ThreadId
  n : Nat
  group : Nat
  index : Nat
  deriving DecidableEq, Repr

/-- A group of matrix jobs (R285, R286): its number, which the open group has before MCOMMIT gives it, its jobs and those not
complete, the rows completed, the first fault with its job's index, and the provenance record. -/
structure MatrixGroup where
  n : Nat
  jobs : Nat := 0
  left : Nat := 0
  rows : Nat := 0
  fault : Option (Cause × Nat) := none
  faultJob : Nat := 0
  prov : Prov := {}
  deriving DecidableEq, Repr

/-- A mapped accumulator tile (R283). -/
structure AccTile where
  t : ThreadId
  name : BitVec 16
  cells : List (Nat × Cell) := []
  deriving DecidableEq, Repr

/-- The most recent GMM of a thread, by its number (R305). (Log entry 93: DEDUCED, unsafe.) -/
structure GmmRecord where
  n : Nat := 0
  progress : Word := 0
  prov : Prov := {}
  status : Word := 0
  deriving DecidableEq, Repr

/-- An entry of a core's vector queue (R29, R379): its thread, the group it holds once bound, and whether it holds that for a
whole shaped run. -/
structure VectorEntry where
  t : ThreadId
  shaped : Bool := false
  group : Option Nat := none
  deriving DecidableEq, Repr

/-- A debug module (R413 to R419): its registers, the thread of its last issue, and records not yet written. -/
structure DebugModule where
  tracectl : Word := 0
  stop : Bool := false
  stopped : Bool := false
  reason : BitVec 4 := 0
  stepctx : Word := 0
  lost : BitVec 32 := 0
  nextRecord : BitVec 32 := 0
  bp : Vector Word 8 := Vector.replicate 8 0
  dbgasid : BitVec 10 := 0
  wpa : Vector Word 4 := Vector.replicate 4 0
  wpc : Vector Word 4 := Vector.replicate 4 0
  last : Option ThreadId := none
  deriving DecidableEq, Repr

/-- A remote request that awaits its response (R424, R426): who made it, for which virtual address, when it was made, how many of its bytes
count (R428), and when it left the package, if it has. -/
structure Remote where
  who : Waiter
  node : BitVec 11
  req : RemoteRequest
  va : Nat
  issued : Word
  bytes : Nat
  sent : Option Word := none
  deriving DecidableEq, Repr

/-- Congestion state for one node (R428, R429); `free` is the cycle from which the rate lets a further request leave.
(Log entry 1: DESIGN CHOICE, unsafe.) -/
structure NodeState where
  rate : Nat := 3200
  cap : Nat := 65536
  out : Nat := 0
  marks : Nat := 0
  srtt : Nat := 0
  halvedAt : Option Word := none
  changedAt : Word := 0
  markedAt : Option Word := none
  free : Word := 0
  capCutAt : Option Word := none
  returned : Nat := 0
  deriving DecidableEq, Repr

/-- The management window's writable fields (R439). -/
structure Mgmt where
  qtbase : Word := 0
  fst : Word := 0
  fabEn : Bool := false
  fabtoLog : Nat := 24
  rttTarget : Nat := 2000
  intena : List (Nat × Word) := []
  msix : List (Nat × Word) := []
  /-- Vectors whose message waits for its mask (R439). -/
  pba : List Nat := []
  deriving DecidableEq, Repr

/-- What the device keeps of a host queue beside its descriptor in memory (R434, R435): the doorbell's target, and when the
entry in hand was first read. (Log entries 1: DESIGN CHOICE, unsafe; 123: DEDUCED, unsafe.) -/
structure HostQueue where
  target : Option Nat := none
  firstRead : Option Word := none
  /-- The stamp last read that did not match (R435, R436). -/
  stamp : Nat := 0
  /-- The device serves it since its last enable, and which enable that was (R366, R368). -/
  served : Bool := false
  epoch : Nat := 0
  completedAhead : List Nat := []
  deriving DecidableEq, Repr

/-- A store deferred in an exchange buffer (R37, R39, R40), with its place in the order of R40, and the domain of the ordering
group in which a task published it (R38). -/
structure Deferred where
  hearth : Nat
  list : Nat
  g1 : Nat
  seq : Nat
  t : ThreadId
  pa : Nat
  node : Option (BitVec 11)
  op : StoreOp
  group : Option Nat := none
  deriving DecidableEq, Repr

/-- A mailbox packet deferred to the exchange phase (R212), with its place in the order of R40. -/
structure DeferredPacket where
  hearth : Nat
  list : Nat
  g1 : Nat
  seq : Nat
  packet : Packet
  deriving DecidableEq, Repr

/-- One position of a deterministic launch (R35, R338, R404): its number and its (worker) hearth; the superstep's routine list,
the address and index of the entry that starts next, the threads of the entries before it, and of it, that are created; threads
started and done in the superstep; its transfer list; and what its lock-step checkpoint holds. -/
structure Position where
  index : Nat
  hearth : Nat
  list : Nat := 0
  next : Nat := 0
  entry : Nat := 0
  before : Nat := 0
  sub : Nat := 0
  ended : Bool := false
  started : Nat := 0
  done : Nat := 0
  transfer : Nat := 0
  checkpoint : Option (List Host.Cell) := none
  ckptLines : List Nat := []
  ckptRoom : Nat := 0
  unprotected : Bool := false
  rollbacks : Nat := 0
  firstPoint : Option (Nat × Nat) := none
  lasting : Bool := false
  deriving DecidableEq, Repr

/-- How far a launch has come (R314, R315). -/
inductive LaunchState where
  | queued | waiting | running | complete
  deriving DecidableEq, Repr

/-- A launch from its issue to its completion (R312 to R314, R368). -/
structure Launch where
  id : Nat
  tag : Nat := 0
  /-- Host queue, entry number, host tag and completion address; and under which enable of the queue. -/
  host : Option (Nat × Nat × Word × Word) := none
  epoch : Nat := 0
  issuer : Option (ThreadId × Nat) := none
  asid : BitVec 10
  secure : Bool
  priv : BitVec 2
  prio : Nat
  addr : Nat
  record : List Word
  state : LaunchState := .queued
  held : Bool := false
  /-- Step 1 of R314 is passed, with these dependencies. -/
  checked : Bool := false
  deps : List (Word × Word) := []
  /-- Placed hearths, and each position's threads of the launch by their DOMSET (R31, R338). -/
  hearths : List Nat := []
  domsets : List (Nat × Word) := []
  /-- The place of this package among those of the launch (R338), and threads done in the others. -/
  rank : Nat := 0
  outside : Nat := 0
  /-- Threads started and done, tile records skipped, and the root thread or tile record that comes next. -/
  threads : Nat := 0
  doneCount : Nat := 0
  skipped : Nat := 0
  next : Nat := 0
  fault : Option (Cause × Nat) := none
  binding : List (Nat × Binding) := []
  superstep : Nat := 0
  computing : Bool := false
  /-- The largest total of threads of a routine list (R338). -/
  width : Option Nat := none
  startMem : List Host.Cell := []
  /-- Bytes of remote packages that the superstep's loads have fetched: node, address and value (R37). -/
  remoteStart : List (Nat × Nat × Byte) := []
  deferred : List Deferred := []
  mail : List DeferredPacket := []
  positions : List Position := []
  deriving DecidableEq, Repr

/-- The checks of a firmware image (R446), in order. -/
inductive ImageCheck where
  | magic | reserved | key | signature | digest | version
  deriving DecidableEq, Repr

/-- Where the package stands in its start-up (R445 to R447): held in reset, ready, or in recovery, with the failed step and check. -/
inductive BootState where
  | held
  | ready
  | recovery (step : Nat) (check : ImageCheck)
  deriving DecidableEq, Repr

/-- One thread: everything its frame holds, and where the part keeps it. (Log entry 1: DESIGN CHOICE, unsafe.) -/
structure Thread where
  id : ThreadId := ⟨0, 0⟩
  secure : Bool := false
  domset : Word := 0
  r : Regs := {}
  st : TState := .unborn
  wake : Bool := false
  forge : Bool := false
  priv : BitVec 2 := 0
  levels : List Level := []
  bound : Bool := false
  tlevel : BitVec 3 := 0
  stamp : Word := 0
  aborts : Nat := 0
  saved : Option Regs := none
  redirect : Option Redirect := none
  /-- A trap that the thread takes at its next instruction boundary (R101, R210, R397, R424). -/
  asyncTrap : Option (Cause × Word) := none
  timelines : Vector Timeline 5 := Vector.replicate 5 ({} : Timeline)
  resume : Word := 0
  basePrio : Nat := 0
  effPrio : Nat := 0
  launchPrio : Nat := 0
  readyFor : Nat := 0
  joiner : Option (BitVec 44) := none
  record : TrapRecord := {}
  queue : List Queued := []
  packet : Option OpenPacket := none
  recv : List Word := []
  /-- Words of the receive queue's first chunk that are popped already (R207). -/
  recvOff : Nat := 0
  wait : Wait := .none
  /-- The cycle in which it parked, and that the word at its PC is executed again because its wait ended. -/
  parkedAt : Word := 0
  waited : Bool := false
  place : Place := .off
  seatedAt : Nat := 0
  /-- It has been seated before (R374). -/
  seatedOnce : Bool := false
  /-- It has been pre-empted since it was seated last (R92). -/
  preempted : Bool := false
  hearth : Nat := 0
  home : Nat := 0
  launch : Nat := 0
  /-- Started by its launch, not by SPAWN (R314). -/
  started : Bool := false
  resident : BitVec 16 := 0
  /-- Resident blocks that differ from their frame image, and blocks that the part changed while they were not resident (R27, R397). -/
  dirty : BitVec 16 := 0
  owed : BitVec 16 := 0
  /-- Blocks whose arrival the stalled thread, or its seating, waits for (R28). -/
  wanted : BitVec 16 := 0
  unitsel : Word := 0
  dbgsel : Word := 0
  replay : Option Replay := none
  /-- Its exit value, once a TRET has killed it: it ends when its engine operations are complete (R363). -/
  killed : Option Word := none
  groups : List MatrixGroup := []
  gmm : GmmRecord := {}
  replies : List RemoteReply := []
  /-- Place of a routine thread in the order of R40, and its stores so far in the superstep. -/
  detList : Nat := 0
  detG1 : Nat := 0
  detSeq : Nat := 0
  /-- Breakpoints (bits 0 to 7) and watchpoints (8 to 11) that have stopped it, which it passes once (R415, R416). -/
  passBreak : BitVec 12 := 0
  /-- A block whose write-back failed (R397). -/
  stuckBlock : Option Nat := none
  /-- A page whose miss a TLBW has failed, and the cause that the waiting word raises (R392, R400). -/
  failed : Option (Nat × Cause) := none
  deriving DecidableEq, Repr

/-- One hearth (R13, R353). (Log entry 1: DESIGN CHOICE, unsafe.) -/
structure Hearth where
  freezewd : BitVec 32 := 0x100000
  nreadto : BitVec 16 := 256
  vlgrp : BitVec 8 := 3
  vlgrpNow : BitVec 8 := 3
  forgespill : Word := 0
  mboxbind : Word := 0
  mailbox : List Word := []
  secure : Bool := false
  quiesced : Bool := false
  l1 : List TlbEntry := []
  /-- Who holds the forge seat, who waits for it, and for how many advancing cycles it has been held (R29, R380). -/
  seat : Option ThreadId := none
  forgeQueue : List ThreadId := []
  seatCycles : Nat := 0
  /-- Forge state in place and its owner, and the spill slots (R259). -/
  forge : ForgeState := {}
  owner : Option ThreadId := none
  spill : List (Nat × ThreadId × ForgeState × Vector Bank 2) := []
  banks : Vector Bank 2 := Vector.replicate 2 ({} : Bank)
  /-- The exposed pipeline: results in flight (R251). -/
  inflight : List InFlight := []
  /-- Cause code of the freeze in force, and how long it has lasted (R254, R382). -/
  frozen : Option Nat := none
  frozenFor : Nat := 0
  /-- Pre-emption is requested (R380); the PC stands at an iteration boundary of the innermost loop (R258). -/
  preempt : Bool := false
  boundary : Bool := false
  /-- Tiles that Bellows has delivered for each bank (R307). -/
  bankQueue : Vector (List (List Host.Cell × Word × Nat)) 2 := Vector.replicate 2 []
  jobs : List MatrixJob := []
  accMap : List AccTile := []
  accReserved : List (ThreadId × BitVec 16) := []
  /-- Lane-group arbiter (R379). -/
  deficits : Vector Int 4 := Vector.replicate 4 0
  lastCore : Nat := 3
  debug : DebugModule := {}
  deriving DecidableEq, Repr

/-- One strand core, or the core of a walker or steward (R353). (Log entry 1: DESIGN CHOICE, unsafe.) -/
structure Core where
  vlshare : BitVec 16 := 0x8421
  delaybase : Word := 0
  vqueue : List VectorEntry := []
  /-- Round-robin order of the seated threads, and the last one that issued (R376). -/
  order : List ThreadId := []
  lastIssued : Option ThreadId := none
  debug : DebugModule := {}
  deriving DecidableEq, Repr

/-- One bench (R11, R390). (Log entry 1: DESIGN CHOICE, unsafe.) -/
structure Bench where
  tlb : List TlbEntry := []
  misses : List Miss := []
  walkctx : Word := 0
  splits : BitVec 32 := 0
  missCount : BitVec 32 := 0
  shoot : Timeline := {}
  /-- Receive credits that its dispatch engine can still grant (R299, R432). Log entry 91: the number at reset is the model's. -/
  credits : Nat := 65536
  withdrawn : BitVec 4 := 0
  lasting : BitVec 4 := 0
  rollbacks : BitVec 16 := 0
  unprot : BitVec 16 := 0
  deriving DecidableEq, Repr

/-- One die (R411, R412, R422). (Log entry 1: DESIGN CHOICE, unsafe.) -/
structure Die where
  poisoned : BitVec 16 := 0
  transient : BitVec 24 := 0
  corrected : BitVec 24 := 0
  ecclog : Word := 0
  poisclr : Word := 0
  exhausted : BitVec 22 := 0
  highWater : BitVec 21 := 0
  ckptbase : Word := 0
  ckptlines : BitVec 16 := 0
  provctl : Word := 0
  provWritten : BitVec 32 := 0
  provLost : BitVec 32 := 0
  deriving DecidableEq, Repr

/-- The registers and tables of one address space in this package (R353, R354). (Log entry 1: DESIGN CHOICE, unsafe.) -/
structure Space where
  trapvec : Vector Word 3 := Vector.replicate 3 0
  shpool : Word := 0
  msgpool : Word := 0
  rngkey : Word := 0
  exptbl : Word := 0
  bind : List (Nat × Binding) := []
  serial : Nat := 0
  deriving DecidableEq, Repr

/-- What a verified boot monitor sets up at step 5 of R445, which its image decides: node id, queue table, regions, checkpoint
reservations, the memory it loads, and the steward and walker threads. (Log entry 5: DESIGN CHOICE, unsafe.) -/
structure Firmware where
  node : BitVec 11 := 0
  qtbase : Word := 0
  regiontbl : Word := 0
  ckptbase : Vector Word 4 := Vector.replicate 4 0
  ckptlines : Vector (BitVec 16) 4 := Vector.replicate 4 0
  mem : List Host.Cell := []
  threads : List Thread := []
  deriving DecidableEq, Repr

/-- What start-up leaves and the outside provides for it (R445 to R449): the stage that failed, the measurements, the fuses (key
hash, minimum version), the boot flash (slots A and B, steward and walker firmware, withdrawal log), attestation requests that
wait and the reports given. -/
structure Boot where
  state : BootState := .held
  measurements : List (List Byte) := []
  keyHash : List Byte := []
  minVersion : BitVec 32 := 0
  slots : List (List Byte) := []
  firmware : Firmware := {}
  withdrawn : List Nat := []
  logged : List Nat := []
  nonces : List (List Byte) := []
  reports : List (List Byte) := []
  deriving DecidableEq, Repr

/-- The package. (Log entry 1: DESIGN CHOICE, unsafe.) -/
structure State where
  th : Thread := {}
  others : List Thread := []
  hearths : List (Nat × Hearth) := []
  cores : List (Nat × Core) := []
  benches : List (Nat × Bench) := []
  dies : List (Nat × Die) := []
  spaces : List (Nat × Space) := []
  domains : List Domain := []
  mem : List Host.Cell := []
  poison : List Nat := []
  pending : List Pending := []
  packets : List Packet := []
  deposits : List Deposit := []
  nreads : List NRead := []
  units : List ChannelUnit := []
  shootdowns : List Shootdown := []
  cyc : Word := 0
  tlock : Bool := false
  /-- The cycle of the last slew step, and a count that is withheld (R15). -/
  slewAt : Option Word := none
  withhold : Bool := false
  node : BitVec 11 := 0
  regiontbl : Word := 0
  ops : List EngineOp := []
  launches : List Launch := []
  launchCount : Nat := 0
  /-- Last queue accepted from at each priority (R369): host queues by number, then device queues by 16384 + ASID. -/
  lastQueue : List (Nat × Nat) := []
  remotes : List Remote := []
  nodes : List (Nat × NodeState) := []
  lostNodes : List Nat := []
  mgmt : Mgmt := {}
  queues : List (Nat × HostQueue) := []
  interrupts : List Nat := []
  /-- What host reads returned, and the responses given to remote packages. -/
  hostReads : List (List Byte) := []
  responses : List RemoteResult := []
  cap : BitVec 12 := 0x960
  capNow : BitVec 12 := 0x960
  /-- The cycle in which the cap was written last (R450). -/
  capAt : Word := 0
  power : BitVec 12 := 0
  temp : BitVec 8 := 0
  therm : Bool := false
  limit : Bool := false
  tripped : Bool := false
  boot : Boot := {}
  /-- The events still to come, the first one next. Log entry 9: the model's own field. -/
  agenda : List Instr := []
  /-- Free values drawn so far. Log entry 6: the model's own field. -/
  freeCount : Nat := 0
  deriving DecidableEq, Repr

/-- The machine right after reset (R445): every register at the reset value its table gives; the package is held until its
start-up has run, no thread exists, and no byte of memory is listed. (Log entry 1: DESIGN CHOICE, unsafe.) -/
def State.reset : State := {}

end Sys2Proof.Machine
end

