-- ==== Sys2Proof/Machine/Ops.lean ====
section
/-!
DEFINITION. The named operations on the state: sparse tables, bit fields, physical memory in its canonical form, the
current thread's registers, the course of control (R165 to R170), taking a trap and returning from one (R358, R363).
-/

namespace Sys2Proof.Machine

open Sys2Proof

/-! ### Sparse tables -/

/-- Value of a key in a sparse table, a default where it is not listed. -/
def lookup {α : Type} (d : α) : List (Nat × α) → Nat → α
  | [], _ => d
  | (k, x) :: t, n => if k = n then x else lookup d t n

/-- The table with one key's value replaced; keys stay in rising order. -/
def insert {α : Type} : List (Nat × α) → Nat → α → List (Nat × α)
  | [], n, y => [(n, y)]
  | (k, x) :: t, n, y =>
    if n < k then (n, y) :: (k, x) :: t else if n = k then (n, y) :: t else (k, x) :: insert t n y

def hearthOf (s : State) (h : Nat) : Hearth := lookup {} s.hearths h
def putHearth (s : State) (h : Nat) (x : Hearth) : State := { s with hearths := insert s.hearths h x }
def coreOf (s : State) (c : Nat) : Core := lookup {} s.cores c
def putCore (s : State) (c : Nat) (x : Core) : State := { s with cores := insert s.cores c x }
def benchOf (s : State) (b : Nat) : Bench := lookup {} s.benches b
def putBench (s : State) (b : Nat) (x : Bench) : State := { s with benches := insert s.benches b x }
/-- A count of n bits that stops at its largest value. -/
def countUp (n : Nat) (x : BitVec n) : BitVec n := if x = BitVec.allOnes n then x else x + 1

def dieOf (s : State) (d : Nat) : Die := lookup {} s.dies d
def putDie (s : State) (d : Nat) (x : Die) : State := { s with dies := insert s.dies d x }
def spaceOf (s : State) (a : BitVec 10) : Space := lookup {} s.spaces a.toNat
def putSpace (s : State) (a : BitVec 10) (x : Space) : State := { s with spaces := insert s.spaces a.toNat x }

/-- Units of R12 that contain a unit. -/
def benchOfHearth (h : Nat) : Nat := h / 8
def dieOfHearth (h : Nat) : Nat := h / 48
def hearthOfCore (c : Nat) : Nat := c / 4
def dieOfBench (b : Nat) : Nat := b / 6

/-! ### Bit fields -/

/-- Field [lo + len − 1 : lo] of a number (R1, R6). -/
def field (x lo len : Nat) : Nat := (x >>> lo) % 2 ^ len

/-- Field of a word as a number. -/
def wfield (w : Word) (lo len : Nat) : Nat := field w.toNat lo len

/-- The low n bits of a number, as a signed integer. -/
def signed (n x : Nat) : Int := if x % 2 ^ n < 2 ^ (n - 1) then (x % 2 ^ n : Nat) else (x % 2 ^ n : Nat) - (2 ^ n : Nat)

/-- The n-bit two's-complement bits of an integer. -/
def unsignedBits (n : Nat) (x : Int) : Nat := (x % (2 ^ n : Nat)).toNat

/-- The address bits [55:0] of a fat pointer (R7). -/
def addr (w : Word) : Nat := w.toNat % 2 ^ 56

/-- The tag of a fat pointer (R7). -/
def ptrTag (w : Word) : Nat := w.toNat / 2 ^ 56

/-- The format code of a fat pointer (R46). -/
def ptrFmt (w : Word) : Nat := w.toNat / 2 ^ 59

/-- The blk field of a fat pointer (R47). -/
def ptrBlk (w : Word) : Nat := wfield w 56 3

def ofBool (b : Bool) : Nat := if b then 1 else 0

/-! ### Physical memory -/

/-- The byte a memory holds; a byte that is not listed reads as zero, as the power-on clearing of every array leaves it
(R445 step 4). (Log entries 2: DEDUCED, unsafe; 17: DESIGN CHOICE, safe.) -/
def Mem.get : List Host.Cell → Nat → Byte
  | [], _ => 0
  | (k, b) :: t, a => if k = a then b else Mem.get t a

/-- The memory with one byte written, in canonical form: addresses rising, no listed byte zero. (Log entry 2: DEDUCED, unsafe.) -/
def Mem.set (m : List Host.Cell) (a : Nat) (b : Byte) : List Host.Cell :=
  if b = 0 then m.filter fun c => decide (c.1 ≠ a) else insert m a b

/-- The cells of n bytes at pa. -/
def Mem.window (m : List Host.Cell) (pa n : Nat) : List Host.Cell := m.filter fun c => decide (pa ≤ c.1 ∧ c.1 < pa + n)

/-- Canonical form, from a lowest address on. -/
def Mem.wfFrom : Nat → List Host.Cell → Bool
  | _, [] => true
  | lo, (k, b) :: t => decide (lo ≤ k) && decide (b ≠ 0) && Mem.wfFrom (k + 1) t

/-- The canonical form of memory. (Log entry 2: DEDUCED, unsafe.) -/
def Mem.wf (m : List Host.Cell) : Bool := Mem.wfFrom 0 m

/-- n bytes from an address on, as a little-endian number (R2). -/
def Mem.read (m : List Host.Cell) (a : Nat) : Nat → Nat
  | 0 => 0
  | n + 1 => (Mem.get m a).toNat + 256 * Mem.read m (a + 1) n

/-- n bytes written, little-endian (R2). -/
def Mem.write (m : List Host.Cell) (a : Nat) : Nat → Nat → List Host.Cell
  | 0, _ => m
  | n + 1, x => Mem.write (Mem.set m a (BitVec.ofNat 8 x)) (a + 1) n (x / 256)

/-- n bytes written under a bit mask (R96): a bit whose mask bit is 0 keeps its value. -/
def Mem.writeMasked (m : List Host.Cell) (a : Nat) : Nat → Nat → Nat → List Host.Cell
  | 0, _, _ => m
  | n + 1, x, k =>
    let old := Mem.get m a
    let mk := BitVec.ofNat 8 k
    Mem.writeMasked (Mem.set m a ((old &&& ~~~mk) ||| (BitVec.ofNat 8 x &&& mk))) (a + 1) n (x / 256) (k / 256)

/-- The bytes of a range, by offset. -/
def Mem.slice (m : List Host.Cell) (a n : Nat) : List Host.Cell :=
  m.filterMap fun c => if a ≤ c.1 ∧ c.1 < a + n then some (c.1 - a, c.2) else none

def hbmBytes : Nat := 512000000000
def ingotBase : Nat := 0xFE00000000000
def ingotBytes : Nat := 0x20000000
def localBase : Nat := 0xFF00000000000
def localBytes : Nat := 0x300000

/-- Die whose ingot store holds a physical address (R383). -/
def ingotDie (pa : Nat) : Option Nat :=
  if ingotBase ≤ pa ∧ pa < ingotBase + 4 * 2 ^ 30 ∧ (pa - ingotBase) % 2 ^ 30 < ingotBytes then some ((pa - ingotBase) / 2 ^ 30) else none

/-- Hearth whose local memory holds a physical address (R383). -/
def localHearth (pa : Nat) : Option Nat :=
  if localBase ≤ pa ∧ pa < localBase + 192 * 2 ^ 22 ∧ (pa - localBase) % 2 ^ 22 < localBytes then some ((pa - localBase) / 2 ^ 22) else none

/-- There is memory at a physical address (R383). -/
def paExists (pa : Nat) : Bool := decide (pa < hbmBytes) || (ingotDie pa).isSome || (localHearth pa).isSome

/-- Home die of a line of this package (R452). -/
def homeDie (pa : Nat) : Nat :=
  match ingotDie pa, localHearth pa with
  | some d, _ => d
  | _, some h => h / 48
  | _, _ => field pa 7 2

/-! ### The machine monad -/

/-- How an instruction ends before its last effect: the state as it then stands is the next state; a trap is taken in it; the
forge pipeline freezes, with a code of R382; or an access names a physical address with no memory. -/
inductive Stop where
  | stopped
  | trap (c : Cause) (v : Word)
  | freeze (code : Nat)
  | absent (pa : Nat)
  | nowhere (va : Nat)
  deriving DecidableEq, Repr

/-- A piece of an instruction's meaning. What it did before it stopped stays (R8). -/
abbrev M := EStateM Stop State

/-- The rest of the instruction is not performed. -/
def stop {α : Type} : M α := throw .stopped

/-- Physical address that must exist. (Log entry 137: DESIGN CHOICE, safe.) -/
def requirePa (pa : Nat) : M Unit := if paExists pa then pure () else throw (.absent pa)

/-! ### The current thread -/

def setRegs (r : Regs) (s : State) : State := { s with th := { s.th with r := r } }
def modTh (f : Thread → Thread) : M Unit := modify fun s => { s with th := f s.th }
def modRegs (f : Regs → Regs) : M Unit := modify fun s => setRegs (f s.th.r) s
def getTh : M Thread := do return (← get).th
def getRegs : M Regs := do return (← get).th.r

/-- G[n]: g0 reads 0 (R7). -/
def Regs.rg (r : Regs) (n : Reg) : Word := if n = 0 then 0 else r.g.get n.toFin

/-- G[n] := w: a write of g0 is discarded (R7). -/
def Regs.wg (r : Regs) (n : Reg) (w : Word) : Regs := if n = 0 then r else { r with g := r.g.set n.toNat w n.isLt }

def Regs.rv (r : Regs) (n : Reg) : Vec := r.v.get n.toFin
def Regs.wv (r : Regs) (n : Reg) (x : Vec) : Regs := { r with v := r.v.set n.toNat x n.isLt }
def Regs.rm (r : Regs) (n : QReg) : Word := r.m.get n.toFin
def Regs.wm (r : Regs) (n : QReg) (w : Word) : Regs := { r with m := r.m.set n.toNat w n.isLt }
def Regs.rsh (r : Regs) (n : QReg) : Word := r.sh.get n.toFin
def Regs.wsh (r : Regs) (n : QReg) (w : Word) : Regs := { r with sh := r.sh.set n.toNat w n.isLt }

/-- P[n]: p0 reads 1 (R7). -/
def Regs.rp (r : Regs) (n : PReg) : Bool := if n = 0 then true else r.p.getLsbD n.toNat

/-- P[n] := b: a write of p0 is discarded (R7). -/
def Regs.wp (r : Regs) (n : PReg) (b : Bool) : Regs :=
  if n = 0 then r
  else { r with p := (r.p &&& ~~~(1#16 <<< n.toNat)) ||| ((if b then 1#16 else 0#16) <<< n.toNat) }

def readG (n : Reg) : M Word := do return (← getRegs).rg n
def writeG (n : Reg) (w : Word) : M Unit := modRegs fun r => r.wg n w

/-- The frame's virtual address (R21, R178). -/
def frameVa (t : ThreadId) : Nat := t.ctx.toNat * 4096

/-- A thread is live from its creation until it is done (R23). -/
def Thread.live (t : Thread) : Bool := decide (t.st ≠ .unborn ∧ t.st ≠ .done)

/-- The thread of a name; there is one of a name at most that is live, and it stands first. -/
def findThread (s : State) (t : ThreadId) : Option Thread :=
  if s.th.id = t ∧ s.th.st ≠ .unborn then some s.th
  else s.others.find? fun x => decide (x.id = t ∧ x.st ≠ .unborn)

/-- The live thread of a name. -/
def liveThread (s : State) (t : ThreadId) : Option Thread := (findThread s t).filter Thread.live

/-- The thread of this name replaced. -/
def putThread (s : State) (x : Thread) : State :=
  if s.th.id = x.id ∧ s.th.st ≠ .unborn then { s with th := x }
  else { s with others := s.others.map fun y => if y.id = x.id ∧ y.st ≠ .unborn then x else y }

/-- Blocks 9 and 15, which a seated or trapped thread needs (R27). -/
def seatBlocks : BitVec 16 := 0x8200

/-- Every thread changed alike. -/
def mapThreads (f : Thread → Thread) (s : State) : State := { s with th := f s.th, others := s.others.map f }

/-- Every thread, the current one first. -/
def threads (s : State) : List Thread := s.th :: s.others

/-- The word of a wait is executed again when the wait ends; it is past already for PARK and for a waiting TLBINV. -/
def Wait.again : Wait → Bool
  | .park => false
  | .shootdown _ _ => false
  | _ => true

/-- The core of a walker or steward. (Log entry 40: DESIGN CHOICE, unsafe.) -/
def Place.service : Place → Bool
  | .walker _ => true
  | .steward _ => true
  | _ => false

/-- The place of a thread that gives up its seat; a firmware thread stays on its core. -/
def Place.vacated (p : Place) : Place := if p.service then p else .off

/-- The state of a thread that may go on: ready, or seated at once on a firmware core. -/
def Thread.readied (t : Thread) : TState := if t.place.service then .seated else .ready

/-- A parked thread whose wait ends becomes ready (R373). -/
def Thread.release (t : Thread) : Thread :=
  if t.st = .parked ∧ t.killed = none then { t with st := t.readied, wait := .none, readyFor := 0, waited := t.wait.again } else t

/-- The parked threads whose wait satisfies a condition become ready. -/
def releaseIf (c : Thread → Bool) (s : State) : State :=
  mapThreads (fun t => if c t then t.release else t) s

/-! ### Control -/

/-- (Log entry 14: DEDUCED, safe.) -/
def pcMask : Word := 0x00FFFFFFFFFFFFFF

/-- An address of code some bytes further, modulo 2^56 (R165). (Log entry 14: DEDUCED, safe.) -/
def codeAdd (pc : Word) (n : Word) : Word := (pc + n) &&& pcMask

/-- Bytes of one word of the body: a strand word, or a bundle in forge mode (R169, R260). -/
def unitBytes (forge : Bool) : Nat := if forge then 32 else 4

def Loop.startPc (l : Loop) : Word := BitVec.setWidth 64 (l.start ++ 0#2)
def Loop.endPc (l : Loop) (unit : Nat) : Word := codeAdd l.startPc (BitVec.ofNat 64 (unit * l.len.toNat))

/-- Number of open loop levels (R169). -/
def Regs.depth (r : Regs) : Nat := (r.loops.toList.filter (·.valid)).length

/-- Level k of the loop stack, counted from lx0. -/
def Regs.lx (r : Regs) (k : Nat) : Loop := r.loops.toList.getD k {}

def Regs.setLx (r : Regs) (k : Nat) (l : Loop) : Regs := { r with loops := r.loops.setIfInBounds k l }

def Regs.closeLx (r : Regs) (k : Nat) : Regs := r.setLx k { r.lx k with valid := false }

/-- Every open loop level closed. -/
def Regs.closeAll (r : Regs) : Regs := { r with loops := r.loops.map fun l => { l with valid := false } }

/-- The end test of R170 from depth d on: levels that end at `next` count an iteration, and the last one closes. -/
def endTestFrom (unit : Nat) : Nat → Word → Regs → Regs
  | 0, next, r => { r with pc := next }
  | d + 1, next, r =>
    let l := r.lx d
    if next = l.endPc unit then
      let l' := { l with index := l.index + 1 }
      if l'.index.toNat < l.count.toNat then { r.setLx d l' with pc := l.startPc }
      else endTestFrom unit d next (r.setLx d { l' with valid := false })
    else { r with pc := next }

/-- The end test with a given next address. -/
def endTest (unit : Nat) (next : Word) (r : Regs) : Regs := endTestFrom unit r.depth next r

/-- A word at the PC completes without a taken transfer (R170). (Log entry 14: DEDUCED, safe.) -/
def Regs.advance (r : Regs) : Regs := endTest 4 (codeAdd r.pc 4) r

/-- A taken transfer closes the levels whose body its target leaves (R170). -/
def jumpFrom (unit : Nat) : Nat → Word → Regs → Regs
  | 0, t, r => { r with pc := t }
  | d + 1, t, r =>
    let l := r.lx d
    if t.toNat < l.startPc.toNat ∨ (l.endPc unit).toNat ≤ t.toNat then jumpFrom unit d t (r.closeLx d)
    else { r with pc := t }

def Regs.jump (r : Regs) (t : Word) : Regs := jumpFrom 4 r.depth t r

/-- The current word completes. -/
def advance : M Unit := modRegs Regs.advance

/-! ### Taking a trap -/

/-- Cause codes (R356). -/
def Cause.code : Cause → Nat
  | .illegalWord => 0x01 | .illegalBundle => 0x02 | .illegalSchedule => 0x03 | .privilege => 0x04 | .world => 0x05
  | .misaligned => 0x06 | .format => 0x07 | .pageData => 0x10 | .pageFetch => 0x11 | .pageContext => 0x12
  | .protection => 0x13 | .ingotReadonly => 0x14 | .shadowExhausted => 0x18 | .snapDepth => 0x19 | .orderStall => 0x1A
  | .accExhausted => 0x1B | .exchangeFull => 0x1C | .watchdog => 0x20 | .phaseViolation => 0x21
  | .lockstepLasting => 0x28 | .poison => 0x29 | .fabric => 0x2A | .breakpoint => 0x30 | .trapi => 0x31 | .step => 0x32

/-- Classes of causes (R356). -/
def Cause.cls : Cause → Nat
  | .world | .pageData | .pageFetch | .pageContext | .protection | .ingotReadonly | .shadowExhausted | .exchangeFull => 1
  | .lockstepLasting | .poison | .fabric => 2
  | _ => 0

/-- Codes of the states (R355). -/
def TState.code : TState → Nat
  | .unborn => 0 | .ready => 1 | .seated => 2 | .running => 3 | .stalledRegister => 4 | .stalledMemory => 5 | .frozen => 6
  | .parked => 7 | .trapped => 8 | .done => 9

/-- A task level is open (R118). -/
def Thread.inTask (t : Thread) : Bool := t.levels.any (·.task)

/-- Where a thread runs, as the record's site word (R357). -/
def siteWord (t : Thread) : Word :=
  match t.place with
  | .strand c => BitVec.ofNat 64 (c * 256 + c / 4)
  | .forge h => BitVec.ofNat 64 (0x3FF * 256 + h)
  | .walker b => Config.serviceSite b
  | .steward d => Config.serviceSite (24 + d)
  | .off => BitVec.ofNat 64 (0x3FF * 256 + t.hearth)

/-- Word 0 of the record (R357). -/
def recordHead (t : Thread) (c : Cause) (aux : Nat) (latched : Bool) : Word :=
  BitVec.ofNat 64 (aux * 2 ^ 48 + ofBool t.secure * 2 ^ 42 + t.id.asid.toNat * 2 ^ 32 + ofBool t.inTask * 2 ^ 15
    + ofBool (decide (t.r.frame.n ≠ 0)) * 2 ^ 14 + ofBool t.packet.isSome * 2 ^ 13 + ofBool latched * 2 ^ 12
    + ofBool t.forge * 2 ^ 11 + c.cls * 2 ^ 8 + c.code)

/-- TRAPVEC's fields (R356). -/
def vecValid (v : Word) : Bool := v.getLsbD 63
def vecSecure (v : Word) : Bool := v.getLsbD 62
def vecThread (v : Word) : ThreadId := ⟨v.extractLsb' 0 10, v.extractLsb' 12 44⟩

/-- A handler that a thread's trap may go to (R358). -/
def usable (secure : Bool) (v : Word) : Bool := vecValid v && (!secure || vecSecure v)

/-- The handler of a trap of class c: the next class serves where a class has no usable handler, for class 0 and for a
secure thread (R358). -/
def handlerFrom (secure : Bool) (vs : Vector Word 3) : Nat → Nat → Option Word
  | 0, _ => none
  | fuel + 1, c =>
    let v := vs.toList.getD c 0
    if usable secure v then some v
    else if c < 2 ∧ (c = 0 ∨ secure) then handlerFrom secure vs fuel (c + 1) else none

def handlerOf (secure : Bool) (vs : Vector Word 3) (c : Nat) : Option Word := handlerFrom secure vs 3 c

/-- The header of a device packet (R209, R359). -/
def deviceHeader (node : BitVec 11) (len : Nat) (ctx : BitVec 44) : Word :=
  BitVec.ofNat 64 (len * 2 ^ 57 + 2 ^ 56 + ctx.toNat * 2 ^ 12 + node.toNat * 2)

/-- A thread's pipeline is latched into its replay buffer and its seat released; its forge state stays in place (R45, R257,
R259). -/
def latch (c : Nat) (t : Thread) (s : State) : State × Thread :=
  match t.place with
  | .forge h =>
    let x := hearthOf s h
    (putHearth s h { x with seat := none, owner := some t.id, inflight := [], frozen := none, frozenFor := 0, preempt := false,
                            boundary := false },
     { t with replay := some ⟨BitVec.ofNat 8 c, x.inflight⟩ })
  | _ => (s, t)

/-- The trap of R358: the thread parks in state trapped, a forge pipeline is latched and the seat released, the record is
written, and a packet to the handler of the cause's class is sent on its way. Blocks 9 and 15 stay resident, or are fetched for
the record, unless it is their page that does not serve (R27, R397). (Log entry 24: DEDUCED, unsafe.) -/
def trapThread (c : Cause) (v : Word) (pc : Word) (aux : Nat) (t : Thread) (s : State) : State :=
  let (s, t) := latch c.code t s
  let record : TrapRecord :=
    { head := recordHead t c aux t.replay.isSome, pc := pc, value := v, handler := 0, cyc := s.cyc, site := siteWord t }
  let need := if c = .pageContext then 0 else seatBlocks &&& ~~~t.resident
  let s := putThread s { t with st := .trapped, place := t.place.vacated, record := record, wanted := need }
  match handlerOf t.secure (spaceOf s t.id.asid).trapvec c.cls with
  | none => s
  | some h =>
    { s with packets := s.packets ++
        [{ kind := .trap t.id, dst := .thread (vecThread h), src := t.id, srcHearth := t.hearth, secure := t.secure,
           words := [deviceHeader s.node 4 t.id.ctx, record.head, pc, v, s.cyc] }] }

/-- The current thread traps at its PC (R357, R358). (Log entry 24: DEDUCED, unsafe.) -/
def takeTrap (c : Cause) (v : Word) (s : State) : State := trapThread c v s.th.r.pc 0 s.th s

/-- The current thread's forge pipeline freezes before its bundle issues (R254). -/
def freezeFor (code : Nat) (s : State) : State :=
  let x := hearthOf s s.th.hearth
  putHearth { s with th := { s.th with st := .frozen } } s.th.hearth { x with frozen := some code }

/-- The state that a meaning leaves, however it ended. -/
def settle : Except Stop Unit → State → State
  | .error (.trap c v), s => takeTrap c v s
  | .error (.freeze k), s => freezeFor k s
  | _, s => s

/-- The result of a piece of meaning and the state it leaves. -/
def runResult {α : Type} (m : M α) (s : State) : Except Stop α × State :=
  match m s with
  | .ok a s' => (.ok a, s')
  | .error e s' => (.error e, s')

/-- The outcome of a meaning. -/
def outcome (m : M Unit) (s : State) : Host.Outcome State Fault Refusal :=
  match m s with
  | .ok _ s' => .next s'
  | .error .stopped s' => .next s'
  | .error (.trap c v) s' => .next (takeTrap c v s')
  | .error (.freeze k) s' => .next (freezeFor k s')
  | .error (.absent pa) _ => .fault (.noMemory pa)
  | .error (.nowhere va) _ => .fault (.noHearth va)

/-- trap(cause, value) of R7 and R8: nothing that follows is done. -/
def trap {α : Type} (c : Cause) (v : Word) : M α := throw (.trap c v)

/-- A trap whose value is a number. -/
def trapN {α : Type} (c : Cause) (v : Nat) : M α := trap c (BitVec.ofNat 64 v)

/-- A thread of forge mode joins the tail of its hearth's forge queue, or waits for a place in it; the queue holds 64 (R43, R45,
R380). -/
def joinForge (t : Thread) (s : State) : State :=
  let x := hearthOf s t.hearth
  if x.forgeQueue.length < 64 then
    putThread (putHearth s t.hearth { x with forgeQueue := x.forgeQueue ++ [t.id] }) { t with st := .parked, wait := .forgeSeat, place := .off }
  else putThread s { t with st := .parked, wait := .forgeQueue t.hearth, place := .off }

/-- Return from a trap (R363): the thread becomes ready at its PC; a thread of forge mode joins its hearth's forge queue (R45),
where its replay buffer waits to be re-injected. A thread that a TRET has killed goes on to its end (R363). -/
def resumeThread (t : Thread) (s : State) : State :=
  if t.killed.isSome then putThread s { t with st := .parked, wait := .engines }
  else if t.forge then joinForge t s else putThread s { t with st := t.readied, readyFor := 0 }

/-! ### Guards -/

/-- P[gp] xor gn (R125). -/
def Regs.guard (r : Regs) (gd : Guard) : Bool := xor (r.rp (0#1 ++ gd.gp)) (gd.gn == 1)

/-- A strand word whose guard is false only completes (R125, R170). -/
def guarded (gd : Guard) (body : M Unit) : M Unit := do
  if (← getRegs).guard gd then body else advance

/-- The meaning of a strand word: its body under its guard. -/
def strand (gd : Guard) (body : M Unit) (s : State) : Host.Outcome State Fault Refusal := outcome (guarded gd body) s

/-- The meaning of a word that only computes on registers (R157): its effect under its guard, and completion. -/
def compute (gd : Guard) (f : Regs → Regs) (s : State) : Host.Outcome State Fault Refusal :=
  .next (setRegs (if s.th.r.guard gd then f s.th.r else s.th.r).advance s)

/-! ### Stalls and waits -/

/-- The word waits in a stalled state and is executed again (R373). -/
def stall {α : Type} (st : TState) : M α := do
  modTh fun t => { t with st := st }
  stop

/-- The thread parks in a wait, giving up its seat; the word is executed again when the wait ends (R373). -/
def park {α : Type} (w : Wait) : M α := do
  let now := (← get).cyc
  modTh fun t => { t with st := .parked, wait := w, parkedAt := now, place := t.place.vacated }
  stop

/-! ### Timelines -/

/-- Operation n of a timeline is complete (R98). -/
def Timeline.complete (l : Timeline) (n : Nat) : Timeline :=
  let rec raise : Nat → Nat → List Nat → Nat × List Nat
    | 0, c, a => (c, a)
    | k + 1, c, a => if a.contains (c + 1) then raise k (c + 1) (a.filter fun x => decide (x ≠ c + 1)) else (c, a)
  let a := n :: l.ahead
  let (c, a) := raise a.length l.completed a
  { l with completed := c, ahead := a }

def Thread.timeline (t : Thread) (e : Nat) : Timeline := t.timelines.toList.getD e {}
def Thread.setTimeline (t : Thread) (e : Nat) (l : Timeline) : Thread := { t with timelines := t.timelines.setIfInBounds e l }

/-- tl_issue(e): the next number of a context (R98). -/
def issueNumber (e : Nat) : M Nat := do
  let l := (← getTh).timeline e
  modTh fun t => t.setTimeline e { l with last := l.last + 1 }
  return l.last + 1

/-- tl_complete(e, n) for a thread, which ends the waits it satisfies (R98, R203). -/
def completeNumber (t : ThreadId) (e n : Nat) (s : State) : State :=
  match findThread s t with
  | none => s
  | some x =>
    let l := (x.timeline e).complete n
    let s := putThread s (x.setTimeline e l)
    releaseIf (fun y => decide (y.id = t) && match y.wait with
      | .timeline e' k => decide (e' = e ∧ k ≤ l.completed)
      | .engines => true
      | .matrix => true
      | _ => false) s

/-- A value the spec leaves open (see Config.freeValue). (Log entry 6: DESIGN CHOICE, safe.) -/
def drawFree : M Word := do
  let s ← get
  set { s with freeCount := s.freeCount + 1 }
  return Config.freeValue s.freeCount

end Sys2Proof.Machine
end

