-- ==== Sys2Proof/Machine/Flags.lean ====
section
/-!
DEFINITION. The sticky flags of THRSTAT (R56), the conditions of CMP (R162), and the integer results that compare.
-/

namespace Sys2Proof.Machine

/-- The sticky flags, each at its bit of THRSTAT (R56, R355). -/
def flagNV : BitVec 6 := 0x01
def flagDZ : BitVec 6 := 0x02
def flagOF : BitVec 6 := 0x04
def flagUF : BitVec 6 := 0x08
def flagNX : BitVec 6 := 0x10
def flagQ : BitVec 6 := 0x20

/-- A flag that is set when its condition holds. -/
def flagIf (b : Bool) (f : BitVec 6) : BitVec 6 := if b then f else 0

/-- Flags are only ever set (R56). -/
def Regs.raise (r : Regs) (f : BitVec 6) : Regs := { r with flags := r.flags ||| f }

/-- The conditions of R162: EQ NE LT LE LTZ LEZ, by code. -/
def condition (c : Nat) (x y : Word) : Bool :=
  match c with
  | 0 => decide (x = y)
  | 1 => decide (x ≠ y)
  | 2 => x.slt y
  | 3 => x.sle y
  | 4 => x.ult y
  | _ => x.ule y

end Sys2Proof.Machine
end

