-- ==== Sys2Proof/Machine/Operands.lean ====
section
/-!
DEFINITION. Operand forms of strand words: immediates (R161, R165), shift amounts, width codes (R160), effective addresses
(R187, R190), scope codes (R86), scaled and indexed addressing, and FRAME's register stagger (R174).
-/

namespace Sys2Proof.Machine

/-- sext(imm12, 12), R161. -/
def imm12 (i : BitVec 12) : Word := i.signExtend 64
/-- sext(imm17, 17), R161. -/
def imm17 (i : BitVec 17) : Word := i.signExtend 64
/-- sext(imm9, 9), R162. -/
def imm9 (i : BitVec 9) : Word := i.signExtend 64

/-- 4 × sext(off22, 22), R165, or 32 × sext(off22, 22), R260. -/
def branchOffset (unit : Nat) (o : BitVec 22) : Word := o.signExtend 64 * BitVec.ofNat 64 unit

/-- A shift amount from a register: bits [5:0] (R158). -/
def shiftAmount (b : Word) : Nat := wfield b 0 6

/-- The bits of a width code of SEXT and ZEXT (R160). -/
def widthBits (w : BitVec 2) : Nat := 8 * 2 ^ w.toNat

/-- (addr(base) + sext(off10) × scale) mod 2^56, R187. -/
def effective (base : Word) (off : BitVec 10) (scale : Nat) : Nat :=
  addr (base + off.signExtend 64 * BitVec.ofNat 64 scale)

/-- (G[a] + G[b] × n) mod 2^56, the product modulo 2^64, R190. -/
def indexed (a b : Word) (n : Nat) : Nat := addr (a + b * BitVec.ofNat 64 n)

/-- Bytes of a size code 0 to 3 (R187, R190). -/
def sizeBytes (z : BitVec 2) : Nat := 2 ^ z.toNat

/-- Bytes of an AMO's size code 0 to 2 (R131, R192). -/
def amoBytes (z : BitVec 2) : Nat := 4 * 2 ^ z.toNat

/-- The register a staggered field names in a replay (R174): names 8 to 31 rotate by j × stride. -/
def staggerReg (k : Nat) (r : Reg) : Reg :=
  if r.toNat < 8 then r else BitVec.ofNat 5 (8 + (r.toNat - 8 + k) % 24)

/-- The odd register of an even pair (R192). -/
def pairHigh (r : Reg) : Reg := r + 1

/-- The low n bytes of a word (R187). -/
def lowBytes (w : Word) (n : Nat) : Nat := w.toNat % 2 ^ (8 * n)

/-- sext of an n-byte value into a word (R187). -/
def sextBytes (n x : Nat) : Word := BitVec.ofInt 64 (signed (8 * n) x)

/-- zext of an n-byte value into a word (R187). -/
def zextBytes (n x : Nat) : Word := BitVec.ofNat 64 (x % 2 ^ (8 * n))

end Sys2Proof.Machine
end

