-- ==== Sys2Proof/Machine/Alu.lean ====
section
/-!
DEFINITION. Integer, immediate, compare, predicate and fat-pointer words (R158 to R164): what each writes, as a function on
registers, and its meaning, which applies it under the guard and completes the word.
-/

namespace Sys2Proof.Machine

open Sys2Proof

abbrev Out := Host.Outcome State Fault Refusal

/-- The number of leading zeros of the low n bits, 0 to n. -/
def leadingZeros : Nat → Nat → Nat
  | 0, _ => 0
  | n + 1, x => if x.testBit n then 0 else 1 + leadingZeros n x

/-- The number of trailing zeros, counted from bit i on, within n bits. -/
def trailingZeros : Nat → Nat → Nat → Nat
  | 0, _, _ => 0
  | n + 1, i, x => if x.testBit i then 0 else 1 + trailingZeros n (i + 1) x

/-- The number of 1 bits among the low n. -/
def popCount : Nat → Nat → Nat
  | 0, _ => 0
  | n + 1, x => ofBool (x.testBit n) + popCount n x

/-- The bytes of a word in reverse order. -/
def byteSwap (x : Word) : Word :=
  x.extractLsb' 0 8 ++ x.extractLsb' 8 8 ++ x.extractLsb' 16 8 ++ x.extractLsb' 24 8
    ++ x.extractLsb' 32 8 ++ x.extractLsb' 40 8 ++ x.extractLsb' 48 8 ++ x.extractLsb' 56 8

/-- ADD, R158. -/
def valAdd (x y : Word) : Word := x + y
/-- SUB, R158. -/
def valSub (x y : Word) : Word := x - y
/-- MUL, R158: bits [63:0] of the product. -/
def valMul (x y : Word) : Word := x * y
/-- MULH, R158: bits [127:64] of the signed product. -/
def valMulh (x y : Word) : Word := BitVec.ofInt 64 (x.toInt * y.toInt / 2 ^ 64)
/-- MULHZ, R158: bits [127:64] of the unsigned product. -/
def valMulhz (x y : Word) : Word := BitVec.ofNat 64 (x.toNat * y.toNat / 2 ^ 64)
/-- DIV, R159: truncating; division by zero gives all ones, and the one overflow wraps. -/
def valDiv (x y : Word) : Word := if y = 0 then BitVec.allOnes 64 else BitVec.ofInt 64 (x.toInt.tdiv y.toInt)
/-- DIVZ, R159. -/
def valDivz (x y : Word) : Word := if y = 0 then BitVec.allOnes 64 else BitVec.ofNat 64 (x.toNat / y.toNat)
/-- REM, R159: the remainder takes the sign of the dividend. -/
def valRem (x y : Word) : Word := if y = 0 then x else BitVec.ofInt 64 (x.toInt.tmod y.toInt)
/-- REMZ, R159. -/
def valRemz (x y : Word) : Word := if y = 0 then x else BitVec.ofNat 64 (x.toNat % y.toNat)
/-- AND, R158. -/
def valAnd (x y : Word) : Word := x &&& y
/-- OR, R158. -/
def valOr (x y : Word) : Word := x ||| y
/-- XOR, R158. -/
def valXor (x y : Word) : Word := x ^^^ y
/-- ANDN, R158. -/
def valAndn (x y : Word) : Word := x &&& ~~~y
/-- SHL, R158. -/
def valShl (x y : Word) : Word := x <<< shiftAmount y
/-- SHR, R158. -/
def valShr (x y : Word) : Word := x >>> shiftAmount y
/-- SHA, R158. -/
def valSha (x y : Word) : Word := x.sshiftRight (shiftAmount y)
/-- ROL, R158. -/
def valRol (x y : Word) : Word := x.rotateLeft (shiftAmount y)
/-- MIN, R158. -/
def valMin (x y : Word) : Word := if x.slt y then x else y
/-- MAX, R158. -/
def valMax (x y : Word) : Word := if x.slt y then y else x
/-- MINZ, R158. -/
def valMinz (x y : Word) : Word := if x.ult y then x else y
/-- MAXZ, R158. -/
def valMaxz (x y : Word) : Word := if x.ult y then y else x
/-- CLZ, R158. -/
def valClz (x : Word) : Word := BitVec.ofNat 64 (leadingZeros 64 x.toNat)
/-- CTZ, R158. -/
def valCtz (x : Word) : Word := BitVec.ofNat 64 (trailingZeros 64 0 x.toNat)
/-- POPC, R158. -/
def valPopc (x : Word) : Word := BitVec.ofNat 64 (popCount 64 x.toNat)
/-- BSWAP, R158. -/
def valBswap (x : Word) : Word := byteSwap x
/-- SEXT, R160. -/
def valSext (w : BitVec 2) (x : Word) : Word := BitVec.ofInt 64 (signed (widthBits w) x.toNat)
/-- ZEXT, R160. -/
def valZext (w : BitVec 2) (x : Word) : Word := BitVec.ofNat 64 (x.toNat % 2 ^ widthBits w)
/-- SEL, R158, under the old destination as mask. -/
def valSel (x y m : Word) : Word := (x &&& m) ||| (y &&& ~~~m)
/-- LIH, R161. -/
def valLih (old : Word) (i : BitVec 16) : Word := (old <<< 16) ||| i.setWidth 64
/-- The mask of len bits at pos (R161). -/
def fieldMask (pos len : Nat) : Word := BitVec.ofNat 64 ((2 ^ len - 1) * 2 ^ pos)
/-- BFX, R161, with len − 1 and pos as encoded. -/
def valBfx (e o : BitVec 6) (x : Word) : Word := (x >>> o.toNat) &&& fieldMask 0 (e.toNat + 1)
/-- BFI, R161, into the old destination. -/
def valBfi (e o : BitVec 6) (x old : Word) : Word :=
  (old &&& ~~~fieldMask o.toNat (e.toNat + 1)) ||| ((x <<< o.toNat) &&& fieldMask o.toNat (e.toNat + 1))
/-- PADD and PADDI, R164: the address moves, the tag stays. -/
def valPadd (x y : Word) : Word := (x &&& ~~~pcMask) ||| ((x + y) &&& pcMask)
/-- PTAG, R164. -/
def valPtag (f : BitVec 5) (k : BitVec 3) (x : Word) : Word := f ++ k ++ x.extractLsb' 0 56
/-- PGETF, R164. -/
def valPgetf (x : Word) : Word := BitVec.ofNat 64 (ptrFmt x)
/-- PGETB, R164. -/
def valPgetb (x : Word) : Word := BitVec.ofNat 64 (ptrBlk x)
/-- PSTRIP, R164. -/
def valPstrip (x : Word) : Word := x &&& pcMask

/-- Effect of a word G[d] := f(G[a], G[b]). -/
def effRR (f : Word → Word → Word) (d a b : Reg) (r : Regs) : Regs := r.wg d (f (r.rg a) (r.rg b))
/-- Effect of a word G[d] := f(G[a]). -/
def effR (f : Word → Word) (d a : Reg) (r : Regs) : Regs := r.wg d (f (r.rg a))
/-- Effect of a word that also reads its destination (SEL, BFI, LIH). -/
def effSel (d a b : Reg) (r : Regs) : Regs := r.wg d (valSel (r.rg a) (r.rg b) (r.rg d))
def effLih (d : Reg) (i : BitVec 16) (r : Regs) : Regs := r.wg d (valLih (r.rg d) i)
def effBfi (d a : Reg) (e o : BitVec 6) (r : Regs) : Regs := r.wg d (valBfi e o (r.rg a) (r.rg d))
/-- Effect of a compare (R162). -/
def effCmp (c : Nat) (d : PReg) (a b : Reg) (r : Regs) : Regs := r.wp d (condition c (r.rg a) (r.rg b))
def effCmpi (c : Nat) (d : PReg) (a : Reg) (i : BitVec 9) (r : Regs) : Regs := r.wp d (condition c (r.rg a) (imm9 i))
/-- Effect of a predicate word (R163). -/
def effP (f : Bool → Bool → Bool) (d a b : PReg) (r : Regs) : Regs := r.wp d (f (r.rp a) (r.rp b))

/-- ADD, R158. -/
def execAdd (gd : Guard) (d a b : Reg) (s : State) : Out := compute gd (effRR valAdd d a b) s
/-- SUB, R158. -/
def execSub (gd : Guard) (d a b : Reg) (s : State) : Out := compute gd (effRR valSub d a b) s
/-- MUL, R158. -/
def execMul (gd : Guard) (d a b : Reg) (s : State) : Out := compute gd (effRR valMul d a b) s
/-- MULH, R158. -/
def execMulh (gd : Guard) (d a b : Reg) (s : State) : Out := compute gd (effRR valMulh d a b) s
/-- MULHZ, R158. -/
def execMulhz (gd : Guard) (d a b : Reg) (s : State) : Out := compute gd (effRR valMulhz d a b) s
/-- DIV, R159. -/
def execDiv (gd : Guard) (d a b : Reg) (s : State) : Out := compute gd (effRR valDiv d a b) s
/-- DIVZ, R159. -/
def execDivz (gd : Guard) (d a b : Reg) (s : State) : Out := compute gd (effRR valDivz d a b) s
/-- REM, R159. -/
def execRem (gd : Guard) (d a b : Reg) (s : State) : Out := compute gd (effRR valRem d a b) s
/-- REMZ, R159. -/
def execRemz (gd : Guard) (d a b : Reg) (s : State) : Out := compute gd (effRR valRemz d a b) s
/-- AND, R158. -/
def execAnd (gd : Guard) (d a b : Reg) (s : State) : Out := compute gd (effRR valAnd d a b) s
/-- OR, R158. -/
def execOr (gd : Guard) (d a b : Reg) (s : State) : Out := compute gd (effRR valOr d a b) s
/-- XOR, R158. -/
def execXor (gd : Guard) (d a b : Reg) (s : State) : Out := compute gd (effRR valXor d a b) s
/-- ANDN, R158. -/
def execAndn (gd : Guard) (d a b : Reg) (s : State) : Out := compute gd (effRR valAndn d a b) s
/-- SHL, R158. -/
def execShl (gd : Guard) (d a b : Reg) (s : State) : Out := compute gd (effRR valShl d a b) s
/-- SHR, R158. -/
def execShr (gd : Guard) (d a b : Reg) (s : State) : Out := compute gd (effRR valShr d a b) s
/-- SHA, R158. -/
def execSha (gd : Guard) (d a b : Reg) (s : State) : Out := compute gd (effRR valSha d a b) s
/-- ROL, R158. -/
def execRol (gd : Guard) (d a b : Reg) (s : State) : Out := compute gd (effRR valRol d a b) s
/-- MIN, R158. -/
def execMin (gd : Guard) (d a b : Reg) (s : State) : Out := compute gd (effRR valMin d a b) s
/-- MAX, R158. -/
def execMax (gd : Guard) (d a b : Reg) (s : State) : Out := compute gd (effRR valMax d a b) s
/-- MINZ, R158. -/
def execMinz (gd : Guard) (d a b : Reg) (s : State) : Out := compute gd (effRR valMinz d a b) s
/-- MAXZ, R158. -/
def execMaxz (gd : Guard) (d a b : Reg) (s : State) : Out := compute gd (effRR valMaxz d a b) s
/-- CLZ, R158. -/
def execClz (gd : Guard) (d a : Reg) (s : State) : Out := compute gd (effR valClz d a) s
/-- CTZ, R158. -/
def execCtz (gd : Guard) (d a : Reg) (s : State) : Out := compute gd (effR valCtz d a) s
/-- POPC, R158. -/
def execPopc (gd : Guard) (d a : Reg) (s : State) : Out := compute gd (effR valPopc d a) s
/-- BSWAP, R158. -/
def execBswap (gd : Guard) (d a : Reg) (s : State) : Out := compute gd (effR valBswap d a) s
/-- PGETF, R164. -/
def execPgetf (gd : Guard) (d a : Reg) (s : State) : Out := compute gd (effR valPgetf d a) s
/-- PGETB, R164. -/
def execPgetb (gd : Guard) (d a : Reg) (s : State) : Out := compute gd (effR valPgetb d a) s
/-- PSTRIP, R164. -/
def execPstrip (gd : Guard) (d a : Reg) (s : State) : Out := compute gd (effR valPstrip d a) s
/-- SEXT, R160. -/
def execSext (gd : Guard) (d a : Reg) (w : BitVec 2) (s : State) : Out := compute gd (effR (valSext w) d a) s
/-- ZEXT, R160. -/
def execZext (gd : Guard) (d a : Reg) (w : BitVec 2) (s : State) : Out := compute gd (effR (valZext w) d a) s
/-- SEL, R158. -/
def execSel (gd : Guard) (d a b : Reg) (s : State) : Out := compute gd (effSel d a b) s
/-- ADDI, R161. -/
def execAddi (gd : Guard) (d a : Reg) (i : BitVec 12) (s : State) : Out := compute gd (effR (valAdd · (imm12 i)) d a) s
/-- ANDI, R161. -/
def execAndi (gd : Guard) (d a : Reg) (i : BitVec 12) (s : State) : Out := compute gd (effR (valAnd · (imm12 i)) d a) s
/-- ORI, R161. -/
def execOri (gd : Guard) (d a : Reg) (i : BitVec 12) (s : State) : Out := compute gd (effR (valOr · (imm12 i)) d a) s
/-- XORI, R161. -/
def execXori (gd : Guard) (d a : Reg) (i : BitVec 12) (s : State) : Out := compute gd (effR (valXor · (imm12 i)) d a) s
/-- PADDI, R164. -/
def execPaddi (gd : Guard) (d a : Reg) (i : BitVec 12) (s : State) : Out := compute gd (effR (valPadd · (imm12 i)) d a) s
/-- SHLI, R161. -/
def execShli (gd : Guard) (d a : Reg) (i : BitVec 6) (s : State) : Out := compute gd (effR (fun x => x <<< i.toNat) d a) s
/-- SHRI, R161. -/
def execShri (gd : Guard) (d a : Reg) (i : BitVec 6) (s : State) : Out := compute gd (effR (fun x => x >>> i.toNat) d a) s
/-- SHAI, R161. -/
def execShai (gd : Guard) (d a : Reg) (i : BitVec 6) (s : State) : Out := compute gd (effR (fun x => x.sshiftRight i.toNat) d a) s
/-- LI, R161. -/
def execLi (gd : Guard) (d : Reg) (i : BitVec 17) (s : State) : Out := compute gd (fun r => r.wg d (imm17 i)) s
/-- LIH, R161. -/
def execLih (gd : Guard) (d : Reg) (i : BitVec 16) (s : State) : Out := compute gd (effLih d i) s
/-- BFX, R161. -/
def execBfx (gd : Guard) (d a : Reg) (e o : BitVec 6) (s : State) : Out := compute gd (effR (valBfx e o) d a) s
/-- BFI, R161. -/
def execBfi (gd : Guard) (d a : Reg) (e o : BitVec 6) (s : State) : Out := compute gd (effBfi d a e o) s
/-- CMP, R162. -/
def execCmp (gd : Guard) (d : PReg) (a b : Reg) (c : BitVec 7) (s : State) : Out := compute gd (effCmp c.toNat d a b) s
/-- CMPI, R162. -/
def execCmpi (gd : Guard) (d : PReg) (a : Reg) (c : BitVec 3) (i : BitVec 9) (s : State) : Out := compute gd (effCmpi c.toNat d a i) s
/-- PAND, R163. -/
def execPand (gd : Guard) (d a b : PReg) (s : State) : Out := compute gd (effP (· && ·) d a b) s
/-- POR, R163. -/
def execPor (gd : Guard) (d a b : PReg) (s : State) : Out := compute gd (effP (· || ·) d a b) s
/-- PXOR, R163. -/
def execPxor (gd : Guard) (d a b : PReg) (s : State) : Out := compute gd (effP xor d a b) s
/-- PANDN, R163. -/
def execPandn (gd : Guard) (d a b : PReg) (s : State) : Out := compute gd (effP (fun x y => x && !y) d a b) s
/-- PNOT, R163. -/
def execPnot (gd : Guard) (d a : PReg) (s : State) : Out := compute gd (fun r => r.wp d (!r.rp a)) s
/-- PSET, R163. -/
def execPset (gd : Guard) (d : PReg) (s : State) : Out := compute gd (fun r => r.wp d true) s
/-- PCLR, R163. -/
def execPclr (gd : Guard) (d : PReg) (s : State) : Out := compute gd (fun r => r.wp d false) s
/-- PADD, R164. -/
def execPadd (gd : Guard) (d a b : Reg) (s : State) : Out := compute gd (effRR valPadd d a b) s
/-- PTAG, R164. -/
def execPtag (gd : Guard) (d a : Reg) (f : BitVec 5) (k : BitVec 3) (s : State) : Out := compute gd (effR (valPtag f k) d a) s

end Sys2Proof.Machine
end

