-- ==== Sys2Proof/Machine/Float.lean ====
section
/-!
DEFINITION. Floating point (R49 to R57, R72): values of the five formats, the one rounding of an exact result, the
element-wise operations and conversions. An exact result is a magnitude m × 2^e, with a sticky mark when the true
magnitude lies strictly between m × 2^e and (m + 1) × 2^e.
-/

namespace Sys2Proof.Machine

open Sys2Proof

/-- A floating-point format (R49). `ieee`: the all-ones exponent holds infinities and NaNs; e4m3 has neither rule. -/
structure FloatFmt where
  eb : Nat
  fb : Nat
  ieee : Bool := true
  flush : Bool := true
  deriving DecidableEq, Repr

def f32 : FloatFmt := { eb := 8, fb := 23 }
def bf16 : FloatFmt := { eb := 8, fb := 7 }
def f16 : FloatFmt := { eb := 5, fb := 10 }
def e4m3 : FloatFmt := { eb := 4, fb := 3, ieee := false, flush := false }
def e5m2 : FloatFmt := { eb := 5, fb := 2, flush := false }

/-- The floating-point format of a format code (R46). -/
def floatFmt : Nat → Option FloatFmt
  | 1 => some f32 | 2 => some bf16 | 3 => some f16 | 4 => some e4m3 | 5 => some e5m2 | _ => none

def FloatFmt.width (f : FloatFmt) : Nat := 1 + f.eb + f.fb
def FloatFmt.bias (f : FloatFmt) : Int := 2 ^ (f.eb - 1) - 1
def FloatFmt.emin (f : FloatFmt) : Int := 1 - f.bias
def FloatFmt.signBit (f : FloatFmt) (neg : Bool) : Nat := if neg then 2 ^ (f.eb + f.fb) else 0
/-- Bits of the largest finite magnitude (R49). -/
def FloatFmt.maxBits (f : FloatFmt) : Nat := if f.ieee then (2 ^ f.eb - 1) * 2 ^ f.fb - 1 else 2 ^ (f.eb + f.fb) - 2
/-- Bits of infinity; e4m3 saturates to its largest value instead (R50). -/
def FloatFmt.infBits (f : FloatFmt) : Nat := if f.ieee then (2 ^ f.eb - 1) * 2 ^ f.fb else f.maxBits
/-- The canonical NaN (R49, R51). -/
def FloatFmt.nan (f : FloatFmt) : Nat := if f.ieee then (2 ^ f.eb - 1) * 2 ^ f.fb + 2 ^ (f.fb - 1) else 2 ^ (f.eb + f.fb) - 1

/-- A value of a format, decoded. -/
inductive FVal where
  | nan (signalling : Bool)
  | inf (neg : Bool)
  | fin (neg : Bool) (m : Nat) (e : Int)
  deriving DecidableEq, Repr

/-- The value of some bits (R49 to R51); subnormals at their exact value. -/
def FloatFmt.decode (f : FloatFmt) (x : Nat) : FVal :=
  let neg := x.testBit (f.eb + f.fb)
  let ef := field x f.fb f.eb
  let fr := x % 2 ^ f.fb
  if f.ieee && ef == 2 ^ f.eb - 1 then
    if fr = 0 then .inf neg else .nan (!fr.testBit (f.fb - 1))
  else if !f.ieee && x % 2 ^ (f.eb + f.fb) == 2 ^ (f.eb + f.fb) - 1 then .nan false
  else if ef = 0 then .fin neg fr (f.emin - f.fb)
  else .fin neg (2 ^ f.fb + fr) (f.emin - f.fb + (ef - 1 : Nat))

/-- Decoding of an arithmetic operand under R52: with ftz, a subnormal of f32, bf16 or f16 reads as a zero. -/
def FloatFmt.read (f : FloatFmt) (ftz : Bool) (x : Nat) : FVal :=
  match f.decode x with
  | .fin neg m e => if ftz && f.flush && field x f.fb f.eb == 0 then .fin neg 0 e else .fin neg m e
  | v => v

/-- Number of bits of a number. -/
def bitLen (n : Nat) : Nat := if n = 0 then 0 else n.log2 + 1

/-- Division by 2^k of m, k of either sign: quotient, and whether something was dropped. -/
def shiftDown (m : Nat) (k : Int) : Nat × Nat × Nat :=
  if k ≤ 0 then (m * 2 ^ (-k).toNat, 0, 1) else (m / 2 ^ k.toNat, m % 2 ^ k.toNat, 2 ^ k.toNat)

/-- Whether the magnitude rounds up (R53): quotient, remainder over divisor, sticky, sign, and the 32 random bits of R55. -/
def roundsUp (mode : Nat) (u : Nat) (neg : Bool) (q rem div : Nat) (sticky : Bool) : Bool :=
  let inexact := decide (rem ≠ 0) || sticky
  match mode with
  | 1 => false
  | 2 => inexact && !neg
  | 3 => inexact && neg
  | 4 =>
    -- hi is the upper value, so a negative number is drawn from the other side
    if neg then decide (rem ≠ 0) && !decide (u < (div - rem) * 2 ^ 32 / div) else decide (u < rem * 2 ^ 32 / div)
  | _ => decide (div < 2 * rem) || (decide (2 * rem = div) && (sticky || decide (q % 2 = 1)))

/-- A default rounding field of 4 to 7 acts as RNE (R53). -/
def defaultMode (rnd : BitVec 3) : Nat := if rnd.toNat ≤ 3 then rnd.toNat else 0

/-- One rounding of an exact magnitude into a format (R50, R52 to R56): bits and flags.
(Log entries 55: DEDUCED, unsafe; 144: DESIGN CHOICE, unsafe.) -/
def FloatFmt.round (f : FloatFmt) (mode u : Nat) (ftz neg : Bool) (m : Nat) (e : Int) (sticky : Bool) : Nat × BitVec 6 :=
  if m = 0 ∧ sticky = false then (f.signBit neg, 0)
  else
    let top : Int := e + (bitLen m : Int) - 1
    let q : Int := (if top < f.emin then f.emin else top) - f.fb
    let (n, rem, div) := shiftDown m (q - e)
    let inexact := decide (rem ≠ 0) || sticky
    let n' := if roundsUp mode u neg n rem div sticky then n + 1 else n
    let bits := (q - (f.emin - f.fb)).toNat * 2 ^ f.fb + n'
    -- tininess after rounding, with the exponent unbounded
    let (t, trem, tdiv) := shiftDown m (top - f.fb - e)
    let t' := if roundsUp mode u neg t trem tdiv sticky then t + 1 else t
    let tiny := decide (top < f.emin) && !(decide (top = f.emin - 1) && decide (t' = 2 ^ (f.fb + 1)))
    if f.maxBits < bits then
      let toMax := !f.ieee || mode == 1 || (mode == 2 && neg) || (mode == 3 && !neg)
      (f.signBit neg + (if toMax then f.maxBits else f.infBits), flagOF ||| flagNX)
    else if ftz && f.flush && decide (0 < bits ∧ bits < 2 ^ f.fb) then (f.signBit neg, flagUF ||| flagNX)
    else (f.signBit neg + bits, flagIf inexact flagNX ||| flagIf (inexact && tiny) flagUF)

/-- How a thread's arithmetic rounds: mode and ftz. -/
structure Rounding where
  mode : Nat
  ftz : Bool
  deriving DecidableEq, Repr

def Regs.rounding (r : Regs) : Rounding := ⟨defaultMode r.rnd, r.ftz⟩

/-- An exact signed value rounded; an exact zero takes the sign the operation gives it. -/
def FloatFmt.roundInt (f : FloatFmt) (rd : Rounding) (zeroNeg : Bool) (x : Int) (e : Int) : Nat × BitVec 6 :=
  if x = 0 then (f.signBit zeroNeg, 0) else f.round rd.mode 0 rd.ftz (decide (x < 0)) x.natAbs e false

/-- Flags that NaN operands raise (R51). -/
def FVal.snan : FVal → Bool
  | .nan s => s
  | _ => false

def FVal.isNan : FVal → Bool
  | .nan _ => true
  | _ => false

def FVal.neg : FVal → Bool
  | .nan _ => false
  | .inf n => n
  | .fin n _ _ => n

def FVal.isZero : FVal → Bool
  | .fin _ m _ => m == 0
  | _ => false

def FVal.negate : FVal → FVal
  | .nan s => .nan s
  | .inf n => .inf (!n)
  | .fin n m e => .fin (!n) m e

/-- A signed significand. -/
def sgn (n : Bool) (m : Nat) : Int := if n then -(m : Int) else m

/-- x × 2^k for k ≥ 0. -/
def scaleInt (x : Int) (k : Int) : Int := x * 2 ^ k.toNat

/-- Exact sum of two dyadic numbers. -/
def dyadicAdd (x : Int) (e : Int) (y : Int) (d : Int) : Int × Int :=
  let k := if e ≤ d then e else d
  (scaleInt x (e - k) + scaleInt y (d - k), k)

/-- The invalid result (R51). -/
def FloatFmt.invalid (f : FloatFmt) : Nat × BitVec 6 := (f.nan, flagNV)

/-- a × b + c (R72, R222), rounded once. -/
def FloatFmt.fma (f : FloatFmt) (rd : Rounding) (a b c : FVal) : Nat × BitVec 6 :=
  let s := flagIf (a.snan || b.snan || c.snan) flagNV
  match a, b, c with
  | .nan _, _, _ | _, .nan _, _ => (f.nan, s)
  | .inf n, y, .nan _ | y, .inf n, .nan _ => (f.nan, s ||| flagIf (y.isZero && (n || true)) flagNV)
  | _, _, .nan _ => (f.nan, s)
  | .inf n, y, z | y, .inf n, z =>
    let p := xor n y.neg
    if y.isZero then f.invalid
    else match z with
      | .inf k => if p = k then (f.signBit p + f.infBits, 0) else f.invalid
      | _ => (f.signBit p + f.infBits, 0)
  | .fin _ _ _, .fin _ _ _, .inf k => (f.signBit k + f.infBits, 0)
  | .fin na ma ea, .fin nb mb eb, .fin nc mc ec =>
    let p := xor na nb
    let (x, k) := dyadicAdd (sgn p (ma * mb)) (ea + eb) (sgn nc mc) ec
    let zeroNeg := if ma * mb = 0 ∧ mc = 0 ∧ p = nc then p else decide (rd.mode = 3)
    f.roundInt rd zeroNeg x k

/-- a + b (R222). -/
def FloatFmt.add (f : FloatFmt) (rd : Rounding) (a b : FVal) : Nat × BitVec 6 :=
  let s := flagIf (a.snan || b.snan) flagNV
  match a, b with
  | .nan _, _ | _, .nan _ => (f.nan, s)
  | .inf n, .inf k => if n = k then (f.signBit n + f.infBits, 0) else f.invalid
  | .inf n, _ | _, .inf n => (f.signBit n + f.infBits, 0)
  | .fin na ma ea, .fin nb mb eb =>
    let (x, k) := dyadicAdd (sgn na ma) ea (sgn nb mb) eb
    f.roundInt rd (if ma = 0 ∧ mb = 0 ∧ na = nb then na else decide (rd.mode = 3)) x k

/-- a × b (R222). -/
def FloatFmt.mul (f : FloatFmt) (rd : Rounding) (a b : FVal) : Nat × BitVec 6 :=
  let s := flagIf (a.snan || b.snan) flagNV
  match a, b with
  | .nan _, _ | _, .nan _ => (f.nan, s)
  | .inf n, y | y, .inf n => if y.isZero then f.invalid else (f.signBit (xor n y.neg) + f.infBits, 0)
  | .fin na ma ea, .fin nb mb eb => f.roundInt rd (xor na nb) (sgn (xor na nb) (ma * mb)) (ea + eb)

/-- A quotient of magnitudes, rounded once. -/
def FloatFmt.roundDiv (f : FloatFmt) (rd : Rounding) (neg : Bool) (a : Nat) (ea : Int) (b : Nat) (eb : Int) : Nat × BitVec 6 :=
  let k := f.fb + 4 + bitLen b
  f.round rd.mode 0 rd.ftz neg (a * 2 ^ k / b) (ea - eb - k) (decide (a * 2 ^ k % b ≠ 0))

/-- a / b (R222). -/
def FloatFmt.div (f : FloatFmt) (rd : Rounding) (a b : FVal) : Nat × BitVec 6 :=
  let s := flagIf (a.snan || b.snan) flagNV
  match a, b with
  | .nan _, _ | _, .nan _ => (f.nan, s)
  | .inf _, .inf _ => f.invalid
  | .inf n, y => (f.signBit (xor n y.neg) + f.infBits, 0)
  | x, .inf k => (f.signBit (xor x.neg k), 0)
  | .fin na ma ea, .fin nb mb eb =>
    let n := xor na nb
    if mb = 0 then (if ma = 0 then f.invalid else (f.signBit n + f.infBits, flagDZ))
    else if ma = 0 then (f.signBit n, 0)
    else f.roundDiv rd n ma ea mb eb

/-- √a (R224, R225). -/
def FloatFmt.sqrt (f : FloatFmt) (rd : Rounding) (a : FVal) : Nat × BitVec 6 :=
  match a with
  | .nan s => (f.nan, flagIf s flagNV)
  | .inf n => if n then f.invalid else (f.infBits, 0)
  | .fin n m e =>
    if m = 0 then (f.signBit n, 0)
    else if n then f.invalid
    else
      let k : Int := 2 * (f.fb + 4)
      let k := if (e - k) % 2 = 0 then k else k + 1
      let x := m * 2 ^ k.toNat
      f.round rd.mode 0 rd.ftz false x.sqrt ((e - k) / 2) (decide (x.sqrt * x.sqrt ≠ x))

/-- 1 / a (R224, R225). -/
def FloatFmt.rcp (f : FloatFmt) (rd : Rounding) (a : FVal) : Nat × BitVec 6 := f.div rd (.fin false 1 0) a

/-- 1 / √a (R224, R225). -/
def FloatFmt.rsq (f : FloatFmt) (rd : Rounding) (a : FVal) : Nat × BitVec 6 :=
  match a with
  | .nan s => (f.nan, flagIf s flagNV)
  | .inf n => if n then f.invalid else (0, 0)
  | .fin n m e =>
    if m = 0 then (f.signBit n + f.infBits, flagDZ)
    else if n then f.invalid
    else
      -- 1/√(m·2^e) = √(2^k / m) · 2^(−(k + e)/2), k + e even
      let k : Int := 2 * (f.fb + 4) + 2 * bitLen m
      let k := if (k + e) % 2 = 0 then k else k + 1
      let q := 2 ^ k.toNat / m
      f.round rd.mode 0 rd.ftz false q.sqrt (-((k + e) / 2))
        (decide (q.sqrt * q.sqrt ≠ q) || decide (2 ^ k.toNat % m ≠ 0))

/-- VABS and VNEG (R224): the sign bit alone changes. -/
def FloatFmt.signOp (f : FloatFmt) (g : Bool → Bool) (x : Nat) : Nat × BitVec 6 :=
  match f.decode x with
  | .nan s => (f.nan, flagIf s flagNV)
  | v => (f.signBit (g v.neg) + x % 2 ^ (f.eb + f.fb), 0)

/-- Order of finite values and infinities, −0 below +0 where asked (R223, R227). -/
def FVal.cmp (a b : FVal) : Ordering :=
  match a, b with
  | .inf true, .inf true | .inf false, .inf false => .eq
  | .inf n, _ => if n then .lt else .gt
  | _, .inf n => if n then .gt else .lt
  | .fin na ma ea, .fin nb mb eb =>
    let (x, _) := dyadicAdd (sgn na ma) ea (-(sgn nb mb)) eb
    compare x 0
  | _, _ => .eq

/-- x is smaller than y for VMIN and VMAX (R223). -/
def FVal.below (a b : FVal) : Bool :=
  match a.cmp b with
  | .lt => true
  | .gt => false
  | .eq => a.isZero && b.isZero && a.neg && !b.neg

/-- VMIN and VMAX (R223); operands are read under R52. -/
def FloatFmt.pick (f : FloatFmt) (ftz : Bool) (larger : Bool) (x y : Nat) : Nat × BitVec 6 :=
  let a := f.read ftz x
  let b := f.read ftz y
  let bits (v : FVal) (z : Nat) : Nat := if v.isZero then f.signBit v.neg else z
  let s := flagIf (a.snan || b.snan) flagNV
  match a.isNan, b.isNan with
  | true, true => (f.nan, s)
  | true, false => (bits b y, s)
  | false, true => (bits a x, s)
  | false, false => (if xor (b.below a) larger then bits b y else bits a x, s)

/-- The conditions of VCMP on floats (R227). -/
def FVal.condition (c : Nat) (a b : FVal) : Bool × BitVec 6 :=
  let nan := a.isNan || b.isNan
  let s := flagIf (a.snan || b.snan) flagNV
  let inv := flagIf nan flagNV
  match c with
  | 0 => (!nan && a.cmp b == .eq, s)
  | 1 => (nan || a.cmp b != .eq, s)
  | 2 => (!nan && a.cmp b == .lt, inv)
  | 3 => (!nan && a.cmp b != .gt, inv)
  | 4 => (!nan && a.cmp b == .gt, inv)
  | 5 => (!nan && a.cmp b != .lt, inv)
  | 6 => (nan, s)
  | _ => (!nan, s)

/-- A value converted to another format (R50, R54, R57). -/
def FVal.toFloat (f : FloatFmt) (rd : Rounding) (u : Nat) (v : FVal) : Nat × BitVec 6 :=
  match v with
  | .nan s => (f.nan, flagIf s flagNV)
  | .inf n => if f.ieee then (f.signBit n + f.infBits, 0) else (f.signBit n + f.maxBits, flagOF ||| flagNX)
  | .fin n m e => f.round rd.mode u rd.ftz n m e false

/-- Saturation to a range; out of range sets NV (R57). -/
def saturate (lo hi x : Int) : Int × BitVec 6 :=
  if x < lo then (lo, flagNV) else if hi < x then (hi, flagNV) else (x, 0)

/-- A value converted to an integer range (R57), with the bits u that SR draws (R55). -/
def FVal.toInteger (lo hi : Int) (mode u : Nat) (v : FVal) : Int × BitVec 6 :=
  match v with
  | .nan _ => (0, flagNV)
  | .inf n => (if n then lo else hi, flagNV)
  | .fin n m e =>
    let (q, rem, div) := shiftDown m (-e)
    let q' := if roundsUp mode u n q rem div false then q + 1 else q
    let (x, nv) := saturate lo hi (sgn n q')
    (x, if nv = 0 then flagIf (decide (rem ≠ 0)) flagNX else nv)

/-- Ranges of the integer formats (R58). -/
def intRange (sign : Bool) (w : Nat) : Int × Int := if sign then (-(2 ^ (w - 1)), 2 ^ (w - 1) - 1) else (0, 2 ^ w - 1)

/-- Width and signedness of an integer format code (R46). -/
def intFmt : Nat → Option (Bool × Nat)
  | 6 => some (true, 8) | 7 => some (true, 16) | 8 => some (true, 32) | 9 => some (true, 64)
  | 10 => some (false, 8) | 11 => some (false, 16) | 12 => some (false, 32) | 13 => some (false, 64)
  | _ => none

/-- Planes K of a nested format code (R46). -/
def nestedPlanes (fmt : Nat) : Option Nat := if 16 ≤ fmt ∧ fmt ≤ 22 then some (fmt - 14) else if fmt = 23 then some 16 else none

/-- Bits of one element of a format that is not nested (R46); 0 for a reserved code. -/
def fmtBits (fmt : Nat) : Nat :=
  match floatFmt fmt, intFmt fmt with
  | some f, _ => f.width
  | _, some (_, w) => w
  | _, _ => if fmt = 0 then 8 else 0

/-- An integer element read under its format (R58). -/
def readInt (sign : Bool) (w x : Nat) : Int := if sign then signed w x else (x % 2 ^ w : Nat)

/-! ### The functions of VFS that are faithfully rounded (R224) -/

/-- Σ terms of a fixed-point series: the k-th term from the one before. -/
def seriesSum (next : Nat → Int → Int) : Nat → Nat → Int → Int
  | 0, _, _ => 0
  | n + 1, k, t => t + seriesSum next n (k + 1) (next k t)

/-- Bits of the fixed-point evaluations. -/
def fixBits : Nat := 512

/-- ln 2 in fixed point: Σ 1 / (k 2^k). -/
def fixLn2 : Int :=
  let rec go : Nat → Nat → Int
    | 0, _ => 0
    | n + 1, k => (2 ^ fixBits : Int) / (k * 2 ^ k) + go n (k + 1)
  go 520 1

/-- e^y for y in [−1, 1], y in fixed point. -/
def fixExp (y : Int) : Int := seriesSum (fun k t => t * y / 2 ^ fixBits / (k + 1 : Nat)) 110 0 (2 ^ fixBits)

/-- ln t for t in [1, 2], t in fixed point: 2 Σ z^(2k+1) / (2k+1), z = (t − 1)/(t + 1). -/
def fixLn (t : Int) : Int :=
  let one : Int := 2 ^ fixBits
  let z := (t - one) * one / (t + one)
  let z2 := z * z / one
  let rec go : Nat → Nat → Int → Int
    | 0, _, _ => 0
    | n + 1, k, p => p / (2 * k + 1 : Nat) + go n (k + 1) (p * z2 / one)
  2 * go 170 0 z

/-- A dyadic number in fixed point; its bits below the point fit. -/
def toFix (x : Int) (e : Int) : Int := x * 2 ^ (e + fixBits).toNat / (if e + fixBits < 0 then 2 ^ (-(e + fixBits)).toNat else 1)

/-- The result is one of the two values adjacent to the exact one, the free choice of Config.approxHigh (R224): the
magnitude below, or the magnitude above. (Log entry 7: DESIGN CHOICE, safe.) -/
def FloatFmt.adjacent (f : FloatFmt) (ftz : Bool) (fn x : Nat) (neg : Bool) (m : Nat) (e : Int) : Nat × BitVec 6 :=
  let up := Config.approxHigh (fn * 4 + f.eb / 4 + f.fb * 64) x
  f.round (if xor up neg then 2 else 3) 0 ftz neg m e true

/-- Guard bits dropped from a fixed-point result before it is marked as inexact. -/
def fixGuard : Nat := 24

/-- VEXP, 2^x (R224, R225). (Log entry 7: DESIGN CHOICE, safe.) -/
def FloatFmt.exp2 (f : FloatFmt) (ftz : Bool) (x : Nat) : Nat × BitVec 6 :=
  match f.read ftz x with
  | .nan s => (f.nan, flagIf s flagNV)
  | .inf n => (if n then 0 else f.infBits, 0)
  | .fin n m e =>
    if 0 < e + (bitLen m : Int) - 12 then (if n then (0, flagUF ||| flagNX) else (f.infBits, flagOF ||| flagNX))
    else
      let y := toFix (sgn n m) e
      let k := y.fdiv (2 ^ fixBits)
      let fr := y - k * 2 ^ fixBits
      if fr = 0 then
        if k < f.emin - f.fb then (0, flagUF ||| flagNX) else f.round 0 0 ftz false 1 k false
      else if k < f.emin - f.fb then (0, flagUF ||| flagNX)
      else if f.bias < k then (f.infBits, flagOF ||| flagNX)
      else f.adjacent ftz 5 x false ((fixExp (fr * fixLn2 / 2 ^ fixBits)).toNat / 2 ^ fixGuard) (k - fixBits + fixGuard)

/-- VLOG2, log2 x (R224, R225). (Log entry 7: DESIGN CHOICE, safe.) -/
def FloatFmt.log2 (f : FloatFmt) (ftz : Bool) (x : Nat) : Nat × BitVec 6 :=
  match f.read ftz x with
  | .nan s => (f.nan, flagIf s flagNV)
  | .inf n => if n then f.invalid else (f.infBits, 0)
  | .fin n m e =>
    if m = 0 then (f.signBit true + f.infBits, flagDZ)
    else if n then f.invalid
    else
      let top : Int := e + (bitLen m : Int) - 1
      if m = 2 ^ (bitLen m - 1) then f.roundInt ⟨0, ftz⟩ false top 0
      else
        let t := toFix m (1 - (bitLen m : Int))
        let l := fixLn t * 2 ^ fixBits / fixLn2 + top * 2 ^ fixBits
        f.adjacent ftz 6 x (decide (l < 0)) (l.natAbs / 2 ^ fixGuard) (fixGuard - fixBits)

/-- VSIG, 1 / (1 + e^−x) (R224, R225). (Log entry 7: DESIGN CHOICE, safe.) -/
def FloatFmt.sig (f : FloatFmt) (ftz : Bool) (x : Nat) : Nat × BitVec 6 :=
  let one : Int := 2 ^ fixBits
  match f.read ftz x with
  | .nan s => (f.nan, flagIf s flagNV)
  | .inf n => if n then (0, 0) else f.round 0 0 ftz false 1 0 false
  | .fin n m e =>
    if m = 0 then f.round 0 0 ftz false 1 (-1) false
    else if 7 < e + (bitLen m : Int) then
      if n then f.adjacent ftz 7 x false 1 (-256) else f.adjacent ftz 7 x false (2 ^ 256 - 1) (-256)
    else
      let y := toFix m e
      let k := y / fixLn2
      -- e^−|x| in fixed point
      let ex := (fixExp (-(y - k * fixLn2))).fdiv (2 ^ k.toNat)
      let r := if n then ex * one / (one + ex) else one * one / (one + ex)
      f.adjacent ftz 7 x false (r.toNat / 2 ^ fixGuard) (fixGuard - fixBits)

end Sys2Proof.Machine
end

