-- ==== Sys2Proof/Machine/Nested.lean ====
section
/-!
DEFINITION. Nested integers (R59 to R62): the planes of a block, the integers a read of some planes yields, and
quantisation.
-/

namespace Sys2Proof.Machine

open Sys2Proof

/-- Elements of a block of a blk field (R47). -/
def blockLen (blk : Nat) : Nat := 2 ^ (blk + 3)

/-- Bytes of a block of K planes and 2^l elements (R59). -/
def blockBytes (k len : Nat) : Nat := 1 + k * (len / 8)

/-- Bit of element i in plane p of a block whose bytes are read by `byte` (R59). -/
def planeBit (byte : Nat → Byte) (len p i : Nat) : Bool := (byte (1 + p * (len / 8) + i / 8)).getLsbD (i % 8)

/-- Weight of plane p of K (R60). -/
def planeWeight (k p : Nat) : Int := if p = 0 then -(2 ^ (k - 1) : Nat) else (2 ^ (k - 1 - p) : Nat)

/-- The integer of element i that a read of the first n of K planes yields (R60, R61). -/
def readPlanes (byte : Nat → Byte) (k len n i : Nat) : Int :=
  ((List.range n).map fun p => if planeBit byte len p i then planeWeight k p else 0).sum
    + (if n < k then (2 ^ (k - 1 - n) : Nat) else 0)

/-- Exponent of a block (R59). -/
def blockExp (byte : Nat → Byte) : Int := (byte 0).toInt

/-- A block read: exponent and integers. -/
def readBlock (byte : Nat → Byte) (k len n : Nat) : Int × List Int :=
  (blockExp byte, (List.range len).map (readPlanes byte k len n))

/-- Bit of plane p of the K-bit integer n (R60). -/
def intPlaneBit (k : Nat) (n : Int) (p : Nat) : Bool := (unsignedBits k n).testBit (k - 1 - p)

/-- One byte of a plane: elements 8j to 8j + 7. -/
def planeByte (k : Nat) (ns : List Int) (p j : Nat) : Nat :=
  ((List.range 8).map fun b => ofBool (intPlaneBit k (ns.getD (8 * j + b) 0) p) * 2 ^ b).sum

/-- The bytes of a block (R59). -/
def writeBlock (k len : Nat) (e : Int) (ns : List Int) : List Nat :=
  unsignedBits 8 e :: ((List.range k).flatMap fun p => (List.range (len / 8)).map fun j => planeByte k ns p j)

/-- Nearest integer to m × 2^e, ties to even. -/
def rneInt (neg : Bool) (m : Nat) (e : Int) : Int :=
  let (q, rem, div) := shiftDown m (-e)
  sgn neg (if roundsUp 0 0 neg q rem div false then q + 1 else q)

/-- ⌊log2 |x|⌋ of a finite non-zero value (R62). -/
def FVal.log2 : FVal → Option Int
  | .fin _ m e => if m = 0 then none else some (e + (bitLen m : Int) - 1)
  | _ => none

/-- n for an element at exponent E, before saturation (R62). -/
def quantInt (e : Int) : FVal → Int
  | .fin n m x => rneInt n m (x - e)
  | _ => 0

/-- Largest of a list of exponents. -/
def maxInt : List Int → Option Int
  | [] => none
  | x :: xs => match maxInt xs with
    | none => some x
    | some y => some (if y < x then x else y)

/-- Quantisation of one block to niK (R62): E, the integers, the flags Q, OF and NV. -/
def quantise (k : Nat) (xs : List FVal) : Int × List Int × BitVec 6 :=
  let lim : Int := 2 ^ (k - 1) - 1
  let bad := flagIf (xs.any fun x => x.log2.isNone && !x.isZero) flagNV
  match maxInt (xs.filterMap FVal.log2) with
  | none => (0, xs.map fun _ => 0, bad)
  | some emax =>
    let e0 := emax - (k - 2)
    let fits := xs.all fun x => decide (-lim ≤ quantInt e0 x ∧ quantInt e0 x ≤ lim)
    let e1 := if fits then e0 else e0 + 1
    let e := if e1 < -128 then -128 else if 127 < e1 then 127 else e1
    let ns := xs.map fun x => (saturate (-lim) lim (quantInt e x))
    let inexact := (xs.zip ns).any fun p => match p.1 with
      | .fin n m x => let (y, _) := dyadicAdd (sgn n m) x (-p.2.1) e; decide (y ≠ 0)
      | _ => false
    (e, ns.map (·.1), bad ||| flagIf inexact flagQ ||| flagIf (ns.any fun n => n.2 ≠ 0) flagOF)

end Sys2Proof.Machine
end

