-- ==== Sys2Proof/Machine/Cells.lean ====
section
/-!
DEFINITION. Exact accumulator cells (R66 to R71) and provenance records (R75, R76).
-/

namespace Sys2Proof.Machine

open Sys2Proof

/-- ⌊x × 2^(e − y)⌋. -/
def floorScale (x : Int) (e y : Int) : Int := if y ≤ e then x * 2 ^ (e - y).toNat else x / 2 ^ (y - e).toNat

/-- Places by which a floor must still fall to fit 96 bits; each place halves it, rounded down (R67). -/
def overflowBits (s : Int) : Nat := bitLen (if s < 0 then (-s - 1).toNat else s.toNat) - 95

/-- exact_add, R67. -/
def exactAdd (acc : Cell) (t : Int) (e : Int) : Cell :=
  if t = 0 then acc
  else
    let i := acc.i.toInt
    let x := acc.x.toInt
    let y0 := if i = 0 ∧ acc.sticky = false then e else if e < x then e else x
    let y1 := if y0 < -32768 then -32768 else y0
    let (v, b) := dyadicAdd i x t e
    let s1 := floorScale v b y1
    let y := y1 + overflowBits s1
    if 32767 < y then
      { acc with i := if v < 0 then BitVec.ofInt 96 (-(2 ^ 95)) else BitVec.ofInt 96 (2 ^ 95 - 1), x := 32767, saturated := true }
    else
      let s := floorScale v b y
      let (r, _) := dyadicAdd s y (-v) b
      { acc with i := BitVec.ofInt 96 s, x := BitVec.ofInt 16 y,
                 sticky := acc.sticky || decide (r ≠ 0), alignLoss := acc.alignLoss || decide (r ≠ 0) }

/-- The magnitude that a drain rounds, scaled so that δ of R69 stands below every rounding point: sign, magnitude, exponent.
Where I is zero, δ alone stands below every number of every format. -/
def Cell.value (c : Cell) : Bool × Nat × Int :=
  let i := c.i.toInt
  let scaled := i.natAbs * 2 ^ 160
  if i = 0 ∧ c.sticky then (false, 1, -40000)
  else (decide (i < 0), if c.sticky ∧ i < 0 then scaled - 1 else scaled, c.x.toInt - 160)

/-- A cell rounded once into a float format (R69). -/
def Cell.toFloat (c : Cell) (f : FloatFmt) (mode : Nat) (ftz : Bool) : Nat × BitVec 6 :=
  let (neg, m, e) := c.value
  f.round mode 0 ftz neg m e c.sticky

/-- A cell rounded to an integer and saturated to s32 (R69): whether it saturated, and whether it rounded. -/
def Cell.toS32 (c : Cell) : Int × Bool × Bool :=
  let (neg, m, e) := c.value
  let (q, rem, div) := shiftDown m (-e)
  let n := sgn neg (if roundsUp 0 0 neg q rem div c.sticky then q + 1 else q)
  let (x, fl) := saturate (-(2 ^ 31)) (2 ^ 31 - 1) n
  (x, decide (fl ≠ 0), decide (rem ≠ 0) || c.sticky)

/-- The two words in which a cell travels (R70). -/
def Cell.words (c : Cell) : List Word :=
  [c.i.extractLsb' 0 64,
   c.i.extractLsb' 64 32 ++ 0#11 ++ BitVec.ofBool c.inexactQ ++ BitVec.ofBool c.saturated ++ BitVec.ofBool c.alignLoss
     ++ BitVec.ofBool c.sticky ++ 0#1 ++ c.x]

/-- The sum of integers into a cell, each at an exponent. -/
def Cell.addAll (c : Cell) : List (Int × Int) → Cell
  | [] => c
  | (t, e) :: xs => Cell.addAll (exactAdd c t e) xs

/-! ### Cells by index -/

/-- A cell by its number; one that is not listed is clear. -/
def cellAt (l : List (Nat × Cell)) (k : Nat) : Cell := lookup {} l k

/-- A cell replaced; a cleared cell is not listed. -/
def putCell (l : List (Nat × Cell)) (k : Nat) (c : Cell) : List (Nat × Cell) :=
  if c = {} then l.filter fun x => decide (x.1 ≠ k) else insert l k c

/-! ### Provenance (R75, R76) -/

/-- An event: its cause, result row and column, K-segment and the formats of A and B. -/
structure ProvEvent where
  cause : Nat
  row : Nat
  col : Nat
  seg : Nat
  fmtA : Nat
  fmtB : Nat
  deriving DecidableEq, Repr

/-- One event recorded; events come in the operation's own order, so the first stays. -/
def Prov.note (p : Prov) (e : ProvEvent) : Prov :=
  let mask := p.w1 ||| BitVec.ofNat 64 (2 ^ (e.cause - 1))
  if p.w0.getLsbD 63 then { p with w1 := mask }
  else
    { w0 := BitVec.ofNat 64 (2 ^ 63 + e.cause * 2 ^ 52 + e.fmtA * 2 ^ 47 + e.fmtB * 2 ^ 42 + (e.row % 2 ^ 16) * 2 ^ 16 + e.col % 2 ^ 16),
      w1 := BitVec.ofNat 64 (e.seg * 2 ^ 32) ||| mask }

def Prov.noteAll (p : Prov) (es : List ProvEvent) : Prov := es.foldl Prov.note p

/-- The order of R76 within one AISS, job, bin or drain: row, column, cause. -/
def ProvEvent.before (a b : ProvEvent) : Bool :=
  decide (a.row < b.row) || (decide (a.row = b.row) && (decide (a.col < b.col) || (decide (a.col = b.col) && decide (a.cause ≤ b.cause))))

def insertEvent (e : ProvEvent) : List ProvEvent → List ProvEvent
  | [] => [e]
  | x :: xs => if e.before x then e :: x :: xs else x :: insertEvent e xs

def sortEvents (es : List ProvEvent) : List ProvEvent := es.foldr insertEvent []

/-- The K-segment of an accumulation event (R76). (Log entry 84: DEDUCED, unsafe.) -/
def segmentOf (n : Nat) : Nat := min n 0xFFFFFFFE

/-- A drain's K-segment (R76). (Log entry 84: DEDUCED, unsafe.) -/
def drainSegment : Nat := 0xFFFFFFFF

end Sys2Proof.Machine
end

