-- ==== Sys2Proof/WellFormed.lean ====
section
/-!
DEFINITION. Which field values are assigned. `wellFormed` holds of a strand word's or slot operation's operands when
every function, size, type, condition, stride or conversion value it carries is assigned (R127, R138, R143 reason 0);
`unusedZero` holds when a field that the operation does not use under the others' values is zero (R143 reason 1);
`inCluster` when a slot's predicate destination lies in its cluster (R142, reason 2). Device steps carry no encoding
and are always well formed.
-/

namespace Sys2Proof

/-- A register name that starts an even-odd pair (R192, R281, R391). -/
def even (r : Reg) : Bool := r.toNat % 2 == 0

/-- The integer element types of R134: s8, s16, s32, z8, z16, z32. -/
def intType (t : BitVec 4) : Bool :=
  t == 5 || t == 6 || t == 7 || t == 9 || t == 10 || t == 11

/-- Where a q bit is set its field names q0 to q7 in bits [2:0], and bits [4:3] are reserved (R263). -/
def qOk (q : BitVec 1) (r : Reg) : Bool := decide (q = 1 → r.toNat < 8)

/-- Every value an operation of an engine slot carries is assigned (R264 to R276). -/
@[simp] def EngineSlot.assigned : EngineSlot → Bool
  | .awld _ _ src _ _ => decide (src.toNat ≤ 1)
  | .aprov _ d st _ => decide (st = 0 → even d)
  | .xbcast _ _ _ w s => decide (s.toNat < 64 / 2 ^ w.toNat)
  | .qbind _ _ kind unit _ _ => decide (kind.toNat ≤ 2 ∧ unit.toNat ≤ 2 ∧ (kind = 2 → unit ≠ 0))
  | _ => true

/-- Every value an operation carries is assigned (R127 to R137, R140, R141, R260 to R276). -/
@[simp] def assigned : Instr → Bool
  | .sext _ _ _ w => decide (w.toNat ≤ 2)
  | .zext _ _ _ w => decide (w.toNat ≤ 2)
  | .bfx _ _ _ e o => decide (o.toNat + e.toNat + 1 ≤ 64)
  | .bfi _ _ _ e o => decide (o.toNat + e.toNat + 1 ≤ 64)
  | .cmp _ _ _ _ c => decide (c.toNat ≤ 5)
  | .cmpi _ _ _ c _ => decide (c.toNat ≤ 5)
  | .loop _ _ l => decide (l ≠ 0)
  | .lidx _ _ k => decide (k.toNat ≤ 5)
  | .lbrk _ k => decide (k.toNat ≤ 5)
  | .lcnt _ _ k => decide (k.toNat ≤ 5)
  | .frame _ _ s _ => decide (s.toNat ≤ 23)
  | .self _ _ s => decide (s.toNat ≤ 3)
  | .lda _ _ _ c _ => decide (c.toNat ≤ 5)
  | .strl _ _ _ c _ => decide (c.toNat ≤ 5)
  | .aadd _ d _ b z => decide (z.toNat ≤ 2 ∧ (z = 2 → even d ∧ even b))
  | .aand _ d _ b z => decide (z.toNat ≤ 2 ∧ (z = 2 → even d ∧ even b))
  | .aor _ d _ b z => decide (z.toNat ≤ 2 ∧ (z = 2 → even d ∧ even b))
  | .axor _ d _ b z => decide (z.toNat ≤ 2 ∧ (z = 2 → even d ∧ even b))
  | .amin _ _ _ _ z => decide (z.toNat ≤ 1)
  | .amax _ _ _ _ z => decide (z.toNat ≤ 1)
  | .aminz _ _ _ _ z => decide (z.toNat ≤ 1)
  | .amaxz _ _ _ _ z => decide (z.toNat ≤ 1)
  | .aswap _ d _ b z => decide (z.toNat ≤ 2 ∧ (z = 2 → even d ∧ even b))
  | .acas _ _ _ _ z => decide (z.toNat ≤ 1)
  | .acas16 _ d _ b => decide (even d ∧ even b)
  | .cadd _ _ _ f => decide (6 ≤ f.toNat ∧ f.toNat ≤ 13)
  | .cmax _ _ _ f => decide (6 ≤ f.toNat ∧ f.toNat ≤ 13)
  | .cmin _ _ _ f => decide (6 ≤ f.toNat ∧ f.toNat ≤ 13)
  | .cor _ _ _ f => decide (6 ≤ f.toNat ∧ f.toNat ≤ 13)
  | .fence _ s => decide (s.toNat ≤ 5)
  | .fencee _ s => decide (s.toNat ≤ 5)
  | .sync _ _ _ l => decide (l.toNat ≤ 5)
  | .domget _ _ l => decide (l.toNat ≤ 5)
  | .xchg _ _ _ l => decide (l.toNat ≤ 5)
  | .torder _ _ l => decide (1 ≤ l.toNat ∧ l.toNat ≤ 5)
  | .tlwait _ _ _ e => decide (e.toNat ≤ 4)
  | .tlread _ _ _ e => decide (e.toNat ≤ 4)
  | .deposit _ _ _ r c => decide (c.toNat ≤ 2 ∧ (c = 1 → r.toNat ≤ 15) ∧ (c = 2 → r.toNat ≤ 7))
  | .bindq _ _ _ s => decide (s.toNat ≤ 3)
  | .vadd _ _ _ _ t => decide (t.toNat ≤ 2)
  | .vsub _ _ _ _ t => decide (t.toNat ≤ 2)
  | .vmul _ _ _ _ t => decide (t.toNat ≤ 2)
  | .vfma _ _ _ _ t => decide (t.toNat ≤ 2)
  | .vfms _ _ _ _ t => decide (t.toNat ≤ 2)
  | .vmin _ _ _ _ t => decide (t.toNat ≤ 2)
  | .vmax _ _ _ _ t => decide (t.toNat ≤ 2)
  | .vdiv _ _ _ _ t => decide (t.toNat ≤ 2)
  | .vabs _ _ _ t => decide (t.toNat ≤ 2)
  | .vneg _ _ _ t => decide (t.toNat ≤ 2)
  | .vsqrt _ _ _ t => decide (t.toNat ≤ 2)
  | .vrcp _ _ _ t => decide (t.toNat ≤ 2)
  | .vrsq _ _ _ t => decide (t.toNat ≤ 2)
  | .vexp _ _ _ t => decide (t.toNat ≤ 2)
  | .vlog2 _ _ _ t => decide (t.toNat ≤ 2)
  | .vsig _ _ _ t => decide (t.toNat ≤ 2)
  | .viadd _ _ _ _ t => decide (intType t)
  | .visub _ _ _ _ t => decide (intType t)
  | .vimul _ _ _ _ t => decide (intType t)
  | .vand _ _ _ _ t => decide (intType t)
  | .vor _ _ _ _ t => decide (intType t)
  | .vxor _ _ _ _ t => decide (intType t)
  | .vshl _ _ _ _ t => decide (intType t)
  | .vshr _ _ _ _ t => decide (intType t)
  | .vcmp _ _ _ _ t c => decide (t.toNat ≤ 2 ∨ (intType t ∧ c.toNat ≤ 5))
  | .vselm _ _ _ _ t => decide (t.toNat ≤ 12)
  | .vcvt _ _ _ r c _ => decide (r.toNat ≤ 4 ∧ (r ≠ 4 → c = 0))
  | .vperm _ _ _ _ t => decide (t.toNat ≤ 3)
  | .vbcast _ _ _ t => decide (t.toNat ≤ 3)
  | .vext _ _ _ _ t => decide (t.toNat ≤ 3)
  | .vins _ _ _ _ t => decide (t.toNat ≤ 3)
  | .vslide _ _ _ _ t => decide (t.toNat ≤ 3)
  | .vredadd _ _ _ _ t => decide (t.toNat ≤ 4)
  | .vredmax _ _ _ _ t => decide (t.toNat ≤ 4)
  | .vredmin _ _ _ _ t => decide (t.toNat ≤ 4)
  | .vredx _ _ _ _ t => decide (intType t)
  | .tsew _ _ _ b o => decide (o.toNat ≤ 6 ∧ (o = 5 → b = 0))
  | .tsred _ _ _ o => decide (o.toNat ≤ 2)
  | .mwait _ _ _ b => decide (even b)
  | .gmmq _ _ s => decide (s.toNat ≤ 3)
  | .lstat _ _ _ s => decide (s.toNat ≤ 3)
  | .tlbw _ d _ => decide (even d)
  | .tlbinv _ _ a _ s => decide (even a ∧ 2 ≤ s.toNat ∧ s.toNat ≤ 4)
  | .tlbq _ _ a s => decide (s = 0 → even a)
  | .bloop _ _ len => decide (len ≠ 0)
  | .scmp _ _ _ _ _ c => decide (c.toNat ≤ 5)
  | .bvfma _ _ _ _ _ ty _ _ => decide (ty.toNat ≤ 1)
  | .bvcvt _ _ _ _ _ _ _ mode => decide (mode.toNat ≤ 3)
  | .bvcmp _ _ _ _ _ _ mode c => decide (mode.toNat ≤ 2 ∧ c.toNat ≤ 5)
  | .bwaittl _ _ e => decide (e.toNat ≤ 4)
  | .bsync _ _ _ l => decide (l.toNat ≤ 5)
  | .awld g bank src a pw => EngineSlot.assigned (.awld g bank src a pw)
  | .aprov g d st clr => EngineSlot.assigned (.aprov g d st clr)
  | .xbcast g d a w s => EngineSlot.assigned (.xbcast g d a w s)
  | .qbind g q kind unit sh a => EngineSlot.assigned (.qbind g q kind unit sh a)
  | _ => true

/-- A field that an operation of an engine slot does not use is zero (R265, R271, R273). -/
@[simp] def EngineSlot.unusedZero : EngineSlot → Bool
  | .awld _ _ src a _ => decide (src = 1 → a = 0)
  | .aiss _ q rb _ _ _ => decide (rb = 1 → q = 0)
  | .qbind _ _ kind _ sh a => decide ((kind = 2 → sh = 0) ∧ (kind ≠ 2 → a = 0))
  | _ => true

/-- A field that the operation does not use, given its other fields, is zero (R143, R261 to R273). -/
@[simp] def unusedZero : Instr → Bool
  | .sadd _ _ _ _ i x => decide (i = 0 → x = 0)
  | .ssub _ _ _ _ i x => decide (i = 0 → x = 0)
  | .smul _ _ _ _ i x => decide (i = 0 → x = 0)
  | .sand _ _ _ _ i x => decide (i = 0 → x = 0)
  | .sor _ _ _ _ i x => decide (i = 0 → x = 0)
  | .sxor _ _ _ _ i x => decide (i = 0 → x = 0)
  | .sshl _ _ _ _ i x => decide (i = 0 → x = 0)
  | .sshr _ _ _ _ i x => decide (i = 0 → x = 0)
  | .bvadd _ _ d a b _ qa qb qd => decide (qOk qa a ∧ qOk qb b ∧ qOk qd d)
  | .bvmul _ _ d a b _ qa qb qd => decide (qOk qa a ∧ qOk qb b ∧ qOk qd d)
  | .bvfma _ _ _ a b _ qa qb => decide (qOk qa a ∧ qOk qb b)
  | .bvmax _ _ d a b _ qa qb qd => decide (qOk qa a ∧ qOk qb b ∧ qOk qd d)
  | .bvcvt _ _ d a _ qa qd _ => decide (qOk qa a ∧ qOk qd d)
  | .bvqnt _ _ d a _ _ qa qd => decide (qOk qa a ∧ qOk qd d)
  | .bvmov _ _ d a qa qd => decide (qOk qa a ∧ qOk qd d)
  | .awld g bank src a pw => EngineSlot.unusedZero (.awld g bank src a pw)
  | .aiss g q rb two pa r => EngineSlot.unusedZero (.aiss g q rb two pa r)
  | .qbind g q kind unit sh a => EngineSlot.unusedZero (.qbind g q kind unit sh a)
  | _ => true

/-- A slot's predicate destination lies in its cluster: p1 to p7 for slot 1, p8 to p11 for slot 2, p12 to p15 for slot 3
(R142). -/
@[simp] def inCluster : Instr → Bool
  | .scmp _ d _ _ _ _ => decide (1 ≤ d.toNat ∧ d.toNat ≤ 7)
  | .bvcmp _ sl d _ _ _ _ _ => if sl = 0 then decide (8 ≤ d.toNat ∧ d.toNat ≤ 11) else decide (12 ≤ d.toNat)
  | _ => true

/-- Assigned, with unused fields zero and predicates in their cluster. -/
def wellFormed (i : Instr) : Bool := assigned i && unusedZero i && inCluster i

end Sys2Proof
end

