-- ==== Sys2Proof/Decode.lean ====
section
/-!
DEFINITION. Encoder and decoder of strand words and bundle slots (R124 to R143). `encode` writes the bits of an operation
from its fields; `candidate` chooses the operation that a word's major and function fields name and reads its operand
fields; a word decodes when its candidate is well formed and encodes to the word again, so that every fixed, reserved
or unused bit is checked. Every refusal has a name.
-/

namespace Sys2Proof

/-- Why a strand word is illegal (R127). -/
inductive Illegal where
  /-- The major is reserved, or no function, size or type value of the major names a form. -/
  | unassigned
  /-- A form is named, but a field value it carries is unassigned. -/
  | value
  /-- A field that is reserved or unused is non-zero. -/
  | reserved
  /-- Fewer than the word's four bytes were given. -/
  | short
  deriving DecidableEq, Repr

/-- The 32 bits of an operation of an engine slot (R139, R264 to R276). -/
def EngineSlot.encode : EngineSlot → BitVec 32
  | .awld g bank src a pw => 1#5 ++ g.gn ++ g.gp ++ bank ++ src ++ 0#2 ++ a ++ pw ++ 0#9
  | .aswapSlot g set bank => 2#5 ++ g.gn ++ g.gp ++ 0#20 ++ set ++ bank
  | .aiss g q rb two pa r => 3#5 ++ g.gn ++ g.gp ++ q ++ rb ++ two ++ pa ++ r ++ 0#6
  | .azero g r n => 4#5 ++ g.gn ++ g.gp ++ 0#6 ++ r ++ n ++ 0#2
  | .ashout g q fmt clr r n => 5#5 ++ g.gn ++ g.gp ++ q ++ fmt ++ clr ++ r ++ n ++ 0#2
  | .aprov g d st clr => 6#5 ++ g.gn ++ g.gp ++ d ++ st ++ clr ++ 0#15
  | .tcopy g d a b => 1#5 ++ g.gn ++ g.gp ++ d ++ a ++ b ++ 0#7
  | .tgath g d a b => 2#5 ++ g.gn ++ g.gp ++ d ++ a ++ b ++ 0#7
  | .tscat g d a b => 3#5 ++ g.gn ++ g.gp ++ d ++ a ++ b ++ 0#7
  | .txfer g d a b => 4#5 ++ g.gn ++ g.gp ++ d ++ a ++ b ++ 0#7
  | .tsend g d a b q => 5#5 ++ g.gn ++ g.gp ++ d ++ a ++ b ++ q ++ 0#4
  | .xperm g d a b w => 1#5 ++ g.gn ++ g.gp ++ d ++ a ++ b ++ w ++ 0#5
  | .xbcast g d a w s => 2#5 ++ g.gn ++ g.gp ++ d ++ a ++ 0#4 ++ s.extractLsb' 5 1 ++ w ++ s.extractLsb' 0 5
  | .xrot g d a w s => 3#5 ++ g.gn ++ g.gp ++ d ++ a ++ 0#4 ++ s.extractLsb' 5 1 ++ w ++ s.extractLsb' 0 5
  | .qbind g q kind unit sh a => 1#5 ++ g.gn ++ g.gp ++ q ++ kind ++ unit ++ sh ++ a ++ 0#7
  | .qadv g q a => 2#5 ++ g.gn ++ g.gp ++ q ++ 0#2 ++ a ++ 0#12
  | .qwaitf g q n => 3#5 ++ g.gn ++ g.gp ++ q ++ n ++ 0#11
  | .qwaite g q => 4#5 ++ g.gn ++ g.gp ++ q ++ 0#19
  | .scexp g a => 5#5 ++ g.gn ++ g.gp ++ 0#5 ++ a ++ 0#12

/-- The 32 bits of a strand word or bundle slot. A device step has no encoding; its bits are given as 0. -/
def encode : Instr → BitVec 32
  | .add g d a b => 1#6 ++ g.gn ++ g.gp ++ d ++ a ++ b ++ 0#7
  | .sub g d a b => 1#6 ++ g.gn ++ g.gp ++ d ++ a ++ b ++ 1#7
  | .mul g d a b => 1#6 ++ g.gn ++ g.gp ++ d ++ a ++ b ++ 2#7
  | .mulh g d a b => 1#6 ++ g.gn ++ g.gp ++ d ++ a ++ b ++ 3#7
  | .mulhz g d a b => 1#6 ++ g.gn ++ g.gp ++ d ++ a ++ b ++ 4#7
  | .div g d a b => 1#6 ++ g.gn ++ g.gp ++ d ++ a ++ b ++ 5#7
  | .divz g d a b => 1#6 ++ g.gn ++ g.gp ++ d ++ a ++ b ++ 6#7
  | .rem g d a b => 1#6 ++ g.gn ++ g.gp ++ d ++ a ++ b ++ 7#7
  | .remz g d a b => 1#6 ++ g.gn ++ g.gp ++ d ++ a ++ b ++ 8#7
  | .and g d a b => 1#6 ++ g.gn ++ g.gp ++ d ++ a ++ b ++ 9#7
  | .or g d a b => 1#6 ++ g.gn ++ g.gp ++ d ++ a ++ b ++ 10#7
  | .xor g d a b => 1#6 ++ g.gn ++ g.gp ++ d ++ a ++ b ++ 11#7
  | .andn g d a b => 1#6 ++ g.gn ++ g.gp ++ d ++ a ++ b ++ 12#7
  | .shl g d a b => 1#6 ++ g.gn ++ g.gp ++ d ++ a ++ b ++ 13#7
  | .shr g d a b => 1#6 ++ g.gn ++ g.gp ++ d ++ a ++ b ++ 14#7
  | .sha g d a b => 1#6 ++ g.gn ++ g.gp ++ d ++ a ++ b ++ 15#7
  | .rol g d a b => 1#6 ++ g.gn ++ g.gp ++ d ++ a ++ b ++ 16#7
  | .min g d a b => 1#6 ++ g.gn ++ g.gp ++ d ++ a ++ b ++ 17#7
  | .max g d a b => 1#6 ++ g.gn ++ g.gp ++ d ++ a ++ b ++ 18#7
  | .minz g d a b => 1#6 ++ g.gn ++ g.gp ++ d ++ a ++ b ++ 19#7
  | .maxz g d a b => 1#6 ++ g.gn ++ g.gp ++ d ++ a ++ b ++ 20#7
  | .clz g d a => 1#6 ++ g.gn ++ g.gp ++ d ++ a ++ 21#12
  | .ctz g d a => 1#6 ++ g.gn ++ g.gp ++ d ++ a ++ 22#12
  | .popc g d a => 1#6 ++ g.gn ++ g.gp ++ d ++ a ++ 23#12
  | .bswap g d a => 1#6 ++ g.gn ++ g.gp ++ d ++ a ++ 24#12
  | .sext g d a w => 1#6 ++ g.gn ++ g.gp ++ d ++ a ++ 0#3 ++ w ++ 25#7
  | .zext g d a w => 1#6 ++ g.gn ++ g.gp ++ d ++ a ++ 0#3 ++ w ++ 26#7
  | .sel g d a b => 1#6 ++ g.gn ++ g.gp ++ d ++ a ++ b ++ 27#7
  | .addi g d a i => 2#6 ++ g.gn ++ g.gp ++ d ++ a ++ i
  | .andi g d a i => 3#6 ++ g.gn ++ g.gp ++ d ++ a ++ i
  | .ori g d a i => 4#6 ++ g.gn ++ g.gp ++ d ++ a ++ i
  | .xori g d a i => 5#6 ++ g.gn ++ g.gp ++ d ++ a ++ i
  | .shli g d a s => 6#6 ++ g.gn ++ g.gp ++ d ++ a ++ 0#6 ++ s
  | .shri g d a s => 7#6 ++ g.gn ++ g.gp ++ d ++ a ++ 0#6 ++ s
  | .shai g d a s => 8#6 ++ g.gn ++ g.gp ++ d ++ a ++ 0#6 ++ s
  | .li g d i => 9#6 ++ g.gn ++ g.gp ++ d ++ i
  | .lih g d i => 10#6 ++ g.gn ++ g.gp ++ d ++ 0#1 ++ i
  | .bfx g d a e o => 11#6 ++ g.gn ++ g.gp ++ d ++ a ++ e ++ o
  | .bfi g d a e o => 12#6 ++ g.gn ++ g.gp ++ d ++ a ++ e ++ o
  | .cmp g d a b c => 13#6 ++ g.gn ++ g.gp ++ 0#1 ++ d ++ a ++ b ++ c
  | .cmpi g d a c i => 14#6 ++ g.gn ++ g.gp ++ 0#1 ++ d ++ a ++ c ++ i
  | .pand g d a b => 15#6 ++ g.gn ++ g.gp ++ 0#1 ++ d ++ 0#1 ++ a ++ 0#1 ++ b ++ 0#7
  | .por g d a b => 15#6 ++ g.gn ++ g.gp ++ 0#1 ++ d ++ 0#1 ++ a ++ 0#1 ++ b ++ 1#7
  | .pxor g d a b => 15#6 ++ g.gn ++ g.gp ++ 0#1 ++ d ++ 0#1 ++ a ++ 0#1 ++ b ++ 2#7
  | .pandn g d a b => 15#6 ++ g.gn ++ g.gp ++ 0#1 ++ d ++ 0#1 ++ a ++ 0#1 ++ b ++ 3#7
  | .pnot g d a => 15#6 ++ g.gn ++ g.gp ++ 0#1 ++ d ++ 0#1 ++ a ++ 4#12
  | .pset g d => 15#6 ++ g.gn ++ g.gp ++ 0#1 ++ d ++ 5#17
  | .pclr g d => 15#6 ++ g.gn ++ g.gp ++ 0#1 ++ d ++ 6#17
  | .padd g d a b => 16#6 ++ g.gn ++ g.gp ++ d ++ a ++ b ++ 0#7
  | .paddi g d a i => 17#6 ++ g.gn ++ g.gp ++ d ++ a ++ i
  | .ptag g d a f k => 18#6 ++ g.gn ++ g.gp ++ d ++ a ++ 0#4 ++ f ++ k
  | .pgetf g d a => 19#6 ++ g.gn ++ g.gp ++ d ++ a ++ 0#12
  | .pgetb g d a => 19#6 ++ g.gn ++ g.gp ++ d ++ a ++ 1#12
  | .pstrip g d a => 19#6 ++ g.gn ++ g.gp ++ d ++ a ++ 2#12
  | .br g o => 20#6 ++ g.gn ++ g.gp ++ o
  | .brl g o => 21#6 ++ g.gn ++ g.gp ++ o
  | .jr g a => 22#6 ++ g.gn ++ g.gp ++ 0#5 ++ a ++ 0#12
  | .jrl g d a => 22#6 ++ g.gn ++ g.gp ++ d ++ a ++ 1#12
  | .loop g d l => 23#6 ++ g.gn ++ g.gp ++ d ++ 0#5 ++ l
  | .lidx g d k => 24#6 ++ g.gn ++ g.gp ++ d ++ k ++ 0#12
  | .lbrk g k => 24#6 ++ g.gn ++ g.gp ++ 0#5 ++ k ++ 1#12
  | .lcnt g d k => 24#6 ++ g.gn ++ g.gp ++ d ++ k ++ 2#12
  | .frame g a s c => 25#6 ++ g.gn ++ g.gp ++ 0#5 ++ a ++ s ++ 0#3 ++ c
  | .yield g  => 26#6 ++ g.gn ++ g.gp ++ 0#22
  | .exit g a => 26#6 ++ g.gn ++ g.gp ++ 0#5 ++ a ++ 256#12
  | .self g d s => 26#6 ++ g.gn ++ g.gp ++ d ++ 2#9 ++ s
  | .spawn g d a b => 26#6 ++ g.gn ++ g.gp ++ d ++ a ++ 3#4 ++ b ++ 0#3
  | .spawnn g d a b => 26#6 ++ g.gn ++ g.gp ++ d ++ a ++ 4#4 ++ b ++ 0#3
  | .join g d a => 26#6 ++ g.gn ++ g.gp ++ d ++ a ++ 1280#12
  | .prio g d a => 26#6 ++ g.gn ++ g.gp ++ d ++ a ++ 1536#12
  | .park g  => 26#6 ++ g.gn ++ g.gp ++ 1792#22
  | .wake g a => 26#6 ++ g.gn ++ g.gp ++ 0#5 ++ a ++ 2048#12
  | .forge g  => 26#6 ++ g.gn ++ g.gp ++ 2304#22
  | .ld g d b z o => 27#6 ++ g.gn ++ g.gp ++ d ++ b ++ z ++ o
  | .ldz g d b z o => 28#6 ++ g.gn ++ g.gp ++ d ++ b ++ z ++ o
  | .st g d b z o => 29#6 ++ g.gn ++ g.gp ++ d ++ b ++ z ++ o
  | .ldv g d b o => 30#6 ++ g.gn ++ g.gp ++ d ++ b ++ 0#2 ++ o
  | .stv g d b o => 31#6 ++ g.gn ++ g.gp ++ d ++ b ++ 0#2 ++ o
  | .ldf g d b o => 32#6 ++ g.gn ++ g.gp ++ d ++ b ++ 0#2 ++ o
  | .stf g d b o => 33#6 ++ g.gn ++ g.gp ++ d ++ b ++ 0#2 ++ o
  | .lda g d a c z => 34#6 ++ g.gn ++ g.gp ++ d ++ a ++ 0#2 ++ c ++ 0#3 ++ z ++ 0#2
  | .strl g d a c z => 34#6 ++ g.gn ++ g.gp ++ d ++ a ++ 0#2 ++ c ++ 1#3 ++ z ++ 0#2
  | .ldx g d a b z => 34#6 ++ g.gn ++ g.gp ++ d ++ a ++ b ++ 2#3 ++ z ++ 0#2
  | .ldzx g d a b z => 34#6 ++ g.gn ++ g.gp ++ d ++ a ++ b ++ 3#3 ++ z ++ 0#2
  | .stx g d a b z => 34#6 ++ g.gn ++ g.gp ++ d ++ a ++ b ++ 4#3 ++ z ++ 0#2
  | .pref g a b => 34#6 ++ g.gn ++ g.gp ++ 0#5 ++ a ++ b ++ 80#7
  | .aadd g d a b z => 35#6 ++ g.gn ++ g.gp ++ d ++ a ++ b ++ z ++ 0#5
  | .aand g d a b z => 35#6 ++ g.gn ++ g.gp ++ d ++ a ++ b ++ z ++ 1#5
  | .aor g d a b z => 35#6 ++ g.gn ++ g.gp ++ d ++ a ++ b ++ z ++ 2#5
  | .axor g d a b z => 35#6 ++ g.gn ++ g.gp ++ d ++ a ++ b ++ z ++ 3#5
  | .amin g d a b z => 35#6 ++ g.gn ++ g.gp ++ d ++ a ++ b ++ z ++ 4#5
  | .amax g d a b z => 35#6 ++ g.gn ++ g.gp ++ d ++ a ++ b ++ z ++ 5#5
  | .aminz g d a b z => 35#6 ++ g.gn ++ g.gp ++ d ++ a ++ b ++ z ++ 6#5
  | .amaxz g d a b z => 35#6 ++ g.gn ++ g.gp ++ d ++ a ++ b ++ z ++ 7#5
  | .aswap g d a b z => 35#6 ++ g.gn ++ g.gp ++ d ++ a ++ b ++ z ++ 8#5
  | .acas g d a b z => 35#6 ++ g.gn ++ g.gp ++ d ++ a ++ b ++ z ++ 9#5
  | .acas16 g d a b => 35#6 ++ g.gn ++ g.gp ++ d ++ a ++ b ++ 74#7
  | .cadd g a b f => 36#6 ++ g.gn ++ g.gp ++ 0#5 ++ a ++ b ++ f ++ 0#2
  | .cmax g a b f => 36#6 ++ g.gn ++ g.gp ++ 0#5 ++ a ++ b ++ f ++ 1#2
  | .cmin g a b f => 36#6 ++ g.gn ++ g.gp ++ 0#5 ++ a ++ b ++ f ++ 2#2
  | .cor g a b f => 36#6 ++ g.gn ++ g.gp ++ 0#5 ++ a ++ b ++ f ++ 3#2
  | .fence g s => 37#6 ++ g.gn ++ g.gp ++ 0#19 ++ s
  | .fencee g s => 37#6 ++ g.gn ++ g.gp ++ 32#19 ++ s
  | .sync g d a l => 37#6 ++ g.gn ++ g.gp ++ d ++ a ++ 2#4 ++ l
  | .domget g d l => 37#6 ++ g.gn ++ g.gp ++ d ++ 3#9 ++ l
  | .phase g d => 37#6 ++ g.gn ++ g.gp ++ d ++ 1024#17
  | .xchg g d a l => 37#6 ++ g.gn ++ g.gp ++ d ++ a ++ 5#4 ++ l
  | .snap g d a => 38#6 ++ g.gn ++ g.gp ++ d ++ a ++ 0#12
  | .accept g d a => 38#6 ++ g.gn ++ g.gp ++ d ++ a ++ 256#12
  | .reject g d a => 38#6 ++ g.gn ++ g.gp ++ d ++ a ++ 512#12
  | .snapq g d a => 38#6 ++ g.gn ++ g.gp ++ d ++ a ++ 768#12
  | .torder g a l => 38#6 ++ g.gn ++ g.gp ++ 0#5 ++ a ++ 4#4 ++ l
  | .tbegin g a => 38#6 ++ g.gn ++ g.gp ++ 0#5 ++ a ++ 1280#12
  | .tcommit g  => 38#6 ++ g.gn ++ g.gp ++ 1536#22
  | .tabort g  => 38#6 ++ g.gn ++ g.gp ++ 1792#22
  | .tstat g d => 38#6 ++ g.gn ++ g.gp ++ d ++ 2048#17
  | .tlwait g d a e => 39#6 ++ g.gn ++ g.gp ++ d ++ a ++ 0#9 ++ e
  | .tlread g d l e => 39#6 ++ g.gn ++ g.gp ++ d ++ 16#13 ++ l ++ e
  | .msend g a b => 40#6 ++ g.gn ++ g.gp ++ 0#5 ++ a ++ 0#4 ++ b ++ 0#3
  | .msende g a b => 40#6 ++ g.gn ++ g.gp ++ 0#5 ++ a ++ 1#4 ++ b ++ 0#3
  | .deposit g d a r c => 40#6 ++ g.gn ++ g.gp ++ d ++ a ++ 2#4 ++ r ++ c
  | .nread g d a r n => 40#6 ++ g.gn ++ g.gp ++ d ++ a ++ 3#4 ++ r ++ n
  | .mrecv g d n k m => 40#6 ++ g.gn ++ g.gp ++ d ++ 4#9 ++ n ++ 0#3 ++ k ++ m
  | .rebind g d a b => 41#6 ++ g.gn ++ g.gp ++ d ++ a ++ 0#4 ++ b ++ 0#3
  | .bindq g d a s => 41#6 ++ g.gn ++ g.gp ++ d ++ a ++ 1#4 ++ s
  | .rngx g d a b => 42#6 ++ g.gn ++ g.gp ++ d ++ a ++ b ++ 0#7
  | .rngsDraw g d a h => 42#6 ++ g.gn ++ g.gp ++ d ++ a ++ 0#4 ++ h ++ 1#7
  | .rngsLoad g d a h => 42#6 ++ g.gn ++ g.gp ++ d ++ a ++ 1#4 ++ h ++ 1#7
  | .hinit g a k => 42#6 ++ g.gn ++ g.gp ++ 0#5 ++ a ++ 0#2 ++ k ++ 2#7
  | .hsift g d a b => 42#6 ++ g.gn ++ g.gp ++ d ++ a ++ b ++ 3#7
  | .hpop g d a n => 42#6 ++ g.gn ++ g.gp ++ d ++ a ++ 0#1 ++ n ++ 4#7
  | .vadd g d a b t => 43#6 ++ g.gn ++ g.gp ++ d ++ a ++ b ++ t ++ 0#3
  | .vsub g d a b t => 43#6 ++ g.gn ++ g.gp ++ d ++ a ++ b ++ t ++ 1#3
  | .vmul g d a b t => 43#6 ++ g.gn ++ g.gp ++ d ++ a ++ b ++ t ++ 2#3
  | .vfma g d a b t => 43#6 ++ g.gn ++ g.gp ++ d ++ a ++ b ++ t ++ 3#3
  | .vfms g d a b t => 43#6 ++ g.gn ++ g.gp ++ d ++ a ++ b ++ t ++ 4#3
  | .vmin g d a b t => 43#6 ++ g.gn ++ g.gp ++ d ++ a ++ b ++ t ++ 5#3
  | .vmax g d a b t => 43#6 ++ g.gn ++ g.gp ++ d ++ a ++ b ++ t ++ 6#3
  | .vdiv g d a b t => 43#6 ++ g.gn ++ g.gp ++ d ++ a ++ b ++ t ++ 7#3
  | .vabs g d a t => 44#6 ++ g.gn ++ g.gp ++ d ++ a ++ 0#5 ++ t ++ 0#3
  | .vneg g d a t => 44#6 ++ g.gn ++ g.gp ++ d ++ a ++ 0#5 ++ t ++ 1#3
  | .vsqrt g d a t => 44#6 ++ g.gn ++ g.gp ++ d ++ a ++ 0#5 ++ t ++ 2#3
  | .vrcp g d a t => 44#6 ++ g.gn ++ g.gp ++ d ++ a ++ 0#5 ++ t ++ 3#3
  | .vrsq g d a t => 44#6 ++ g.gn ++ g.gp ++ d ++ a ++ 0#5 ++ t ++ 4#3
  | .vexp g d a t => 44#6 ++ g.gn ++ g.gp ++ d ++ a ++ 0#5 ++ t ++ 5#3
  | .vlog2 g d a t => 44#6 ++ g.gn ++ g.gp ++ d ++ a ++ 0#5 ++ t ++ 6#3
  | .vsig g d a t => 44#6 ++ g.gn ++ g.gp ++ d ++ a ++ 0#5 ++ t ++ 7#3
  | .viadd g d a b t => 45#6 ++ g.gn ++ g.gp ++ d ++ a ++ b ++ t ++ 0#3
  | .visub g d a b t => 45#6 ++ g.gn ++ g.gp ++ d ++ a ++ b ++ t ++ 1#3
  | .vimul g d a b t => 45#6 ++ g.gn ++ g.gp ++ d ++ a ++ b ++ t ++ 2#3
  | .vand g d a b t => 45#6 ++ g.gn ++ g.gp ++ d ++ a ++ b ++ t ++ 3#3
  | .vor g d a b t => 45#6 ++ g.gn ++ g.gp ++ d ++ a ++ b ++ t ++ 4#3
  | .vxor g d a b t => 45#6 ++ g.gn ++ g.gp ++ d ++ a ++ b ++ t ++ 5#3
  | .vshl g d a b t => 45#6 ++ g.gn ++ g.gp ++ d ++ a ++ b ++ t ++ 6#3
  | .vshr g d a b t => 45#6 ++ g.gn ++ g.gp ++ d ++ a ++ b ++ t ++ 7#3
  | .vcmp g d a b t c => 46#6 ++ g.gn ++ g.gp ++ 0#2 ++ d ++ a ++ b ++ t ++ c
  | .vselm g d a b t => 47#6 ++ g.gn ++ g.gp ++ d ++ a ++ 0#2 ++ b ++ t ++ 0#3
  | .mand g d a b => 47#6 ++ g.gn ++ g.gp ++ 0#2 ++ d ++ 0#2 ++ a ++ 0#2 ++ b ++ 1#7
  | .mor g d a b => 47#6 ++ g.gn ++ g.gp ++ 0#2 ++ d ++ 0#2 ++ a ++ 0#2 ++ b ++ 2#7
  | .mxor g d a b => 47#6 ++ g.gn ++ g.gp ++ 0#2 ++ d ++ 0#2 ++ a ++ 0#2 ++ b ++ 3#7
  | .mnot g d a => 47#6 ++ g.gn ++ g.gp ++ 0#2 ++ d ++ 0#2 ++ a ++ 4#12
  | .mpop g d a => 47#6 ++ g.gn ++ g.gp ++ d ++ 0#2 ++ a ++ 5#12
  | .mfirst g d a => 47#6 ++ g.gn ++ g.gp ++ d ++ 0#2 ++ a ++ 6#12
  | .vcvt g d a r c t => 48#6 ++ g.gn ++ g.gp ++ d ++ a ++ r ++ c ++ t ++ 0#3
  | .vqnt g d a b t => 48#6 ++ g.gn ++ g.gp ++ d ++ a ++ b ++ t ++ 1#3
  | .vdqnt g d a b t => 48#6 ++ g.gn ++ g.gp ++ d ++ a ++ b ++ t ++ 2#3
  | .vperm g d a b t => 49#6 ++ g.gn ++ g.gp ++ d ++ a ++ b ++ t ++ 0#3
  | .vbcast g d a t => 49#6 ++ g.gn ++ g.gp ++ d ++ a ++ 0#5 ++ t ++ 1#3
  | .vext g d a b t => 49#6 ++ g.gn ++ g.gp ++ d ++ a ++ b ++ t ++ 2#3
  | .vins g d a b t => 49#6 ++ g.gn ++ g.gp ++ d ++ a ++ b ++ t ++ 3#3
  | .vslide g d a b t => 49#6 ++ g.gn ++ g.gp ++ d ++ a ++ b ++ t ++ 4#3
  | .vredadd g d a b t => 50#6 ++ g.gn ++ g.gp ++ d ++ a ++ 0#2 ++ b ++ t ++ 0#3
  | .vredmax g d a b t => 50#6 ++ g.gn ++ g.gp ++ d ++ a ++ 0#2 ++ b ++ t ++ 1#3
  | .vredmin g d a b t => 50#6 ++ g.gn ++ g.gp ++ d ++ a ++ 0#2 ++ b ++ t ++ 2#3
  | .vredx g d a b t => 50#6 ++ g.gn ++ g.gp ++ d ++ a ++ 0#2 ++ b ++ t ++ 3#3
  | .shset g d a => 51#6 ++ g.gn ++ g.gp ++ 0#2 ++ d ++ a ++ 0#12
  | .shget g d a => 51#6 ++ g.gn ++ g.gp ++ d ++ 0#2 ++ a ++ 1#12
  | .tsew g d a b o => 51#6 ++ g.gn ++ g.gp ++ 0#2 ++ d ++ 0#2 ++ a ++ 0#2 ++ b ++ o ++ 2#3
  | .tsred g d a o => 51#6 ++ g.gn ++ g.gp ++ 0#2 ++ d ++ 0#2 ++ a ++ 0#5 ++ o ++ 3#3
  | .tscvt g d a r => 51#6 ++ g.gn ++ g.gp ++ 0#2 ++ d ++ 0#2 ++ a ++ 0#7 ++ r ++ 4#3
  | .mmj g a => 52#6 ++ g.gn ++ g.gp ++ 0#5 ++ a ++ 0#12
  | .mcommit g d => 52#6 ++ g.gn ++ g.gp ++ d ++ 256#17
  | .mwait g d a b => 52#6 ++ g.gn ++ g.gp ++ d ++ a ++ 2#4 ++ b ++ 0#3
  | .accrel g a => 52#6 ++ g.gn ++ g.gp ++ 0#5 ++ a ++ 768#12
  | .accrd g a b => 52#6 ++ g.gn ++ g.gp ++ 0#5 ++ a ++ 4#4 ++ b ++ 0#3
  | .cpy g d a b => 53#6 ++ g.gn ++ g.gp ++ d ++ a ++ 0#4 ++ b ++ 0#3
  | .gath g d a b => 53#6 ++ g.gn ++ g.gp ++ d ++ a ++ 1#4 ++ b ++ 0#3
  | .scat g d a b => 53#6 ++ g.gn ++ g.gp ++ d ++ a ++ 2#4 ++ b ++ 0#3
  | .xfer g d a => 53#6 ++ g.gn ++ g.gp ++ d ++ a ++ 768#12
  | .dspcnt g d a b => 54#6 ++ g.gn ++ g.gp ++ d ++ a ++ 0#4 ++ b ++ 0#3
  | .dspgo g d a => 54#6 ++ g.gn ++ g.gp ++ d ++ a ++ 256#12
  | .dspcmb g d a => 54#6 ++ g.gn ++ g.gp ++ d ++ a ++ 512#12
  | .gmm g d a => 54#6 ++ g.gn ++ g.gp ++ d ++ a ++ 768#12
  | .gmmq g d s => 54#6 ++ g.gn ++ g.gp ++ d ++ 4#9 ++ s
  | .wstream g d a => 55#6 ++ g.gn ++ g.gp ++ d ++ a ++ 0#12
  | .wpin g d a b => 55#6 ++ g.gn ++ g.gp ++ d ++ a ++ 1#4 ++ b ++ 0#3
  | .wunpin g d a b => 55#6 ++ g.gn ++ g.gp ++ d ++ a ++ 2#4 ++ b ++ 0#3
  | .wpol g d a b => 55#6 ++ g.gn ++ g.gp ++ d ++ a ++ 3#4 ++ b ++ 0#3
  | .launch g d a => 56#6 ++ g.gn ++ g.gp ++ d ++ a ++ 0#12
  | .lstat g d a s => 56#6 ++ g.gn ++ g.gp ++ d ++ a ++ 1#4 ++ s
  | .srd g d m => 57#6 ++ g.gn ++ g.gp ++ d ++ 0#5 ++ m
  | .swr g d m => 57#6 ++ g.gn ++ g.gp ++ d ++ 1#5 ++ m
  | .tretResume g d c => 57#6 ++ g.gn ++ g.gp ++ d ++ 1024#14 ++ c ++ 0#2
  | .tretSkip g d c => 57#6 ++ g.gn ++ g.gp ++ d ++ 1024#14 ++ c ++ 1#2
  | .tretKill g d c => 57#6 ++ g.gn ++ g.gp ++ d ++ 1024#14 ++ c ++ 2#2
  | .tlbw g d c => 57#6 ++ g.gn ++ g.gp ++ d ++ 3#5 ++ c ++ 0#7
  | .tlbinv g d a n s => 57#6 ++ g.gn ++ g.gp ++ d ++ 4#5 ++ a ++ 0#3 ++ n ++ s
  | .tlbq g d a s => 57#6 ++ g.gn ++ g.gp ++ d ++ 5#5 ++ a ++ 0#5 ++ s
  | .ctxevict g d k => 57#6 ++ g.gn ++ g.gp ++ d ++ 6#5 ++ k ++ 0#7
  | .ctxfill g d k => 57#6 ++ g.gn ++ g.gp ++ d ++ 7#5 ++ k ++ 0#7
  | .haltcQuiesce g d => 57#6 ++ g.gn ++ g.gp ++ d ++ 32768#17
  | .haltcRelease g d => 57#6 ++ g.gn ++ g.gp ++ d ++ 32769#17
  | .trapi g a x => 58#6 ++ g.gn ++ g.gp ++ 0#5 ++ a ++ 0#4 ++ x
  | .brk g x => 58#6 ++ g.gn ++ g.gp ++ 1#14 ++ x
  | .bbr g off => 1#5 ++ g.gn ++ g.gp ++ off
  | .bloop g d len => 2#5 ++ g.gn ++ g.gp ++ d ++ 0#5 ++ len
  | .bleave g  => 3#5 ++ g.gn ++ g.gp ++ 0#22
  | .sadd g d a b i x => 1#5 ++ g.gn ++ g.gp ++ d ++ a ++ b ++ i ++ x
  | .ssub g d a b i x => 2#5 ++ g.gn ++ g.gp ++ d ++ a ++ b ++ i ++ x
  | .smul g d a b i x => 3#5 ++ g.gn ++ g.gp ++ d ++ a ++ b ++ i ++ x
  | .sand g d a b i x => 4#5 ++ g.gn ++ g.gp ++ d ++ a ++ b ++ i ++ x
  | .sor g d a b i x => 5#5 ++ g.gn ++ g.gp ++ d ++ a ++ b ++ i ++ x
  | .sxor g d a b i x => 6#5 ++ g.gn ++ g.gp ++ d ++ a ++ b ++ i ++ x
  | .sshl g d a b i x => 7#5 ++ g.gn ++ g.gp ++ d ++ a ++ b ++ i ++ x
  | .sshr g d a b i x => 8#5 ++ g.gn ++ g.gp ++ d ++ a ++ b ++ i ++ x
  | .sli g d i => 9#5 ++ g.gn ++ g.gp ++ d ++ i
  | .scmp g d a b i c => 10#5 ++ g.gn ++ g.gp ++ 0#1 ++ d ++ a ++ b ++ i ++ 0#3 ++ c
  | .smovqPop g d q => 11#5 ++ g.gn ++ g.gp ++ d ++ 0#2 ++ q ++ 0#5 ++ 0#6 ++ 0#1
  | .smovqAppend g q a => 11#5 ++ g.gn ++ g.gp ++ 0#2 ++ q ++ a ++ 0#5 ++ 0#6 ++ 1#1
  | .bvadd g _ d a b ty qa qb qd => 1#5 ++ g.gn ++ g.gp ++ d ++ a ++ b ++ ty ++ qa ++ qb ++ qd ++ 0#2
  | .bvmul g _ d a b ty qa qb qd => 2#5 ++ g.gn ++ g.gp ++ d ++ a ++ b ++ ty ++ qa ++ qb ++ qd ++ 0#2
  | .bvfma g _ d a b ty qa qb => 3#5 ++ g.gn ++ g.gp ++ d ++ a ++ b ++ ty ++ qa ++ qb ++ 0#3
  | .bvmax g _ d a b ty qa qb qd => 4#5 ++ g.gn ++ g.gp ++ d ++ a ++ b ++ ty ++ qa ++ qb ++ qd ++ 0#2
  | .bvcvt g _ d a ty qa qd mode => 5#5 ++ g.gn ++ g.gp ++ d ++ a ++ 0#5 ++ ty ++ qa ++ qd ++ mode
  | .bvqnt g _ d a b ty qa qd => 6#5 ++ g.gn ++ g.gp ++ d ++ a ++ b ++ ty ++ qa ++ qd ++ 0#3
  | .bvcmp g _ d a b ty mode c => 7#5 ++ g.gn ++ g.gp ++ 0#1 ++ d ++ a ++ b ++ ty ++ mode ++ c
  | .bvmov g _ d a qa qd => 9#5 ++ g.gn ++ g.gp ++ d ++ a ++ 0#5 ++ 0#2 ++ qa ++ qd ++ 0#3
  | .bwaittl g a e => 4#5 ++ g.gn ++ g.gp ++ 0#5 ++ a ++ 0#9 ++ e
  | .bsync g d a l => 5#5 ++ g.gn ++ g.gp ++ d ++ a ++ 0#9 ++ l
  | .bvsel g _ d a b s => 8#5 ++ g.gn ++ g.gp ++ d ++ a ++ b ++ 0#2 ++ 0#1 ++ s
  | .awld g bank src a pw => EngineSlot.encode (.awld g bank src a pw)
  | .aswapSlot g set bank => EngineSlot.encode (.aswapSlot g set bank)
  | .aiss g q rb two pa r => EngineSlot.encode (.aiss g q rb two pa r)
  | .azero g r n => EngineSlot.encode (.azero g r n)
  | .ashout g q fmt clr r n => EngineSlot.encode (.ashout g q fmt clr r n)
  | .aprov g d st clr => EngineSlot.encode (.aprov g d st clr)
  | .tcopy g d a b => EngineSlot.encode (.tcopy g d a b)
  | .tgath g d a b => EngineSlot.encode (.tgath g d a b)
  | .tscat g d a b => EngineSlot.encode (.tscat g d a b)
  | .txfer g d a b => EngineSlot.encode (.txfer g d a b)
  | .tsend g d a b q => EngineSlot.encode (.tsend g d a b q)
  | .xperm g d a b w => EngineSlot.encode (.xperm g d a b w)
  | .xbcast g d a w s => EngineSlot.encode (.xbcast g d a w s)
  | .xrot g d a w s => EngineSlot.encode (.xrot g d a w s)
  | .qbind g q kind unit sh a => EngineSlot.encode (.qbind g q kind unit sh a)
  | .qadv g q a => EngineSlot.encode (.qadv g q a)
  | .qwaitf g q n => EngineSlot.encode (.qwaitf g q n)
  | .qwaite g q => EngineSlot.encode (.qwaite g q)
  | .scexp g a => EngineSlot.encode (.scexp g a)
  | .nop _ => 0
  | _ => 0

/-- Guard field of a strand word. -/
def guardOf (w : BitVec 32) : Guard := ⟨w.extractLsb' 25 1, w.extractLsb' 22 3⟩

/-- Guard field of a bundle slot. -/
def slotGuardOf (w : BitVec 32) : SlotGuard := ⟨w.extractLsb' 26 1, w.extractLsb' 22 4⟩

/-- Forms of major 0x01 (R128). -/
def candidate01 (w : BitVec 32) : Option Instr :=
  match w.extractLsb' 0 7 with
  | 0#7 => some (.add (guardOf w) (w.extractLsb' 17 5) (w.extractLsb' 12 5) (w.extractLsb' 7 5))
  | 1#7 => some (.sub (guardOf w) (w.extractLsb' 17 5) (w.extractLsb' 12 5) (w.extractLsb' 7 5))
  | 2#7 => some (.mul (guardOf w) (w.extractLsb' 17 5) (w.extractLsb' 12 5) (w.extractLsb' 7 5))
  | 3#7 => some (.mulh (guardOf w) (w.extractLsb' 17 5) (w.extractLsb' 12 5) (w.extractLsb' 7 5))
  | 4#7 => some (.mulhz (guardOf w) (w.extractLsb' 17 5) (w.extractLsb' 12 5) (w.extractLsb' 7 5))
  | 5#7 => some (.div (guardOf w) (w.extractLsb' 17 5) (w.extractLsb' 12 5) (w.extractLsb' 7 5))
  | 6#7 => some (.divz (guardOf w) (w.extractLsb' 17 5) (w.extractLsb' 12 5) (w.extractLsb' 7 5))
  | 7#7 => some (.rem (guardOf w) (w.extractLsb' 17 5) (w.extractLsb' 12 5) (w.extractLsb' 7 5))
  | 8#7 => some (.remz (guardOf w) (w.extractLsb' 17 5) (w.extractLsb' 12 5) (w.extractLsb' 7 5))
  | 9#7 => some (.and (guardOf w) (w.extractLsb' 17 5) (w.extractLsb' 12 5) (w.extractLsb' 7 5))
  | 10#7 => some (.or (guardOf w) (w.extractLsb' 17 5) (w.extractLsb' 12 5) (w.extractLsb' 7 5))
  | 11#7 => some (.xor (guardOf w) (w.extractLsb' 17 5) (w.extractLsb' 12 5) (w.extractLsb' 7 5))
  | 12#7 => some (.andn (guardOf w) (w.extractLsb' 17 5) (w.extractLsb' 12 5) (w.extractLsb' 7 5))
  | 13#7 => some (.shl (guardOf w) (w.extractLsb' 17 5) (w.extractLsb' 12 5) (w.extractLsb' 7 5))
  | 14#7 => some (.shr (guardOf w) (w.extractLsb' 17 5) (w.extractLsb' 12 5) (w.extractLsb' 7 5))
  | 15#7 => some (.sha (guardOf w) (w.extractLsb' 17 5) (w.extractLsb' 12 5) (w.extractLsb' 7 5))
  | 16#7 => some (.rol (guardOf w) (w.extractLsb' 17 5) (w.extractLsb' 12 5) (w.extractLsb' 7 5))
  | 17#7 => some (.min (guardOf w) (w.extractLsb' 17 5) (w.extractLsb' 12 5) (w.extractLsb' 7 5))
  | 18#7 => some (.max (guardOf w) (w.extractLsb' 17 5) (w.extractLsb' 12 5) (w.extractLsb' 7 5))
  | 19#7 => some (.minz (guardOf w) (w.extractLsb' 17 5) (w.extractLsb' 12 5) (w.extractLsb' 7 5))
  | 20#7 => some (.maxz (guardOf w) (w.extractLsb' 17 5) (w.extractLsb' 12 5) (w.extractLsb' 7 5))
  | 21#7 => some (.clz (guardOf w) (w.extractLsb' 17 5) (w.extractLsb' 12 5))
  | 22#7 => some (.ctz (guardOf w) (w.extractLsb' 17 5) (w.extractLsb' 12 5))
  | 23#7 => some (.popc (guardOf w) (w.extractLsb' 17 5) (w.extractLsb' 12 5))
  | 24#7 => some (.bswap (guardOf w) (w.extractLsb' 17 5) (w.extractLsb' 12 5))
  | 25#7 => some (.sext (guardOf w) (w.extractLsb' 17 5) (w.extractLsb' 12 5) (w.extractLsb' 7 2))
  | 26#7 => some (.zext (guardOf w) (w.extractLsb' 17 5) (w.extractLsb' 12 5) (w.extractLsb' 7 2))
  | 27#7 => some (.sel (guardOf w) (w.extractLsb' 17 5) (w.extractLsb' 12 5) (w.extractLsb' 7 5))
  | _ => none

/-- Forms of major 0x0F (R128). -/
def candidate0F (w : BitVec 32) : Option Instr :=
  match w.extractLsb' 0 7 with
  | 0#7 => some (.pand (guardOf w) (w.extractLsb' 17 4) (w.extractLsb' 12 4) (w.extractLsb' 7 4))
  | 1#7 => some (.por (guardOf w) (w.extractLsb' 17 4) (w.extractLsb' 12 4) (w.extractLsb' 7 4))
  | 2#7 => some (.pxor (guardOf w) (w.extractLsb' 17 4) (w.extractLsb' 12 4) (w.extractLsb' 7 4))
  | 3#7 => some (.pandn (guardOf w) (w.extractLsb' 17 4) (w.extractLsb' 12 4) (w.extractLsb' 7 4))
  | 4#7 => some (.pnot (guardOf w) (w.extractLsb' 17 4) (w.extractLsb' 12 4))
  | 5#7 => some (.pset (guardOf w) (w.extractLsb' 17 4))
  | 6#7 => some (.pclr (guardOf w) (w.extractLsb' 17 4))
  | _ => none

/-- Forms of major 0x13 (R128). -/
def candidate13 (w : BitVec 32) : Option Instr :=
  match w.extractLsb' 0 7 with
  | 0#7 => some (.pgetf (guardOf w) (w.extractLsb' 17 5) (w.extractLsb' 12 5))
  | 1#7 => some (.pgetb (guardOf w) (w.extractLsb' 17 5) (w.extractLsb' 12 5))
  | 2#7 => some (.pstrip (guardOf w) (w.extractLsb' 17 5) (w.extractLsb' 12 5))
  | _ => none

/-- Forms of major 0x16 (R128). -/
def candidate16 (w : BitVec 32) : Option Instr :=
  match w.extractLsb' 0 7 with
  | 0#7 => some (.jr (guardOf w) (w.extractLsb' 12 5))
  | 1#7 => some (.jrl (guardOf w) (w.extractLsb' 17 5) (w.extractLsb' 12 5))
  | _ => none

/-- Forms of major 0x18 (R128). -/
def candidate18 (w : BitVec 32) : Option Instr :=
  match w.extractLsb' 0 7 with
  | 0#7 => some (.lidx (guardOf w) (w.extractLsb' 17 5) (w.extractLsb' 12 5))
  | 1#7 => some (.lbrk (guardOf w) (w.extractLsb' 12 5))
  | 2#7 => some (.lcnt (guardOf w) (w.extractLsb' 17 5) (w.extractLsb' 12 5))
  | _ => none

/-- Forms of major 0x1A (R128). -/
def candidate1A (w : BitVec 32) : Option Instr :=
  match w.extractLsb' 8 4 with
  | 0#4 => some (.yield (guardOf w))
  | 1#4 => some (.exit (guardOf w) (w.extractLsb' 12 5))
  | 2#4 => some (.self (guardOf w) (w.extractLsb' 17 5) (w.extractLsb' 0 8))
  | 3#4 => some (.spawn (guardOf w) (w.extractLsb' 17 5) (w.extractLsb' 12 5) (w.extractLsb' 3 5))
  | 4#4 => some (.spawnn (guardOf w) (w.extractLsb' 17 5) (w.extractLsb' 12 5) (w.extractLsb' 3 5))
  | 5#4 => some (.join (guardOf w) (w.extractLsb' 17 5) (w.extractLsb' 12 5))
  | 6#4 => some (.prio (guardOf w) (w.extractLsb' 17 5) (w.extractLsb' 12 5))
  | 7#4 => some (.park (guardOf w))
  | 8#4 => some (.wake (guardOf w) (w.extractLsb' 12 5))
  | 9#4 => some (.forge (guardOf w))
  | _ => none

/-- Forms of major 0x22 (R128). -/
def candidate22 (w : BitVec 32) : Option Instr :=
  match w.extractLsb' 4 3 with
  | 0#3 => some (.lda (guardOf w) (w.extractLsb' 17 5) (w.extractLsb' 12 5) (w.extractLsb' 7 3) (w.extractLsb' 2 2))
  | 1#3 => some (.strl (guardOf w) (w.extractLsb' 17 5) (w.extractLsb' 12 5) (w.extractLsb' 7 3) (w.extractLsb' 2 2))
  | 2#3 => some (.ldx (guardOf w) (w.extractLsb' 17 5) (w.extractLsb' 12 5) (w.extractLsb' 7 5) (w.extractLsb' 2 2))
  | 3#3 => some (.ldzx (guardOf w) (w.extractLsb' 17 5) (w.extractLsb' 12 5) (w.extractLsb' 7 5) (w.extractLsb' 2 2))
  | 4#3 => some (.stx (guardOf w) (w.extractLsb' 17 5) (w.extractLsb' 12 5) (w.extractLsb' 7 5) (w.extractLsb' 2 2))
  | 5#3 => some (.pref (guardOf w) (w.extractLsb' 12 5) (w.extractLsb' 7 5))
  | _ => none

/-- Forms of major 0x23 (R128). -/
def candidate23 (w : BitVec 32) : Option Instr :=
  match w.extractLsb' 0 5 with
  | 0#5 => some (.aadd (guardOf w) (w.extractLsb' 17 5) (w.extractLsb' 12 5) (w.extractLsb' 7 5) (w.extractLsb' 5 2))
  | 1#5 => some (.aand (guardOf w) (w.extractLsb' 17 5) (w.extractLsb' 12 5) (w.extractLsb' 7 5) (w.extractLsb' 5 2))
  | 2#5 => some (.aor (guardOf w) (w.extractLsb' 17 5) (w.extractLsb' 12 5) (w.extractLsb' 7 5) (w.extractLsb' 5 2))
  | 3#5 => some (.axor (guardOf w) (w.extractLsb' 17 5) (w.extractLsb' 12 5) (w.extractLsb' 7 5) (w.extractLsb' 5 2))
  | 4#5 => some (.amin (guardOf w) (w.extractLsb' 17 5) (w.extractLsb' 12 5) (w.extractLsb' 7 5) (w.extractLsb' 5 2))
  | 5#5 => some (.amax (guardOf w) (w.extractLsb' 17 5) (w.extractLsb' 12 5) (w.extractLsb' 7 5) (w.extractLsb' 5 2))
  | 6#5 => some (.aminz (guardOf w) (w.extractLsb' 17 5) (w.extractLsb' 12 5) (w.extractLsb' 7 5) (w.extractLsb' 5 2))
  | 7#5 => some (.amaxz (guardOf w) (w.extractLsb' 17 5) (w.extractLsb' 12 5) (w.extractLsb' 7 5) (w.extractLsb' 5 2))
  | 8#5 => some (.aswap (guardOf w) (w.extractLsb' 17 5) (w.extractLsb' 12 5) (w.extractLsb' 7 5) (w.extractLsb' 5 2))
  | 9#5 => some (.acas (guardOf w) (w.extractLsb' 17 5) (w.extractLsb' 12 5) (w.extractLsb' 7 5) (w.extractLsb' 5 2))
  | 10#5 => some (.acas16 (guardOf w) (w.extractLsb' 17 5) (w.extractLsb' 12 5) (w.extractLsb' 7 5))
  | _ => none

/-- Forms of major 0x24 (R128). -/
def candidate24 (w : BitVec 32) : Option Instr :=
  match w.extractLsb' 0 2 with
  | 0#2 => some (.cadd (guardOf w) (w.extractLsb' 12 5) (w.extractLsb' 7 5) (w.extractLsb' 2 5))
  | 1#2 => some (.cmax (guardOf w) (w.extractLsb' 12 5) (w.extractLsb' 7 5) (w.extractLsb' 2 5))
  | 2#2 => some (.cmin (guardOf w) (w.extractLsb' 12 5) (w.extractLsb' 7 5) (w.extractLsb' 2 5))
  | 3#2 => some (.cor (guardOf w) (w.extractLsb' 12 5) (w.extractLsb' 7 5) (w.extractLsb' 2 5))

/-- Forms of major 0x25 (R128). -/
def candidate25 (w : BitVec 32) : Option Instr :=
  match w.extractLsb' 8 4 with
  | 0#4 => some (.fence (guardOf w) (w.extractLsb' 0 3))
  | 1#4 => some (.fencee (guardOf w) (w.extractLsb' 0 3))
  | 2#4 => some (.sync (guardOf w) (w.extractLsb' 17 5) (w.extractLsb' 12 5) (w.extractLsb' 0 8))
  | 3#4 => some (.domget (guardOf w) (w.extractLsb' 17 5) (w.extractLsb' 0 8))
  | 4#4 => some (.phase (guardOf w) (w.extractLsb' 17 5))
  | 5#4 => some (.xchg (guardOf w) (w.extractLsb' 17 5) (w.extractLsb' 12 5) (w.extractLsb' 0 8))
  | _ => none

/-- Forms of major 0x26 (R128). -/
def candidate26 (w : BitVec 32) : Option Instr :=
  match w.extractLsb' 8 4 with
  | 0#4 => some (.snap (guardOf w) (w.extractLsb' 17 5) (w.extractLsb' 12 5))
  | 1#4 => some (.accept (guardOf w) (w.extractLsb' 17 5) (w.extractLsb' 12 5))
  | 2#4 => some (.reject (guardOf w) (w.extractLsb' 17 5) (w.extractLsb' 12 5))
  | 3#4 => some (.snapq (guardOf w) (w.extractLsb' 17 5) (w.extractLsb' 12 5))
  | 4#4 => some (.torder (guardOf w) (w.extractLsb' 12 5) (w.extractLsb' 0 8))
  | 5#4 => some (.tbegin (guardOf w) (w.extractLsb' 12 5))
  | 6#4 => some (.tcommit (guardOf w))
  | 7#4 => some (.tabort (guardOf w))
  | 8#4 => some (.tstat (guardOf w) (w.extractLsb' 17 5))
  | _ => none

/-- Forms of major 0x27 (R128). -/
def candidate27 (w : BitVec 32) : Option Instr :=
  match w.extractLsb' 8 4 with
  | 0#4 => some (.tlwait (guardOf w) (w.extractLsb' 17 5) (w.extractLsb' 12 5) (w.extractLsb' 0 3))
  | 1#4 => some (.tlread (guardOf w) (w.extractLsb' 17 5) (w.extractLsb' 3 1) (w.extractLsb' 0 3))
  | _ => none

/-- Forms of major 0x28 (R128). -/
def candidate28 (w : BitVec 32) : Option Instr :=
  match w.extractLsb' 8 4 with
  | 0#4 => some (.msend (guardOf w) (w.extractLsb' 12 5) (w.extractLsb' 3 5))
  | 1#4 => some (.msende (guardOf w) (w.extractLsb' 12 5) (w.extractLsb' 3 5))
  | 2#4 => some (.deposit (guardOf w) (w.extractLsb' 17 5) (w.extractLsb' 12 5) (w.extractLsb' 3 5) (w.extractLsb' 0 3))
  | 3#4 => some (.nread (guardOf w) (w.extractLsb' 17 5) (w.extractLsb' 12 5) (w.extractLsb' 3 5) (w.extractLsb' 0 3))
  | 4#4 => some (.mrecv (guardOf w) (w.extractLsb' 17 5) (w.extractLsb' 5 3) (w.extractLsb' 1 1) (w.extractLsb' 0 1))
  | _ => none

/-- Forms of major 0x29 (R128). -/
def candidate29 (w : BitVec 32) : Option Instr :=
  match w.extractLsb' 8 4 with
  | 0#4 => some (.rebind (guardOf w) (w.extractLsb' 17 5) (w.extractLsb' 12 5) (w.extractLsb' 3 5))
  | 1#4 => some (.bindq (guardOf w) (w.extractLsb' 17 5) (w.extractLsb' 12 5) (w.extractLsb' 0 8))
  | _ => none

/-- Forms of major 0x2A (R128). -/
def candidate2A (w : BitVec 32) : Option Instr :=
  match w.extractLsb' 0 7 with
  | 0#7 => some (.rngx (guardOf w) (w.extractLsb' 17 5) (w.extractLsb' 12 5) (w.extractLsb' 7 5))
  | 1#7 =>
    match w.extractLsb' 8 1 with
    | 0#1 => some (.rngsDraw (guardOf w) (w.extractLsb' 17 5) (w.extractLsb' 12 5) (w.extractLsb' 7 1))
    | 1#1 => some (.rngsLoad (guardOf w) (w.extractLsb' 17 5) (w.extractLsb' 12 5) (w.extractLsb' 7 1))
  | 2#7 => some (.hinit (guardOf w) (w.extractLsb' 12 5) (w.extractLsb' 7 3))
  | 3#7 => some (.hsift (guardOf w) (w.extractLsb' 17 5) (w.extractLsb' 12 5) (w.extractLsb' 7 5))
  | 4#7 => some (.hpop (guardOf w) (w.extractLsb' 17 5) (w.extractLsb' 12 5) (w.extractLsb' 7 4))
  | _ => none

/-- Forms of major 0x2B (R128). -/
def candidate2B (w : BitVec 32) : Option Instr :=
  match w.extractLsb' 0 3 with
  | 0#3 => some (.vadd (guardOf w) (w.extractLsb' 17 5) (w.extractLsb' 12 5) (w.extractLsb' 7 5) (w.extractLsb' 3 4))
  | 1#3 => some (.vsub (guardOf w) (w.extractLsb' 17 5) (w.extractLsb' 12 5) (w.extractLsb' 7 5) (w.extractLsb' 3 4))
  | 2#3 => some (.vmul (guardOf w) (w.extractLsb' 17 5) (w.extractLsb' 12 5) (w.extractLsb' 7 5) (w.extractLsb' 3 4))
  | 3#3 => some (.vfma (guardOf w) (w.extractLsb' 17 5) (w.extractLsb' 12 5) (w.extractLsb' 7 5) (w.extractLsb' 3 4))
  | 4#3 => some (.vfms (guardOf w) (w.extractLsb' 17 5) (w.extractLsb' 12 5) (w.extractLsb' 7 5) (w.extractLsb' 3 4))
  | 5#3 => some (.vmin (guardOf w) (w.extractLsb' 17 5) (w.extractLsb' 12 5) (w.extractLsb' 7 5) (w.extractLsb' 3 4))
  | 6#3 => some (.vmax (guardOf w) (w.extractLsb' 17 5) (w.extractLsb' 12 5) (w.extractLsb' 7 5) (w.extractLsb' 3 4))
  | 7#3 => some (.vdiv (guardOf w) (w.extractLsb' 17 5) (w.extractLsb' 12 5) (w.extractLsb' 7 5) (w.extractLsb' 3 4))

/-- Forms of major 0x2C (R128). -/
def candidate2C (w : BitVec 32) : Option Instr :=
  match w.extractLsb' 0 3 with
  | 0#3 => some (.vabs (guardOf w) (w.extractLsb' 17 5) (w.extractLsb' 12 5) (w.extractLsb' 3 4))
  | 1#3 => some (.vneg (guardOf w) (w.extractLsb' 17 5) (w.extractLsb' 12 5) (w.extractLsb' 3 4))
  | 2#3 => some (.vsqrt (guardOf w) (w.extractLsb' 17 5) (w.extractLsb' 12 5) (w.extractLsb' 3 4))
  | 3#3 => some (.vrcp (guardOf w) (w.extractLsb' 17 5) (w.extractLsb' 12 5) (w.extractLsb' 3 4))
  | 4#3 => some (.vrsq (guardOf w) (w.extractLsb' 17 5) (w.extractLsb' 12 5) (w.extractLsb' 3 4))
  | 5#3 => some (.vexp (guardOf w) (w.extractLsb' 17 5) (w.extractLsb' 12 5) (w.extractLsb' 3 4))
  | 6#3 => some (.vlog2 (guardOf w) (w.extractLsb' 17 5) (w.extractLsb' 12 5) (w.extractLsb' 3 4))
  | 7#3 => some (.vsig (guardOf w) (w.extractLsb' 17 5) (w.extractLsb' 12 5) (w.extractLsb' 3 4))

/-- Forms of major 0x2D (R128). -/
def candidate2D (w : BitVec 32) : Option Instr :=
  match w.extractLsb' 0 3 with
  | 0#3 => some (.viadd (guardOf w) (w.extractLsb' 17 5) (w.extractLsb' 12 5) (w.extractLsb' 7 5) (w.extractLsb' 3 4))
  | 1#3 => some (.visub (guardOf w) (w.extractLsb' 17 5) (w.extractLsb' 12 5) (w.extractLsb' 7 5) (w.extractLsb' 3 4))
  | 2#3 => some (.vimul (guardOf w) (w.extractLsb' 17 5) (w.extractLsb' 12 5) (w.extractLsb' 7 5) (w.extractLsb' 3 4))
  | 3#3 => some (.vand (guardOf w) (w.extractLsb' 17 5) (w.extractLsb' 12 5) (w.extractLsb' 7 5) (w.extractLsb' 3 4))
  | 4#3 => some (.vor (guardOf w) (w.extractLsb' 17 5) (w.extractLsb' 12 5) (w.extractLsb' 7 5) (w.extractLsb' 3 4))
  | 5#3 => some (.vxor (guardOf w) (w.extractLsb' 17 5) (w.extractLsb' 12 5) (w.extractLsb' 7 5) (w.extractLsb' 3 4))
  | 6#3 => some (.vshl (guardOf w) (w.extractLsb' 17 5) (w.extractLsb' 12 5) (w.extractLsb' 7 5) (w.extractLsb' 3 4))
  | 7#3 => some (.vshr (guardOf w) (w.extractLsb' 17 5) (w.extractLsb' 12 5) (w.extractLsb' 7 5) (w.extractLsb' 3 4))

/-- Forms of major 0x2F (R128). -/
def candidate2F (w : BitVec 32) : Option Instr :=
  match w.extractLsb' 0 3 with
  | 0#3 => some (.vselm (guardOf w) (w.extractLsb' 17 5) (w.extractLsb' 12 5) (w.extractLsb' 7 3) (w.extractLsb' 3 4))
  | 1#3 => some (.mand (guardOf w) (w.extractLsb' 17 3) (w.extractLsb' 12 3) (w.extractLsb' 7 3))
  | 2#3 => some (.mor (guardOf w) (w.extractLsb' 17 3) (w.extractLsb' 12 3) (w.extractLsb' 7 3))
  | 3#3 => some (.mxor (guardOf w) (w.extractLsb' 17 3) (w.extractLsb' 12 3) (w.extractLsb' 7 3))
  | 4#3 => some (.mnot (guardOf w) (w.extractLsb' 17 3) (w.extractLsb' 12 3))
  | 5#3 => some (.mpop (guardOf w) (w.extractLsb' 17 5) (w.extractLsb' 12 3))
  | 6#3 => some (.mfirst (guardOf w) (w.extractLsb' 17 5) (w.extractLsb' 12 3))
  | _ => none

/-- Forms of major 0x30 (R128). -/
def candidate30 (w : BitVec 32) : Option Instr :=
  match w.extractLsb' 0 3 with
  | 0#3 => some (.vcvt (guardOf w) (w.extractLsb' 17 5) (w.extractLsb' 12 5) (w.extractLsb' 9 3) (w.extractLsb' 7 2) (w.extractLsb' 3 4))
  | 1#3 => some (.vqnt (guardOf w) (w.extractLsb' 17 5) (w.extractLsb' 12 5) (w.extractLsb' 7 5) (w.extractLsb' 3 4))
  | 2#3 => some (.vdqnt (guardOf w) (w.extractLsb' 17 5) (w.extractLsb' 12 5) (w.extractLsb' 7 5) (w.extractLsb' 3 4))
  | _ => none

/-- Forms of major 0x31 (R128). -/
def candidate31 (w : BitVec 32) : Option Instr :=
  match w.extractLsb' 0 3 with
  | 0#3 => some (.vperm (guardOf w) (w.extractLsb' 17 5) (w.extractLsb' 12 5) (w.extractLsb' 7 5) (w.extractLsb' 3 4))
  | 1#3 => some (.vbcast (guardOf w) (w.extractLsb' 17 5) (w.extractLsb' 12 5) (w.extractLsb' 3 4))
  | 2#3 => some (.vext (guardOf w) (w.extractLsb' 17 5) (w.extractLsb' 12 5) (w.extractLsb' 7 5) (w.extractLsb' 3 4))
  | 3#3 => some (.vins (guardOf w) (w.extractLsb' 17 5) (w.extractLsb' 12 5) (w.extractLsb' 7 5) (w.extractLsb' 3 4))
  | 4#3 => some (.vslide (guardOf w) (w.extractLsb' 17 5) (w.extractLsb' 12 5) (w.extractLsb' 7 5) (w.extractLsb' 3 4))
  | _ => none

/-- Forms of major 0x32 (R128). -/
def candidate32 (w : BitVec 32) : Option Instr :=
  match w.extractLsb' 0 3 with
  | 0#3 => some (.vredadd (guardOf w) (w.extractLsb' 17 5) (w.extractLsb' 12 5) (w.extractLsb' 7 3) (w.extractLsb' 3 4))
  | 1#3 => some (.vredmax (guardOf w) (w.extractLsb' 17 5) (w.extractLsb' 12 5) (w.extractLsb' 7 3) (w.extractLsb' 3 4))
  | 2#3 => some (.vredmin (guardOf w) (w.extractLsb' 17 5) (w.extractLsb' 12 5) (w.extractLsb' 7 3) (w.extractLsb' 3 4))
  | 3#3 => some (.vredx (guardOf w) (w.extractLsb' 17 5) (w.extractLsb' 12 5) (w.extractLsb' 7 3) (w.extractLsb' 3 4))
  | _ => none

/-- Forms of major 0x33 (R128). -/
def candidate33 (w : BitVec 32) : Option Instr :=
  match w.extractLsb' 0 3 with
  | 0#3 => some (.shset (guardOf w) (w.extractLsb' 17 3) (w.extractLsb' 12 5))
  | 1#3 => some (.shget (guardOf w) (w.extractLsb' 17 5) (w.extractLsb' 12 3))
  | 2#3 => some (.tsew (guardOf w) (w.extractLsb' 17 3) (w.extractLsb' 12 3) (w.extractLsb' 7 3) (w.extractLsb' 3 4))
  | 3#3 => some (.tsred (guardOf w) (w.extractLsb' 17 3) (w.extractLsb' 12 3) (w.extractLsb' 3 4))
  | 4#3 => some (.tscvt (guardOf w) (w.extractLsb' 17 3) (w.extractLsb' 12 3) (w.extractLsb' 3 2))
  | _ => none

/-- Forms of major 0x34 (R128). -/
def candidate34 (w : BitVec 32) : Option Instr :=
  match w.extractLsb' 8 4 with
  | 0#4 => some (.mmj (guardOf w) (w.extractLsb' 12 5))
  | 1#4 => some (.mcommit (guardOf w) (w.extractLsb' 17 5))
  | 2#4 => some (.mwait (guardOf w) (w.extractLsb' 17 5) (w.extractLsb' 12 5) (w.extractLsb' 3 5))
  | 3#4 => some (.accrel (guardOf w) (w.extractLsb' 12 5))
  | 4#4 => some (.accrd (guardOf w) (w.extractLsb' 12 5) (w.extractLsb' 3 5))
  | _ => none

/-- Forms of major 0x35 (R128). -/
def candidate35 (w : BitVec 32) : Option Instr :=
  match w.extractLsb' 8 4 with
  | 0#4 => some (.cpy (guardOf w) (w.extractLsb' 17 5) (w.extractLsb' 12 5) (w.extractLsb' 3 5))
  | 1#4 => some (.gath (guardOf w) (w.extractLsb' 17 5) (w.extractLsb' 12 5) (w.extractLsb' 3 5))
  | 2#4 => some (.scat (guardOf w) (w.extractLsb' 17 5) (w.extractLsb' 12 5) (w.extractLsb' 3 5))
  | 3#4 => some (.xfer (guardOf w) (w.extractLsb' 17 5) (w.extractLsb' 12 5))
  | _ => none

/-- Forms of major 0x36 (R128). -/
def candidate36 (w : BitVec 32) : Option Instr :=
  match w.extractLsb' 8 4 with
  | 0#4 => some (.dspcnt (guardOf w) (w.extractLsb' 17 5) (w.extractLsb' 12 5) (w.extractLsb' 3 5))
  | 1#4 => some (.dspgo (guardOf w) (w.extractLsb' 17 5) (w.extractLsb' 12 5))
  | 2#4 => some (.dspcmb (guardOf w) (w.extractLsb' 17 5) (w.extractLsb' 12 5))
  | 3#4 => some (.gmm (guardOf w) (w.extractLsb' 17 5) (w.extractLsb' 12 5))
  | 4#4 => some (.gmmq (guardOf w) (w.extractLsb' 17 5) (w.extractLsb' 0 8))
  | _ => none

/-- Forms of major 0x37 (R128). -/
def candidate37 (w : BitVec 32) : Option Instr :=
  match w.extractLsb' 8 4 with
  | 0#4 => some (.wstream (guardOf w) (w.extractLsb' 17 5) (w.extractLsb' 12 5))
  | 1#4 => some (.wpin (guardOf w) (w.extractLsb' 17 5) (w.extractLsb' 12 5) (w.extractLsb' 3 5))
  | 2#4 => some (.wunpin (guardOf w) (w.extractLsb' 17 5) (w.extractLsb' 12 5) (w.extractLsb' 3 5))
  | 3#4 => some (.wpol (guardOf w) (w.extractLsb' 17 5) (w.extractLsb' 12 5) (w.extractLsb' 3 5))
  | _ => none

/-- Forms of major 0x38 (R128). -/
def candidate38 (w : BitVec 32) : Option Instr :=
  match w.extractLsb' 8 4 with
  | 0#4 => some (.launch (guardOf w) (w.extractLsb' 17 5) (w.extractLsb' 12 5))
  | 1#4 => some (.lstat (guardOf w) (w.extractLsb' 17 5) (w.extractLsb' 12 5) (w.extractLsb' 0 8))
  | _ => none

/-- Forms of major 0x39 (R128). -/
def candidate39 (w : BitVec 32) : Option Instr :=
  match w.extractLsb' 12 5 with
  | 0#5 => some (.srd (guardOf w) (w.extractLsb' 17 5) (w.extractLsb' 0 12))
  | 1#5 => some (.swr (guardOf w) (w.extractLsb' 17 5) (w.extractLsb' 0 12))
  | 2#5 =>
    match w.extractLsb' 0 2 with
    | 0#2 => some (.tretResume (guardOf w) (w.extractLsb' 17 5) (w.extractLsb' 2 1))
    | 1#2 => some (.tretSkip (guardOf w) (w.extractLsb' 17 5) (w.extractLsb' 2 1))
    | 2#2 => some (.tretKill (guardOf w) (w.extractLsb' 17 5) (w.extractLsb' 2 1))
    | _ => none
  | 3#5 => some (.tlbw (guardOf w) (w.extractLsb' 17 5) (w.extractLsb' 7 5))
  | 4#5 => some (.tlbinv (guardOf w) (w.extractLsb' 17 5) (w.extractLsb' 7 5) (w.extractLsb' 3 1) (w.extractLsb' 0 3))
  | 5#5 => some (.tlbq (guardOf w) (w.extractLsb' 17 5) (w.extractLsb' 7 5) (w.extractLsb' 0 2))
  | 6#5 => some (.ctxevict (guardOf w) (w.extractLsb' 17 5) (w.extractLsb' 7 5))
  | 7#5 => some (.ctxfill (guardOf w) (w.extractLsb' 17 5) (w.extractLsb' 7 5))
  | 8#5 =>
    match w.extractLsb' 0 1 with
    | 0#1 => some (.haltcQuiesce (guardOf w) (w.extractLsb' 17 5))
    | 1#1 => some (.haltcRelease (guardOf w) (w.extractLsb' 17 5))
  | _ => none

/-- Forms of major 0x3A (R128). -/
def candidate3A (w : BitVec 32) : Option Instr :=
  match w.extractLsb' 8 4 with
  | 0#4 => some (.trapi (guardOf w) (w.extractLsb' 12 5) (w.extractLsb' 0 8))
  | 1#4 => some (.brk (guardOf w) (w.extractLsb' 0 8))
  | _ => none

/-- The form that a word's major and function fields name, its operand fields read, nothing else checked (R128). -/
def candidate (w : BitVec 32) : Option Instr :=
  match w.extractLsb' 26 6 with
  | 1#6 => candidate01 w
  | 2#6 => some (.addi (guardOf w) (w.extractLsb' 17 5) (w.extractLsb' 12 5) (w.extractLsb' 0 12))
  | 3#6 => some (.andi (guardOf w) (w.extractLsb' 17 5) (w.extractLsb' 12 5) (w.extractLsb' 0 12))
  | 4#6 => some (.ori (guardOf w) (w.extractLsb' 17 5) (w.extractLsb' 12 5) (w.extractLsb' 0 12))
  | 5#6 => some (.xori (guardOf w) (w.extractLsb' 17 5) (w.extractLsb' 12 5) (w.extractLsb' 0 12))
  | 6#6 => some (.shli (guardOf w) (w.extractLsb' 17 5) (w.extractLsb' 12 5) (w.extractLsb' 0 6))
  | 7#6 => some (.shri (guardOf w) (w.extractLsb' 17 5) (w.extractLsb' 12 5) (w.extractLsb' 0 6))
  | 8#6 => some (.shai (guardOf w) (w.extractLsb' 17 5) (w.extractLsb' 12 5) (w.extractLsb' 0 6))
  | 9#6 => some (.li (guardOf w) (w.extractLsb' 17 5) (w.extractLsb' 0 17))
  | 10#6 => some (.lih (guardOf w) (w.extractLsb' 17 5) (w.extractLsb' 0 16))
  | 11#6 => some (.bfx (guardOf w) (w.extractLsb' 17 5) (w.extractLsb' 12 5) (w.extractLsb' 6 6) (w.extractLsb' 0 6))
  | 12#6 => some (.bfi (guardOf w) (w.extractLsb' 17 5) (w.extractLsb' 12 5) (w.extractLsb' 6 6) (w.extractLsb' 0 6))
  | 13#6 => some (.cmp (guardOf w) (w.extractLsb' 17 4) (w.extractLsb' 12 5) (w.extractLsb' 7 5) (w.extractLsb' 0 7))
  | 14#6 => some (.cmpi (guardOf w) (w.extractLsb' 17 4) (w.extractLsb' 12 5) (w.extractLsb' 9 3) (w.extractLsb' 0 9))
  | 15#6 => candidate0F w
  | 16#6 => some (.padd (guardOf w) (w.extractLsb' 17 5) (w.extractLsb' 12 5) (w.extractLsb' 7 5))
  | 17#6 => some (.paddi (guardOf w) (w.extractLsb' 17 5) (w.extractLsb' 12 5) (w.extractLsb' 0 12))
  | 18#6 => some (.ptag (guardOf w) (w.extractLsb' 17 5) (w.extractLsb' 12 5) (w.extractLsb' 3 5) (w.extractLsb' 0 3))
  | 19#6 => candidate13 w
  | 20#6 => some (.br (guardOf w) (w.extractLsb' 0 22))
  | 21#6 => some (.brl (guardOf w) (w.extractLsb' 0 22))
  | 22#6 => candidate16 w
  | 23#6 => some (.loop (guardOf w) (w.extractLsb' 17 5) (w.extractLsb' 0 12))
  | 24#6 => candidate18 w
  | 25#6 => some (.frame (guardOf w) (w.extractLsb' 12 5) (w.extractLsb' 7 5) (w.extractLsb' 0 4))
  | 26#6 => candidate1A w
  | 27#6 => some (.ld (guardOf w) (w.extractLsb' 17 5) (w.extractLsb' 12 5) (w.extractLsb' 10 2) (w.extractLsb' 0 10))
  | 28#6 => some (.ldz (guardOf w) (w.extractLsb' 17 5) (w.extractLsb' 12 5) (w.extractLsb' 10 2) (w.extractLsb' 0 10))
  | 29#6 => some (.st (guardOf w) (w.extractLsb' 17 5) (w.extractLsb' 12 5) (w.extractLsb' 10 2) (w.extractLsb' 0 10))
  | 30#6 => some (.ldv (guardOf w) (w.extractLsb' 17 5) (w.extractLsb' 12 5) (w.extractLsb' 0 10))
  | 31#6 => some (.stv (guardOf w) (w.extractLsb' 17 5) (w.extractLsb' 12 5) (w.extractLsb' 0 10))
  | 32#6 => some (.ldf (guardOf w) (w.extractLsb' 17 5) (w.extractLsb' 12 5) (w.extractLsb' 0 10))
  | 33#6 => some (.stf (guardOf w) (w.extractLsb' 17 5) (w.extractLsb' 12 5) (w.extractLsb' 0 10))
  | 34#6 => candidate22 w
  | 35#6 => candidate23 w
  | 36#6 => candidate24 w
  | 37#6 => candidate25 w
  | 38#6 => candidate26 w
  | 39#6 => candidate27 w
  | 40#6 => candidate28 w
  | 41#6 => candidate29 w
  | 42#6 => candidate2A w
  | 43#6 => candidate2B w
  | 44#6 => candidate2C w
  | 45#6 => candidate2D w
  | 46#6 => some (.vcmp (guardOf w) (w.extractLsb' 17 3) (w.extractLsb' 12 5) (w.extractLsb' 7 5) (w.extractLsb' 3 4) (w.extractLsb' 0 3))
  | 47#6 => candidate2F w
  | 48#6 => candidate30 w
  | 49#6 => candidate31 w
  | 50#6 => candidate32 w
  | 51#6 => candidate33 w
  | 52#6 => candidate34 w
  | 53#6 => candidate35 w
  | 54#6 => candidate36 w
  | 55#6 => candidate37 w
  | 56#6 => candidate38 w
  | 57#6 => candidate39 w
  | 58#6 => candidate3A w
  | _ => none

/-- A strand word, read (R127, R138). -/
def decodeWord (w : BitVec 32) : Except Illegal Instr :=
  match candidate w with
  | none => .error .unassigned
  | some i => if wellFormed i = false then .error .value else if encode i = w then .ok i else .error .reserved

/-- Operations of slot 0: control (R140). -/
def slotCandidate0 (w : BitVec 32) : Option Instr :=
  match w.extractLsb' 27 5 with
  | 1#5 => some (.bbr (slotGuardOf w) (w.extractLsb' 0 22))
  | 2#5 => some (.bloop (slotGuardOf w) (w.extractLsb' 17 5) (w.extractLsb' 0 12))
  | 3#5 => some (.bleave (slotGuardOf w))
  | 4#5 => some (.bwaittl (slotGuardOf w) (w.extractLsb' 12 5) (w.extractLsb' 0 3))
  | 5#5 => some (.bsync (slotGuardOf w) (w.extractLsb' 17 5) (w.extractLsb' 12 5) (w.extractLsb' 0 3))
  | _ => none

/-- Operations of slot 1: scalar (R140). -/
def slotCandidate1 (w : BitVec 32) : Option Instr :=
  match w.extractLsb' 27 5 with
  | 1#5 => some (.sadd (slotGuardOf w) (w.extractLsb' 17 5) (w.extractLsb' 12 5) (w.extractLsb' 7 5) (w.extractLsb' 6 1) (w.extractLsb' 0 6))
  | 2#5 => some (.ssub (slotGuardOf w) (w.extractLsb' 17 5) (w.extractLsb' 12 5) (w.extractLsb' 7 5) (w.extractLsb' 6 1) (w.extractLsb' 0 6))
  | 3#5 => some (.smul (slotGuardOf w) (w.extractLsb' 17 5) (w.extractLsb' 12 5) (w.extractLsb' 7 5) (w.extractLsb' 6 1) (w.extractLsb' 0 6))
  | 4#5 => some (.sand (slotGuardOf w) (w.extractLsb' 17 5) (w.extractLsb' 12 5) (w.extractLsb' 7 5) (w.extractLsb' 6 1) (w.extractLsb' 0 6))
  | 5#5 => some (.sor (slotGuardOf w) (w.extractLsb' 17 5) (w.extractLsb' 12 5) (w.extractLsb' 7 5) (w.extractLsb' 6 1) (w.extractLsb' 0 6))
  | 6#5 => some (.sxor (slotGuardOf w) (w.extractLsb' 17 5) (w.extractLsb' 12 5) (w.extractLsb' 7 5) (w.extractLsb' 6 1) (w.extractLsb' 0 6))
  | 7#5 => some (.sshl (slotGuardOf w) (w.extractLsb' 17 5) (w.extractLsb' 12 5) (w.extractLsb' 7 5) (w.extractLsb' 6 1) (w.extractLsb' 0 6))
  | 8#5 => some (.sshr (slotGuardOf w) (w.extractLsb' 17 5) (w.extractLsb' 12 5) (w.extractLsb' 7 5) (w.extractLsb' 6 1) (w.extractLsb' 0 6))
  | 9#5 => some (.sli (slotGuardOf w) (w.extractLsb' 17 5) (w.extractLsb' 0 17))
  | 10#5 => some (.scmp (slotGuardOf w) (w.extractLsb' 17 4) (w.extractLsb' 12 5) (w.extractLsb' 7 5) (w.extractLsb' 6 1) (w.extractLsb' 0 3))
  | 11#5 =>
    if w.extractLsb' 0 1 = 0 then some (.smovqPop (slotGuardOf w) (w.extractLsb' 17 5) (w.extractLsb' 12 3))
    else some (.smovqAppend (slotGuardOf w) (w.extractLsb' 17 3) (w.extractLsb' 12 5))
  | _ => none

/-- Operations of slot 2: vector (slots 2 and 3) (R140). -/
def slotCandidate2 (sl : BitVec 1) (w : BitVec 32) : Option Instr :=
  match w.extractLsb' 27 5 with
  | 1#5 => some (.bvadd (slotGuardOf w) sl (w.extractLsb' 17 5) (w.extractLsb' 12 5) (w.extractLsb' 7 5) (w.extractLsb' 5 2) (w.extractLsb' 4 1) (w.extractLsb' 3 1) (w.extractLsb' 2 1))
  | 2#5 => some (.bvmul (slotGuardOf w) sl (w.extractLsb' 17 5) (w.extractLsb' 12 5) (w.extractLsb' 7 5) (w.extractLsb' 5 2) (w.extractLsb' 4 1) (w.extractLsb' 3 1) (w.extractLsb' 2 1))
  | 3#5 => some (.bvfma (slotGuardOf w) sl (w.extractLsb' 17 5) (w.extractLsb' 12 5) (w.extractLsb' 7 5) (w.extractLsb' 5 2) (w.extractLsb' 4 1) (w.extractLsb' 3 1))
  | 4#5 => some (.bvmax (slotGuardOf w) sl (w.extractLsb' 17 5) (w.extractLsb' 12 5) (w.extractLsb' 7 5) (w.extractLsb' 5 2) (w.extractLsb' 4 1) (w.extractLsb' 3 1) (w.extractLsb' 2 1))
  | 5#5 => some (.bvcvt (slotGuardOf w) sl (w.extractLsb' 17 5) (w.extractLsb' 12 5) (w.extractLsb' 5 2) (w.extractLsb' 4 1) (w.extractLsb' 3 1) (w.extractLsb' 0 3))
  | 6#5 => some (.bvqnt (slotGuardOf w) sl (w.extractLsb' 17 5) (w.extractLsb' 12 5) (w.extractLsb' 7 5) (w.extractLsb' 5 2) (w.extractLsb' 4 1) (w.extractLsb' 3 1))
  | 7#5 => some (.bvcmp (slotGuardOf w) sl (w.extractLsb' 17 4) (w.extractLsb' 12 5) (w.extractLsb' 7 5) (w.extractLsb' 5 2) (w.extractLsb' 3 2) (w.extractLsb' 0 3))
  | 9#5 => if w.extractLsb' 5 2 = 0 then some (.bvmov (slotGuardOf w) sl (w.extractLsb' 17 5) (w.extractLsb' 12 5) (w.extractLsb' 4 1) (w.extractLsb' 3 1)) else none
  | 8#5 => if w.extractLsb' 5 2 = 0 then some (.bvsel (slotGuardOf w) sl (w.extractLsb' 17 5) (w.extractLsb' 12 5) (w.extractLsb' 7 5) (w.extractLsb' 0 4)) else none
  | _ => none

/-- Operations of slot 4: Anvil (R140). -/
def engineCandidate4 (w : BitVec 32) : Option EngineSlot :=
  match w.extractLsb' 27 5 with
  | 1#5 => some (.awld (slotGuardOf w) (w.extractLsb' 21 1) (w.extractLsb' 19 2) (w.extractLsb' 12 5) (w.extractLsb' 9 3))
  | 3#5 => some (.aiss (slotGuardOf w) (w.extractLsb' 19 3) (w.extractLsb' 18 1) (w.extractLsb' 17 1) (w.extractLsb' 13 4) (w.extractLsb' 6 7))
  | 4#5 => some (.azero (slotGuardOf w) (w.extractLsb' 9 7) (w.extractLsb' 2 7))
  | 5#5 => some (.ashout (slotGuardOf w) (w.extractLsb' 19 3) (w.extractLsb' 17 2) (w.extractLsb' 16 1) (w.extractLsb' 9 7) (w.extractLsb' 2 7))
  | 6#5 => some (.aprov (slotGuardOf w) (w.extractLsb' 17 5) (w.extractLsb' 16 1) (w.extractLsb' 15 1))
  | 2#5 => some (.aswapSlot (slotGuardOf w) (w.extractLsb' 1 1) (w.extractLsb' 0 1))
  | _ => none

/-- Operations of slot 5: Tongs (R140). -/
def engineCandidate5 (w : BitVec 32) : Option EngineSlot :=
  match w.extractLsb' 27 5 with
  | 1#5 => some (.tcopy (slotGuardOf w) (w.extractLsb' 17 5) (w.extractLsb' 12 5) (w.extractLsb' 7 5))
  | 2#5 => some (.tgath (slotGuardOf w) (w.extractLsb' 17 5) (w.extractLsb' 12 5) (w.extractLsb' 7 5))
  | 3#5 => some (.tscat (slotGuardOf w) (w.extractLsb' 17 5) (w.extractLsb' 12 5) (w.extractLsb' 7 5))
  | 4#5 => some (.txfer (slotGuardOf w) (w.extractLsb' 17 5) (w.extractLsb' 12 5) (w.extractLsb' 7 5))
  | 5#5 => some (.tsend (slotGuardOf w) (w.extractLsb' 17 5) (w.extractLsb' 12 5) (w.extractLsb' 7 5) (w.extractLsb' 4 3))
  | _ => none

/-- Operations of slot 6: crossbar (R140). -/
def engineCandidate6 (w : BitVec 32) : Option EngineSlot :=
  match w.extractLsb' 27 5 with
  | 1#5 => some (.xperm (slotGuardOf w) (w.extractLsb' 17 5) (w.extractLsb' 12 5) (w.extractLsb' 7 5) (w.extractLsb' 5 2))
  | 2#5 => some (.xbcast (slotGuardOf w) (w.extractLsb' 17 5) (w.extractLsb' 12 5) (w.extractLsb' 5 2) (w.extractLsb' 7 1 ++ w.extractLsb' 0 5))
  | 3#5 => some (.xrot (slotGuardOf w) (w.extractLsb' 17 5) (w.extractLsb' 12 5) (w.extractLsb' 5 2) (w.extractLsb' 7 1 ++ w.extractLsb' 0 5))
  | _ => none

/-- Operations of slot 7: stream and scale (R140). -/
def engineCandidate7 (w : BitVec 32) : Option EngineSlot :=
  match w.extractLsb' 27 5 with
  | 1#5 => some (.qbind (slotGuardOf w) (w.extractLsb' 19 3) (w.extractLsb' 17 2) (w.extractLsb' 15 2) (w.extractLsb' 12 3) (w.extractLsb' 7 5))
  | 5#5 => some (.scexp (slotGuardOf w) (w.extractLsb' 12 5))
  | 2#5 => some (.qadv (slotGuardOf w) (w.extractLsb' 19 3) (w.extractLsb' 12 5))
  | 3#5 => some (.qwaitf (slotGuardOf w) (w.extractLsb' 19 3) (w.extractLsb' 11 8))
  | 4#5 => some (.qwaite (slotGuardOf w) (w.extractLsb' 19 3))
  | _ => none

/-- One slot of a bundle, read: slots 0 to 3, and NOP in any slot, or an engine slot. -/
inductive Slot where
  | plain (i : Instr)
  | engine (e : EngineSlot)
  deriving DecidableEq, Repr

/-- The instruction that a slot holds. -/
noncomputable def Slot.instr : Slot → Instr
  | .plain i => i
  | .engine e => e.instr

/-- The operation that a slot's word names, its fields read, nothing else checked; op5 = 0 is NOP in every slot (R139). -/
def slotCandidate (k : BitVec 3) (w : BitVec 32) : Option Slot :=
  if w.extractLsb' 27 5 = 0 then some (.plain (.nop k))
  else match k with
    | 0#3 => (slotCandidate0 w).map .plain
    | 1#3 => (slotCandidate1 w).map .plain
    | 2#3 => (slotCandidate2 0 w).map .plain
    | 3#3 => (slotCandidate2 1 w).map .plain
    | 4#3 => (engineCandidate4 w).map .engine
    | 5#3 => (engineCandidate5 w).map .engine
    | 6#3 => (engineCandidate6 w).map .engine
    | 7#3 => (engineCandidate7 w).map .engine

/-- The reasons of R143, by code. -/
inductive SlotFault where
  | unassigned
  | reserved
  | cluster
  deriving DecidableEq, Repr

def Slot.assigned : Slot → Bool
  | .plain i => Sys2Proof.assigned i
  | .engine e => e.assigned

def Slot.encode : Slot → BitVec 32
  | .plain i => Sys2Proof.encode i
  | .engine e => e.encode

def Slot.unusedZero : Slot → Bool
  | .plain i => Sys2Proof.unusedZero i
  | .engine e => e.unusedZero

def Slot.inCluster : Slot → Bool
  | .plain i => Sys2Proof.inCluster i
  | .engine _ => true

/-- Lowest reason for which one slot's word is illegal in itself (R143, reasons 0 to 2). -/
def decodeSlot (k : BitVec 3) (w : BitVec 32) : Except SlotFault Slot :=
  match slotCandidate k w with
  | none => .error .unassigned
  | some i =>
    if i.assigned = false then .error .unassigned
    else if i.encode ≠ w ∨ i.unusedZero = false then .error .reserved
    else if i.inCluster = false then .error .cluster
    else .ok i

/-- A destination that R143 compares between slots: a g register, a v register, a predicate or a stream register. -/
inductive Dest where
  | g (r : Reg)
  | v (r : Reg)
  | p (r : PReg)
  | q (r : QReg)
  deriving DecidableEq, Repr

/-- Stream register named by a 5-bit field under a q bit. -/
def qOf (r : Reg) : QReg := r.extractLsb' 0 3

/-- A g destination, g0 being none (R143). -/
def gDest (r : Reg) : List Dest := if r = 0 then [] else [.g r]

/-- The destinations an operation of slots 0 to 3 names (R143): registers and predicates it writes, streams it appends to. -/
def destinations : Instr → List Dest
  | .bsync _ d _ _ => gDest d
  | .sadd _ d _ _ _ _ | .ssub _ d _ _ _ _ | .smul _ d _ _ _ _ | .sand _ d _ _ _ _ | .sor _ d _ _ _ _
  | .sxor _ d _ _ _ _ | .sshl _ d _ _ _ _ | .sshr _ d _ _ _ _ => gDest d
  | .sli _ d _ => gDest d
  | .scmp _ d _ _ _ _ => [.p d]
  | .smovqPop _ d _ => gDest d
  | .smovqAppend _ q _ => [.q q]
  | .bvadd _ _ d _ _ _ _ _ qd | .bvmul _ _ d _ _ _ _ _ qd | .bvmax _ _ d _ _ _ _ _ qd =>
    if qd = 1 then [.q (qOf d)] else [.v d]
  | .bvfma _ _ d _ _ _ _ _ => [.v d]
  | .bvcvt _ _ d _ _ _ qd _ => if qd = 1 then [.q (qOf d)] else [.v d]
  | .bvqnt _ _ d _ b _ _ qd => (if qd = 1 then [.q (qOf d)] else [.v d]) ++ gDest b
  | .bvcmp _ _ d _ _ _ _ _ => [.p d]
  | .bvsel _ _ d _ _ _ => [.v d]
  | .bvmov _ _ d _ _ qd => if qd = 1 then [.q (qOf d)] else [.v d]
  | _ => []

/-- The destinations an operation of slots 4 to 7 names (R143): streams bound or appended to among them. -/
def EngineSlot.destinations : EngineSlot → List Dest
  | .xperm _ d _ _ _ | .xbcast _ d _ _ _ | .xrot _ d _ _ _ => [.v d]
  | .qbind _ q _ _ _ _ => [.q q]
  | .ashout _ q _ _ _ _ => [.q q]
  | .aprov _ d st _ => if st = 1 then gDest d else gDest d ++ gDest (d + 1)
  | .tcopy _ d _ _ | .tgath _ d _ _ | .tscat _ d _ _ | .txfer _ d _ _ => gDest d
  | .tsend _ d _ _ _ => gDest d
  | _ => []

def Slot.destinations : Slot → List Dest
  | .plain i => Sys2Proof.destinations i
  | .engine e => e.destinations

/-- Why a bundle is illegal: R143's reason code, 0 to 3, and the lowest offending slot. -/
structure BundleFault where
  code : BitVec 2
  slot : BitVec 3
  deriving DecidableEq, Repr

/-- Slot k of a bundle (R139). -/
def slotWord (b : BitVec 256) (k : Nat) : BitVec 32 := b.extractLsb' (32 * k) 32

/-- Lowest slot, from a list of slots, whose word is illegal for a reason. -/
def findSlotFault (b : BitVec 256) (f : SlotFault) : List Nat → Option (BitVec 3)
  | [] => none
  | k :: ks =>
    match decodeSlot (BitVec.ofNat 3 k) (slotWord b k) with
    | .error e => if e = f then some (BitVec.ofNat 3 k) else findSlotFault b f ks
    | .ok _ => findSlotFault b f ks

/-- Lowest slot that shares a destination with another. -/
def findDuplicate : List (Nat × List Dest) → Option Nat
  | [] => none
  | (k, ds) :: rest => if rest.any fun r => r.2.any ds.contains then some k else findDuplicate rest

/-- The operations of a bundle, by slot. -/
def slotOps (b : BitVec 256) : List (Nat × Slot) :=
  (List.range 8).filterMap fun k =>
    match decodeSlot (BitVec.ofNat 3 k) (slotWord b k) with
    | .ok i => some (k, i)
    | .error _ => none

/-- A bundle, read (R143): its eight operations, or the lowest reason code and the lowest offending slot. -/
def decodeBundle (b : BitVec 256) : Except BundleFault (List Slot) :=
  match findSlotFault b .unassigned (List.range 8) with
  | some k => .error ⟨0, k⟩
  | none =>
  match findSlotFault b .reserved (List.range 8) with
  | some k => .error ⟨1, k⟩
  | none =>
  match findSlotFault b .cluster (List.range 8) with
  | some k => .error ⟨2, k⟩
  | none =>
  match findDuplicate ((slotOps b).map fun x => (x.1, x.2.destinations)) with
  | some k => .error ⟨3, BitVec.ofNat 3 k⟩
  | none => .ok ((slotOps b).map (·.2))

/-- The bits of a list of bytes, the first byte least significant (R2). -/
def leBits : List (BitVec 8) → Nat
  | [] => 0
  | b :: bs => b.toNat + 256 * leBits bs

/-- A strand word read from the bytes at its address, with the bytes that follow it (R2, R124). -/
def decodeBytes : List (BitVec 8) → Except Illegal (Instr × List (BitVec 8))
  | b0 :: b1 :: b2 :: b3 :: rest =>
    (decodeWord (BitVec.ofNat 32 (leBits [b0, b1, b2, b3]))).map fun i => (i, rest)
  | _ => .error .short

/-- The bytes of a word as the hardware stores it (R2). -/
def wordBytes (w : BitVec 32) : List (BitVec 8) :=
  [w.extractLsb' 0 8, w.extractLsb' 8 8, w.extractLsb' 16 8, w.extractLsb' 24 8]

/-- The instruction this decoder reads from a table row's bits: one strand word of 32 bits, laid out little-endian. -/
def decodeTableWord (nbits w : Nat) : Option Instr :=
  if nbits ≤ 32 ∧ w < 2 ^ 32 then
    match decodeBytes (wordBytes (BitVec.ofNat 32 w)) with
    | .ok (i, _) => some i
    | .error _ => none
  else none

end Sys2Proof
end

