-- ==== Sys2Proof/Machine/Translate.lean ====
section
/-!
DEFINITION. Worlds and translation (R351, R352, R383 to R388): the region table, TLB entries, the two lookups, the checks of
an access, and the bench's miss table.
-/

namespace Sys2Proof.Machine

open Sys2Proof

/-! ### Regions (R352) -/

/-- The entries of the region table in secure memory: whether secure, first byte, last byte plus one. -/
def regions (s : State) : List (Bool × Nat × Nat) :=
  if s.regiontbl.getLsbD 63 then
    let base := wfield s.regiontbl 12 40 * 4096
    (List.range (wfield s.regiontbl 0 8 + 1)).filterMap fun k =>
      let w0 := Mem.read s.mem (base + 16 * k) 8
      let w1 := Mem.read s.mem (base + 16 * k + 8) 8
      if w0.testBit 63 then some (w0.testBit 62, field w0 12 40 * 4096, field w1 12 40 * 4096) else none
  else []

/-- Some byte of a physical range is secure. -/
def touchesSecure (s : State) (pa n : Nat) : Bool :=
  (regions s).any fun r => r.1 && decide (r.2.1 < pa + n ∧ pa < r.2.2)

/-- A physical range lies in one secure region. -/
def insideSecure (s : State) (pa n : Nat) : Bool :=
  (regions s).any fun r => r.1 && decide (r.2.1 ≤ pa ∧ pa + n ≤ r.2.2)

/-! ### TLB entries (R384, R385) -/

/-- log2 of a page size by its code; 0 for the unassigned code. -/
def pageBits (code : Nat) : Nat := [12, 14, 16, 21, 25, 30, 34].getD code 0

def TlbEntry.valid (e : TlbEntry) : Bool := e.w0.getLsbD 63
def TlbEntry.isGlobal (e : TlbEntry) : Bool := e.w0.getLsbD 62
def TlbEntry.sizeCode (e : TlbEntry) : Nat := wfield e.w0 59 3
def TlbEntry.r (e : TlbEntry) : Bool := e.w0.getLsbD 58
def TlbEntry.w (e : TlbEntry) : Bool := e.w0.getLsbD 57
def TlbEntry.x (e : TlbEntry) : Bool := e.w0.getLsbD 56
def TlbEntry.va (e : TlbEntry) : Nat := wfield e.w0 12 44 * 4096
def TlbEntry.privOnly (e : TlbEntry) : Bool := e.w0.getLsbD 11
def TlbEntry.secure (e : TlbEntry) : Bool := e.w0.getLsbD 10
def TlbEntry.asid (e : TlbEntry) : BitVec 10 := e.w0.extractLsb' 0 10
def TlbEntry.remote (e : TlbEntry) : Bool := e.w1.getLsbD 63
def TlbEntry.node (e : TlbEntry) : BitVec 11 := e.w1.extractLsb' 52 11
def TlbEntry.pa (e : TlbEntry) : Nat := wfield e.w1 12 40 * 4096
def TlbEntry.bytes (e : TlbEntry) : Nat := 2 ^ pageBits e.sizeCode

/-- An entry matches an access (R387). -/
def TlbEntry.hits (e : TlbEntry) (asid : BitVec 10) (va : Nat) : Bool :=
  e.valid && (e.isGlobal || decide (e.asid = asid)) && decide (e.va ≤ va ∧ va < e.va + e.bytes)

/-- Of two matching entries, the smaller page, then the one that is not global (R387). -/
def TlbEntry.better (a b : TlbEntry) : Bool :=
  decide (a.sizeCode < b.sizeCode) || (decide (a.sizeCode = b.sizeCode) && !a.isGlobal && b.isGlobal)

/-- The entry a lookup uses (R387). -/
def lookupTlb (asid : BitVec 10) (va : Nat) : List TlbEntry → Option TlbEntry
  | [] => none
  | e :: es =>
    match lookupTlb asid va es with
    | none => if e.hits asid va then some e else none
    | some b => if e.hits asid va && !b.better e then some e else some b

/-! ### Agents -/

/-- Who makes an access, and from where (R351, R353, R387): whether it is an engine, one of dispatch among them (R389), and the
page whose miss a TLBW has failed for it (R392). -/
structure Agent where
  asid : BitVec 10
  secure : Bool
  priv : BitVec 2
  hearth : Option Nat
  bench : Nat
  engine : Bool := false
  dispatch : Bool := false
  failed : Option (Nat × Cause) := none
  deriving DecidableEq, Repr

/-- The hearth a thread is on; none for a walker or steward core (R353). -/
def Thread.onHearth (t : Thread) : Option Nat :=
  match t.place with
  | .strand c => some (c / 4)
  | .forge h => some h
  | .walker _ => none
  | .steward _ => none
  | .off => some t.hearth

/-- A thread's own bench; a steward thread counts as a member of every bench of its die, and uses bench 6d (R391, R393). -/
def Thread.bench (t : Thread) : Nat :=
  match t.place with
  | .walker b => b
  | .steward d => 6 * d
  | _ => (t.onHearth.getD 0) / 8

def agentOf (t : Thread) : Agent :=
  { asid := t.id.asid, secure := t.secure, priv := t.priv, hearth := t.onHearth, bench := t.bench, failed := t.failed }

/-! ### Lookup (R386 to R388) -/

def selfWindow : Nat := 0xFFFFFFFFD00000

/-- What translation answers. -/
inductive Trans where
  | ok (pa : Nat) (node : Option (BitVec 11))
  | fault (c : Cause)
  | miss
  | nowhere
  deriving DecidableEq, Repr

/-- The checks of R386, in order. -/
def entryFault (ag : Agent) (kind : AccessKind) (e : TlbEntry) : Option Cause :=
  let permitted := match kind with
    | .load => e.r
    | .store => e.w
    | .atomic => e.r && e.w
    | .fetch => e.x
    | .block => e.r && e.w
  if e.secure && !ag.secure then some .world
  else if !permitted then some .protection
  else if e.privOnly && decide (ag.priv = 0) then some .protection
  else none

/-- The address an entry gives; a kind-1 entry of this package's own node is local (R423). -/
def entryTarget (s : State) (e : TlbEntry) (va : Nat) : Trans :=
  .ok (e.pa + (va - e.va)) (if e.remote && decide (e.node ≠ s.node) then some e.node else none)

/-- An entry as it acts: a kind-1 entry of this package's own node has the effect of a kind-0 entry for its page, whose world is
this package's (R352, R385, R423). -/
def actingEntry (s : State) (e : TlbEntry) : TlbEntry :=
  if e.remote && decide (e.node = s.node) && touchesSecure s e.pa e.bytes then { e with w0 := e.w0 ||| (1#64 <<< 10) } else e

def checked (s : State) (ag : Agent) (kind : AccessKind) (e : TlbEntry) (va : Nat) : Trans :=
  match entryFault ag kind (actingEntry s e) with
  | some c => .fault c
  | none => entryTarget s e va

/-- A bench lookup that finds several sizes drops the larger entries and counts a split (R387). -/
def benchLookup (asid : BitVec 10) (va : Nat) (b : Bench) : Option TlbEntry × Bench :=
  match lookupTlb asid va b.tlb with
  | none => (none, b)
  | some e =>
    let larger := b.tlb.filter fun x => x.hits asid va && decide (e.sizeCode < x.sizeCode)
    let b := if larger.isEmpty then b
      else { b with tlb := b.tlb.filter (fun x => !larger.contains x),
                    splits := if b.splits = BitVec.allOnes 32 then b.splits else b.splits + 1 }
    (some e, { b with tlb := e :: b.tlb.filter fun x => decide (x ≠ e) })

/-- An entry used: it stands first, and the least recently used one leaves a full TLB. -/
def useEntry (cap : Nat) (e : TlbEntry) (l : List TlbEntry) : List TlbEntry := (e :: l.filter fun x => decide (x ≠ e)).take cap

/-- The cause that a failed miss raises for an access of a kind (R392). -/
def failCause (kind : AccessKind) (c : Cause) : Cause :=
  match c, kind with
  | .pageData, .fetch => .pageFetch
  | .pageData, .block => .pageContext
  | c, _ => c

/-- A lookup that misses: the fault that a TLBW has given the agent's wait for the page, otherwise a miss (R392, R400). -/
def missed (ag : Agent) (va : Nat) (kind : AccessKind) : Trans :=
  match ag.failed with
  | some (p, c) => if p = va / 4096 then .fault (failCause kind c) else .miss
  | none => .miss

/-- One byte's translation (R386, R387). An engine goes to the bench TLB at once (R279). -/
def translate (ag : Agent) (va : Nat) (kind : AccessKind) (s : State) : Trans × State :=
  if selfWindow ≤ va then
    match ag.hearth with
    | some h => (.ok (localBase + h * 2 ^ 22 + (va - selfWindow)) none, s)
    | none => (.nowhere, s)
  else
    let l1 := match ag.hearth, ag.engine with
      | some h, false => lookupTlb ag.asid va (hearthOf s h).l1
      | _, _ => none
    match l1, ag.hearth with
    | some e, some h =>
      (checked s ag kind e va, putHearth s h { hearthOf s h with l1 := useEntry 64 e (hearthOf s h).l1 })
    | _, _ =>
      match benchLookup ag.asid va (benchOf s ag.bench) with
      | (none, b) => (missed ag va kind, putBench s ag.bench b)
      | (some e, b) =>
        let s := putBench s ag.bench b
        let s := match ag.hearth, ag.engine with
          | some h, false => putHearth s h { hearthOf s h with l1 := useEntry 64 e (hearthOf s h).l1 }
          | _, _ => s
        (checked s ag kind e va, s)

/-- The kinds of a miss message (R389). -/
def kindBits : AccessKind → BitVec 4
  | .load => 1 | .store => 2 | .atomic => 3 | .fetch => 4 | .block => 8

/-- Lowest miss-table index that is not in use. -/
def freeIndex (ms : List Miss) : Option Nat := (List.range 256).find? fun i => ms.all fun m => decide (m.index ≠ i)

/-- The miss table can take a miss of a page (R388). -/
def missRoom (ag : Agent) (va : Nat) (s : State) : Bool :=
  let b := benchOf s ag.bench
  b.misses.any (fun m => decide (m.asid = ag.asid ∧ m.page = BitVec.ofNat 44 (va / 4096))) || (freeIndex b.misses).isSome

/-- A miss joins its key's entry, or takes a free one; with the table full it only waits (R388). The message names the thread, but
none where an engine missed first, and no hearth for a dispatch engine (R389). -/
def addMiss (ag : Agent) (ctx : BitVec 44) (w : Waiter) (va : Nat) (kind : AccessKind) (s : State) : State :=
  let b := benchOf s ag.bench
  let page := BitVec.ofNat 44 (va / 4096)
  let p : Parked := ⟨w, va, kind⟩
  if b.misses.any fun m => decide (m.asid = ag.asid ∧ m.page = page) then
    putBench s ag.bench { b with misses := b.misses.map fun m =>
      if m.asid = ag.asid ∧ m.page = page then
        { m with kinds := m.kinds ||| kindBits kind, waiters := if m.waiters.contains p then m.waiters else m.waiters ++ [p] }
      else m }
  else match freeIndex b.misses with
    | none => s
    | some i =>
      putBench s ag.bench { b with misses := b.misses ++
        [{ index := i, asid := ag.asid, page := page, kinds := kindBits kind, secure := ag.secure, priv := ag.priv,
           hearth := match ag.hearth with
             | some h => if ag.dispatch then 0xFF else h
             | none => 0xFF,
           ctx := if ag.engine then 0 else ctx, cyc := s.cyc, waiters := [p] }] }

/-- A region named by a binding block of a live launch of the address space (R80, R218). (Log entry 49: DEDUCED, unsafe.) -/
def weightRegion (s : State) (asid : BitVec 10) (va : Nat) : Bool :=
  s.launches.any fun l => decide (l.asid = asid ∧ l.state = .running) &&
    l.binding.any fun b => decide (addr b.2.base ≤ va ∧ va < addr b.2.base + b.2.length)

/-- A location that only Bellows and host copies write (R80, R81). (Log entry 49: DEDUCED, unsafe.) -/
def readOnly (s : State) (asid : BitVec 10) (va pa : Nat) : Bool := (ingotDie pa).isSome || weightRegion s asid va

def poisoned (s : State) (pa n : Nat) : Bool := s.poison.any fun l => decide (pa / 128 ≤ l ∧ l ≤ (pa + n - 1) / 128)

end Sys2Proof.Machine
end

