-- ==== Sys2Proof/Machine/Shadow.lean ====
section
/-!
DEFINITION. Stores as they wait and are performed (R87, R96, R97), and snapshot levels: whose shadow holds a byte, which
level a byte goes to, and room for new shadow lines (R104 to R114).
-/

namespace Sys2Proof.Machine

open Sys2Proof

/-! ### Stores -/

/-- Bytes of a commutative update's location (R194). -/
def updateBytes (fmt : BitVec 5) : Nat := (intFmt fmt.toNat).elim 8 fun f => f.2 / 8

/-- The location's value after a commutative update (R194). -/
def updated (op : BitVec 2) (fmt : BitVec 5) (x : Nat) (c : Word) : Nat :=
  let (sg, w) := (intFmt fmt.toNat).getD (false, 64)
  let y := c.toNat % 2 ^ w
  match op.toNat with
  | 0 => (x + y) % 2 ^ w
  | 1 => if readInt sg w x < readInt sg w y then y else x
  | 2 => if readInt sg w y < readInt sg w x then y else x
  | _ => x ||| y

/-- Bytes an operation touches. -/
def StoreOp.size : StoreOp → Nat
  | .bytes n _ _ => n
  | .update _ f _ => updateBytes f

/-- The mask of n whole bytes. -/
def fullMask (n : Nat) : Nat := 2 ^ (8 * n) - 1

/-- A store of n whole bytes. -/
def StoreOp.whole (n data : Nat) : StoreOp := .bytes n data (fullMask n)

/-- A memory after an operation at a physical address (R96, R97). -/
def StoreOp.apply (o : StoreOp) (pa : Nat) (m : List Host.Cell) : List Host.Cell :=
  match o with
  | .bytes n d k => Mem.writeMasked m pa n d k
  | .update op f c => Mem.write m pa (updateBytes f) (updated op f (Mem.read m pa (updateBytes f)) c)

/-- The index of the view of a thread: its hearth, or a number of its own for a walker or steward core. -/
def Thread.view (t : Thread) : Nat :=
  match t.place with
  | .walker b => 192 + b
  | .steward d => 216 + d
  | _ => t.onHearth.getD 0

/-- Memory as agents of a hearth see it: what is performed everywhere, and the hearth's own stores (R87).
(Log entries 16: DEDUCED, unsafe; 17: DESIGN CHOICE, safe.) -/
def seen (s : State) (h : Nat) : List Host.Cell :=
  s.pending.foldl (fun m p => if p.hearth = h then p.op.apply p.pa m else m) s.mem

/-- The local-memory lines of a position that its checkpoint may still take (R409, R411). (Log entry 110: DEDUCED, unsafe.) -/
def ckptLimit (s : State) (h : Nat) : Nat :=
  let n := (dieOf s (h / 48)).ckptlines.toNat
  if 48 * n > 1048576 ∨ wfield (dieOf s (h / 48)).ckptbase 20 32 * 2 ^ 20 + 48 * n * 128 > hbmBytes then 0 else n

/-- A write of a line of local memory under an open checkpoint takes one of its lines; without a free one the superstep becomes
unprotected (R406, R409). -/
def noteLine (pa : Nat) (s : State) : State :=
  match localHearth pa with
  | none => s
  | some h =>
    let line := pa / 128
    let hit (p : Position) : Bool := decide (p.hearth = h) && p.checkpoint.isSome && !p.ckptLines.contains line && !p.unprotected
    if s.launches.any (fun l => l.positions.any hit) then
      let full := s.launches.any fun l => l.positions.any fun p => hit p && decide (p.ckptRoom ≤ p.ckptLines.length)
      let mark (p : Position) : Position :=
        if hit p then (if full then { p with unprotected := true } else { p with ckptLines := line :: p.ckptLines }) else p
      let s := { s with launches := s.launches.map fun l => { l with positions := l.positions.map mark } }
      if full then
        let b := benchOf s (h / 8)
        putBench s (h / 8) { b with unprot := if b.unprot = 0xFFFF then b.unprot else b.unprot + 1 }
      else s
    else s

/-- A write of n bytes, whatever agent makes it, takes checkpoint lines where it falls on local memory under one (R406).
(Log entries 110: DEDUCED, unsafe; 155: DESIGN CHOICE, unsafe.) -/
def noteCheckpoint (pa n : Nat) (s : State) : State :=
  if s.launches.any (fun l => l.positions.any (·.checkpoint.isSome)) then
    (List.range ((pa + n - 1) / 128 - pa / 128 + 1)).foldl (fun s k => noteLine (pa / 128 * 128 + 128 * k) s) s
  else s

/-- An operation performed at system scope. An update merged into a poisoned line is discarded (R403). -/
def performOp (o : StoreOp) (pa : Nat) (s : State) : State :=
  match o with
  | .bytes _ _ _ => noteCheckpoint pa o.size { s with mem := o.apply pa s.mem }
  | .update _ _ _ => if poisoned s pa o.size then s else noteCheckpoint pa o.size { s with mem := o.apply pa s.mem }

/-- Every store of a hearth is performed at system scope, in its order (R87).
(Log entries 16: DEDUCED, unsafe; 56: DEDUCED, safe.) -/
def drainHearth (h : Nat) (s : State) : State :=
  let mine := s.pending.filter fun p => decide (p.hearth = h)
  mine.foldl (fun s p => performOp p.op p.pa s) { s with pending := s.pending.filter fun p => decide (p.hearth ≠ h) }

/-- A commutative update (R97). -/
def StoreOp.isUpdate : StoreOp → Bool
  | .update _ _ _ => true
  | .bytes _ _ _ => false

/-- Stores and updates that a read performs, and those that go on waiting: the updates that it meets, and what each one's hearth has
before it. -/
def splitMet (hit : Pending → Bool) : List Pending → List Pending × List Pending
  | [] => ([], [])
  | p :: ps =>
    let (a, b) := splitMet hit ps
    if hit p || a.any (fun q => decide (q.hearth = p.hearth)) then (p :: a, b) else (a, p :: b)

/-- Before a location is read, the commutative updates of it that some hearth still holds are merged into it (R97).
(Log entry 16: DEDUCED, unsafe.) -/
def mergeReads (pas : List Nat) (s : State) : State :=
  let hit (p : Pending) : Bool := p.op.isUpdate && pas.any fun a => decide (p.pa ≤ a ∧ a < p.pa + p.op.size)
  if s.pending.any hit then
    let (now, later) := splitMet hit s.pending
    now.foldl (fun s p => performOp p.op p.pa s) { s with pending := later }
  else s

/-! ### Levels -/

/-- An open level with its place: whose it is (none for the thread, or a domain's index), and where it stands in that list,
which has the innermost first. -/
structure Owned where
  owner : Option Nat
  pos : Nat
  level : Level
  deriving DecidableEq, Repr

/-- Serial number of a tag (R104). -/
def tagSerial (w : Word) : Nat := w.toNat / 256

/-- Insertion by falling serial: a later SNAP is inner to an earlier one (R107). -/
def insertOwned (o : Owned) : List Owned → List Owned
  | [] => [o]
  | x :: xs => if tagSerial x.level.tag < tagSerial o.level.tag then o :: x :: xs else x :: insertOwned o xs

def withPositions (owner : Option Nat) (ls : List Level) : List Owned := ls.zipIdx.map fun (l, i) => ⟨owner, i, l⟩

/-- The open levels of a thread from the innermost: its thread levels, then the levels of its domains (R105, R107). -/
def ownedLevels (s : State) (t : Thread) : List Owned :=
  let dom := s.domains.zipIdx.flatMap fun (d, i) => if d.members.contains t.id then withPositions (some i) d.levels else []
  withPositions none t.levels ++ dom.foldr insertOwned []

/-- A level covers the line of an address (R106). -/
def Level.covers (l : Level) (va : Nat) : Bool := decide (l.base ≤ va ∧ va < l.base + l.len)

/-- A location that levels never shadow: local memory, through the self window or a page (R106). -/
def unshadowed (pa : Nat) (node : Option (BitVec 11)) : Bool := node.isNone && (localHearth pa).isSome

/-- The innermost open level that covers an address (R107). (Log entry 47: DEDUCED, unsafe.) -/
def coveringLevel (s : State) (t : Thread) (va : Nat) : Option Owned := (ownedLevels s t).find? fun o => o.level.covers va

/-- A level's shadow line of an address. -/
def Level.lineOf (l : Level) (va : Nat) : Option ShadowLine := l.lines.find? fun x => decide (x.line = va / 128)

/-- A byte that a shadow line holds. -/
def ShadowLine.byteAt (x : ShadowLine) (va : Nat) : Option Byte :=
  if x.mask.getLsbD (va % 128) then some (x.data.extractLsb' (8 * (va % 128)) 8) else none

/-- The shadow line from which an owner's load of a byte takes its value (R108). (Log entry 47: DEDUCED, unsafe.) -/
def shadowOf (s : State) (t : Thread) (va : Nat) : Option (ShadowLine × Byte) :=
  (ownedLevels s t).findSome? fun o => (o.level.lineOf va).bind fun x => (x.byteAt va).map fun b => (x, b)

/-- One byte written into a line, its mask bit set. -/
def ShadowLine.put (x : ShadowLine) (va : Nat) (b : Byte) : ShadowLine :=
  let k := 8 * (va % 128)
  { x with mask := x.mask ||| (1#128 <<< (va % 128)),
           data := (x.data &&& ~~~(0xFF#1024 <<< k)) ||| (b.setWidth 1024 <<< k) }

/-- One byte written into a level's shadow, which is allocated if absent (R107). -/
def Level.put (l : Level) (va die : Nat) (b : Byte) : Level :=
  match l.lineOf va with
  | some x => { l with lines := l.lines.map fun y => if y.line = x.line then y.put va b else y }
  | none => { l with lines := l.lines ++ [({ line := va / 128, die := die, mask := 0, data := 0 } : ShadowLine).put va b] }

/-- A level changed in place. -/
def modLevel (t : ThreadId) (o : Owned) (f : Level → Level) (s : State) : State :=
  match o.owner with
  | none =>
    match findThread s t with
    | some x => putThread s { x with levels := x.levels.modify o.pos f }
    | none => s
  | some d => { s with domains := s.domains.modify d fun x => { x with levels := x.levels.modify o.pos f } }

/-! ### Room for shadow lines (R114, R411) -/

def Level.count (l : Level) : Nat := l.lines.length

/-- Every open level of the package, with its address space. -/
def allLevels (s : State) : List (BitVec 10 × Level) :=
  (threads s).flatMap (fun t => t.levels.map fun l => (t.id.asid, l)) ++
  s.domains.flatMap (fun d => match d.members with
    | [] => []
    | m :: _ => d.levels.map fun l => (m.asid, l))

/-- Lines of an address space's crucible in use. (Log entry 155: DESIGN CHOICE, unsafe.) -/
def poolUsed (s : State) (asid : BitVec 10) : Nat :=
  ((allLevels s).filter fun x => decide (x.1 = asid)).foldl (fun n x => n + x.2.count) 0

/-- Lines of an address space's crucible (R411); none where the pool is not in HBM4E and of the space's world. -/
def poolLines (s : State) (asid : BitVec 10) (secure : Bool) : Nat :=
  let w := (spaceOf s asid).shpool
  let lg := wfield w 0 6
  let base := wfield w 16 36 * 65536
  if lg < 16 ∨ 40 < lg then 0
  else if base + 2 ^ lg > hbmBytes then 0
  else if (if secure then insideSecure s base (2 ^ lg) else !touchesSecure s base (2 ^ lg)) then 2 ^ lg / 128 else 0

/-- Directory entries of a die in use by program levels. -/
def entriesUsed (s : State) (die : Nat) : Nat :=
  (allLevels s).foldl (fun n x => n + (x.2.lines.filter fun y => decide (y.die = die)).length) 0

/-- Directory entries of a die that program levels may use (R114, R411). (Log entry 110: DEDUCED, unsafe.) -/
def entryLimit (s : State) (die : Nat) : Nat := 1048576 - 48 * ckptLimit s (48 * die)

/-- Home die of a line, for shadow-directory entries (R452). -/
def shadowDie (pa : Nat) (node : Option (BitVec 11)) : Nat := if node.isSome then field pa 7 2 else homeDie pa

/-- The high-water mark of a die's directory (R411). -/
def noteHighWater (die : Nat) (s : State) : State :=
  let d := dieOf s die
  let n := entriesUsed s die
  if d.highWater.toNat < n then putDie s die { d with highWater := BitVec.ofNat 21 n } else s

/-- One exhaustion event is counted (R411). -/
def noteExhaustion (die : Nat) (s : State) : State :=
  let d := dieOf s die
  putDie s die { d with exhausted := if d.exhausted = BitVec.allOnes 22 then d.exhausted else d.exhausted + 1 }

end Sys2Proof.Machine
end

