-- ==== Sys2Proof/Machine/Access.lean ====
section
/-!
DEFINITION. The accesses of a thread (R77 to R101, R106 to R114, R185, R186, R398, R403, R416, R420, R423, R424): loads, stores,
atomics and commutative updates by virtual address, with translation, the replay queue, shadows, the exchange buffer of a
deterministic launch, remote pages, and the ends of levels and tasks that an exhausted crucible brings.
-/

namespace Sys2Proof.Machine

open Sys2Proof

/-! ### A piece of meaning on another thread -/

/-- The state a piece of meaning leaves, however it ended. -/
def runM (m : M Unit) (s : State) : State :=
  let r := runResult m s
  settle r.1 r.2

/-- A piece of meaning performed for the thread of a name, wherever it stands in the list. -/
def asThread (id : ThreadId) (m : M Unit) (s : State) : State :=
  if s.th.id = id ∧ s.th.st ≠ .unborn then runM m s
  else match s.others.findIdx? fun x => decide (x.id = id ∧ x.st ≠ .unborn) with
    | none => s
    | some i =>
      let s' := runM m { s with th := s.others.getD i {}, others := s.others.set i s.th }
      { s' with th := s'.others.getD i {}, others := s'.others.set i s'.th }

/-- A piece of meaning performed for the thread of a name, with its result; the state it leaves has the threads in their places
again, whatever the result. -/
def asThreadResult {α : Type} (id : ThreadId) (m : M α) (s : State) : Except Stop α × State :=
  if s.th.id = id ∧ s.th.st ≠ .unborn then runResult m s
  else match s.others.findIdx? fun x => decide (x.id = id ∧ x.st ≠ .unborn) with
    | none => (.error .stopped, s)
    | some i =>
      let (r, s') := runResult m { s with th := s.others.getD i {}, others := s.others.set i s.th }
      (r, { s' with th := s'.others.getD i {}, others := s'.others.set i s'.th })

/-- A trap that comes to a thread from outside its instructions: taken at the boundary it has reached; a thread that is
trapped, or that waits in PARK, takes it when it next issues (R101, R210, R424). -/
def asyncTrap (c : Cause) (v : Word) (id : ThreadId) : State → State :=
  asThread id do
    let t ← getTh
    if t.st = .trapped ∨ (t.st = .parked ∧ t.wait = .park) ∨ (t.st = .parked ∧ t.wait = .forgeSeat) then
      modTh fun t => { t with asyncTrap := some (c, v) }
    else if t.st = .done ∨ t.st = .unborn then pure ()
    else modify (takeTrap c v)

/-! ### Deterministic launches -/

/-- The launch in whose compute phase a thread runs (R35, R37). -/
def computing (s : State) (t : Thread) : Option Launch :=
  s.launches.find? fun l => decide (l.id = t.launch) && l.computing

/-- A form that a compute phase forbids (R37, R453). -/
def forbidInPhase (v : Word) : M Unit := do
  let s ← get
  if (computing s s.th).isSome then trap .phaseViolation v

/-- A field of the launch record (R312): word, lowest bit, length. -/
def Launch.field (l : Launch) (w lo len : Nat) : Nat := wfield (l.record.getD w 0) lo len

def modLaunch (id : Nat) (f : Launch → Launch) (s : State) : State :=
  { s with launches := s.launches.map fun l => if l.id = id then f l else l }

/-- Aligned 8-byte chunks that n bytes from an address touch (R39). -/
def chunks (va n : Nat) : Nat := if n = 0 then 0 else (va + n - 1) / 8 - va / 8 + 1

/-- Records that an operation at an address takes in an exchange buffer: one for each aligned 8-byte chunk that it writes (R39); an
update is held in its line (R37). -/
def recordsOf (pa : Nat) : StoreOp → Nat
  | .bytes n _ k =>
    let lead := pa % 8
    ((List.range (chunks pa n)).filter fun c => decide (field (k * 2 ^ (8 * lead)) (64 * c) 64 ≠ 0)).length
  | .update _ _ _ => 0

/-- Records of a hearth's exchange buffer in use (R39). -/
def exchangeUsed (l : Launch) (h : Nat) : Nat :=
  l.deferred.foldl (fun k d => if d.hearth = h then k + recordsOf d.pa d.op else k) 0

/-- Records that fit: 4,096, and those of the spill region (R39, R312). -/
def exchangeRoom (l : Launch) : Nat := 4096 + l.field 9 32 32 / 16

/-! ### Groups and tasks -/

/-- A thread's domain of a level, by index (R32). -/
def domainAt (s : State) (t : Thread) (level : Nat) : Option Nat :=
  s.domains.findIdx? fun d => decide (d.level = level) && d.members.contains t.id

def modDomain (i : Nat) (f : Domain → Domain) (s : State) : State := { s with domains := s.domains.modify i f }
def domainGet (s : State) (i : Nat) : Option Domain := s.domains[i]?

/-- The domain of the thread's ordering group (R118). -/
def groupDomain (s : State) (t : Thread) : Option Nat := if t.bound then domainAt s t t.tlevel.toNat else none

/-- The cursor past every abandoned timestamp it reaches (R120). (Log entry 135: DEDUCED, safe.) -/
def passAbandoned : Nat → List Word → Word → Word
  | 0, _, c => c
  | n + 1, ab, c => if ab.contains c then passAbandoned n ab (c + 1) else c

/-- The cursor moves past t, and the waiter that it then reaches goes on (R120); so does one whose timestamp it has passed, because
its task is no more (R454). -/
def advanceCursor (d : Nat) (c : Word) (s : State) : State :=
  let s := modDomain d (fun x => { x with group := x.group.map fun g =>
    { g with cursor := passAbandoned g.abandoned.length g.abandoned c } }) s
  match (domainGet s d).bind (·.group) with
  | none => s
  | some g => releaseIf (fun t => match t.wait with
    | .commit k w => decide (k = d ∧ w.toNat ≤ g.cursor.toNat)
    | _ => false) s

/-- A task ended without publication and without restart (R112, R120). (Log entries 59: DEDUCED, unsafe; 135: DEDUCED, safe.) -/
def abandonTask (t : Thread) (s : State) : State :=
  match groupDomain s t with
  | none => s
  | some d =>
    let leave (g : Group) : Group := { g with abandoned := t.stamp :: g.abandoned, taken := g.taken.filter fun w => decide (w ≠ t.stamp) }
    let s := modDomain d (fun x => { x with group := x.group.map leave }) s
    match (domainGet s d).bind (·.group) with
    | some g => if g.cursor = t.stamp then advanceCursor d g.cursor s else s
    | none => s

/-- A thread's queued stores without those that levels with these tags covered: nothing of a rejected level is published (R112). -/
def Thread.dropQueued (tags : List Word) (t : Thread) : Thread :=
  { t with queue := t.queue.filter fun q => !q.level.any tags.contains }

/-- A thread's level at a position and every level inside it closed, nothing published (R112). -/
def dropThreadLevels (id : ThreadId) (pos : Nat) (s : State) : State :=
  match findThread s id with
  | none => s
  | some t =>
    let gone := t.levels.take (pos + 1)
    let task := gone.any (·.task)
    let s := putThread s { t.dropQueued (gone.map (·.tag)) with levels := t.levels.drop (pos + 1) }
    if task then abandonTask t s else s

/-- An aborted task's thread as it stands at the TBEGIN word again (R122); a forge seat it held is free. The part holds what TBEGIN
saved, so blocks that are not resident keep it when they arrive. -/
def restartTask (t : Thread) : Thread :=
  { t with r := t.saved.getD t.r, saved := none, forge := false, replay := none, redirect := none,
           place := if t.forge then .off else t.place, st := if t.forge ∧ t.st ≠ .trapped then .ready else t.st }

/-- A seat given up without latching anything. (Log entry 38: DEDUCED, safe.) -/
def freeSeat (t : Thread) (s : State) : State :=
  match t.place with
  | .forge h =>
    let x := hearthOf s h
    putHearth s h { x with seat := none, owner := none, forge := {}, banks := x.banks.map fun b => { b with valid := b.pinned.isSome && b.valid },
                           inflight := [], frozen := none, frozenFor := 0, preempt := false, boundary := false }
  | _ => s

/-- An aborted thread waits for the cursor before it restarts (R114). -/
def Thread.holdFor (d : Nat) (t : Thread) : Thread := { t with st := .parked, wait := .commit d t.stamp, place := t.place.vacated }

/-- An abort of a thread's open task (R121, R122): its levels close at once, with what its replay queue holds for them, and the thread
restarts at its boundary, or when the wait or the trap it is in ends. With `hold`, it restarts only once it holds the cursor (R114).
(Log entry 38: DEDUCED, safe.) -/
def abortTask (id : ThreadId) (hold : Bool) (s : State) : State :=
  match findThread s id with
  | none => s
  | some t =>
    let pos := t.levels.findIdx (·.task)
    let d := groupDomain s t
    let s := match d with
      | some d => modDomain d (fun x => { x with group := x.group.map fun g => { g with taken := g.taken.filter fun w => decide (w ≠ t.stamp) } }) s
      | none => s
    let t := { t.dropQueued ((t.levels.take (pos + 1)).map (·.tag)) with
      levels := t.levels.drop (pos + 1), aborts := min 0xFFFF (t.aborts + 1), redirect := some (.restart hold) }
    match t.st, t.wait with
    | .trapped, _ => putThread s t
    | .parked, .commit _ _ => putThread s { restartTask t with st := t.readied, wait := .none }
    | .parked, _ => putThread s t
    | _, _ =>
      let s := freeSeat t s
      let t := restartTask t
      if hold then putThread s (t.holdFor (d.getD 0))
      else putThread s { t with st := if t.st = .stalledMemory ∨ t.st = .stalledRegister then .seated else t.st }

/-! ### Exhaustion (R114, R454) -/

/-- A domain lies inside another: the same launch, and no member outside. (Log entry 60: DEDUCED, unsafe.) -/
def Domain.inside (a b : Domain) : Bool := decide (a.launch = b.launch ∧ a.level ≤ b.level) && a.members.all b.members.contains

/-- A domain level with a fallback rejected for every member (R114, R454). (Log entry 60: DEDUCED, unsafe.) -/
def rejectDomainLevel (d pos : Nat) (s : State) : State :=
  match domainGet s d with
  | none => s
  | some x =>
    match x.levels[pos]? with
    | none => s
    | some l =>
      let inner (y : Domain) : Bool := y.inside x
      let close (y : Domain) (i : Nat) : Domain :=
        if i = d then { y with levels := y.levels.drop (pos + 1), arrivals := [] }
        else if inner y then { y with levels := y.levels.filter (fun k => decide (tagSerial k.tag < tagSerial l.tag)), arrivals := [] }
        else y
      let gone := (s.domains.flatMap fun y => if inner y then y.levels.filter (fun k => decide (tagSerial l.tag ≤ tagSerial k.tag)) else []).map (·.tag)
      let s := mapThreads (Thread.dropQueued gone) { s with domains := s.domains.zipIdx.map fun (y, i) => close y i }
      let s := x.members.foldl (fun s m => dropThreadLevels m 7 s) s
      mapThreads (fun t =>
        if x.members.contains t.id then
          let t := { t with redirect := some (.fallback l.fallback) }
          match t.st, t.wait with
          | .parked, .collective k => if (domainGet s k).any inner then { t with st := t.readied, wait := .none } else t
          | _, _ => t
        else t) s

/-- The course a redirect sets (R114, R122): a thread of forge mode leaves it. -/
def Thread.redirected (t : Thread) : Thread :=
  match t.redirect with
  | none => t
  | some (.restart _) => restartTask t
  | some (.fallback pc) =>
    { t with redirect := none, r := { (t.r.wg 1 0x18) with pc := pc &&& pcMask }, forge := false, replay := none,
             place := if t.forge then .off else t.place, st := if t.forge ∧ t.st ≠ .trapped then .ready else t.st }

/-- The task of a thread's last timestamp holds its group's cursor (R120). -/
def holdsCursor (s : State) (t : Thread) : Bool :=
  ((groupDomain s t).bind fun d => (domainGet s d).bind (·.group)).any fun g => decide (g.cursor = t.stamp)

/-- The current thread takes the course that a redirect sets; a forge seat it held is free. (Log entry 38: DEDUCED, safe.) -/
def applyRedirect (s : State) : State :=
  let s := freeSeat s.th s
  let t := s.th.redirected
  match s.th.redirect, groupDomain s s.th with
  | some (.restart true), some d => { s with th := if holdsCursor s t then t else t.holdFor d }
  | _, _ => { s with th := t }

/-- The thread that issues takes a new course at once; one whose queued store brings it takes it when it next issues (R114). -/
def takeCourse : M Unit := do
  if (← getTh).st = .running then modify applyRedirect
  else modTh fun t => { t with st := if t.st = .stalledMemory then .seated else t.st }

/-- What an owner store that finds no room for a shadow line brings (R114). -/
def exhausted {α : Type} (o : Owned) (line die : Nat) : M α := do
  modify (noteExhaustion die)
  let s ← get
  let t := s.th
  match o.owner with
  | some d =>
    if o.level.fallback = 0 then trapN .shadowExhausted (line * 128)
    else
      modify (rejectDomainLevel d o.pos)
      takeCourse
      stop
  | none =>
    if o.level.task then
      if holdsCursor s t then trapN .shadowExhausted (line * 128)
      else
        modify (abortTask t.id true)
        stop
    else if o.level.fallback = 0 then trapN .shadowExhausted (line * 128)
    else
      modify (dropThreadLevels t.id o.pos)
      modTh fun t => { t with redirect := some (.fallback o.level.fallback) }
      takeCourse
      stop

/-! ### Watchpoints (R416) -/

/-- The debug module of a thread's unit (R413). -/
def debugOf (s : State) (t : Thread) : DebugModule :=
  match t.place with
  | .strand c => (coreOf s c).debug
  | .forge h => (hearthOf s h).debug
  | .walker b => (coreOf s (768 + b)).debug
  | .steward d => (coreOf s (792 + d)).debug
  | .off => {}

/-- The unit of a thread is stopped (R414). -/
def unitStopped (s : State) (t : Thread) : Bool := (debugOf s t).stopped

def putDebug (t : Thread) (m : DebugModule) (s : State) : State :=
  match t.place with
  | .strand c => putCore s c { coreOf s c with debug := m }
  | .forge h => putHearth s h { hearthOf s h with debug := m }
  | .walker b => putCore s (768 + b) { coreOf s (768 + b) with debug := m }
  | .steward d => putCore s (792 + d) { coreOf s (792 + d) with debug := m }
  | .off => s

/-- The first watchpoint that an access matches, of those that are not passed: its number, and whether it stops the unit.
(Log entry 43: DEDUCED, safe.) -/
def watchHit (m : DebugModule) (asid : BitVec 10) (rd wr : Bool) (va n : Nat) (passed : BitVec 12) : Option (Nat × Bool) :=
  ((List.range 4).filter fun i => !passed.getLsbD (8 + i)).findSome? fun i =>
    let c := m.wpc.toList.getD i 0
    let a := (m.wpa.toList.getD i 0).toNat
    let lg := wfield c 0 6
    if c.getLsbD 63 && ((rd && c.getLsbD 61) || (wr && c.getLsbD 60)) && (c.getLsbD 59 || decide (m.dbgasid = asid))
        && decide (lg ≤ 20) && decide (a < va + n ∧ va < a + 2 ^ lg) then some (i, c.getLsbD 62) else none

/-- A matching access is not performed: the thread traps, or its unit stops (R416). (Log entry 42: DEDUCED, safe.) -/
def watch (rd wr : Bool) (va n : Nat) : M Unit := do
  let s ← get
  let m := debugOf s s.th
  match watchHit m s.th.id.asid rd wr va n s.th.passBreak with
  | none => pure ()
  | some (i, false) => trapN .breakpoint (2 ^ 63 + i * 2 ^ 56 + va)
  | some (i, true) =>
    modify (putDebug s.th { m with stop := true, stopped := true, reason := 3 })
    modTh fun t => { t with passBreak := t.passBreak ||| (1#12 <<< (8 + i)) }
    stop

/-! ### Places -/

/-- One byte's place. -/
structure Spot where
  va : Nat
  pa : Nat
  node : Option (BitVec 11)
  deriving DecidableEq, Repr

/-- Where the bytes of an access lie, or what stands in its way. -/
inductive Reach where
  | ok (spots : List Spot)
  | fault (c : Cause)
  | miss (va : Nat)
  | nowhere
  deriving DecidableEq, Repr

/-- Consecutive bytes of one page. -/
def spotsFrom (va pa : Nat) (node : Option (BitVec 11)) (n : Nat) : List Spot := (List.range n).map fun k => ⟨va + k, pa + k, node⟩

/-- The translation of n bytes, at most two pages (R386, R387). (Log entry 54: DESIGN CHOICE, safe.) -/
def reach (ag : Agent) (va n : Nat) (kind : AccessKind) (s : State) : Reach × State :=
  match translate ag va kind s with
  | (.fault c, s) => (.fault c, s)
  | (.miss, s) => (.miss va, s)
  | (.nowhere, s) => (.nowhere, s)
  | (.ok pa node, s) =>
    let room := 4096 - va % 4096
    if n ≤ room then (.ok (spotsFrom va pa node n), s)
    else
      let next := (va + room) % 2 ^ 56
      match translate ag next kind s with
      | (.fault c, s) => (.fault c, s)
      | (.miss, s) => (.miss next, s)
      | (.nowhere, s) => (.nowhere, s)
      | (.ok pa' node', s) => (.ok (spotsFrom va pa node room ++ spotsFrom next pa' node' (n - room)), s)

/-- Local memory of the thread's own hearth. -/
def ownLocal (t : Thread) (p : Spot) : Bool :=
  p.node.isNone && match localHearth p.pa, t.onHearth with
    | some a, some b => decide (a = b)
    | _, _ => false

/-- A deferred store that a thread's loads read in the compute phase: its own, and, in an open task, what tasks of its group have
committed (R37, R38). -/
def readsDeferred (s : State) (t : Thread) (node : Option (BitVec 11)) (d : Deferred) : Bool :=
  decide (d.node = node) && !d.op.isUpdate && (decide (d.t = t.id) || (t.inTask && d.group.isSome && decide (d.group = groupDomain s t)))

/-- A memory, of this package or of a node, with the deferred stores that a thread's loads read there. -/
def withDeferred (s : State) (t : Thread) (l : Launch) (node : Option (BitVec 11)) (m : List Host.Cell) : List Host.Cell :=
  l.deferred.foldl (fun m d => if readsDeferred s t node d then d.op.apply d.pa m else m) m

/-- Memory, outside its own local memory, as a thread's loads read it where no shadow holds the byte: in a compute phase the
start of the superstep with the deferred stores that it reads (R37, R38), otherwise what its hearth sees (R87).
(Log entry 17: DESIGN CHOICE, safe.) -/
def baseMem (s : State) (t : Thread) : List Host.Cell :=
  match computing s t with
  | none => seen s t.view
  | some l => withDeferred s t l none l.startMem

/-- A byte as the thread's loads read it (R89, R108). -/
def viewByte (s : State) (t : Thread) (base : List Host.Cell) (p : Spot) : Byte :=
  if unshadowed p.pa p.node then Mem.get (if ownLocal t p then s.mem else base) p.pa
  else match shadowOf s t p.va with
    | some (_, b) => b
    | none => Mem.get base p.pa

/-- Bytes as a number, the first the lowest (R2). -/
def bytesToNat : List Byte → Nat
  | [] => 0
  | b :: bs => b.toNat + 256 * bytesToNat bs

/-- The n bytes of a number, the lowest first. -/
def natToBytes : Nat → Nat → List Byte
  | 0, _ => []
  | n + 1, x => BitVec.ofNat 8 x :: natToBytes n (x / 256)

/-- The bytes of an access as the thread reads them. -/
def viewNat (s : State) (t : Thread) (ps : List Spot) : Nat :=
  let base := baseMem s t
  bytesToNat (ps.map (viewByte s t base))

/-- Poison that a read meets (R403). (Log entry 48: DEDUCED, unsafe.) -/
def poisonAt (s : State) (t : Thread) (p : Spot) : Bool :=
  if unshadowed p.pa p.node then poisoned s p.pa 1
  else match shadowOf s t p.va with
    | some (x, _) => x.poisoned
    | none => p.node.isNone && poisoned s p.pa 1

/-! ### Delay accounting (R420, R421) -/

/-- The core on whose account a thread's accesses count. -/
def accountCore (t : Thread) : Nat :=
  match t.place with
  | .strand c => c
  | .forge h => 4 * h
  | .walker b => 768 + b
  | .steward d => 792 + d
  | .off => 4 * t.hearth

/-- Accumulator index of an access. (Log entry 44: DESIGN CHOICE, safe.) -/
def delayIndex (pa : Nat) (node : BitVec 11) : Nat :=
  field pa 8 6 ^^^ field pa 14 6 ^^^ field node.toNat 0 6 ^^^ field node.toNat 6 5

/-- A response to a thread's access is counted: its hops and queued cycles are not fixed, nor, for an access that the hearth's L1 may
serve, whether it left the hearth. (Log entry 44: DESIGN CHOICE, safe.) -/
def noteDelay (t : Thread) (p : Spot) (mayHit : Bool) (s : State) : State :=
  let c := (coreOf s (accountCore t)).delaybase
  if c.getLsbD 63 && !ownLocal t p then
    let w := Config.freeValue s.freeCount
    let s := { s with freeCount := s.freeCount + 1 }
    if mayHit && w.getLsbD 16 then s
    else
      let a := wfield c 10 42 * 1024 + 16 * delayIndex p.pa (p.node.getD 0)
      let add (x : Word) : StoreOp := .update 0 13 x
      performOp (add (BitVec.ofNat 64 (2 ^ 32 + wfield w 12 4))) (a + 8) (performOp (add (BitVec.ofNat 64 (wfield w 0 12))) a s)
  else s

/-- A response to an access of the current thread is counted. (Log entry 44: DESIGN CHOICE, safe.) -/
def countDelay (p : Spot) (mayHit : Bool) : M Unit := modify fun s => noteDelay s.th p mayHit s

/-! ### Remote pages (R423, R424) -/

/-- Address and length of the memory that a request names. -/
def requestSpan : RemoteRequest → Option (Nat × Nat)
  | .load _ a n => some (a.toNat, n)
  | .store _ a bs => some (a.toNat, bs.length)
  | .atomic _ _ a n _ _ => some (a.toNat, n)
  | .update _ _ f a _ => some (a.toNat, updateBytes f)
  | .masked _ a n _ _ => some (a.toNat, n)
  | _ => none

/-- A request of the thread to a remote line of an access still awaits its response (R426). -/
def remoteBusy (s : State) (t : Thread) (node : BitVec 11) (pa n : Nat) : Bool :=
  s.remotes.any fun r => decide (r.node = node) && (match r.who with
    | .access x => decide (x = t.id)
    | .queued x => decide (x = t.id)
    | _ => false) && (requestSpan r.req).any fun (a, m) =>
      decide (a / 128 ≤ (pa + n - 1) / 128 ∧ pa / 128 ≤ (a + m - 1) / 128)

/-- Bytes of a request that the rate and the cap count, 16 for its head; a packet of channel VC3 counts none (R425, R428, R429).
(Log entry 119: DEDUCED, unsafe.) -/
def requestBytes : RemoteRequest → Nat
  | .load _ _ _ => 16
  | .store _ _ bs => 16 + bs.length
  | .atomic _ _ _ n _ _ => 16 + n
  | .update _ _ _ _ _ => 24
  | .masked _ _ n _ _ => 16 + 2 * n
  | .packet _ _ => 0
  | .mailbox _ _ _ _ => 0
  | .unit _ _ bs => 16 + bs.length
  | .arrival _ _ _ => 0

/-- Two requests name some 128-byte line in common. -/
def sameLine (a b : RemoteRequest) : Bool :=
  match requestSpan a, requestSpan b with
  | some (x, n), some (y, m) => decide (x / 128 ≤ (y + m - 1) / 128 ∧ y / 128 ≤ (x + n - 1) / 128)
  | _, _ => false

/-- A request is held at its source behind an earlier one of its agent to a line of it (R426). -/
def heldBehind (rs : List Remote) (i : Nat) (r : Remote) : Bool :=
  (rs.take i).any fun q => decide (q.who = r.who ∧ q.node = r.node) && sameLine q.req r.req

def nodeOf (s : State) (n : BitVec 11) : NodeState := lookup {} s.nodes n.toNat
def putNode (s : State) (n : BitVec 11) (x : NodeState) : State := { s with nodes := insert s.nodes n.toNat x }

/-- The order of R426, the rate of R428 and the cap of R429 let a request leave. (Log entry 119: DEDUCED, unsafe.) -/
def mayLeave (s : State) (i : Nat) (r : Remote) : Bool :=
  let x := nodeOf s r.node
  r.sent.isNone && !heldBehind s.remotes i r
    && decide (r.bytes = 0 ∨ (x.out = 0 ∨ x.out + r.bytes ≤ x.cap) ∧ x.free.toNat ≤ s.cyc.toNat)

/-- A request leaves: its bytes are outstanding, and take their time at the node's rate. (Log entry 119: DEDUCED, unsafe.) -/
def leaveSource (i : Nat) (r : Remote) (s : State) : State :=
  let x := nodeOf s r.node
  putNode { s with remotes := s.remotes.set i { r with sent := some s.cyc } } r.node { x with
    out := x.out + r.bytes
    free := if r.bytes = 0 then x.free else s.cyc + BitVec.ofNat 64 ((64 * r.bytes + x.rate - 1) / x.rate) }

/-- The i-th request leaves if it may. -/
def tryLeave (s : State) (i : Nat) : State :=
  match s.remotes[i]? with
  | some r => if mayLeave s i r then leaveSource i r s else s
  | none => s

/-- Every request at its source leaves that may, the oldest first. -/
def sendHeld (s : State) : State := (List.range s.remotes.length).foldl tryLeave s

/-- A request for a node: it leaves at once if it may. (Log entries 51: DEDUCED, unsafe; 119: DEDUCED, unsafe.) -/
def sendRemote (who : Waiter) (node : BitVec 11) (req : RemoteRequest) (va : Nat) (s : State) : State :=
  tryLeave { s with remotes := s.remotes ++ [{ who := who, node := node, req := req, va := va, issued := s.cyc, bytes := requestBytes req }] }
    s.remotes.length

/-- A response to another package leaves. -/
def respond (r : RemoteResult) (s : State) : State := { s with responses := s.responses ++ [r] }

/-- Cause of a failed remote access (R424). -/
def RemoteResult.cause : RemoteResult → Option Cause
  | .data _ => none
  | .wrongWorld => some .world
  | .noMemory => some .fabric
  | .poisoned => some .poison

/-- The reply of a remote load or atomic: taken if it is there, otherwise the request is sent. (Log entry 51: DEDUCED, unsafe.) -/
def remoteTry (node : BitVec 11) (pa n va : Nat) (req : RemoteRequest) : M (Option Nat) := do
  let s ← get
  match s.th.replies.find? fun r => decide (r.pa = pa ∧ r.node = node ∧ r.len = n) with
  | some r =>
    modTh fun t => { t with replies := t.replies.filter fun x => decide (x ≠ r) }
    match r.result with
    | .data bs => return some (bytesToNat (bs.take n))
    | .wrongWorld => trapN .world va
    | .noMemory => trapN .fabric va
    | .poisoned => trapN .poison va
  | none =>
    if remoteBusy s s.th node pa n then return none
    else
      modify (sendRemote (.access s.th.id) node req va)
      return none

/-- A remote load or atomic whose thread waits for the reply. -/
def remoteFetch (node : BitVec 11) (pa n va : Nat) (req : RemoteRequest) : M Nat := do
  match ← remoteTry node pa n va req with
  | some x => return x
  | none => stall .stalledMemory

/-! ### Remote bytes as loads read them (R37, R108, R423) -/

/-- A remote byte of the superstep's start, where a load has fetched it. -/
def Launch.startByte (l : Launch) (node : BitVec 11) (pa : Nat) : Option Byte :=
  (l.remoteStart.find? fun x => decide (x.1 = node.toNat ∧ x.2.1 = pa)).map (·.2.2)

/-- A remote byte is all of what a thread's loads read from deferred stores. -/
def coveredDeferred (s : State) (t : Thread) (l : Launch) (node : BitVec 11) (pa : Nat) : Bool :=
  l.deferred.any fun d => readsDeferred s t (some node) d && match d.op with
    | .bytes n _ k => decide (d.pa ≤ pa ∧ pa < d.pa + n ∧ field k (8 * (pa - d.pa)) 8 = 255)
    | .update _ _ _ => false

/-- Remote bytes that a compute phase's loads have without a request, if it has them all (R37). -/
def phaseBytes (s : State) (t : Thread) (l : Launch) (node : BitVec 11) (pas : List Nat) : Option (List Byte) :=
  if pas.all fun a => (l.startByte node a).isSome || coveredDeferred s t l node a then
    let m := withDeferred s t l (some node) (pas.foldl (fun m a => Mem.set m a ((l.startByte node a).getD 0)) [])
    some (pas.map (Mem.get m))
  else none

/-- Bytes fetched in a compute phase are those of its start for the rest of it (R37). (Log entry 138: DEDUCED, unsafe.) -/
def noteStart (id : Nat) (node : BitVec 11) (pas : List Nat) (bs : List Byte) : State → State :=
  modLaunch id fun l => { l with remoteStart := l.remoteStart ++
    ((pas.zip bs).filter fun x => (l.startByte node x.1).isNone).map fun x => (node.toNat, x.1, x.2) }

/-- The bytes of one remote page part as the thread's loads read them where no shadow holds them; none while a reply is awaited.
(Log entry 138: DEDUCED, unsafe.) -/
def remoteBytes (tv : Nat) (node : BitVec 11) (pa n : Nat) : M (Option (List Byte)) := do
  let s ← get
  let pas := (List.range n).map (pa + ·)
  let req : RemoteRequest := .load s.th.secure (BitVec.ofNat 52 pa) n
  match computing s s.th with
  | none => return (← remoteTry node pa n tv req).map (natToBytes n)
  | some l =>
    match phaseBytes s s.th l node pas with
    | some bs => return some bs
    | none =>
      match ← remoteTry node pa n tv req with
      | none => return none
      | some x =>
        modify (noteStart l.id node pas (natToBytes n x))
        let s ← get
        return (computing s s.th).bind fun l => phaseBytes s s.th l node pas

/-- The spots of one page part. -/
def samePart (p q : Spot) : Bool := decide (p.node = q.node ∧ p.va / 4096 = q.va / 4096)

/-- The first spot of each page part of an access. -/
def partHeads : List Spot → List Spot
  | [] => []
  | p :: ps => p :: ps.filter fun q => decide (q.va % 4096 = 0)

/-- The bytes of an access as the owner reads them, the remote parts by request; none while a reply is awaited (R108, R423). -/
def ownerView (tv : Nat) (ps : List Spot) : M (Option Nat) := do
  let s ← get
  if ps.all (·.node.isNone) then return some (viewNat s s.th ps)
  let got ← (partHeads ps).mapM fun p => do
    let mine := ps.filter (samePart p)
    match p.node with
    | none => return some (natToBytes mine.length (viewNat s s.th mine))
    | some node =>
      let s ← get
      -- shadows of a remote page's lines hold their bytes here
      if mine.all fun q => (shadowOf s s.th q.va).isSome then return some (List.replicate mine.length 0)
      else remoteBytes tv node p.pa mine.length
  let s ← get
  if got.any Option.isNone then return none
  else return some (bytesToNat ((ps.zip (got.flatMap (·.getD []))).map fun (p, b) =>
    match p.node, shadowOf s s.th p.va with
    | some _, some (_, b') => b'
    | _, _ => b))

/-! ### Loads (R187, R188) -/

/-- A queued store overlaps an access (R101). (Log entry 46: DEDUCED, safe.) -/
def queueOverlaps (t : Thread) (va n : Nat) : Bool := t.queue.any fun q => decide (q.va < va + n ∧ va < q.va + q.op.size)

/-- A byte of an ingot store whose bank is in its refresh window (R82 to R84). -/
def inRefresh (cyc : Word) (pa : Nat) : Bool :=
  (ingotDie pa).isSome && decide (cyc.toNat % 16384 / 128 = 2 * field (pa - ingotBase) 8 6)

/-- A read that its ingot bank's refresh window holds (R84). (Log entry 50: DEDUCED, safe.) -/
def refreshHolds (s : State) (ps : List Spot) : Bool := ps.any fun p => p.node.isNone && inRefresh s.cyc p.pa

/-- The place of an access that waits for its translation: a miss stalls the thread, a fault traps at the word with the
effective address tv. (Log entries 41: DEDUCED, unsafe; 42: DEDUCED, safe.) -/
def placeOf (tv va n : Nat) (kind : AccessKind) : M (List Spot) := do
  let s ← get
  match reach (agentOf s.th) va n kind s with
  | (.ok ps, s') =>
    set s'
    match ps.find? fun p => p.node.isNone && !paExists p.pa with
    | some p => throw (.absent p.pa)
    | none => if (kind = .load ∨ kind = .fetch) ∧ refreshHolds s' ps then stall .stalledMemory else return ps
  | (.fault c, s') => do set s'; trapN c tv
  | (.miss a, s') => do
    set (addMiss (agentOf s.th) s.th.id.ctx (.access s.th.id) a kind s')
    stall .stalledMemory
  | (.nowhere, _) => throw (.nowhere va)

/-- A load by an open task marks its lines (R119). -/
def markReads (ps : List Spot) : M Unit := do
  if (← getTh).inTask then
    let ls := ps.filterMap fun p => if unshadowed p.pa p.node then none else some (p.va / 128)
    modTh fun t => { t with levels := t.levels.map fun l =>
      if l.task then { l with reads := l.reads ++ (ls.filter fun x => !l.reads.contains x).eraseDups } else l }

/-- The responses of a load are counted, one for each page part that leaves the hearth (R420). -/
def countLoads : List Spot → M Unit
  | [] => pure ()
  | p :: ps => do
    countDelay p true
    countLoads ps

/-- n bytes as the current thread's load gets them, as a little-endian number (R187). Updates that wait for them are merged first
(R97). The effective address is the trap value of every fault (R185). (Log entry 139: DEDUCED, unsafe.) -/
def loadAt (tv va n : Nat) : M Nat := do
  watch true false va n
  if queueOverlaps (← getTh) va n then stall .stalledMemory
  let ps ← placeOf tv va n .load
  modify (mergeReads ((ps.filter (·.node.isNone)).map (·.pa)))
  let s ← get
  if ps.any (poisonAt s s.th) then trapN .poison tv
  markReads ps
  match ← ownerView tv ps with
  | none => stall .stalledMemory
  | some x =>
    countLoads (if ps.all (·.node.isNone) then ps.take 1 else (partHeads ps).filter (·.node.isSome))
    return x

/-- A load whose bytes start at its effective address. (Log entry 41: DEDUCED, unsafe.) -/
def loadM (va n : Nat) : M Nat := loadAt va va n

/-! ### Stores -/

/-- The bytes an operation writes, by position: value under the mask over what the owner sees. -/
def storedBytes (o : StoreOp) (old : Nat) : List (Option Byte) :=
  match o with
  | .bytes n d k => (List.range n).map fun i =>
      let m := field k (8 * i) 8
      if m = 0 then none
      else some (BitVec.ofNat 8 ((field old (8 * i) 8 &&& (255 - m)) ||| (field d (8 * i) 8 &&& m)))
  | .update op f c => (natToBytes (updateBytes f) (updated op f old c)).map some

/-- The new shadow lines that bytes need: level and spot, one for each line, in line order (R107, R114). -/
def newLines (s : State) (t : Thread) (ps : List Spot) : List (Owned × Spot) :=
  ps.foldl (fun acc p =>
    if unshadowed p.pa p.node then acc
    else match coveringLevel s t p.va with
      | none => acc
      | some o =>
        if (o.level.lineOf p.va).isSome || acc.any (fun a => decide (a.2.va / 128 = p.va / 128)) then acc
        else acc ++ [(o, p)]) []

/-- Room for each new line, or the end that exhaustion brings (R114). -/
def requireRoom (need : List (Owned × Spot)) : M Unit := do
  let s ← get
  let t := s.th
  let free := poolLines s t.id.asid t.secure - poolUsed s t.id.asid
  let rec go : List (Owned × Spot) → Nat → List Nat → M Unit
    | [], _, _ => pure ()
    | (o, p) :: rest, used, dies => do
      let die := shadowDie p.pa p.node
      if used < free ∧ entriesUsed s die + (dies.filter (· = die)).length < entryLimit s die then go rest (used + 1) (die :: dies)
      else exhausted o (p.va / 128) die
  go need 0 []

/-- Bytes that go to shadows are put there (R107). -/
def putShadows (bs : List (Spot × Byte)) (s : State) : State :=
  bs.foldl (fun s (p, b) =>
    match coveringLevel s s.th p.va with
    | none => s
    | some o =>
      let die := shadowDie p.pa p.node
      let s := modLevel s.th.id o (fun l => l.put p.va die b) s
      noteHighWater die s) s

/-- A store joins its launch's deferred stores (R37, R39), those of a task's commit with its group's domain (R38). -/
def defer (l : Launch) (group : Option Nat) (p : Spot) (o : StoreOp) (s : State) : State :=
  let d : Deferred := ⟨s.th.hearth, s.th.detList, s.th.detG1, s.th.detSeq, s.th.id, p.pa, p.node, o, group⟩
  { modLaunch l.id (fun l => { l with deferred := l.deferred ++ [d] }) s with th := { s.th with detSeq := s.th.detSeq + 1 } }

/-- A record that spills takes 16 bytes of the local-memory region that the launch record names; what they hold is open (R39).
(Log entry 140: DESIGN CHOICE, safe.) -/
def spillRecord (l : Launch) (k : Nat) (s : State) : State :=
  let a := localBase + s.th.hearth * 2 ^ 22 + l.field 9 0 32 + 16 * (k - 4096)
  let x := (Config.freeValue s.freeCount).toNat + 2 ^ 64 * (Config.freeValue (s.freeCount + 1)).toNat
  performOp (.whole 16 x) a { s with freeCount := s.freeCount + 2 }

/-- A store deferred in a compute phase; the records that the buffer has no room for spill (R37, R39).
(Log entry 140: DESIGN CHOICE, safe.) -/
def deferStore (l : Launch) (group : Option Nat) (p : Spot) (o : StoreOp) (s : State) : State :=
  let used := exchangeUsed l s.th.hearth
  let spilt := (List.range (recordsOf p.pa o)).filterMap fun k => if 4096 ≤ used + k then some (used + k) else none
  defer l group p o (spilt.foldl (fun s k => spillRecord l k s) s)

/-- Room in the exchange buffer for some operations, or EXCHANGE_FULL before any of them (R39). -/
def requireRecords (va n : Nat) : M Unit := do
  let s ← get
  match computing s s.th with
  | some l => if 0 < n ∧ exchangeRoom l < exchangeUsed l s.th.hearth + n then trapN .exchangeFull va
  | none => pure ()

/-- The request that performs an operation at a remote package. -/
def storeRequest (secure : Bool) (pa : Nat) : StoreOp → RemoteRequest
  | .bytes n d k => if k % 2 ^ (8 * n) = fullMask n then .store secure (BitVec.ofNat 52 pa) (natToBytes n d)
      else .masked secure (BitVec.ofNat 52 pa) n d k
  | .update op f c => .update secure op f (BitVec.ofNat 52 pa) c.toNat

/-- The aligned 8-byte pieces of n bytes from an address: offset and length each (R94). -/
def pieceSpans (pa n : Nat) : List (Nat × Nat) :=
  let lead := 8 - pa % 8
  (List.range (chunks pa n)).map fun c =>
    let a := if c = 0 then 0 else lead + 8 * (c - 1)
    (a, min (if c = 0 then lead else 8) (n - a))

/-- A store as its hearth's other agents and the part outside see it: a wider one as separate aligned 8-byte pieces (R94).
(Log entry 139: DEDUCED, unsafe.) -/
def pieces (h pa : Nat) : StoreOp → List Pending
  | .bytes n d k =>
    if n ≤ 8 then [⟨h, pa, .bytes n d k⟩]
    else
      (pieceSpans pa n).filterMap fun (a, m) =>
        if field k (8 * a) (8 * m) = 0 then none else some ⟨h, pa + a, .bytes m (field d (8 * a) (8 * m)) (field k (8 * a) (8 * m))⟩
  | o => [⟨h, pa, o⟩]

/-- It is performed at once: own local memory, but for an update in a compute phase (R37). -/
def atOnce (s : State) (p : Spot) (o : StoreOp) : Bool := ownLocal s.th p && !(o.isUpdate && (computing s s.th).isSome)

/-- An operation on bytes of one page part that no level covers: at once in the thread's own local memory, deferred in a compute
phase, to the remote package, or performed at hearth scope (R37, R87, R423). -/
def publish (p : Spot) (o : StoreOp) : M Unit := do
  let s ← get
  if atOnce s p o then set (performOp o p.pa s)
  else match computing s s.th with
    | some l => set (deferStore l none p o s)
    | none =>
      match p.node with
      | some node => set (sendRemote (.queued s.th.id) node (storeRequest s.th.secure p.pa o) p.va s)
      | none => set ({ s with pending := s.pending ++ pieces s.th.view p.pa o } : State)

/-- The part of an operation that falls on some spots of its access: those bytes under its mask. -/
def StoreOp.part (o : StoreOp) (keep : List Bool) (skip n : Nat) : StoreOp :=
  match o with
  | .bytes _ d k =>
    let m := bytesToNat (keep.map fun b => if b then 0xFF else 0)
    .bytes n (field d (8 * skip) (8 * n)) (field (k &&& m) (8 * skip) (8 * n))
  | o => o

/-- What an operation publishes: for each page part, its first spot and the bytes there that go to no shadow. -/
def publicParts (covered : Spot → Bool) (ps : List Spot) (o : StoreOp) : List (Spot × StoreOp) :=
  (partHeads ps).filterMap fun p =>
    let skip := (ps.takeWhile fun q => !samePart p q).length
    let mine := ps.filter (samePart p)
    if mine.all covered then none
    else if o.isUpdate then some (p, o)
    else some (p, o.part (ps.map fun q => !covered q) skip mine.length)

/-- What reads the old bytes of an operation: an update, and a store of less than whole bytes. -/
def StoreOp.merges : StoreOp → Bool
  | .update _ _ _ => true
  | .bytes n _ k => (List.range n).any fun i => decide (field k (8 * i) 8 ≠ 0 ∧ field k (8 * i) 8 ≠ 255)

/-- Bytes that a level of the owner covers go to its shadow (R106, R107). -/
def covered (s : State) (t : Thread) (p : Spot) : Bool := !unshadowed p.pa p.node && (coveringLevel s t p.va).isSome

/-- The old value of the location, where an operation on covered bytes needs it; none while a remote one is awaited (R106, R108). -/
def oldFor (tv : Nat) (ps : List Spot) (o : StoreOp) : M (Option Nat) := do
  let s ← get
  if o.merges && ps.any (covered s s.th) then ownerView tv ps else return some 0

/-- An operation performed at its translated place: shadowed bytes go to the innermost covering level, the others are
published; nothing of it happens if some part finds no room (R39, R106, R107, R114).
(Log entries 16: DEDUCED, unsafe; 139: DEDUCED, unsafe; 148: DESIGN CHOICE, unsafe.) -/
def commitStore (ps : List Spot) (o : StoreOp) (old : Nat) : M Unit := do
  let s ← get
  let cov := covered s s.th
  let outer := publicParts cov ps o
  let away := outer.filter fun x => !atOnce s x.1 x.2
  requireRecords ((ps.head?).elim 0 (·.va)) (away.foldl (fun n x => n + recordsOf x.1.pa x.2) 0)
  if ps.any cov then
    let bytes := (ps.zip (storedBytes o old)).filterMap fun (p, b) => b.map fun b => (p, b)
    let mine := bytes.filter fun x => cov x.1
    requireRoom (newLines s s.th (mine.map (·.1)))
    modify (putShadows mine)
  for x in outer do publish x.1 x.2

/-- A store or update joins the replay queue, which holds eight (R101), with the level that covers it.
(Log entry 46: DEDUCED, safe.) -/
def enqueueStore (va : Nat) (o : StoreOp) : M Unit := do
  let s ← get
  if s.th.queue.length < 8 then
    modTh fun t => { t with queue := t.queue ++ [⟨va, o, (coveringLevel s s.th va).map (·.level.tag)⟩] }
  else stall .stalledMemory

/-- Pages an entry touches. -/
def pagesOf (va n : Nat) : List Nat := [va / 4096, (va + n - 1) % 2 ^ 56 / 4096]

/-- (Log entry 46: DEDUCED, safe.) -/
def sharePage (va n : Nat) (q : Queued) : Bool := (pagesOf va n).any fun p => (pagesOf q.va q.op.size).contains p

/-- A remote request to the line awaits its response: the store is held behind it (R426). -/
def heldRemote (s : State) (ps : List Spot) : Bool :=
  ps.any fun p => match p.node with
    | some node => remoteBusy s s.th node p.pa 1
    | none => false

/-- A store or commutative update whose miss has a place in the bench's miss table joins the replay queue; without one the thread
waits for a place (R101, R388). -/
def queueMiss (va a : Nat) (o : StoreOp) : M Unit := do
  let s ← get
  if missRoom (agentOf s.th) a s then
    enqueueStore va o
    modify fun s => addMiss (agentOf s.th) s.th.id.ctx (.queued s.th.id) a .store s
  else stall .stalledMemory

/-- A store or commutative update at its translated place: INGOT_READONLY, a wait for a remote line, or its effect (R80, R106, R426). -/
def storePlaced (tv : Nat) (ps : List Spot) (o : StoreOp) : M Unit := do
  let s ← get
  if ps.any fun p => readOnly s s.th.id.asid p.va p.pa then trapN .ingotReadonly tv
  else if heldRemote s ps then stall .stalledMemory
  else
    match ← oldFor tv ps o with
    | none => stall .stalledMemory
    | some old =>
      commitStore ps o old
      match ps with
      | p :: _ => countDelay p true
      | [] => pure ()

/-- A store or commutative update of the current thread (R101, R106, R187, R194). A form that may not be performed later than its
word waits for a missing translation (R238). -/
def storeAt (tv va : Nat) (o : StoreOp) (later : Bool := true) : M Unit := do
  let n := o.size
  watch false true va n
  let s ← get
  if s.th.queue.any (sharePage va n) then (if later then enqueueStore va o else stall .stalledMemory)
  else match reach (agentOf s.th) va n .store s with
    | (.ok ps, s') => do
      set s'
      match ps.find? fun p => p.node.isNone && !paExists p.pa with
      | some p => throw (.absent p.pa)
      | none => storePlaced tv ps o
    | (.fault c, s') => do set s'; trapN c tv
    | (.miss a, s') => do
      set s'
      if later then queueMiss va a o
      else
        modify fun s => addMiss (agentOf s.th) s.th.id.ctx (.access s.th.id) a .store s
        stall .stalledMemory
    | (.nowhere, _) => throw (.nowhere va)

/-- A store whose bytes start at its effective address. (Log entries 41: DEDUCED, unsafe; 42: DEDUCED, safe; 56: DEDUCED, safe.) -/
def storeM (va : Nat) (o : StoreOp) : M Unit := storeAt va va o

/-- One entry of the replay queue issued again, with what older entries leave queued: whether it stays (R101). -/
def reissueEntry (q : Queued) : M Bool := do
  let s ← get
  match reach (agentOf s.th) q.va q.op.size .store s with
  | (.ok ps, s') => do
    set s'
    if ps.any fun p => readOnly s' s'.th.id.asid p.va p.pa then trapN .ingotReadonly q.va
    else if heldRemote s' ps then return true
    else
      match ← oldFor q.va ps q.op with
      | none => return true
      | some old =>
        commitStore ps q.op old
        return false
  | (.fault c, s') => do
    set s'
    trapN c q.va
  | (.miss a, s') => do
    set (addMiss (agentOf s.th) s.th.id.ctx (.queued s.th.id) a .store s')
    return true
  | (.nowhere, _) => throw (.nowhere q.va)

/-- The replay queue issued again in its order: an entry whose page still misses stays, with every younger entry of its pages;
a fault traps the thread, its entry kept (R101). (Log entries 46: DEDUCED, safe; 147: DESIGN CHOICE, unsafe.) -/
def reissueQueue : M Unit := do
  let rec go : List Queued → List Queued → M Unit
    | [], kept => modTh fun t => { t with queue := kept }
    | q :: rest, kept => do
      if kept.any (sharePage q.va q.op.size) then go rest (kept ++ [q])
      else
        modTh fun t => { t with queue := kept ++ q :: rest }
        if ← reissueEntry q then go rest (kept ++ [q]) else go rest kept
  go (← getTh).queue []
  -- what waited for the queue goes on
  modTh fun t =>
    if t.st = .stalledMemory then { t with st := .seated }
    else t

/-- The scopes of R86 that a release waits at. -/
def scopeHearth : Nat := 1
def scopeSystem : Nat := 5

/-- A thread's stores that a release at a scope waits for are under way: its replay queue, its deposits and, above hearth scope, its
remote stores (R91, R101, R213, R426). -/
def awaitsRelease (scope : Nat) (s : State) (t : Thread) : Bool :=
  !t.queue.isEmpty || (decide (scopeHearth < scope) && s.remotes.any fun r => decide (r.who = .queued t.id))
    || s.deposits.any fun d => decide (d.src = t.id)

/-- A wait until the replay queue is empty and, above hearth scope, remote stores have their responses and every store of the
hearth is performed at system scope, which bench and wider scopes share (R87, R91, R101, R426). At hearth scope every store is performed
already. (Log entry 45: DEDUCED, safe.) -/
def releaseAt (scope : Nat) : M Unit := do
  let s ← get
  if awaitsRelease scope s s.th then stall .stalledMemory
  else if scopeHearth < scope then modify (drainHearth s.th.view)

/-- The release at system scope. -/
def releaseStores : M Unit := releaseAt scopeSystem

/-! ### Atomics (R192, R193) -/

/-- The value an atomic writes (R192); none where a comparison fails. -/
def atomicValue (op : Nat) (n old operand expect : Nat) : Option Nat :=
  let w := 8 * n
  match op with
  | 0 => some ((old + operand) % 2 ^ w)
  | 1 => some (old &&& operand)
  | 2 => some (old ||| operand)
  | 3 => some (old ^^^ operand)
  | 4 => some (if signed w operand < signed w old then operand else old)
  | 5 => some (if signed w old < signed w operand then operand else old)
  | 6 => some (min old operand)
  | 7 => some (max old operand)
  | 8 => some operand
  | _ => if old = expect then some operand else none

/-- An atomic read-modify-write of the current thread: its old value (R192, R193).
(Log entries 42: DEDUCED, safe; 56: DEDUCED, safe.) -/
def atomicM (va n op operand expect : Nat) : M Nat := do
  watch true true va n
  let t ← getTh
  if queueOverlaps t va n then stall .stalledMemory
  -- in a compute phase only the thread's own local memory may be named (R37), which only translation tells
  let s0 ← get
  match computing s0 s0.th with
  | none => pure ()
  | some _ =>
    match reach (agentOf s0.th) va n .atomic s0 with
    | (.ok ps, _) => if !ps.all (ownLocal s0.th) then trapN .phaseViolation va
    | (.fault _, _) => trapN .phaseViolation va
    | _ => pure ()
  let ps ← placeOf va va n .atomic
  let s ← get
  if ps.any fun p => readOnly s s.th.id.asid p.va p.pa then trapN .ingotReadonly va
  if ps.any (poisonAt s s.th) then trapN .poison va
  markReads ps
  match ps with
  | [] => return 0
  | p :: _ =>
    if covered s s.th p then
      match ← ownerView va ps with
      | none => stall .stalledMemory
      | some old =>
        match atomicValue op n old operand expect with
        | some y => commitStore ps (.whole n y) old
        | none => pure ()
        return old
    else
      match p.node with
      | some node =>
        let x ← remoteFetch node p.pa n va (.atomic s.th.secure (BitVec.ofNat 5 op) (BitVec.ofNat 52 p.pa) n operand expect)
        countDelay p false
        return x
      | none =>
        -- one single-copy atomic step on published memory, after the hearth's own earlier stores and every update of it (R94, R97)
        modify fun s => mergeReads (ps.map (·.pa)) (drainHearth s.th.view s)
        let s ← get
        let old := Mem.read s.mem p.pa n
        match atomicValue op n old operand expect with
        | some y => modify (performOp (.whole n y) p.pa)
        | none => pure ()
        countDelay p false
        return old

end Sys2Proof.Machine
end

