-- ==== Sys2Proof/Machine/Threads.lean ====
section
/-!
DEFINITION. Threads as frames (R21 to R28, R32, R179, R180): the frame image by register blocks, block transfers, the creation
of threads and their end, and barriers (R33, R197, R372).
-/

namespace Sys2Proof.Machine

open Sys2Proof

/-! ### The frame image (R24) -/

def natWord (n : Nat) : Word := BitVec.ofNat 64 n

/-- THRSTAT (R355). -/
def thrstat (t : Thread) : Word :=
  natWord (t.st.code * 2 ^ 44 + ofBool t.wake * 2 ^ 43 + ofBool t.forge * 2 ^ 42 + t.priv.toNat * 2 ^ 40
    + ofBool t.r.ftz * 2 ^ 11 + t.r.rnd.toNat * 2 ^ 8 + t.r.flags.toNat)

/-- FRAME state (R26). -/
def frameWord (f : FrameState) : Word :=
  natWord (f.count.toNat * 2 ^ 40 + f.j.toNat * 2 ^ 16 + f.stride.toNat * 2 ^ 11 + f.n.toNat)

/-- A loop-stack entry, two words (R169). -/
def Loop.words (l : Loop) : List Word :=
  [natWord (l.index.toNat * 2 ^ 38 + l.count.toNat * 2 ^ 12 + l.len.toNat), natWord (l.start.toNat * 4 + ofBool l.valid)]

/-- The eight words of a vector register, the lowest lane first. -/
def vecWords (v : Vec) : List Word := (List.range 8).map fun k => v.extractLsb' (64 * k) 64

/-- Replay-buffer entry (R257). -/
def InFlight.word (e : InFlight) : Word :=
  let (reg, kind) := match e.dst with
    | .g r => (r.toNat, 0)
    | .p r => (r.toNat, 1)
    | .v r => (r.toNat, 2)
    | .q r => (r.toNat, 3)
  natWord (e.slot * 2 ^ 17 + reg * 2 ^ 12 + kind * 2 ^ 8 + e.remain)

/-- The value words of a replay-buffer entry (R257). -/
def InFlight.values (e : InFlight) : List Word :=
  match e.dst, e.value with
  | .v _, .vector v => vecWords v
  | .q _, .vector v => vecWords v
  | .q _, .scalar w => [w, 0, 0, 0, 0, 0, 0, 0]
  | _, .scalar w => [w]
  | _, .vector v => [v.extractLsb' 0 64]
  | _, _ => [0]

/-- A list of words brought to a length, zeros at its end. -/
def padWords (n : Nat) (l : List Word) : List Word := (l ++ List.replicate n 0).take n

/-- The 128 words of the replay buffer, blocks 11 to 14 (R257); the last is the resume word of R238. -/
def replayWords (t : Thread) : List Word :=
  let body := match t.replay with
    | none => []
    | some r =>
      natWord (r.cause.toNat * 2 ^ 8 + 16 + min r.entries.length 15) :: padWords 15 (r.entries.map InFlight.word)
        ++ r.entries.flatMap InFlight.values
  padWords 127 body ++ [t.resume]

/-- The trap record, words 0xF20 to 0xF4F (R357). -/
def TrapRecord.words (r : TrapRecord) : List Word := [r.head, r.pc, r.value, r.handler, r.cyc, r.site]

/-- The 32 words of a register block (R24). (Log entry 24: DEDUCED, unsafe.) -/
def blockWords (t : Thread) (b : Nat) : List Word :=
  match b with
  | 0 => t.r.g.toList
  | 9 => t.r.m.toList ++ [t.r.p.setWidth 64, t.r.pc, thrstat t, frameWord t.r.frame, 0, 0, 0, 0]
      ++ t.r.loops.toList.flatMap Loop.words ++ t.r.sh.toList.take 4
  | 10 =>
    let own := t.levels.reverse
    t.r.sh.toList.drop 4 ++ [natWord own.length] ++ padWords 16 (own.flatMap fun l => [l.tag, l.fallback])
      ++ [natWord (t.tlevel.toNat + ofBool t.bound * 8 + ofBool t.inTask * 16), t.stamp]
      ++ t.r.rng.toList.flatMap (fun h => [h.key, h.base]) ++ t.timelines.toList.map fun l => natWord l.last
  | 15 => padWords 32 ([natWord (t.effPrio * 256 + t.basePrio), natWord (t.id.asid.toNat * 65536 + ofBool t.secure), t.domset,
      (t.joiner.elim 0 fun c => natWord (c.toNat * 4096))] ++ t.record.words)
  | _ =>
    if b ≤ 8 then ((List.range 4).flatMap fun k => vecWords (t.r.v.toList.getD (4 * (b - 1) + k) 0))
    else ((replayWords t).drop (32 * (b - 11))).take 32

/-- Words stored one after the other. -/
def writeWords (pa : Nat) : List Word → List Host.Cell → List Host.Cell
  | [], m => m
  | w :: ws, m => writeWords (pa + 8) ws (Mem.write m pa 8 w.toNat)

/-- Words read one after the other. -/
def readWords (m : List Host.Cell) (pa n : Nat) : List Word := (List.range n).map fun k => natWord (Mem.read m (pa + 8 * k) 8)

/-- A vector register from eight words. -/
def wordsVec (ws : List Word) : Vec := BitVec.ofNat 512 (ws.foldr (fun w x => w.toNat + 2 ^ 64 * x) 0)

/-- The registers that a fetched block holds (R24). -/
def Regs.loadBlock (r : Regs) (b : Nat) (ws : List Word) : Regs :=
  let w (k : Nat) : Word := ws.getD k 0
  match b with
  | 0 => { r with g := Vector.ofFn fun i => w i.val }
  | 9 =>
    { r with
      m := Vector.ofFn fun i => w i.val
      p := (w 8).extractLsb' 0 16
      pc := w 9 &&& pcMask
      frame := ⟨(w 11).extractLsb' 40 24, (w 11).extractLsb' 16 24, (w 11).extractLsb' 11 5, (w 11).extractLsb' 0 5⟩
      loops := Vector.ofFn fun i =>
        let a := w (16 + 2 * i.val)
        let c := w (17 + 2 * i.val)
        ⟨c.extractLsb' 2 54, c.getLsbD 0, a.extractLsb' 38 26, a.extractLsb' 12 26, a.extractLsb' 0 12⟩
      sh := Vector.ofFn fun i => if i.val < 4 then w (28 + i.val) else r.sh.toList.getD i.val 0 }
  | 10 =>
    { r with
      sh := Vector.ofFn fun i => if i.val < 4 then r.sh.toList.getD i.val 0 else w (i.val - 4)
      rng := Vector.ofFn fun i => ⟨w (23 + 2 * i.val), w (24 + 2 * i.val)⟩ }
  | _ =>
    if b ≤ 8 then { r with v := Vector.ofFn fun i =>
      if i.val / 4 = b - 1 then wordsVec ((ws.drop (8 * (i.val % 4))).take 8) else r.v.toList.getD i.val 0 }
    else r

/-! ### Block transfers (R22, R27, R397) -/

/-- The agent of a thread's context-block transfers. -/
def blockAgent (t : Thread) : Agent :=
  { agentOf t with hearth := if t.place.service then none else some t.hearth, priv := 2,
                   bench := if t.place.service then t.bench else t.hearth / 8 }

/-- Where a block of a frame lies, for an agent; a frame on memory that only Bellows and host copies write is not writable (R22, R81).
(Log entry 51: DEDUCED, unsafe.) -/
def placeBlockFor (ag : Agent) (t : Thread) (b : Nat) (s : State) : Reach × State :=
  match reach ag (frameVa t.id + 256 * b) 256 .block s with
  | (.ok ps, s) => if ps.any fun p => readOnly s ag.asid p.va p.pa then (.fault .protection, s) else (.ok ps, s)
  | r => r

/-- Where a block of a thread's frame lies. (Log entry 51: DEDUCED, unsafe.) -/
def placeBlock (t : Thread) (b : Nat) (s : State) : Reach × State := placeBlockFor (blockAgent t) t b s

def hasBlock (x : BitVec 16) (b : Nat) : Bool := x.getLsbD b
def setBlock (x : BitVec 16) (b : Nat) : BitVec 16 := x ||| (1#16 <<< b)
def clearBlock (x : BitVec 16) (b : Nat) : BitVec 16 := x &&& ~~~(1#16 <<< b)

/-- A block's image written at its place; a remote frame page takes it as a request (R423). -/
def writeImage (t : Thread) (b : Nat) (ps : List Spot) (s : State) : State :=
  match ps with
  | [] => s
  | p :: _ =>
    match p.node with
    | none => noteCheckpoint p.pa 256 { s with mem := writeWords p.pa (blockWords t b) s.mem }
    | some node => sendRemote (.block t.id b) node (.store t.secure (BitVec.ofNat 52 p.pa)
        ((blockWords t b).flatMap fun w => natToBytes 8 w.toNat)) p.va s

/-- A block of a thread written back to its frame, which its core's delay account counts (R420).
(Log entry 44: DESIGN CHOICE, safe.) -/
def writeOut (t : Thread) (b : Nat) (ps : List Spot) (s : State) : State :=
  (ps.head?).elim (writeImage t b ps s) fun p => noteDelay t p false (writeImage t b ps s)

/-- A block whose frame image is older than what the part holds for it. -/
def Thread.unwritten (t : Thread) (b : Nat) : Bool := (hasBlock t.resident b && hasBlock t.dirty b) || hasBlock t.owed b

/-- A block's image is what the part holds for it. -/
def Thread.written (t : Thread) (b : Nat) : Thread := { t with dirty := clearBlock t.dirty b, owed := clearBlock t.owed b }

/-- The dirty blocks of the current thread are written back (R23); a block whose page does not translate stops the word as
R22 says. (Log entry 24: DEDUCED, unsafe.) -/
def writeBack : List Nat → M Unit
  | [] => pure ()
  | b :: bs => do
    let s ← get
    if s.th.unwritten b then
      match placeBlock s.th b s with
      | (.ok ps, s') =>
        set (writeOut s'.th b ps s')
        modTh fun t => t.written b
      | (.miss a, s') => do
        set (addMiss (blockAgent s.th) s.th.id.ctx (.block s.th.id b) a .block s')
        modTh fun t => { t with wanted := setBlock t.wanted b }
        stall .stalledRegister
      | (_, s') => do
        set s'
        trapN .pageContext (frameVa s.th.id + 256 * b)
    writeBack bs

/-! ### Barriers (R33, R197, R201, R372) -/

/-- The combined status of two members (R33). -/
def combine (a b : Word) : Word :=
  let hi := (a ||| b).extractLsb' 32 32
  let lo := min (wfield a 0 32 + wfield b 0 32) 0xFFFFFFFF
  hi ++ BitVec.ofNat 32 lo

/-- Every remaining member has arrived (R32). -/
def Domain.complete (d : Domain) : Bool :=
  !d.members.isEmpty && d.members.all (fun m => d.arrivals.any fun a => decide (a.t = m)) && decide (d.pendingBytes = 0)

/-! ### The end of a thread (R180, R363) -/

/-- Everything of a hearth that belongs to a thread which is no more: its forge state, its place in queues, and its accumulator names
(R259, R290). (Log entry 85: DEDUCED, safe.) -/
def Hearth.forget (x : Hearth) (id : ThreadId) : Hearth :=
  let mine := decide (x.owner = some id)
  { x with
    forge := if mine then {} else x.forge
    banks := if mine then x.banks.map (fun b => { b with valid := b.pinned.isSome && b.valid }) else x.banks
    owner := if mine then none else x.owner
    seat := if x.seat = some id then none else x.seat
    forgeQueue := x.forgeQueue.filter fun t => decide (t ≠ id)
    spill := x.spill.filter fun e => decide (e.2.1 ≠ id)
    accMap := x.accMap.filter fun a => decide (a.t ≠ id)
    accReserved := x.accReserved.filter fun a => decide (a.1 ≠ id) }

/-- The thread before another in a core's round-robin order (R376). -/
def Core.before (x : Core) (id : ThreadId) : Option ThreadId := (x.order.takeWhile fun t => decide (t ≠ id)).getLast?

/-- A core's vector queue and its round-robin order without a thread that is no more. -/
def Core.forget (x : Core) (id : ThreadId) : Core :=
  { x with
    vqueue := x.vqueue.filter fun e => decide (e.t ≠ id)
    order := x.order.filter fun t => decide (t ≠ id)
    lastIssued := if x.lastIssued = some id then x.before id else x.lastIssued }

/-- A thread leaves its domains; a domain's levels are rejected, and its group ends, with its last member (R32, R116, R118). -/
def leaveDomains (id : ThreadId) (s : State) : State :=
  { s with domains := s.domains.map fun d =>
    if d.members.contains id then
      let ms := d.members.filter fun m => decide (m ≠ id)
      let last := ms.isEmpty && decide (d.unborn = 0)
      { d with members := ms, levels := if last then [] else d.levels, group := if last then none else d.group,
               arrivals := d.arrivals.filter fun a => decide (a.t ≠ id) }
    else d }

/-- A thread becomes done with an exit value: its levels rejected, its task abandoned, its domains left, its launch told, its
joiner ready (R180). The exit value stands in its g0 slot. -/
def endThread (id : ThreadId) (value : Word) (s : State) : State :=
  let s := dropThreadLevels id 7 s
  match findThread s id with
  | none => s
  | some t =>
    let s := leaveDomains id s
    let s := { s with hearths := s.hearths.map fun (e : Nat × Hearth) => (e.1, Hearth.forget e.2 id) }
    let s := { s with cores := s.cores.map fun (c : Nat × Core) => (c.1, Core.forget c.2 id) }
    let s := putThread s { t with st := .done, wait := .none, place := .off, forge := false, queue := [], packet := none, replay := none,
                                  joiner := none, resident := 0, dirty := 0, owed := 0, wanted := 0, killed := none, replies := [], redirect := none, asyncTrap := none,
                                  r := { t.r with g := t.r.g.set 0 value } }
    let count (p : Position) : Position := if p.hearth = t.home then { p with done := p.done + 1 } else p
    let s := if t.started then modLaunch t.launch (fun l => { l with doneCount := l.doneCount + 1, positions := l.positions.map count }) s
      else s
    match t.joiner with
    | none => s
    | some c => releaseIf (fun x => decide (x.id = ⟨t.id.asid, c⟩ ∧ x.wait = .join id)) s

/-! ### Creation (R179, R314) -/

/-- The part of memory from an address on, n bytes, cleared. -/
def clearRange (a n : Nat) (m : List Host.Cell) : List Host.Cell := m.filter fun c => !decide (a ≤ c.1 ∧ c.1 < a + n)

/-- The whole frame image of a new thread (R179 step 5). -/
def writeFrame (t : Thread) (pa : Nat) (m : List Host.Cell) : List Host.Cell :=
  writeWords pa ((List.range 16).flatMap (blockWords t)) (clearRange pa 4096 m)

/-- A thread that stands in for any earlier thread of its frame. -/
def addThread (t : Thread) (s : State) : State :=
  { s with th := if s.th.id = t.id then {} else s.th, others := (s.others.filter fun x => decide (x.id ≠ t.id)) ++ [t] }

/-- A new thread as its creator leaves it: ready on a hearth, its frame zero but for what R179 lists.
(Log entry 143: DESIGN CHOICE, unsafe.) -/
def newThread (id : ThreadId) (creator : Thread) (entry g1 g2 : Word) : Thread :=
  { id := id, secure := creator.secure, domset := creator.domset,
    r := { ((({} : Regs).wg 1 g1).wg 2 g2) with pc := entry &&& pcMask, rnd := creator.r.rnd, ftz := creator.r.ftz },
    st := .ready, basePrio := creator.basePrio, effPrio := creator.basePrio, launchPrio := creator.launchPrio,
    hearth := creator.hearth, home := creator.home, launch := creator.launch, detList := creator.detList, detG1 := creator.detG1 }

/-- A new thread with its frame at a physical place, a member of its creator's domains (R32). -/
def createThread (t : Thread) (creator : ThreadId) (ps : List Spot) (s : State) : State :=
  let s := match ps with
    | p :: _ =>
      if p.node.isNone then noteCheckpoint p.pa 4096 { s with mem := writeFrame t p.pa s.mem }
      else (List.range 16).foldl (fun s b => writeImage t b [{ p with pa := p.pa + 256 * b, va := p.va + 256 * b }] s) s
    | [] => s
  addThread t { s with domains := s.domains.map fun d => if d.members.contains creator then { d with members := d.members ++ [t.id] } else d }

end Sys2Proof.Machine
end

