-- ==== Sys2Proof/Machine/Control.lean ====
section
/-!
DEFINITION. Branches, hardware loops and thread words (R165 to R172, R176 to R184).
-/

namespace Sys2Proof.Machine

open Sys2Proof

/-! ### Branches and jumps -/

/-- A word that is its own trap value (R127). -/
def wordValue (i : Instr) : Word := (encode i).setWidth 64

/-- A taken transfer (R165, R170). -/
def branchTo (t : Word) : M Unit := modRegs fun r => r.jump (t &&& pcMask)

/-- BR, R165. -/
def execBr (gd : Guard) (o : BitVec 22) (s : State) : Out :=
  strand gd (do branchTo ((← getRegs).pc + branchOffset 4 o)) s

/-- BRL, R165: the link is written beside the branch. -/
def execBrl (gd : Guard) (o : BitVec 22) (s : State) : Out :=
  strand gd (do
    let pc := (← getRegs).pc
    writeG 31 (pc + 4)
    branchTo (pc + branchOffset 4 o)) s

/-- Target of a jump: MISALIGNED before any link (R166). -/
def jumpTarget (a : Reg) : M Word := do
  let w ← readG a
  if w.toNat % 4 = 0 then return w &&& pcMask else trap .misaligned w

/-- JR, R166. -/
def execJr (gd : Guard) (a : Reg) (s : State) : Out := strand gd (do branchTo (← jumpTarget a)) s

/-- JRL, R166: the target is read before the link is written. -/
def execJrl (gd : Guard) (d a : Reg) (s : State) : Out :=
  strand gd (do
    let t ← jumpTarget a
    writeG d ((← getRegs).pc + 4)
    branchTo t) s

/-! ### Hardware loops -/

/-- A loop level opened over a body that starts at an address (R168). -/
def Regs.openLoop (r : Regs) (start : Word) (c : Nat) (len : BitVec 12) : Regs :=
  { r.setLx r.depth ⟨start.extractLsb' 2 54, true, 0, BitVec.ofNat 26 c, len⟩ with pc := start }

/-- A body that ends here cannot open: six levels are open, or the enclosing body ends before (R168).
(Log entry 20: DEDUCED, unsafe.) -/
def Regs.loopBlocked (r : Regs) (unit : Nat) (stop : Word) : Bool :=
  decide (r.depth = 6) || (decide (0 < r.depth) && decide (((r.lx (r.depth - 1)).endPc unit).toNat < stop.toNat))

/-- LOOP, R168. (Log entry 20: DEDUCED, unsafe.) -/
def execLoop (gd : Guard) (d : Reg) (l : BitVec 12) (s : State) : Out :=
  strand gd (do
    let r ← getRegs
    let c := (r.rg d).toNat
    let start := codeAdd r.pc 4
    let stop := codeAdd start (BitVec.ofNat 64 (4 * l.toNat))
    if 0x3FFFFFF < c then trapN .format c
    else if c = 0 then modRegs fun r => endTest 4 stop r
    else if r.loopBlocked 4 stop then trap .illegalWord (wordValue (.loop gd d l))
    else modRegs fun r => r.openLoop start c l) s

/-- Level k from the innermost, if it is open (R171). -/
def Regs.level (r : Regs) (k : Nat) : Option Loop := if k < r.depth then some (r.lx (r.depth - 1 - k)) else none

/-- LIDX, R171. -/
def execLidx (gd : Guard) (d : Reg) (k : BitVec 5) (s : State) : Out :=
  compute gd (fun r => r.wg d ((r.level k.toNat).elim (BitVec.allOnes 64) fun l => l.index.setWidth 64)) s

/-- LCNT, R171. -/
def execLcnt (gd : Guard) (d : Reg) (k : BitVec 5) (s : State) : Out :=
  compute gd (fun r => r.wg d ((r.level k.toNat).elim (BitVec.allOnes 64) fun l => l.count.setWidth 64)) s

/-- The n innermost levels closed. -/
def Regs.closeTop : Nat → Regs → Regs
  | 0, r => r
  | n + 1, r => Regs.closeTop n (r.closeLx (r.depth - 1))

/-- LBRK, R171. -/
def execLbrk (gd : Guard) (k : BitVec 5) (s : State) : Out :=
  strand gd (do
    let r ← getRegs
    match r.level k.toNat with
    | none => trap .illegalWord (wordValue (.lbrk gd k))
    | some l => modRegs fun r => endTest 4 (l.endPc 4) (r.closeTop (k.toNat + 1))) s

/-! ### Thread words -/

/-- A frame operand (R176). -/
def frameOperand (w : Word) : M ThreadId := do
  if w.toNat % 4096 = 0 then return ⟨(← getTh).id.asid, w.extractLsb' 12 44⟩ else trap .misaligned w

/-- A thread at the end of its core's round-robin order (R376). -/
def Core.last (x : Core) (id : ThreadId) : Core := { x with order := x.order.filter (fun t => decide (t ≠ id)) ++ [id] }

/-- A thread moves to the end of its core's round-robin order (R177, R376). -/
def yieldTurn (t : Thread) (s : State) : State := putCore s (accountCore t) ((coreOf s (accountCore t)).last t.id)

/-- YIELD, R177. -/
def execYield (gd : Guard) (s : State) : Out :=
  strand gd (do
    modify fun s => yieldTurn s.th s
    advance) s

/-- The number a place has; a walker or steward core has none that the spec gives. (Log entry 54: DESIGN CHOICE, safe.) -/
def placeNumber (f : Nat → Nat) : M Word := do
  match (← getTh).place with
  | .strand c => return natWord (f c)
  | _ => drawFree

/-- SELF, R178. -/
def execSelf (gd : Guard) (d : Reg) (sel : BitVec 8) (s : State) : Out :=
  strand gd (do
    let t ← getTh
    let w ← match sel.toNat with
      | 0 => pure (natWord (frameVa t.id))
      | 1 => placeNumber (· / 4)
      | 2 => placeNumber id
      | _ => pure (natWord t.basePrio)
    writeG d w
    advance) s

/-- The pages of new frames, in order, or the fault of the first that fails (R179 step 4). (Log entry 57: DEDUCED, safe.) -/
def framePages (asid : BitVec 10) (ctx : BitVec 44) : Nat → M (List (ThreadId × List Spot))
  | 0 => pure []
  | n + 1 => do
    let s ← get
    let id : ThreadId := ⟨asid, ctx⟩
    let va := frameVa id
    match reach (agentOf s.th) va 1 .store s with
    | (.ok ps, s') => do
      set s'
      if ps.any fun p => readOnly s' asid p.va p.pa then trapN .ingotReadonly va
      let rest ← framePages asid (ctx + 1) n
      return (id, ps) :: rest
    | (.fault c, s') => do set s'; trapN c va
    | (.miss a, s') => do
      set (addMiss (agentOf s.th) s.th.id.ctx (.access s.th.id) a .store s')
      stall .stalledMemory
    | (.nowhere, _) => throw (.nowhere va)

/-- n threads created from a first frame, after the release (R179). (Log entry 57: DEDUCED, safe.) -/
def spawnMany (entry : Word) (frame : Word) (n : Nat) (arg : Word) : M Unit := do
  let id ← frameOperand frame
  releaseStores
  let pages ← framePages id.asid id.ctx n
  let me ← getTh
  modify fun s => (pages.zipIdx).foldl (fun s (p, i) =>
    createThread (newThread p.1 me entry (natWord i) arg) me.id p.2 s) s

/-- An entry PC (R179 step 1). (Log entry 57: DEDUCED, safe.) -/
def entryOperand (b : Reg) : M Word := do
  let e ← readG b
  if e.toNat % 4 = 0 then return e else trap .misaligned e

/-- SPAWN, R179. (Log entry 57: DEDUCED, safe.) -/
def execSpawn (gd : Guard) (d a b : Reg) (s : State) : Out :=
  strand gd (do
    let e ← entryOperand b
    spawnMany e (← readG a) 1 (← readG d)
    advance) s

/-- SPAWNN, R179. (Log entry 57: DEDUCED, safe.) -/
def execSpawnn (gd : Guard) (d a b : Reg) (s : State) : Out :=
  strand gd (do
    let e ← entryOperand b
    let n := (← readG d).toNat
    if n = 0 then advance
    else if 65536 < n then trapN .format n
    else
      spawnMany e (← readG a) n (← readG 2)
      advance) s

/-- Every operation of every context is complete (R98, R196). -/
def Thread.enginesIdle (t : Thread) : Bool := t.timelines.all fun l => decide (l.last ≤ l.completed)

/-- Every matrix job of the thread is complete, of the open group too (R290). -/
def Thread.jobsDone (t : Thread) : Bool := t.groups.all fun g => decide (g.left = 0)

/-- A wait for every engine operation of the thread (R180, R196). -/
def awaitEngines : M Unit := do
  if (← getTh).enginesIdle then pure () else park .engines

/-- The exit value goes into the frame's g0 slot, which block 0 holds if it is resident (R180 step 4). -/
def writeExit (v : Word) : M Unit := do
  modTh fun t => { t with r := { t.r with g := t.r.g.set 0 v }, dirty := t.dirty ||| 1 }
  let s ← get
  if !hasBlock s.th.resident 0 ∧ !hasBlock s.th.owed 0 then
    match placeBlock s.th 0 s with
    | (.ok (p :: _), s') => match p.node with
      | none => set (noteCheckpoint p.pa 8 { s' with mem := Mem.write s'.mem p.pa 8 v.toNat })
      | some node => set (sendRemote (.block s.th.id 0) node (.store s.th.secure (BitVec.ofNat 52 p.pa) (natToBytes 8 v.toNat)) p.va s')
    | (.miss a, s') => do
      set (addMiss (blockAgent s.th) s.th.id.ctx (.block s.th.id 0) a .block s')
      modTh fun t => { t with wanted := setBlock t.wanted 0 }
      stall .stalledRegister
    | (_, s') => do
      set s'
      trapN .pageContext (frameVa s.th.id)

/-- EXIT, R180. (Log entry 152: DESIGN CHOICE, safe.) -/
def execExit (gd : Guard) (a : Reg) (s : State) : Out :=
  strand gd (do
    if (← getTh).packet.isSome then trap .illegalWord (wordValue (.exit gd a))
    releaseStores
    awaitEngines
    if !(← getTh).jobsDone then park .engines
    let v ← readG a
    modify fun s => dropThreadLevels s.th.id 7 s
    writeExit v
    modTh fun t => { t with st := .done, dirty := t.dirty ||| 0x8600 }
    writeBack (List.range 16)
    let id := (← getTh).id
    modify (endThread id v)) s

/-- JOIN, R181. -/
def execJoin (gd : Guard) (d a : Reg) (s : State) : Out :=
  strand gd (do
    let w ← readG a
    let id ← frameOperand w
    let s ← get
    if id = s.th.id then trap .format w
    match findThread s id with
    | none => trap .format w
    | some t =>
      if t.st = .done then
        writeG d (t.r.g.get 0)
        advance
      else if t.joiner.isSome ∧ t.joiner ≠ some s.th.id.ctx then trap .format w
      else
        modify fun s => putThread s { t with joiner := some s.th.id.ctx }
        park (.join id)) s

/-- PRIO, R182. -/
def execPrio (gd : Guard) (d a : Reg) (s : State) : Out :=
  strand gd (do
    let nb := (← readG a).toNat
    if 63 < nb then trapN .format nb
    let t ← getTh
    writeG d (natWord t.basePrio)
    let p := min nb t.launchPrio
    modTh fun t => { t with basePrio := p, effPrio := p }
    advance) s

/-- PARK, R183: the word is past when the thread parks. -/
def execPark (gd : Guard) (s : State) : Out :=
  strand gd (do
    advance
    if (← getTh).wake then modTh fun t => { t with wake := false }
    else park .park) s

/-- What WAKE does to its target (R183). -/
def wakeThread (id : ThreadId) (s : State) : State :=
  match liveThread s id with
  | none => s
  | some t => putThread s (if t.st = .parked ∧ t.wait = .park then t.release else { t with wake := true })

/-- WAKE, R183. -/
def execWake (gd : Guard) (a : Reg) (s : State) : Out :=
  strand gd (do
    let id ← frameOperand (← readG a)
    releaseStores
    modify (wakeThread id)
    advance) s

/-- FORGE, R184: the thread gives up its seat and stands in its hearth's forge queue.
(Log entries 40: DESIGN CHOICE, unsafe; 153: DESIGN CHOICE, safe.) -/
def execForge (gd : Guard) (s : State) : Out :=
  strand gd (do
    let s ← get
    let t := s.th
    if t.r.depth ≠ 0 ∨ t.packet.isSome then trap .illegalWord (wordValue (.forge gd))
    if s.cores.any fun (c : Nat × Core) => c.2.vqueue.any fun e => decide (e.t = t.id) then park .vector
    let x := hearthOf s t.hearth
    if 64 ≤ x.forgeQueue.length then park (.forgeQueue t.hearth)
    set (putHearth s t.hearth { x with forgeQueue := x.forgeQueue ++ [t.id] })
    park .forgeSeat) s

end Sys2Proof.Machine
end

