-- ==== Sys2Proof/Machine/Random.lean ====
section
/-!
DEFINITION. Counter-based random numbers: Philox4x32-10 (R243), RNGX (R244) and the two forms of RNGS (R245).
-/

namespace Sys2Proof.Machine

open Sys2Proof

/-- One round of Philox4x32 and the next keys (R243). -/
def philoxRound (x0 x1 x2 x3 k0 k1 : BitVec 32) : BitVec 32 × BitVec 32 × BitVec 32 × BitVec 32 :=
  let p : Word := 0xD2511F53#64 * x0.setWidth 64
  let q : Word := 0xCD9E8D57#64 * x2.setWidth 64
  (q.extractLsb' 32 32 ^^^ x1 ^^^ k0, q.extractLsb' 0 32, p.extractLsb' 32 32 ^^^ x3 ^^^ k1, p.extractLsb' 0 32)

def philoxRounds : Nat → BitVec 32 → BitVec 32 → BitVec 32 → BitVec 32 → BitVec 32 → BitVec 32 → BitVec 128
  | 0, x0, x1, x2, x3, _, _ => x3 ++ x2 ++ x1 ++ x0
  | n + 1, x0, x1, x2, x3, k0, k1 =>
    let y := philoxRound x0 x1 x2 x3 k0 k1
    philoxRounds n y.1 y.2.1 y.2.2.1 y.2.2.2 (k0 + 0x9E3779B9#32) (k1 + 0xBB67AE85#32)

/-- philox(c, k), R243. -/
def philox (c : BitVec 128) (k : Word) : BitVec 128 :=
  philoxRounds 10 (c.extractLsb' 0 32) (c.extractLsb' 32 32) (c.extractLsb' 64 32) (c.extractLsb' 96 32)
    (k.extractLsb' 0 32) (k.extractLsb' 32 32)

/-- The quads of a vector, each replaced. -/
def mapQuads (f : Nat → BitVec 128) : Vec := f 3 ++ f 2 ++ f 1 ++ f 0

/-- The 32 random bits of R55 for element n under a counter. -/
def roundingBits (key : Word) (c : BitVec 128) (n : Nat) : Nat := ((philox (c + BitVec.ofNat 128 n) key).extractLsb' 0 32).toNat

/-- RNGX, R244. -/
def effRngx (d a b : Reg) (r : Regs) : Regs :=
  r.wv d (mapQuads fun q => philox ((r.rv b).extractLsb' (128 * q) 128) (r.rg a))

/-- The counter of a draw (R245). -/
def drawCounter (h : Handle) (off : Word) (q : Nat) : BitVec 128 :=
  (h.base ++ 0#64) + off.setWidth 128 + BitVec.ofNat 128 q

def Regs.handle (r : Regs) (h : BitVec 1) : Handle := r.rng.get h.toFin

/-- RNGS draw, R245. -/
def effRngsDraw (d a : Reg) (h : BitVec 1) (r : Regs) : Regs :=
  r.wv d (mapQuads fun q => philox (drawCounter (r.handle h) (r.rg a) q) (r.handle h).key)

/-- RNGS load, R245: no register is written. -/
def effRngsLoad (d a : Reg) (h : BitVec 1) (r : Regs) : Regs :=
  { r with rng := r.rng.set h.toNat ⟨r.rg a, r.rg d⟩ h.isLt }

/-- RNGX, R244. -/
def execRngx (gd : Guard) (d a b : Reg) (s : State) : Out := compute gd (effRngx d a b) s
/-- RNGS draw, R245. -/
def execRngsDraw (gd : Guard) (d a : Reg) (h : BitVec 1) (s : State) : Out := compute gd (effRngsDraw d a h) s
/-- RNGS load, R245. -/
def execRngsLoad (gd : Guard) (d a : Reg) (h : BitVec 1) (s : State) : Out := compute gd (effRngsLoad d a h) s

end Sys2Proof.Machine
end

