-- ==== Sys2Proof/Machine/Vector.lean ====
section
/-!
DEFINITION. The short-vector words, majors 0x2B to 0x32 (R219 to R233): element-wise results with their sticky flags, and
each word's meaning: its effect on registers under the guard, an entry in its core's vector queue, and completion.
-/

namespace Sys2Proof.Machine

open Sys2Proof

/-! ### Lanes (R48) -/

/-- Element i of width w bits. -/
def lane (w : Nat) (v : Vec) (i : Nat) : Nat := field v.toNat (w * i) w

/-- The elements of width w, from the first. -/
def lanes (w : Nat) (v : Vec) : List Nat := (List.range (512 / w)).map (lane w v)

/-- Elements of width w as a number, from the first; absent ones are zero. -/
def packLanes (w : Nat) : List Nat → Nat
  | [] => 0
  | x :: xs => x % 2 ^ w + 2 ^ w * packLanes w xs

def fromLanes (w : Nat) (xs : List Nat) : Vec := BitVec.ofNat 512 (packLanes w xs)

/-- Flags of several elements, ORed (R56). -/
def orFlags (fs : List (BitVec 6)) : BitVec 6 := fs.foldl (· ||| ·) 0

/-- A destination vector and flags written together, all sources read before (R220). -/
def writeLanes (w : Nat) (d : Reg) (xs : List (Nat × BitVec 6)) (r : Regs) : Regs :=
  (r.wv d (fromLanes w (xs.map (·.1)))).raise (orFlags (xs.map (·.2)))

/-- Effect of an element-wise word of two sources and the old destination. -/
def effLanes (w : Nat) (f : Nat → Nat → Nat → Nat × BitVec 6) (d a b : Reg) (r : Regs) : Regs :=
  writeLanes w d ((List.range (512 / w)).map fun i => f (lane w (r.rv a) i) (lane w (r.rv b) i) (lane w (r.rv d) i)) r

/-- Float format of a type4 of 0 to 4 (R134). -/
def typeFloat (t : BitVec 4) : FloatFmt := (floatFmt (t.toNat + 1)).getD f32

/-- Width in bits of a type4 (R134). -/
def typeBits (t : BitVec 4) : Nat := fmtBits (t.toNat + 1)

/-- Signedness of an integer type4 (R134). -/
def typeSigned (t : BitVec 4) : Bool := decide (t.toNat < 9)

/-! ### The vector queue (R29) -/

/-- An entry of the issuing core's vector queue. The queue holds 16; a word that finds it full waits until its head has
completed, which changes timing only (R219). (Log entry 53: DEDUCED, safe.) -/
def pushVector (s : State) (shaped : Bool := false) : State :=
  match s.th.place with
  | .strand c =>
    let x := coreOf s c
    let q := if x.vqueue.length < 16 then x.vqueue else x.vqueue.drop 1
    putCore s c { x with vqueue := q ++ [{ t := s.th.id, shaped := shaped }] }
  | _ => s

/-- The meaning of a vector word: its effect on registers under its guard, an entry of the vector queue, and completion. -/
def vector (gd : Guard) (f : Regs → Regs) (s : State) : Out :=
  compute gd f (if s.th.r.guard gd then pushVector s else s)

/-! ### VFA and VFS (R222 to R225) -/

/-- A float word of two sources, or of three with the old destination; operands read under R52. -/
def effFloat3 (op : FloatFmt → Rounding → FVal → FVal → FVal → Nat × BitVec 6) (t : BitVec 4) (d a b : Reg) (r : Regs) : Regs :=
  let f := typeFloat t
  let rd := r.rounding
  effLanes f.width (fun x y z => op f rd (f.read rd.ftz x) (f.read rd.ftz y) (f.read rd.ftz z)) d a b r

/-- A float word of one source by its bits. -/
def effFloat1 (op : FloatFmt → Rounding → Nat → Nat × BitVec 6) (t : BitVec 4) (d a : Reg) (r : Regs) : Regs :=
  let f := typeFloat t
  let rd := r.rounding
  effLanes f.width (fun x _ _ => op f rd x) d a a r

def effVpick (larger : Bool) (t : BitVec 4) (d a b : Reg) (r : Regs) : Regs :=
  let f := typeFloat t
  effLanes f.width (fun x y _ => f.pick r.ftz larger x y) d a b r

/-! ### VIA (R226) -/

/-- An integer word: exact results wrap (R58). -/
def effInt (op : Int → Int → Int) (t : BitVec 4) (d a b : Reg) (r : Regs) : Regs :=
  let w := typeBits t
  let rd := readInt (typeSigned t) w
  effLanes w (fun x y _ => (unsignedBits w (op (rd x) (rd y)), 0)) d a b r

/-- A bitwise word. -/
def effBits (op : Vec → Vec → Vec) (d a b : Reg) (r : Regs) : Regs := r.wv d (op (r.rv a) (r.rv b))

/-- VSHL and VSHR: amounts modulo the element width. -/
def effShift (left : Bool) (t : BitVec 4) (d a b : Reg) (r : Regs) : Regs :=
  let w := typeBits t
  effLanes w (fun x y _ =>
    (if left then x * 2 ^ (y % w) else unsignedBits w (readInt (typeSigned t) w x / 2 ^ (y % w)), 0)) d a b r

/-! ### VCMP and VMK (R227, R228) -/

/-- The conditions on integers, EQ to GE (R227). -/
def intCondition (c : Nat) (x y : Int) : Bool :=
  match c with
  | 0 => decide (x = y) | 1 => decide (x ≠ y) | 2 => decide (x < y) | 3 => decide (x ≤ y) | 4 => decide (y < x) | _ => decide (y ≤ x)

/-- One element's condition under a type. -/
def laneCondition (t : BitVec 4) (c : Nat) (ftz : Bool) (x y : Nat) : Bool × BitVec 6 :=
  if t.toNat ≤ 4 then
    let f := typeFloat t
    FVal.condition c (f.read ftz x) (f.read ftz y)
  else (intCondition c (readInt (typeSigned t) (typeBits t) x) (readInt (typeSigned t) (typeBits t) y), 0)

/-- The elements' conditions. -/
def conditions (t : BitVec 4) (c : Nat) (ftz : Bool) (a b : Vec) : List (Bool × BitVec 6) :=
  (List.range (512 / typeBits t)).map fun i => laneCondition t c ftz (lane (typeBits t) a i) (lane (typeBits t) b i)

/-- A mask from its bits, the first least significant; bits above are zero (R221). -/
def maskBits : List Bool → Nat
  | [] => 0
  | b :: bs => ofBool b + 2 * maskBits bs

def effVcmp (d : QReg) (a b : Reg) (t : BitVec 4) (c : BitVec 3) (r : Regs) : Regs :=
  let cs := conditions t c.toNat r.ftz (r.rv a) (r.rv b)
  (r.wm d (BitVec.ofNat 64 (maskBits (cs.map (·.1))))).raise (orFlags (cs.map (·.2)))

def effVselm (d a : Reg) (b : QReg) (t : BitVec 4) (r : Regs) : Regs :=
  let w := typeBits t
  r.wv d (fromLanes w ((List.range (512 / w)).map fun i =>
    if (r.rm b).getLsbD i then lane w (r.rv a) i else lane w (r.rv d) i))

def effMask (op : Word → Word → Word) (d a b : QReg) (r : Regs) : Regs := r.wm d (op (r.rm a) (r.rm b))

/-- Index of the lowest 1 bit, or 64 (R228). -/
def valMfirst (x : Word) : Word := valCtz x

/-! ### VCV (R229 to R231) -/

/-- The conversion codes of R135: source and destination format codes. -/
def vcvtFormats (t : BitVec 4) : Nat × Nat :=
  match t.toNat with
  | 0 => (1, 2) | 1 => (1, 3) | 2 => (1, 4) | 3 => (1, 5) | 4 => (2, 1) | 5 => (3, 1) | 6 => (4, 1) | 7 => (5, 1)
  | 8 => (2, 4) | 9 => (2, 5) | 10 => (1, 8) | 11 => (1, 12) | 12 => (8, 1) | 13 => (12, 1) | 14 => (8, 6) | _ => (6, 8)

/-- One element converted between two formats that are not nested (R57): rounding, and the bits u of R55. -/
def convert (src dst : Nat) (rd : Rounding) (u x : Nat) : Nat × BitVec 6 :=
  match floatFmt src, floatFmt dst, intFmt src, intFmt dst with
  | some f, some g, _, _ => (f.read rd.ftz x).toFloat g rd u
  | some f, none, _, some (sg, w) =>
    let (lo, hi) := intRange sg w
    let (n, fl) := (f.read rd.ftz x).toInteger lo hi rd.mode u
    (unsignedBits w n, fl)
  | none, some g, some (sg, w), _ =>
    let n := readInt sg w x
    (FVal.fin (decide (n < 0)) n.natAbs 0).toFloat g rd u
  | none, none, some (sg, w), some (sg', w') =>
    let (lo, hi) := intRange sg' w'
    let (n, fl) := saturate lo hi (readInt sg w x)
    (unsignedBits w' n, fl)
  | _, _, _, _ => (x, 0)

/-- VCVT (R229): elements above the last converted one become zero. -/
def effVcvt (key : Word) (d a : Reg) (m : BitVec 3) (c : BitVec 2) (t : BitVec 4) (r : Regs) : Regs :=
  let (src, dst) := vcvtFormats t
  let ws := fmtBits src
  let wd := fmtBits dst
  let n := 512 / (if ws < wd then wd else ws)
  let ctr := (r.rv (BitVec.ofNat 5 (28 + c.toNat))).extractLsb' 0 128
  let rd : Rounding := ⟨m.toNat, r.ftz⟩
  writeLanes wd d ((List.range n).map fun i =>
    convert src dst rd (if m = 4 then roundingBits key ctr i else 0) (lane ws (r.rv a) i)) r

/-- Formats of VQNT and VDQNT (R135): the float side and K. -/
def quantSides (t : BitVec 4) : FloatFmt × Nat :=
  (if t.getLsbD 3 then bf16 else f32, if t.extractLsb' 0 3 = 7#3 then 16 else (t.extractLsb' 0 3).toNat + 2)

/-- Width of the integers that hold niK elements (R230). -/
def nestedBits (k : Nat) : Nat := if k = 16 then 16 else 8

/-- A block of a vector quantised (R230): the integers, E and the flags. -/
def quantiseVec (f : FloatFmt) (k : Nat) (v : Vec) : Vec × Int × BitVec 6 :=
  let (e, ns, fl) := quantise k ((lanes f.width v).map f.decode)
  (fromLanes (nestedBits k) (ns.map (unsignedBits (nestedBits k))), e, fl)

def effVqnt (d a b : Reg) (t : BitVec 4) (r : Regs) : Regs :=
  let (f, k) := quantSides t
  let (v, e, fl) := quantiseVec f k (r.rv a)
  ((r.wv d v).wg b (BitVec.ofInt 64 e)).raise fl

def effVdqnt (d a b : Reg) (t : BitVec 4) (r : Regs) : Regs :=
  let (f, k) := quantSides t
  let e := signed 8 (r.rg b).toNat
  let w := nestedBits k
  writeLanes f.width d ((List.range (512 / f.width)).map fun i =>
    let (n, fl) := saturate (-(2 ^ (k - 1))) (2 ^ (k - 1) - 1) (signed w (lane w (r.rv a) i))
    let (x, fl') := f.roundInt r.rounding false n e
    (x, fl ||| fl')) r

/-! ### VPM (R232) -/

/-- Width in bits of a VPM type. -/
def permBits (t : BitVec 4) : Nat := 8 * 2 ^ t.toNat

def effVperm (d a b : Reg) (t : BitVec 4) (r : Regs) : Regs :=
  let w := permBits t
  effLanes w (fun _ y _ => (lane w (r.rv a) (y % (512 / w)), 0)) d a b r

def effVbcast (d a : Reg) (t : BitVec 4) (r : Regs) : Regs :=
  let w := permBits t
  effLanes w (fun _ _ _ => ((r.rg a).toNat, 0)) d d d r

def effVext (d a b : Reg) (t : BitVec 4) (r : Regs) : Regs :=
  let w := permBits t
  r.wg d (BitVec.ofNat 64 (lane w (r.rv a) ((r.rg b).toNat % (512 / w))))

def effVins (d a b : Reg) (t : BitVec 4) (r : Regs) : Regs :=
  let w := permBits t
  let k := (r.rg b).toNat % (512 / w)
  r.wv d (fromLanes w ((List.range (512 / w)).map fun i => if i = k then (r.rg a).toNat else lane w (r.rv d) i))

def effVslide (d a b : Reg) (t : BitVec 4) (r : Regs) : Regs :=
  let w := permBits t
  r.wv d (fromLanes w ((List.range (512 / w)).map fun (i : Nat) =>
    let k := ((i : Nat) : Int) + (r.rg b).toInt
    if 0 ≤ k ∧ k < (512 / w : Nat) then lane w (r.rv a) k.toNat else 0))

/-! ### VRD (R233) -/

/-- One level of the tree of R73: neighbours combined in pairs. -/
def pairUp (op : Nat → Nat → Nat × BitVec 6) : List Nat → List Nat × BitVec 6
  | x :: y :: t => let (z, f) := op x y; let (zs, g) := pairUp op t; (z :: zs, f ||| g)
  | xs => (xs, 0)

/-- The tree of R73, level by level: strides 1, 2, 4 and so on. -/
def tree (op : Nat → Nat → Nat × BitVec 6) : Nat → List Nat → Nat × BitVec 6
  | 0, xs => (xs.headD 0, 0)
  | n + 1, xs =>
    match xs with
    | [] => (0, 0)
    | [x] => (x, 0)
    | _ => let (ys, f) := pairUp op xs; let (z, g) := tree op n ys; (z, f ||| g)

/-- Elements of a float type widened exactly to f32, the excluded ones replaced (R73, R233). -/
def widened (t : BitVec 4) (ftz : Bool) (mask : Word) (excluded : Nat) (v : Vec) : List (Nat × BitVec 6) :=
  let f := typeFloat t
  (List.range (512 / f.width)).map fun i =>
    if mask.getLsbD i then (f.read ftz (lane f.width v i)).toFloat f32 ⟨0, false⟩ 0 else (excluded, 0)

def effVred (op : Rounding → Nat → Nat → Nat × BitVec 6) (excluded : Nat) (t : BitVec 4) (d a : Reg) (b : QReg) (r : Regs) : Regs :=
  let xs := widened t r.ftz (r.rm b) excluded (r.rv a)
  let (z, f) := tree (op r.rounding) 6 (xs.map (·.1))
  (r.wg d (BitVec.ofNat 64 z)).raise (f ||| orFlags (xs.map (·.2)))

def addF32 (rd : Rounding) (x y : Nat) : Nat × BitVec 6 := f32.add rd (f32.read rd.ftz x) (f32.read rd.ftz y)

def effVredx (t : BitVec 4) (d a : Reg) (b : QReg) (r : Regs) : Regs :=
  let w := typeBits t
  r.wg d (BitVec.ofInt 64 (((List.range (512 / w)).map fun i =>
    if (r.rm b).getLsbD i then readInt (typeSigned t) w (lane w (r.rv a) i) else 0).sum))

/-- VADD, R222. -/
def execVadd (gd : Guard) (d a b : Reg) (t : BitVec 4) (s : State) : Out := vector gd (effFloat3 (fun f rd x y _ => f.add rd x y) t d a b) s
/-- VSUB, R222. -/
def execVsub (gd : Guard) (d a b : Reg) (t : BitVec 4) (s : State) : Out := vector gd (effFloat3 (fun f rd x y _ => f.add rd x y.negate) t d a b) s
/-- VMUL, R222. -/
def execVmul (gd : Guard) (d a b : Reg) (t : BitVec 4) (s : State) : Out := vector gd (effFloat3 (fun f rd x y _ => f.mul rd x y) t d a b) s
/-- VFMA, R222. -/
def execVfma (gd : Guard) (d a b : Reg) (t : BitVec 4) (s : State) : Out := vector gd (effFloat3 (fun f rd x y z => f.fma rd x y z) t d a b) s
/-- VFMS, R222. -/
def execVfms (gd : Guard) (d a b : Reg) (t : BitVec 4) (s : State) : Out := vector gd (effFloat3 (fun f rd x y z => f.fma rd x y z.negate) t d a b) s
/-- VDIV, R222. -/
def execVdiv (gd : Guard) (d a b : Reg) (t : BitVec 4) (s : State) : Out := vector gd (effFloat3 (fun f rd x y _ => f.div rd x y) t d a b) s
/-- VMIN, R223. -/
def execVmin (gd : Guard) (d a b : Reg) (t : BitVec 4) (s : State) : Out := vector gd (effVpick false t d a b) s
/-- VMAX, R223. -/
def execVmax (gd : Guard) (d a b : Reg) (t : BitVec 4) (s : State) : Out := vector gd (effVpick true t d a b) s
/-- VABS, R224. -/
def execVabs (gd : Guard) (d a : Reg) (t : BitVec 4) (s : State) : Out := vector gd (effFloat1 (fun f _ x => f.signOp (fun _ => false) x) t d a) s
/-- VNEG, R224. -/
def execVneg (gd : Guard) (d a : Reg) (t : BitVec 4) (s : State) : Out := vector gd (effFloat1 (fun f _ x => f.signOp (fun n => !n) x) t d a) s
/-- VSQRT, R224, R225. -/
def execVsqrt (gd : Guard) (d a : Reg) (t : BitVec 4) (s : State) : Out := vector gd (effFloat1 (fun f rd x => f.sqrt rd (f.read rd.ftz x)) t d a) s
/-- VRCP, R224, R225. -/
def execVrcp (gd : Guard) (d a : Reg) (t : BitVec 4) (s : State) : Out := vector gd (effFloat1 (fun f rd x => f.rcp rd (f.read rd.ftz x)) t d a) s
/-- VRSQ, R224, R225. -/
def execVrsq (gd : Guard) (d a : Reg) (t : BitVec 4) (s : State) : Out := vector gd (effFloat1 (fun f rd x => f.rsq rd (f.read rd.ftz x)) t d a) s
/-- VEXP, R224, R225. -/
def execVexp (gd : Guard) (d a : Reg) (t : BitVec 4) (s : State) : Out := vector gd (effFloat1 (fun f rd x => f.exp2 rd.ftz x) t d a) s
/-- VLOG2, R224, R225. -/
def execVlog2 (gd : Guard) (d a : Reg) (t : BitVec 4) (s : State) : Out := vector gd (effFloat1 (fun f rd x => f.log2 rd.ftz x) t d a) s
/-- VSIG, R224, R225. -/
def execVsig (gd : Guard) (d a : Reg) (t : BitVec 4) (s : State) : Out := vector gd (effFloat1 (fun f rd x => f.sig rd.ftz x) t d a) s
/-- VIADD, R226. -/
def execViadd (gd : Guard) (d a b : Reg) (t : BitVec 4) (s : State) : Out := vector gd (effInt (fun x y => x + y) t d a b) s
/-- VISUB, R226. -/
def execVisub (gd : Guard) (d a b : Reg) (t : BitVec 4) (s : State) : Out := vector gd (effInt (fun x y => x - y) t d a b) s
/-- VIMUL, R226. -/
def execVimul (gd : Guard) (d a b : Reg) (t : BitVec 4) (s : State) : Out := vector gd (effInt (fun x y => x * y) t d a b) s
/-- VAND, R226. -/
def execVand (gd : Guard) (d a b : Reg) (_t : BitVec 4) (s : State) : Out := vector gd (effBits (· &&& ·) d a b) s
/-- VOR, R226. -/
def execVor (gd : Guard) (d a b : Reg) (_t : BitVec 4) (s : State) : Out := vector gd (effBits (· ||| ·) d a b) s
/-- VXOR, R226. -/
def execVxor (gd : Guard) (d a b : Reg) (_t : BitVec 4) (s : State) : Out := vector gd (effBits (· ^^^ ·) d a b) s
/-- VSHL, R226. -/
def execVshl (gd : Guard) (d a b : Reg) (t : BitVec 4) (s : State) : Out := vector gd (effShift true t d a b) s
/-- VSHR, R226. -/
def execVshr (gd : Guard) (d a b : Reg) (t : BitVec 4) (s : State) : Out := vector gd (effShift false t d a b) s
/-- VCMP, R227. -/
def execVcmp (gd : Guard) (d : QReg) (a b : Reg) (t : BitVec 4) (c : BitVec 3) (s : State) : Out := vector gd (effVcmp d a b t c) s
/-- VSELM, R228. -/
def execVselm (gd : Guard) (d a : Reg) (b : QReg) (t : BitVec 4) (s : State) : Out := vector gd (effVselm d a b t) s
/-- MAND, R228. -/
def execMand (gd : Guard) (d a b : QReg) (s : State) : Out := vector gd (effMask (· &&& ·) d a b) s
/-- MOR, R228. -/
def execMor (gd : Guard) (d a b : QReg) (s : State) : Out := vector gd (effMask (· ||| ·) d a b) s
/-- MXOR, R228. -/
def execMxor (gd : Guard) (d a b : QReg) (s : State) : Out := vector gd (effMask (· ^^^ ·) d a b) s
/-- MNOT, R228. -/
def execMnot (gd : Guard) (d a : QReg) (s : State) : Out := vector gd (effMask (fun x _ => ~~~x) d a a) s
/-- MPOP, R228. -/
def execMpop (gd : Guard) (d : Reg) (a : QReg) (s : State) : Out := vector gd (fun r => r.wg d (valPopc (r.rm a))) s
/-- MFIRST, R228. -/
def execMfirst (gd : Guard) (d : Reg) (a : QReg) (s : State) : Out := vector gd (fun r => r.wg d (valMfirst (r.rm a))) s
/-- VCVT, R229. -/
def execVcvt (gd : Guard) (d a : Reg) (m : BitVec 3) (c : BitVec 2) (t : BitVec 4) (s : State) : Out :=
  vector gd (effVcvt (spaceOf s s.th.id.asid).rngkey d a m c t) s
/-- VQNT, R230. -/
def execVqnt (gd : Guard) (d a b : Reg) (t : BitVec 4) (s : State) : Out := vector gd (effVqnt d a b t) s
/-- VDQNT, R231. -/
def execVdqnt (gd : Guard) (d a b : Reg) (t : BitVec 4) (s : State) : Out := vector gd (effVdqnt d a b t) s
/-- VPERM, R232. -/
def execVperm (gd : Guard) (d a b : Reg) (t : BitVec 4) (s : State) : Out := vector gd (effVperm d a b t) s
/-- VBCAST, R232. -/
def execVbcast (gd : Guard) (d a : Reg) (t : BitVec 4) (s : State) : Out := vector gd (effVbcast d a t) s
/-- VEXT, R232. -/
def execVext (gd : Guard) (d a b : Reg) (t : BitVec 4) (s : State) : Out := vector gd (effVext d a b t) s
/-- VINS, R232. -/
def execVins (gd : Guard) (d a b : Reg) (t : BitVec 4) (s : State) : Out := vector gd (effVins d a b t) s
/-- VSLIDE, R232. -/
def execVslide (gd : Guard) (d a b : Reg) (t : BitVec 4) (s : State) : Out := vector gd (effVslide d a b t) s
/-- VREDADD, R233: excluded elements count as −0.0. -/
def execVredadd (gd : Guard) (d a : Reg) (b : QReg) (t : BitVec 4) (s : State) : Out :=
  vector gd (effVred addF32 0x80000000 t d a b) s
/-- VREDMAX, R233: excluded elements count as −∞. -/
def execVredmax (gd : Guard) (d a : Reg) (b : QReg) (t : BitVec 4) (s : State) : Out :=
  vector gd (effVred (fun rd => f32.pick rd.ftz true) 0xFF800000 t d a b) s
/-- VREDMIN, R233: excluded elements count as +∞. -/
def execVredmin (gd : Guard) (d a : Reg) (b : QReg) (t : BitVec 4) (s : State) : Out :=
  vector gd (effVred (fun rd => f32.pick rd.ftz false) 0x7F800000 t d a b) s
/-- VREDX, R233. -/
def execVredx (gd : Guard) (d a : Reg) (b : QReg) (t : BitVec 4) (s : State) : Out := vector gd (effVredx t d a b) s

end Sys2Proof.Machine
end

