-- ==== Sys2Proof/Machine/Frame.lean ====
section
/-!
DEFINITION. Fetching code (R25, R167), the register blocks a word names (R28), and FRAME (R136, R173 to R175).
-/

namespace Sys2Proof.Machine

open Sys2Proof

/-! ### Fetching -/

/-- n bytes of code; faults and poison are raised at the PC (R167, R386, R403). (Log entry 23: DEDUCED, safe.) -/
def fetchM (va n : Nat) : M Nat := do
  let ps ← placeOf va va n .fetch
  let s ← get
  if ps.any fun p => p.node.isNone && poisoned s p.pa 1 then trapN .poison va
  match ps with
  | [] => return 0
  | p :: _ =>
    match p.node with
    | some node => remoteFetch node p.pa n va (.load s.th.secure (BitVec.ofNat 52 p.pa) n)
    | none => return bytesToNat (ps.map fun q => Mem.get (seen s s.th.view) q.pa)

/-! ### Register blocks -/

def gBlock (r : Reg) : BitVec 16 := if r = 0 then 0 else 1
def vBlock (r : Reg) : BitVec 16 := 1#16 <<< (r.toNat / 4 + 1)
def shBlock (r : QReg) : BitVec 16 := if 4 ≤ r.toNat then 1#16 <<< 10 else 1#16 <<< 9
def block10 : BitVec 16 := 1#16 <<< 10

/-- Block 14, whose last word says where a shaped operation goes on (R238, R257). -/
def resumeBlock : BitVec 16 := 1#16 <<< 14

/-- The register blocks that a strand word names (R28). (Log entry 21: DEDUCED, unsafe.) -/
def namedBlocks : Instr → BitVec 16
  | .add _ d a b => gBlock d ||| gBlock a ||| gBlock b
  | .sub _ d a b => gBlock d ||| gBlock a ||| gBlock b
  | .mul _ d a b => gBlock d ||| gBlock a ||| gBlock b
  | .mulh _ d a b => gBlock d ||| gBlock a ||| gBlock b
  | .mulhz _ d a b => gBlock d ||| gBlock a ||| gBlock b
  | .div _ d a b => gBlock d ||| gBlock a ||| gBlock b
  | .divz _ d a b => gBlock d ||| gBlock a ||| gBlock b
  | .rem _ d a b => gBlock d ||| gBlock a ||| gBlock b
  | .remz _ d a b => gBlock d ||| gBlock a ||| gBlock b
  | .and _ d a b => gBlock d ||| gBlock a ||| gBlock b
  | .or _ d a b => gBlock d ||| gBlock a ||| gBlock b
  | .xor _ d a b => gBlock d ||| gBlock a ||| gBlock b
  | .andn _ d a b => gBlock d ||| gBlock a ||| gBlock b
  | .shl _ d a b => gBlock d ||| gBlock a ||| gBlock b
  | .shr _ d a b => gBlock d ||| gBlock a ||| gBlock b
  | .sha _ d a b => gBlock d ||| gBlock a ||| gBlock b
  | .rol _ d a b => gBlock d ||| gBlock a ||| gBlock b
  | .min _ d a b => gBlock d ||| gBlock a ||| gBlock b
  | .max _ d a b => gBlock d ||| gBlock a ||| gBlock b
  | .minz _ d a b => gBlock d ||| gBlock a ||| gBlock b
  | .maxz _ d a b => gBlock d ||| gBlock a ||| gBlock b
  | .clz _ d a => gBlock d ||| gBlock a
  | .ctz _ d a => gBlock d ||| gBlock a
  | .popc _ d a => gBlock d ||| gBlock a
  | .bswap _ d a => gBlock d ||| gBlock a
  | .sext _ d a _ => gBlock d ||| gBlock a
  | .zext _ d a _ => gBlock d ||| gBlock a
  | .sel _ d a b => gBlock d ||| gBlock a ||| gBlock b
  | .addi _ d a _ => gBlock d ||| gBlock a
  | .andi _ d a _ => gBlock d ||| gBlock a
  | .ori _ d a _ => gBlock d ||| gBlock a
  | .xori _ d a _ => gBlock d ||| gBlock a
  | .shli _ d a _ => gBlock d ||| gBlock a
  | .shri _ d a _ => gBlock d ||| gBlock a
  | .shai _ d a _ => gBlock d ||| gBlock a
  | .li _ d _ => gBlock d
  | .lih _ d _ => gBlock d
  | .bfx _ d a _ _ => gBlock d ||| gBlock a
  | .bfi _ d a _ _ => gBlock d ||| gBlock a
  | .cmp _ _ a b _ => gBlock a ||| gBlock b
  | .cmpi _ _ a _ _ => gBlock a
  | .padd _ d a b => gBlock d ||| gBlock a ||| gBlock b
  | .paddi _ d a _ => gBlock d ||| gBlock a
  | .ptag _ d a _ _ => gBlock d ||| gBlock a
  | .pgetf _ d a => gBlock d ||| gBlock a
  | .pgetb _ d a => gBlock d ||| gBlock a
  | .pstrip _ d a => gBlock d ||| gBlock a
  | .brl _ _ => gBlock 31
  | .jr _ a => gBlock a
  | .jrl _ d a => gBlock d ||| gBlock a
  | .loop _ d _ => gBlock d
  | .lidx _ d _ => gBlock d
  | .lcnt _ d _ => gBlock d
  | .frame _ a _ _ => gBlock a
  | .exit _ a => gBlock a
  | .self _ d _ => gBlock d
  | .spawn _ d a b => gBlock d ||| gBlock a ||| gBlock b
  | .spawnn _ d a b => gBlock d ||| gBlock a ||| gBlock b ||| gBlock 2
  | .join _ d a => gBlock d ||| gBlock a
  | .prio _ d a => gBlock d ||| gBlock a
  | .wake _ a => gBlock a
  | .ld _ d b _ _ => gBlock d ||| gBlock b
  | .ldz _ d b _ _ => gBlock d ||| gBlock b
  | .st _ d b _ _ => gBlock d ||| gBlock b
  | .ldv _ d b _ => vBlock d ||| gBlock b
  | .stv _ d b _ => vBlock d ||| gBlock b
  | .ldf _ d b _ => vBlock d ||| gBlock b
  | .stf _ d b _ => vBlock d ||| gBlock b
  | .lda _ d a _ _ => gBlock d ||| gBlock a
  | .strl _ d a _ _ => gBlock d ||| gBlock a
  | .ldx _ d a b _ => gBlock d ||| gBlock a ||| gBlock b
  | .ldzx _ d a b _ => gBlock d ||| gBlock a ||| gBlock b
  | .stx _ d a b _ => gBlock d ||| gBlock a ||| gBlock b
  | .pref _ a b => gBlock a ||| gBlock b
  | .aadd _ d a b _ => gBlock d ||| gBlock a ||| gBlock b
  | .aand _ d a b _ => gBlock d ||| gBlock a ||| gBlock b
  | .aor _ d a b _ => gBlock d ||| gBlock a ||| gBlock b
  | .axor _ d a b _ => gBlock d ||| gBlock a ||| gBlock b
  | .amin _ d a b _ => gBlock d ||| gBlock a ||| gBlock b
  | .amax _ d a b _ => gBlock d ||| gBlock a ||| gBlock b
  | .aminz _ d a b _ => gBlock d ||| gBlock a ||| gBlock b
  | .amaxz _ d a b _ => gBlock d ||| gBlock a ||| gBlock b
  | .aswap _ d a b _ => gBlock d ||| gBlock a ||| gBlock b
  | .acas _ d a b _ => gBlock d ||| gBlock a ||| gBlock b
  | .acas16 _ d a b => gBlock d ||| gBlock a ||| gBlock b
  | .cadd _ a b _ => gBlock a ||| gBlock b
  | .cmax _ a b _ => gBlock a ||| gBlock b
  | .cmin _ a b _ => gBlock a ||| gBlock b
  | .cor _ a b _ => gBlock a ||| gBlock b
  | .sync _ d a _ => gBlock d ||| gBlock a
  | .domget _ d _ => gBlock d
  | .phase _ d => gBlock d
  | .xchg _ d a _ => gBlock d ||| gBlock a
  | .snap _ d a => gBlock d ||| gBlock a
  | .accept _ d a => gBlock d ||| gBlock a
  | .reject _ d a => gBlock d ||| gBlock a
  | .snapq _ d a => gBlock d ||| gBlock a
  | .torder _ a _ => gBlock a
  | .tbegin _ a => gBlock a
  | .tstat _ d => gBlock d
  | .tlwait _ d a _ => gBlock d ||| gBlock a
  | .tlread _ d _ _ => gBlock d
  | .msend _ a b => gBlock a ||| gBlock b
  | .msende _ a b => gBlock a ||| gBlock b
  | .deposit _ d a _ _ => gBlock d ||| gBlock a
  | .nread _ d a _ _ => gBlock d ||| gBlock a
  | .mrecv _ d _ _ _ => gBlock d
  | .rebind _ d a b => gBlock d ||| gBlock a ||| gBlock b
  | .bindq _ d a _ => gBlock d ||| gBlock a
  | .rngx _ d a b => vBlock d ||| gBlock a ||| vBlock b
  | .rngsDraw _ d a _ => vBlock d ||| gBlock a ||| block10
  | .rngsLoad _ d a _ => gBlock d ||| gBlock a ||| block10
  | .hinit _ a _ => gBlock a
  | .hsift _ d a b => gBlock d ||| gBlock a ||| gBlock b
  | .hpop _ d a _ => gBlock d ||| gBlock a
  | .vadd _ d a b _ => vBlock d ||| vBlock a ||| vBlock b
  | .vsub _ d a b _ => vBlock d ||| vBlock a ||| vBlock b
  | .vmul _ d a b _ => vBlock d ||| vBlock a ||| vBlock b
  | .vfma _ d a b _ => vBlock d ||| vBlock a ||| vBlock b
  | .vfms _ d a b _ => vBlock d ||| vBlock a ||| vBlock b
  | .vmin _ d a b _ => vBlock d ||| vBlock a ||| vBlock b
  | .vmax _ d a b _ => vBlock d ||| vBlock a ||| vBlock b
  | .vdiv _ d a b _ => vBlock d ||| vBlock a ||| vBlock b
  | .vabs _ d a _ => vBlock d ||| vBlock a
  | .vneg _ d a _ => vBlock d ||| vBlock a
  | .vsqrt _ d a _ => vBlock d ||| vBlock a
  | .vrcp _ d a _ => vBlock d ||| vBlock a
  | .vrsq _ d a _ => vBlock d ||| vBlock a
  | .vexp _ d a _ => vBlock d ||| vBlock a
  | .vlog2 _ d a _ => vBlock d ||| vBlock a
  | .vsig _ d a _ => vBlock d ||| vBlock a
  | .viadd _ d a b _ => vBlock d ||| vBlock a ||| vBlock b
  | .visub _ d a b _ => vBlock d ||| vBlock a ||| vBlock b
  | .vimul _ d a b _ => vBlock d ||| vBlock a ||| vBlock b
  | .vand _ d a b _ => vBlock d ||| vBlock a ||| vBlock b
  | .vor _ d a b _ => vBlock d ||| vBlock a ||| vBlock b
  | .vxor _ d a b _ => vBlock d ||| vBlock a ||| vBlock b
  | .vshl _ d a b _ => vBlock d ||| vBlock a ||| vBlock b
  | .vshr _ d a b _ => vBlock d ||| vBlock a ||| vBlock b
  | .vcmp _ _ a b _ _ => vBlock a ||| vBlock b
  | .vselm _ d a _ _ => vBlock d ||| vBlock a
  | .mpop _ d _ => gBlock d
  | .mfirst _ d _ => gBlock d
  | .vcvt _ d a r c _ => vBlock d ||| vBlock a ||| (if r = 4 then vBlock (BitVec.ofNat 5 (28 + c.toNat)) else 0)
  | .vqnt _ d a b _ => vBlock d ||| vBlock a ||| gBlock b
  | .vdqnt _ d a b _ => vBlock d ||| vBlock a ||| gBlock b
  | .vperm _ d a b _ => vBlock d ||| vBlock a ||| vBlock b
  | .vbcast _ d a _ => vBlock d ||| gBlock a
  | .vext _ d a b _ => gBlock d ||| vBlock a ||| gBlock b
  | .vins _ d a b _ => vBlock d ||| gBlock a ||| gBlock b
  | .vslide _ d a b _ => vBlock d ||| vBlock a ||| gBlock b
  | .vredadd _ d a _ _ => gBlock d ||| vBlock a
  | .vredmax _ d a _ _ => gBlock d ||| vBlock a
  | .vredmin _ d a _ _ => gBlock d ||| vBlock a
  | .vredx _ d a _ _ => gBlock d ||| vBlock a
  | .shset _ d a => gBlock a ||| shBlock d
  | .shget _ d a => gBlock d ||| shBlock a
  | .tsew _ d a b _ => shBlock d ||| shBlock a ||| shBlock b ||| resumeBlock
  | .tsred _ d a _ => shBlock d ||| shBlock a ||| resumeBlock
  | .tscvt _ d a _ => shBlock d ||| shBlock a ||| resumeBlock
  | .mmj _ a => gBlock a
  | .mcommit _ d => gBlock d
  | .mwait _ d a b => gBlock d ||| gBlock a ||| gBlock b
  | .accrel _ a => gBlock a
  | .accrd _ a b => gBlock a ||| gBlock b
  | .cpy _ d a b => gBlock d ||| gBlock a ||| gBlock b
  | .gath _ d a b => gBlock d ||| gBlock a ||| gBlock b
  | .scat _ d a b => gBlock d ||| gBlock a ||| gBlock b
  | .xfer _ d a => gBlock d ||| gBlock a
  | .dspcnt _ d a b => gBlock d ||| gBlock a ||| gBlock b
  | .dspgo _ d a => gBlock d ||| gBlock a
  | .dspcmb _ d a => gBlock d ||| gBlock a
  | .gmm _ d a => gBlock d ||| gBlock a
  | .gmmq _ d _ => gBlock d
  | .wstream _ d a => gBlock d ||| gBlock a
  | .wpin _ d a b => gBlock d ||| gBlock a ||| gBlock b
  | .wunpin _ d a b => gBlock d ||| gBlock a ||| gBlock b
  | .wpol _ d a b => gBlock d ||| gBlock a ||| gBlock b
  | .launch _ d a => gBlock d ||| gBlock a
  | .lstat _ d a _ => gBlock d ||| gBlock a
  | .srd _ d _ => gBlock d
  | .swr _ d _ => gBlock d
  | .tretResume _ d _ => gBlock d
  | .tretSkip _ d _ => gBlock d
  | .tretKill _ d _ => gBlock d
  | .tlbw _ d c => gBlock d ||| gBlock c
  | .tlbinv _ d a _ _ => gBlock d ||| gBlock a
  | .tlbq _ d a _ => gBlock d ||| gBlock a
  | .ctxevict _ d k => gBlock d ||| gBlock k
  | .ctxfill _ d k => gBlock d ||| gBlock k
  | .haltcQuiesce _ d => gBlock d
  | .haltcRelease _ d => gBlock d
  | .trapi _ a _ => gBlock a
  | _ => 0

/-- The word waits, with no effect, until every block it names is resident (R28).
(Log entries 21: DEDUCED, unsafe; 67: DEDUCED, unsafe.) -/
def requireBlocks (need : BitVec 16) : M Unit := do
  let t ← getTh
  let missing := need &&& ~~~t.resident
  if missing = 0 then pure ()
  else
    modTh fun t => { t with wanted := t.wanted ||| missing }
    stall .stalledRegister

/-! ### FRAME -/

/-- The meaning of a captured word in a replay, its g and v register fields staggered by k (R136, R174); none for a word of
a major that FRAME cannot capture. -/
def captured (k : Nat) : Instr → Option (State → Out)
  | .add g d a b => some (execAdd g (staggerReg k d) (staggerReg k a) (staggerReg k b))
  | .sub g d a b => some (execSub g (staggerReg k d) (staggerReg k a) (staggerReg k b))
  | .mul g d a b => some (execMul g (staggerReg k d) (staggerReg k a) (staggerReg k b))
  | .mulh g d a b => some (execMulh g (staggerReg k d) (staggerReg k a) (staggerReg k b))
  | .mulhz g d a b => some (execMulhz g (staggerReg k d) (staggerReg k a) (staggerReg k b))
  | .div g d a b => some (execDiv g (staggerReg k d) (staggerReg k a) (staggerReg k b))
  | .divz g d a b => some (execDivz g (staggerReg k d) (staggerReg k a) (staggerReg k b))
  | .rem g d a b => some (execRem g (staggerReg k d) (staggerReg k a) (staggerReg k b))
  | .remz g d a b => some (execRemz g (staggerReg k d) (staggerReg k a) (staggerReg k b))
  | .and g d a b => some (execAnd g (staggerReg k d) (staggerReg k a) (staggerReg k b))
  | .or g d a b => some (execOr g (staggerReg k d) (staggerReg k a) (staggerReg k b))
  | .xor g d a b => some (execXor g (staggerReg k d) (staggerReg k a) (staggerReg k b))
  | .andn g d a b => some (execAndn g (staggerReg k d) (staggerReg k a) (staggerReg k b))
  | .shl g d a b => some (execShl g (staggerReg k d) (staggerReg k a) (staggerReg k b))
  | .shr g d a b => some (execShr g (staggerReg k d) (staggerReg k a) (staggerReg k b))
  | .sha g d a b => some (execSha g (staggerReg k d) (staggerReg k a) (staggerReg k b))
  | .rol g d a b => some (execRol g (staggerReg k d) (staggerReg k a) (staggerReg k b))
  | .min g d a b => some (execMin g (staggerReg k d) (staggerReg k a) (staggerReg k b))
  | .max g d a b => some (execMax g (staggerReg k d) (staggerReg k a) (staggerReg k b))
  | .minz g d a b => some (execMinz g (staggerReg k d) (staggerReg k a) (staggerReg k b))
  | .maxz g d a b => some (execMaxz g (staggerReg k d) (staggerReg k a) (staggerReg k b))
  | .clz g d a => some (execClz g (staggerReg k d) (staggerReg k a))
  | .ctz g d a => some (execCtz g (staggerReg k d) (staggerReg k a))
  | .popc g d a => some (execPopc g (staggerReg k d) (staggerReg k a))
  | .bswap g d a => some (execBswap g (staggerReg k d) (staggerReg k a))
  | .sext g d a w => some (execSext g (staggerReg k d) (staggerReg k a) w)
  | .zext g d a w => some (execZext g (staggerReg k d) (staggerReg k a) w)
  | .sel g d a b => some (execSel g (staggerReg k d) (staggerReg k a) (staggerReg k b))
  | .addi g d a i => some (execAddi g (staggerReg k d) (staggerReg k a) i)
  | .andi g d a i => some (execAndi g (staggerReg k d) (staggerReg k a) i)
  | .ori g d a i => some (execOri g (staggerReg k d) (staggerReg k a) i)
  | .xori g d a i => some (execXori g (staggerReg k d) (staggerReg k a) i)
  | .shli g d a sel => some (execShli g (staggerReg k d) (staggerReg k a) sel)
  | .shri g d a sel => some (execShri g (staggerReg k d) (staggerReg k a) sel)
  | .shai g d a sel => some (execShai g (staggerReg k d) (staggerReg k a) sel)
  | .li g d i => some (execLi g (staggerReg k d) i)
  | .lih g d i => some (execLih g (staggerReg k d) i)
  | .bfx g d a e o => some (execBfx g (staggerReg k d) (staggerReg k a) e o)
  | .bfi g d a e o => some (execBfi g (staggerReg k d) (staggerReg k a) e o)
  | .cmp g d a b c => some (execCmp g d (staggerReg k a) (staggerReg k b) c)
  | .cmpi g d a c i => some (execCmpi g d (staggerReg k a) c i)
  | .vadd g d a b t => some (execVadd g (staggerReg k d) (staggerReg k a) (staggerReg k b) t)
  | .vsub g d a b t => some (execVsub g (staggerReg k d) (staggerReg k a) (staggerReg k b) t)
  | .vmul g d a b t => some (execVmul g (staggerReg k d) (staggerReg k a) (staggerReg k b) t)
  | .vfma g d a b t => some (execVfma g (staggerReg k d) (staggerReg k a) (staggerReg k b) t)
  | .vfms g d a b t => some (execVfms g (staggerReg k d) (staggerReg k a) (staggerReg k b) t)
  | .vmin g d a b t => some (execVmin g (staggerReg k d) (staggerReg k a) (staggerReg k b) t)
  | .vmax g d a b t => some (execVmax g (staggerReg k d) (staggerReg k a) (staggerReg k b) t)
  | .vdiv g d a b t => some (execVdiv g (staggerReg k d) (staggerReg k a) (staggerReg k b) t)
  | .vabs g d a t => some (execVabs g (staggerReg k d) (staggerReg k a) t)
  | .vneg g d a t => some (execVneg g (staggerReg k d) (staggerReg k a) t)
  | .vsqrt g d a t => some (execVsqrt g (staggerReg k d) (staggerReg k a) t)
  | .vrcp g d a t => some (execVrcp g (staggerReg k d) (staggerReg k a) t)
  | .vrsq g d a t => some (execVrsq g (staggerReg k d) (staggerReg k a) t)
  | .vexp g d a t => some (execVexp g (staggerReg k d) (staggerReg k a) t)
  | .vlog2 g d a t => some (execVlog2 g (staggerReg k d) (staggerReg k a) t)
  | .vsig g d a t => some (execVsig g (staggerReg k d) (staggerReg k a) t)
  | .viadd g d a b t => some (execViadd g (staggerReg k d) (staggerReg k a) (staggerReg k b) t)
  | .visub g d a b t => some (execVisub g (staggerReg k d) (staggerReg k a) (staggerReg k b) t)
  | .vimul g d a b t => some (execVimul g (staggerReg k d) (staggerReg k a) (staggerReg k b) t)
  | .vand g d a b t => some (execVand g (staggerReg k d) (staggerReg k a) (staggerReg k b) t)
  | .vor g d a b t => some (execVor g (staggerReg k d) (staggerReg k a) (staggerReg k b) t)
  | .vxor g d a b t => some (execVxor g (staggerReg k d) (staggerReg k a) (staggerReg k b) t)
  | .vshl g d a b t => some (execVshl g (staggerReg k d) (staggerReg k a) (staggerReg k b) t)
  | .vshr g d a b t => some (execVshr g (staggerReg k d) (staggerReg k a) (staggerReg k b) t)
  | .vcmp g d a b t c => some (execVcmp g d (staggerReg k a) (staggerReg k b) t c)
  | .vselm g d a b t => some (execVselm g (staggerReg k d) (staggerReg k a) b t)
  | .mand g d a b => some (execMand g d a b)
  | .mor g d a b => some (execMor g d a b)
  | .mxor g d a b => some (execMxor g d a b)
  | .mnot g d a => some (execMnot g d a)
  | .mpop g d a => some (execMpop g (staggerReg k d) a)
  | .mfirst g d a => some (execMfirst g (staggerReg k d) a)
  | .vcvt g d a r c t => some (execVcvt g (staggerReg k d) (staggerReg k a) r c t)
  | .vqnt g d a b t => some (execVqnt g (staggerReg k d) (staggerReg k a) (staggerReg k b) t)
  | .vdqnt g d a b t => some (execVdqnt g (staggerReg k d) (staggerReg k a) (staggerReg k b) t)
  | .vperm g d a b t => some (execVperm g (staggerReg k d) (staggerReg k a) (staggerReg k b) t)
  | .vbcast g d a t => some (execVbcast g (staggerReg k d) (staggerReg k a) t)
  | .vext g d a b t => some (execVext g (staggerReg k d) (staggerReg k a) (staggerReg k b) t)
  | .vins g d a b t => some (execVins g (staggerReg k d) (staggerReg k a) (staggerReg k b) t)
  | .vslide g d a b t => some (execVslide g (staggerReg k d) (staggerReg k a) (staggerReg k b) t)
  | .vredadd g d a b t => some (execVredadd g (staggerReg k d) (staggerReg k a) b t)
  | .vredmax g d a b t => some (execVredmax g (staggerReg k d) (staggerReg k a) b t)
  | .vredmin g d a b t => some (execVredmin g (staggerReg k d) (staggerReg k a) b t)
  | .vredx g d a b t => some (execVredx g (staggerReg k d) (staggerReg k a) b t)
  | _ => none

/-- The register blocks that a captured word names in a replay (R175). -/
def capturedBlocks (k : Nat) : Instr → BitVec 16
  | .add _ d a b => gBlock (staggerReg k d) ||| gBlock (staggerReg k a) ||| gBlock (staggerReg k b)
  | .sub _ d a b => gBlock (staggerReg k d) ||| gBlock (staggerReg k a) ||| gBlock (staggerReg k b)
  | .mul _ d a b => gBlock (staggerReg k d) ||| gBlock (staggerReg k a) ||| gBlock (staggerReg k b)
  | .mulh _ d a b => gBlock (staggerReg k d) ||| gBlock (staggerReg k a) ||| gBlock (staggerReg k b)
  | .mulhz _ d a b => gBlock (staggerReg k d) ||| gBlock (staggerReg k a) ||| gBlock (staggerReg k b)
  | .div _ d a b => gBlock (staggerReg k d) ||| gBlock (staggerReg k a) ||| gBlock (staggerReg k b)
  | .divz _ d a b => gBlock (staggerReg k d) ||| gBlock (staggerReg k a) ||| gBlock (staggerReg k b)
  | .rem _ d a b => gBlock (staggerReg k d) ||| gBlock (staggerReg k a) ||| gBlock (staggerReg k b)
  | .remz _ d a b => gBlock (staggerReg k d) ||| gBlock (staggerReg k a) ||| gBlock (staggerReg k b)
  | .and _ d a b => gBlock (staggerReg k d) ||| gBlock (staggerReg k a) ||| gBlock (staggerReg k b)
  | .or _ d a b => gBlock (staggerReg k d) ||| gBlock (staggerReg k a) ||| gBlock (staggerReg k b)
  | .xor _ d a b => gBlock (staggerReg k d) ||| gBlock (staggerReg k a) ||| gBlock (staggerReg k b)
  | .andn _ d a b => gBlock (staggerReg k d) ||| gBlock (staggerReg k a) ||| gBlock (staggerReg k b)
  | .shl _ d a b => gBlock (staggerReg k d) ||| gBlock (staggerReg k a) ||| gBlock (staggerReg k b)
  | .shr _ d a b => gBlock (staggerReg k d) ||| gBlock (staggerReg k a) ||| gBlock (staggerReg k b)
  | .sha _ d a b => gBlock (staggerReg k d) ||| gBlock (staggerReg k a) ||| gBlock (staggerReg k b)
  | .rol _ d a b => gBlock (staggerReg k d) ||| gBlock (staggerReg k a) ||| gBlock (staggerReg k b)
  | .min _ d a b => gBlock (staggerReg k d) ||| gBlock (staggerReg k a) ||| gBlock (staggerReg k b)
  | .max _ d a b => gBlock (staggerReg k d) ||| gBlock (staggerReg k a) ||| gBlock (staggerReg k b)
  | .minz _ d a b => gBlock (staggerReg k d) ||| gBlock (staggerReg k a) ||| gBlock (staggerReg k b)
  | .maxz _ d a b => gBlock (staggerReg k d) ||| gBlock (staggerReg k a) ||| gBlock (staggerReg k b)
  | .clz _ d a => gBlock (staggerReg k d) ||| gBlock (staggerReg k a)
  | .ctz _ d a => gBlock (staggerReg k d) ||| gBlock (staggerReg k a)
  | .popc _ d a => gBlock (staggerReg k d) ||| gBlock (staggerReg k a)
  | .bswap _ d a => gBlock (staggerReg k d) ||| gBlock (staggerReg k a)
  | .sext _ d a _ => gBlock (staggerReg k d) ||| gBlock (staggerReg k a)
  | .zext _ d a _ => gBlock (staggerReg k d) ||| gBlock (staggerReg k a)
  | .sel _ d a b => gBlock (staggerReg k d) ||| gBlock (staggerReg k a) ||| gBlock (staggerReg k b)
  | .addi _ d a _ => gBlock (staggerReg k d) ||| gBlock (staggerReg k a)
  | .andi _ d a _ => gBlock (staggerReg k d) ||| gBlock (staggerReg k a)
  | .ori _ d a _ => gBlock (staggerReg k d) ||| gBlock (staggerReg k a)
  | .xori _ d a _ => gBlock (staggerReg k d) ||| gBlock (staggerReg k a)
  | .shli _ d a _ => gBlock (staggerReg k d) ||| gBlock (staggerReg k a)
  | .shri _ d a _ => gBlock (staggerReg k d) ||| gBlock (staggerReg k a)
  | .shai _ d a _ => gBlock (staggerReg k d) ||| gBlock (staggerReg k a)
  | .li _ d _ => gBlock (staggerReg k d)
  | .lih _ d _ => gBlock (staggerReg k d)
  | .bfx _ d a _ _ => gBlock (staggerReg k d) ||| gBlock (staggerReg k a)
  | .bfi _ d a _ _ => gBlock (staggerReg k d) ||| gBlock (staggerReg k a)
  | .cmp _ _ a b _ => gBlock (staggerReg k a) ||| gBlock (staggerReg k b)
  | .cmpi _ _ a _ _ => gBlock (staggerReg k a)
  | .vadd _ d a b _ => vBlock (staggerReg k d) ||| vBlock (staggerReg k a) ||| vBlock (staggerReg k b)
  | .vsub _ d a b _ => vBlock (staggerReg k d) ||| vBlock (staggerReg k a) ||| vBlock (staggerReg k b)
  | .vmul _ d a b _ => vBlock (staggerReg k d) ||| vBlock (staggerReg k a) ||| vBlock (staggerReg k b)
  | .vfma _ d a b _ => vBlock (staggerReg k d) ||| vBlock (staggerReg k a) ||| vBlock (staggerReg k b)
  | .vfms _ d a b _ => vBlock (staggerReg k d) ||| vBlock (staggerReg k a) ||| vBlock (staggerReg k b)
  | .vmin _ d a b _ => vBlock (staggerReg k d) ||| vBlock (staggerReg k a) ||| vBlock (staggerReg k b)
  | .vmax _ d a b _ => vBlock (staggerReg k d) ||| vBlock (staggerReg k a) ||| vBlock (staggerReg k b)
  | .vdiv _ d a b _ => vBlock (staggerReg k d) ||| vBlock (staggerReg k a) ||| vBlock (staggerReg k b)
  | .vabs _ d a _ => vBlock (staggerReg k d) ||| vBlock (staggerReg k a)
  | .vneg _ d a _ => vBlock (staggerReg k d) ||| vBlock (staggerReg k a)
  | .vsqrt _ d a _ => vBlock (staggerReg k d) ||| vBlock (staggerReg k a)
  | .vrcp _ d a _ => vBlock (staggerReg k d) ||| vBlock (staggerReg k a)
  | .vrsq _ d a _ => vBlock (staggerReg k d) ||| vBlock (staggerReg k a)
  | .vexp _ d a _ => vBlock (staggerReg k d) ||| vBlock (staggerReg k a)
  | .vlog2 _ d a _ => vBlock (staggerReg k d) ||| vBlock (staggerReg k a)
  | .vsig _ d a _ => vBlock (staggerReg k d) ||| vBlock (staggerReg k a)
  | .viadd _ d a b _ => vBlock (staggerReg k d) ||| vBlock (staggerReg k a) ||| vBlock (staggerReg k b)
  | .visub _ d a b _ => vBlock (staggerReg k d) ||| vBlock (staggerReg k a) ||| vBlock (staggerReg k b)
  | .vimul _ d a b _ => vBlock (staggerReg k d) ||| vBlock (staggerReg k a) ||| vBlock (staggerReg k b)
  | .vand _ d a b _ => vBlock (staggerReg k d) ||| vBlock (staggerReg k a) ||| vBlock (staggerReg k b)
  | .vor _ d a b _ => vBlock (staggerReg k d) ||| vBlock (staggerReg k a) ||| vBlock (staggerReg k b)
  | .vxor _ d a b _ => vBlock (staggerReg k d) ||| vBlock (staggerReg k a) ||| vBlock (staggerReg k b)
  | .vshl _ d a b _ => vBlock (staggerReg k d) ||| vBlock (staggerReg k a) ||| vBlock (staggerReg k b)
  | .vshr _ d a b _ => vBlock (staggerReg k d) ||| vBlock (staggerReg k a) ||| vBlock (staggerReg k b)
  | .vcmp _ _ a b _ _ => vBlock (staggerReg k a) ||| vBlock (staggerReg k b)
  | .vselm _ d a _ _ => vBlock (staggerReg k d) ||| vBlock (staggerReg k a)
  | .mpop _ d _ => gBlock (staggerReg k d)
  | .mfirst _ d _ => gBlock (staggerReg k d)
  | .vcvt _ d a r c _ => vBlock (staggerReg k d) ||| vBlock (staggerReg k a) ||| (if r = 4 then vBlock (BitVec.ofNat 5 (28 + c.toNat)) else 0)
  | .vqnt _ d a b _ => vBlock (staggerReg k d) ||| vBlock (staggerReg k a) ||| gBlock (staggerReg k b)
  | .vdqnt _ d a b _ => vBlock (staggerReg k d) ||| vBlock (staggerReg k a) ||| gBlock (staggerReg k b)
  | .vperm _ d a b _ => vBlock (staggerReg k d) ||| vBlock (staggerReg k a) ||| vBlock (staggerReg k b)
  | .vbcast _ d a _ => vBlock (staggerReg k d) ||| gBlock (staggerReg k a)
  | .vext _ d a b _ => gBlock (staggerReg k d) ||| vBlock (staggerReg k a) ||| gBlock (staggerReg k b)
  | .vins _ d a b _ => vBlock (staggerReg k d) ||| gBlock (staggerReg k a) ||| gBlock (staggerReg k b)
  | .vslide _ d a b _ => vBlock (staggerReg k d) ||| vBlock (staggerReg k a) ||| gBlock (staggerReg k b)
  | .vredadd _ d a _ _ => gBlock (staggerReg k d) ||| vBlock (staggerReg k a)
  | .vredmax _ d a _ _ => gBlock (staggerReg k d) ||| vBlock (staggerReg k a)
  | .vredmin _ d a _ _ => gBlock (staggerReg k d) ||| vBlock (staggerReg k a)
  | .vredx _ d a _ _ => gBlock (staggerReg k d) ||| vBlock (staggerReg k a)
  | _ => 0

/-- The n words after the FRAME word, from the k-th on: none of them, but the first that cannot be captured (R136). -/
def captureFrom (pc : Word) : Nat → Nat → M (List Instr)
  | 0, _ => pure []
  | n + 1, k => do
    let w ← fetchM (codeAdd pc (BitVec.ofNat 64 (4 * k))).toNat 4
    match decodeWord (BitVec.ofNat 32 w) with
    | .ok i =>
      if (captured 0 i).isSome then
        let rest ← captureFrom pc n (k + 1)
        return i :: rest
      else trapN .illegalWord w
    | .error _ => trapN .illegalWord w

/-- One captured word: what it does to registers and to the vector queue, the course of control apart (R173). -/
def runCaptured (k : Nat) (i : Instr) (s : State) : State :=
  match captured k i with
  | none => s
  | some f =>
    match f s with
    | .next s' => setRegs { s'.th.r with pc := s.th.r.pc, loops := s.th.r.loops } s'
    | _ => s

/-- The end of a FRAME: its words are past (R170, R173). -/
def endFrame (n : Nat) (r : Regs) : Regs :=
  endTest 4 (codeAdd r.pc (BitVec.ofNat 64 (4 * (n + 1)))) { r with frame := {} }

/-- One replay of the FRAME in progress: all its blocks resident first, then its words in order (R173, R175). -/
def replayOnce (is : List Instr) : M Unit := do
  let f := (← getRegs).frame
  let k := f.j.toNat * f.stride.toNat
  requireBlocks (is.foldl (fun b i => b ||| capturedBlocks k i) 0)
  modify fun s => is.foldl (fun s i => runCaptured k i s) s
  if f.j.toNat + 1 < f.count.toNat then modRegs fun r => { r with frame := { r.frame with j := r.frame.j + 1 } }
  else modRegs (endFrame f.n.toNat)

/-- A FRAME that starts (R173). -/
def startFrame (gd : Guard) (a : Reg) (st : BitVec 5) (c : BitVec 4) : M Unit := do
  let n := c.toNat + 1
  let r ← getRegs
  let is ← captureFrom r.pc n 1
  if r.depth ≠ 0 ∧ ((r.lx (r.depth - 1)).endPc 4).toNat ≤ r.pc.toNat + 4 * n then trap .illegalWord (wordValue (.frame gd a st c))
  let count := (r.rg a).toNat
  if 0xFFFFFF < count then trapN .format count
  if count = 0 then modRegs (endFrame n)
  else
    modRegs fun r => { r with frame := ⟨BitVec.ofNat 24 count, 0, st, BitVec.ofNat 5 n⟩ }
    replayOnce is

/-- FRAME, R173: each issue of the word performs one replay; while one is in progress its guard is not read again (R25). -/
def execFrame (gd : Guard) (a : Reg) (st : BitVec 5) (c : BitVec 4) (s : State) : Out :=
  if s.th.r.frame.n ≠ 0 then
    outcome (do
      let is ← captureFrom s.th.r.pc s.th.r.frame.n.toNat 1
      replayOnce is) s
  else strand gd (startFrame gd a st c) s

end Sys2Proof.Machine
end

