-- ==== Sys2Proof/Machine/LoadStore.lean ====
section
/-!
DEFINITION. Loads, stores, atomics, commutative updates and the ordering words (R34, R185 to R198).
-/

namespace Sys2Proof.Machine

open Sys2Proof

/-! ### Loads and stores (R187, R190) -/

/-- An address that must be aligned (R187). -/
def aligned (va n : Nat) : M Unit := if va % n = 0 then pure () else trapN .misaligned va

/-- A load of n bytes into a register. -/
def loadWord (d : Reg) (va n : Nat) (ext : Nat → Nat → Word) : M Unit := do
  aligned va n
  let x ← loadM va n
  writeG d (ext n x)
  advance

/-- A store of a register's low n bytes. -/
def storeWord (d : Reg) (va n : Nat) : M Unit := do
  aligned va n
  let w ← readG d
  storeM va (.whole n (lowBytes w n))
  advance

/-- Effective address of a MEM form. -/
def effAddr (b : Reg) (o : BitVec 10) (scale : Nat) : M Nat := do return effective (← readG b) o scale

/-- LD, R187. -/
def execLd (gd : Guard) (d b : Reg) (z : BitVec 2) (o : BitVec 10) (s : State) : Out :=
  strand gd (do loadWord d (← effAddr b o (sizeBytes z)) (sizeBytes z) sextBytes) s
/-- LDZ, R187. -/
def execLdz (gd : Guard) (d b : Reg) (z : BitVec 2) (o : BitVec 10) (s : State) : Out :=
  strand gd (do loadWord d (← effAddr b o (sizeBytes z)) (sizeBytes z) zextBytes) s
/-- ST, R187. -/
def execSt (gd : Guard) (d b : Reg) (z : BitVec 2) (o : BitVec 10) (s : State) : Out :=
  strand gd (do storeWord d (← effAddr b o (sizeBytes z)) (sizeBytes z)) s

/-- LDV, R187. -/
def execLdv (gd : Guard) (d b : Reg) (o : BitVec 10) (s : State) : Out :=
  strand gd (do
    let va ← effAddr b o 64
    aligned va 64
    let x ← loadM va 64
    modRegs fun r => r.wv d (BitVec.ofNat 512 x)
    advance) s

/-- STV, R187. -/
def execStv (gd : Guard) (d b : Reg) (o : BitVec 10) (s : State) : Out :=
  strand gd (do
    let va ← effAddr b o 64
    aligned va 64
    storeM va (.whole 64 ((← getRegs).rv d).toNat)
    advance) s

/-! ### LDF and STF (R189) -/

/-- How a group of elements lies in memory: elements of a format, or a block of K planes of len bits. -/
inductive Group16 where
  | plain (fmt : Nat)
  | nested (k len : Nat)
  deriving DecidableEq, Repr

/-- The group that a fat pointer names, if it can be decoded (R46, R47, R189). -/
def groupOf (p : Word) : Option Group16 :=
  let f := ptrFmt p
  match nestedPlanes f with
  | some k =>
    let l := ptrBlk p + 3
    if l ≤ (if k = 16 then 5 else 6) then some (.nested k (2 ^ l)) else none
  | none => if f = 0 ∨ f = 9 ∨ f = 13 ∨ fmtBits f = 0 then none else some (.plain f)

/-- Where the group's bytes start after its address, how many they are, and how they are aligned. -/
def Group16.extent : Group16 → Nat × Nat × Nat
  | .plain f => (0, 2 * fmtBits f, fmtBits f / 8)
  | .nested k len => (1, k * (len / 8), 1)

/-- The lanes that LDF writes, and their flags. -/
def Group16.lanes (g : Group16) (rd : Rounding) (x : Nat) : Vec × BitVec 6 :=
  match g with
  | .plain f =>
    let w := fmtBits f
    let xs := (List.range 16).map fun i =>
      match intFmt f with
      | some (sg, _) => (unsignedBits 32 (readInt sg w (field x (w * i) w)), (0 : BitVec 6))
      | none => if f = 1 then (field x (32 * i) 32, 0) else convert f 1 rd 0 (field x (w * i) w)
    (fromLanes 32 (xs.map (·.1)), orFlags (xs.map (·.2)))
  | .nested k len =>
    let w := nestedBits k
    let byte (j : Nat) : Byte := if j = 0 then 0 else BitVec.ofNat 8 (field x (8 * (j - 1)) 8)
    (fromLanes w ((List.range len).map fun i => unsignedBits w (readPlanes byte k len k i)), 0)

/-- The bytes that STF writes, as a number, and the flags (R56, R57). -/
def Group16.stored (g : Group16) (rd : Rounding) (v : Vec) : Nat × BitVec 6 :=
  match g with
  | .plain f =>
    let w := fmtBits f
    let src := match intFmt f with
      | some (true, _) => 8
      | some (false, _) => 12
      | none => 1
    let xs := (List.range 16).map fun i => if src = f then (lane 32 v i, (0 : BitVec 6)) else convert src f rd 0 (lane 32 v i)
    (packLanes w (xs.map (·.1)), orFlags (xs.map (·.2)))
  | .nested k len =>
    let w := nestedBits k
    let xs := (List.range len).map fun i => saturate (-(2 ^ (k - 1))) (2 ^ (k - 1) - 1) (signed w (lane w v i))
    (bytesToNat (((writeBlock k len 0 (xs.map (·.1))).drop 1).map fun b => BitVec.ofNat 8 b), orFlags (xs.map (·.2)))

/-- The group and address of an LDF or STF: FORMAT, then MISALIGNED (R186, R189). (Log entry 41: DEDUCED, unsafe.) -/
def groupAccess (b : Reg) (o : BitVec 10) : M (Group16 × Nat) := do
  let p ← readG b
  match groupOf p with
  | none => trap .format p
  | some g =>
    let va := effective p o 64
    aligned va g.extent.2.2
    return (g, va)

/-- LDF, R189. -/
def execLdf (gd : Guard) (d b : Reg) (o : BitVec 10) (s : State) : Out :=
  strand gd (do
    let (g, va) ← groupAccess b o
    let x ← loadAt va ((va + g.extent.1) % 2 ^ 56) g.extent.2.1
    modRegs fun r => let (v, f) := g.lanes r.rounding x; (r.wv d v).raise f
    advance) s

/-- STF, R189. -/
def execStf (gd : Guard) (d b : Reg) (o : BitVec 10) (s : State) : Out :=
  strand gd (do
    let (g, va) ← groupAccess b o
    let r ← getRegs
    let (x, f) := g.stored r.rounding (r.rv d)
    storeAt va ((va + g.extent.1) % 2 ^ 56) (.whole g.extent.2.1 x)
    modRegs fun r => r.raise f
    advance) s

/-! ### Acquire, release, indexed (R190, R191) -/

/-- LDA, R190: a load; in a model that performs a thread's accesses in program order nothing later precedes it. -/
def execLda (gd : Guard) (d a : Reg) (_c : BitVec 3) (z : BitVec 2) (s : State) : Out :=
  strand gd (do loadWord d (addr (← readG a)) (sizeBytes z) zextBytes) s

/-- STRL, R190: the store follows the release, at its scope, of everything before it; at thread scope there is nothing to wait for
(R91, R101). (Log entry 45: DEDUCED, safe.) -/
def execStrl (gd : Guard) (d a : Reg) (c : BitVec 3) (z : BitVec 2) (s : State) : Out :=
  strand gd (do
    let va := addr (← readG a)
    aligned va (sizeBytes z)
    if c ≠ 0 then releaseAt c.toNat
    storeWord d va (sizeBytes z)) s

/-- Effective address of an indexed form. -/
def indexAddr (a b : Reg) (n : Nat) : M Nat := do return indexed (← readG a) (← readG b) n

/-- LDX, R190. -/
def execLdx (gd : Guard) (d a b : Reg) (z : BitVec 2) (s : State) : Out :=
  strand gd (do loadWord d (← indexAddr a b (sizeBytes z)) (sizeBytes z) sextBytes) s
/-- LDZX, R190. -/
def execLdzx (gd : Guard) (d a b : Reg) (z : BitVec 2) (s : State) : Out :=
  strand gd (do loadWord d (← indexAddr a b (sizeBytes z)) (sizeBytes z) zextBytes) s
/-- STX, R190. -/
def execStx (gd : Guard) (d a b : Reg) (z : BitVec 2) (s : State) : Out :=
  strand gd (do storeWord d (← indexAddr a b (sizeBytes z)) (sizeBytes z)) s

/-- PREF, R191: a hint that changes no state. -/
def execPref (gd : Guard) (_a _b : Reg) (s : State) : Out := compute gd (fun r => r) s

/-! ### Atomics (R192, R193) -/

/-- An AMO of 4 or 8 bytes, or of 16 bytes in register pairs. -/
def amo (op : Nat) (d a b : Reg) (n : Nat) : M Unit := do
  let r ← getRegs
  let va := addr (r.rg a)
  aligned va n
  let pair (x : Reg) : Nat := if n = 16 then (r.rg (pairHigh x)).toNat * 2 ^ 64 + (r.rg x).toNat else lowBytes (r.rg x) n
  let old ← atomicM va n op (pair b) (pair d)
  if n = 16 then
    writeG d (natWord (old % 2 ^ 64))
    writeG (pairHigh d) (natWord (old / 2 ^ 64))
  else writeG d (zextBytes n old)
  advance

/-- AADD, R192. -/
def execAadd (gd : Guard) (d a b : Reg) (z : BitVec 2) (s : State) : Out := strand gd (amo 0 d a b (amoBytes z)) s
/-- AAND, R192. -/
def execAand (gd : Guard) (d a b : Reg) (z : BitVec 2) (s : State) : Out := strand gd (amo 1 d a b (amoBytes z)) s
/-- AOR, R192. -/
def execAor (gd : Guard) (d a b : Reg) (z : BitVec 2) (s : State) : Out := strand gd (amo 2 d a b (amoBytes z)) s
/-- AXOR, R192. -/
def execAxor (gd : Guard) (d a b : Reg) (z : BitVec 2) (s : State) : Out := strand gd (amo 3 d a b (amoBytes z)) s
/-- AMIN, R192. -/
def execAmin (gd : Guard) (d a b : Reg) (z : BitVec 2) (s : State) : Out := strand gd (amo 4 d a b (amoBytes z)) s
/-- AMAX, R192. -/
def execAmax (gd : Guard) (d a b : Reg) (z : BitVec 2) (s : State) : Out := strand gd (amo 5 d a b (amoBytes z)) s
/-- AMINZ, R192. -/
def execAminz (gd : Guard) (d a b : Reg) (z : BitVec 2) (s : State) : Out := strand gd (amo 6 d a b (amoBytes z)) s
/-- AMAXZ, R192. -/
def execAmaxz (gd : Guard) (d a b : Reg) (z : BitVec 2) (s : State) : Out := strand gd (amo 7 d a b (amoBytes z)) s
/-- ASWAP, R192. -/
def execAswap (gd : Guard) (d a b : Reg) (z : BitVec 2) (s : State) : Out := strand gd (amo 8 d a b (amoBytes z)) s
/-- ACAS, R192. -/
def execAcas (gd : Guard) (d a b : Reg) (z : BitVec 2) (s : State) : Out := strand gd (amo 9 d a b (amoBytes z)) s
/-- ACAS16, R192. -/
def execAcas16 (gd : Guard) (d a b : Reg) (s : State) : Out := strand gd (amo 10 d a b 16) s

/-! ### Commutative updates (R194) -/

/-- A CUPD. -/
def cupd (op : BitVec 2) (a b : Reg) (f : BitVec 5) : M Unit := do
  let va := addr (← readG a)
  aligned va (updateBytes f)
  storeM va (.update op f (← readG b))
  advance

/-- CADD, R194. -/
def execCadd (gd : Guard) (a b : Reg) (f : BitVec 5) (s : State) : Out := strand gd (cupd 0 a b f) s
/-- CMAX, R194. -/
def execCmax (gd : Guard) (a b : Reg) (f : BitVec 5) (s : State) : Out := strand gd (cupd 1 a b f) s
/-- CMIN, R194. -/
def execCmin (gd : Guard) (a b : Reg) (f : BitVec 5) (s : State) : Out := strand gd (cupd 2 a b f) s
/-- COR, R194. -/
def execCor (gd : Guard) (a b : Reg) (f : BitVec 5) (s : State) : Out := strand gd (cupd 3 a b f) s

/-! ### Fences and queries (R34, R195, R196, R198) -/

/-- FENCE, R196: it waits for the replay queue, and the accesses before it are performed at its scope (R91).
(Log entry 45: DEDUCED, safe.) -/
def execFence (gd : Guard) (c : BitVec 3) (s : State) : Out :=
  strand gd (do
    releaseAt c.toNat
    advance) s

/-- FENCEE, R196: every engine operation of the thread is complete first. -/
def execFencee (gd : Guard) (c : BitVec 3) (s : State) : Out :=
  strand gd (do
    awaitEngines
    releaseAt c.toNat
    advance) s

/-- Level L is valid in a DOMSET (R31). -/
def levelValid (domset : Word) (l : Nat) : Bool := decide (1 ≤ l ∧ l ≤ 5) && domset.getLsbD (42 + l)

/-- DOMGET's value (R34). -/
def domgetValue (domset : Word) (l : Nat) : Word :=
  if l = 0 then domset
  else if levelValid domset l then
    match l with
    | 1 => natWord (wfield domset 35 8)
    | 2 => natWord (wfield domset 27 8)
    | 3 => natWord (wfield domset 19 8)
    | 4 => natWord (wfield domset 8 11)
    | _ => natWord (wfield domset 0 8)
  else BitVec.allOnes 64

/-- DOMGET, R34. -/
def execDomget (gd : Guard) (d : Reg) (l : BitVec 8) (s : State) : Out :=
  compute gd (fun r => r.wg d (domgetValue s.th.domset l.toNat)) s

/-- PHASE's value (R198). -/
def phaseValue (s : State) : Word :=
  match s.launches.find? fun l => decide (l.id = s.th.launch) with
  | some l => if l.field 2 38 1 = 1 then natWord (2 ^ 63 + l.superstep) else 0
  | none => 0

/-- PHASE, R198. -/
def execPhase (gd : Guard) (d : Reg) (s : State) : Out := compute gd (fun r => r.wg d (phaseValue s)) s

end Sys2Proof.Machine
end

