-- ==== Sys2Proof/Machine/Snapshot.lean ====
section
/-!
DEFINITION. Barriers and collectives (R33, R105, R197, R372), snapshot words (R103 to R117, R200, R201), ordered tasks (R118 to
R123) and timelines (R202 to R204).
-/

namespace Sys2Proof.Machine

open Sys2Proof

/-! ### Collectives -/

/-- What a completed collective left for a thread in a domain. -/
def Domain.resultOf (d : Domain) (t : ThreadId) : Option Outcome := (d.results.find? fun r => decide (r.1 = t)).map (·.2)

/-- The domain in which a thread has an arrival, or a result that it has not taken. -/
def openCollective (s : State) (t : ThreadId) : Option Nat :=
  s.domains.findIdx? fun d => d.arrivals.any (fun a => decide (a.t = t)) || (d.resultOf t).isSome

/-- The thread executes again a word in whose wait it was (R197); a word that TRET has skipped is no such word. -/
def Thread.rejoins (t : Thread) : Bool :=
  t.waited || match t.wait with
  | .collective _ => true
  | _ => false

/-- The result of the collective that the current thread waits in, or its wait; none when it has arrived at no collective.
A result of a trap is raised here. -/
def collectiveResult : M (Option Word) := do
  let s ← get
  match if s.th.rejoins then openCollective s s.th.id else none with
  | none => return none
  | some i =>
    match (domainGet s i).bind (·.resultOf s.th.id) with
    | none => park (.collective i)
    | some r =>
      modify (modDomain i fun d => { d with results := d.results.filter fun x => decide (x.1 ≠ s.th.id) })
      modTh fun t => { t with wait := .none }
      match r with
      | .value w => return some w
      | .trap c v => trap c v

/-- A domain with a thread's arrival; there is at most one at a time (R197). -/
def Domain.arriveOnce (d : Domain) (a : Arrival) : Domain :=
  if d.arrivals.any fun x => decide (x.t = a.t) then d else { d with arrivals := d.arrivals ++ [a] }

/-- The current thread arrives at its domain's generation, after the release of its accesses at a scope, and waits (R33, R92, R197). -/
def arrive {α : Type} (i scope : Nat) (k : Collective) (operand : Word) (dst : Reg) : M α := do
  releaseAt scope
  modify fun s => modDomain i (fun d => d.arriveOnce { t := s.th.id, kind := k, operand := operand, dst := dst }) s
  park (.collective i)

/-- The highest level of a launch's domains (R35, R37). -/
def topLevel (l : Launch) : Nat :=
  let m := l.field 3 0 5
  (List.range 5).foldl (fun a k => if m.testBit k then k + 1 else a) 0

/-- The checks of SYNC and BSYNC after L = 0 (R197): the domain's index. -/
def barrierDomain (l : Nat) : M Nat := do
  let s ← get
  if !levelValid s.th.domset l then trapN .format l
  if s.th.inTask then trapN .format l
  match computing s s.th with
  | some x => if topLevel x = l then trapN .phaseViolation l
  | none => pure ()
  match domainAt s s.th l with
  | some i => return i
  | none => trapN .format l

/-- SYNC, R197. -/
def execSync (gd : Guard) (d a : Reg) (l : BitVec 8) (s : State) : Out :=
  strand gd (do
    let w ← readG a
    if l = 0 then
      writeG d w
      advance
    else
      match ← collectiveResult with
      | some x =>
        writeG d x
        advance
      | none =>
        let i ← barrierDomain l.toNat
        arrive i l.toNat .sync w d) s

/-! ### Publication (R110, R111) -/

/-- A line's byte mask as a mask of bits. -/
def ShadowLine.bitMask (x : ShadowLine) : Nat :=
  bytesToNat ((List.range 128).map fun k => if x.mask.getLsbD k then 0xFF else 0)

/-- The bytes a line holds, by offset. -/
def ShadowLine.held (x : ShadowLine) : List (Nat × Byte) :=
  (List.range 128).filterMap fun k => (x.byteAt k).map fun b => (k, b)

/-- A line's masked bytes put into a level's shadow (R110). -/
def Level.mergeLine (l : Level) (x : ShadowLine) : Level :=
  x.held.foldl (fun l e => l.put (128 * x.line + e.1) x.die e.2) l

/-- A line and its bytes put into a list of lines in line order. -/
def insertLine (x : ShadowLine) : List (Nat × BitVec 128) → List (Nat × BitVec 128)
  | [] => [(x.line, x.mask)]
  | (l, m) :: ls =>
    if x.line < l then (x.line, x.mask) :: (l, m) :: ls
    else if x.line = l then (l, m ||| x.mask) :: ls
    else (l, m) :: insertLine x ls

/-- The lines of some levels in line order, each with the bytes that they hold of it. -/
def linesOf (ls : List Level) : List (Nat × BitVec 128) := (ls.flatMap (·.lines)).foldr insertLine []

/-- The translations of lines for writing (R111): places, or the lowest failing line with its cause, or a line that misses. -/
inductive LinePlaces where
  | ok (ps : List (Nat × Spot))
  | fault (c : Cause) (va : Nat)
  | miss (va : Nat)
  deriving DecidableEq, Repr

/-- A byte of a line, among those that a mask names, lies where only Bellows and host copies write (R80). -/
def lineReadOnly (s : State) (asid : BitVec 10) (p : Spot) (mask : BitVec 128) : Bool :=
  (List.range 128).any fun k => mask.getLsbD k && readOnly s asid (p.va + k) (p.pa + k)

/-- (Log entry 155: DESIGN CHOICE, unsafe.) -/
def placeLines (ag : Agent) : List (Nat × BitVec 128) → State → LinePlaces × State
  | [], s => (.ok [], s)
  | (l, mask) :: ls, s =>
    match reach ag (128 * l) 1 .store s with
    | (.ok (p :: _), s) =>
      if lineReadOnly s ag.asid p mask then (.fault .ingotReadonly (128 * l), s)
      else
        match placeLines ag ls s with
        | (.ok ps, s) => (.ok ((l, p) :: ps), s)
        | r => r
    | (.fault c, s) => (.fault c (128 * l), s)
    | (.miss _, s) => (.miss (128 * l), s)
    | (_, s) => (.ok [], s)

/-- What a line publishes: its masked bytes. -/
def ShadowLine.op (x : ShadowLine) : StoreOp := .bytes 128 x.data.toNat x.bitMask

/-- A line published: its masked bytes replace the published ones in one operation, and its poison goes with it; in a compute phase they
join the exchange buffer, with the group of the task (R38, R110, R111, R403). -/
def publishLine (t : Thread) (x : ShadowLine) (p : Spot) (s : State) : State :=
  match computing s t, p.node with
  | some l, _ => deferStore l (groupDomain s t) { p with va := 128 * x.line } x.op s
  | none, some node => sendRemote (.queued t.id) node (storeRequest t.secure p.pa x.op) (128 * x.line) s
  | none, none =>
    let s := performOp x.op p.pa s
    if x.poisoned ∧ !s.poison.contains (p.pa / 128) then { s with poison := (p.pa / 128) :: s.poison } else s

/-- One level folded outwards: each line into the innermost of the outer levels that covers it, or published. The lines that
were published. -/
def foldLevel (t : ThreadId) (l : Level) (outer : List Owned) (places : List (Nat × Spot)) (s : State) : State × List Nat :=
  l.lines.foldl (fun (acc : State × List Nat) x =>
    match outer.find? fun o => o.level.covers (128 * x.line) with
    | some o => (modLevel t o (fun k => k.mergeLine x) acc.1, acc.2)
    | none =>
      match places.find? fun p => decide (p.1 = x.line), findThread acc.1 t with
      | some p, some th => (publishLine th x p.2 acc.1, x.line :: acc.2)
      | _, _ => acc) (s, [])

/-- The n innermost thread levels of a thread accepted, from the innermost outwards (R110); a task among them that is not the
one that commits is abandoned. (Log entry 59: DEDUCED, unsafe.) -/
def acceptThread (id : ThreadId) (commit : Bool) (places : List (Nat × Spot)) : Nat → State → State × List Nat
  | 0, s => (s, [])
  | n + 1, s =>
    match findThread s id with
    | none => (s, [])
    | some t =>
      match ownedLevels s t with
      | [] => (s, [])
      | o :: outer =>
        let (s, ls) := foldLevel id o.level outer places s
        let s := match findThread s id with
          | some t => putThread s { t with levels := t.levels.drop 1 }
          | none => s
        let s := if o.level.task ∧ !(commit ∧ n = 0) then abandonTask t s else s
        let (s, ks) := acceptThread id commit places n s
        (s, ls ++ ks)

/-- The lines of the levels to be accepted are translated, for the current thread (R111). -/
def acceptPlaces (n : Nat) : M (List (Nat × Spot)) := do
  let s ← get
  match placeLines (agentOf s.th) (linesOf (s.th.levels.take n)) s with
  | (.ok ps, s') => do set s'; return ps
  | (.fault c va, s') => do set s'; trapN c va
  | (.miss a, s') => do
    set (addMiss (agentOf s.th) s.th.id.ctx (.access s.th.id) a .store s')
    stall .stalledMemory

/-! ### SNAP, ACCEPT, REJECT -/

/-- Room of a tag (R104). -/
def makeTag (serial : Nat) (dom : Bool) (level : Nat) : Word := natWord (serial % 2 ^ 56 * 256 + ofBool dom * 128 + level)

/-- The next serial of an address space. -/
def nextSerial (asid : BitVec 10) (s : State) : Nat × State :=
  let x := spaceOf s asid
  (x.serial + 1, putSpace s asid { x with serial := x.serial + 1 })

/-- A descriptor breaks the rules of R103. -/
def badSnap (domset base length fallback flags : Word) : Bool :=
  let b := addr base
  let n := length.toNat
  let dom := flags.getLsbD 0
  let lvl := wfield flags 1 3
  decide (b % 128 ≠ 0 ∨ n = 0 ∨ n % 128 ≠ 0 ∨ 2 ^ 56 < b + n ∨ fallback.toNat % 4 ≠ 0 ∨ wfield flags 4 60 ≠ 0)
    || (dom && (!decide (lvl = 1 ∨ lvl = 2) || !levelValid domset lvl)) || decide (selfWindow < b + n)

/-- SNAP_DEPTH of a member with an open thread level (R105). -/
def noThreadLevel : M Unit := do
  let n := (← getTh).levels.length
  if n ≠ 0 then trapN .snapDepth (0x100 + n)

/-- SNAP, R103, R104, R113, R201. -/
def execSnap (gd : Guard) (d a : Reg) (s : State) : Out :=
  strand gd (do
    match ← collectiveResult with
    | some tag =>
      writeG d tag
      advance
    | none =>
      let p ← readG a
      let va := addr p
      if va % 32 ≠ 0 then trapN .misaligned va
      forbidInPhase p
      let x ← loadM va 32
      let w (k : Nat) : Word := natWord (field x (64 * k) 64)
      let t ← getTh
      if badSnap t.domset (w 0) (w 1) (w 2) (w 3) then trapN .format va
      if (w 3).getLsbD 0 then
        noThreadLevel
        let s ← get
        match domainAt s t (wfield (w 3) 1 3) with
        | none => trapN .format va
        | some i =>
          let depth := ((domainGet s i).elim 0 fun x => x.levels.length)
          if 4 ≤ depth then trapN .snapDepth depth
          arrive i (wfield (w 3) 1 3) (.snap (natWord (addr (w 0))) (w 1) (w 2) (w 3)) p d
      else
        if 8 ≤ t.levels.length then trapN .snapDepth t.levels.length
        releaseStores
        let (n, s') := nextSerial t.id.asid (← get)
        set s'
        let tag := makeTag n false (t.levels.length + 1)
        modTh fun t => { t with levels := { tag := tag, base := addr (w 0), len := (w 1).toNat, fallback := w 2 } :: t.levels }
        writeG d tag
        advance) s

/-- The place of an open thread level by its tag, counted from the innermost.
(Log entries 58: DEDUCED, unsafe; 65: DEDUCED, safe.) -/
def threadLevelOf (t : Thread) (tag : Word) : Option Nat := t.levels.findIdx? fun l => decide (l.tag = tag) && !l.task

/-- The domain that holds an open level of a tag among a thread's domains, and its place. (Log entry 58: DEDUCED, unsafe.) -/
def domainLevelOf (s : State) (t : Thread) (tag : Word) : Option (Nat × Nat) :=
  s.domains.zipIdx.findSome? fun (d, i) =>
    if d.members.contains t.id then (d.levels.findIdx? fun l => decide (l.tag = tag)).map fun p => (i, p) else none

/-- ACCEPT, R110, R111, R112. (Log entry 58: DEDUCED, unsafe.) -/
def execAccept (gd : Guard) (d a : Reg) (s : State) : Out :=
  strand gd (do
    let tag ← readG a
    forbidInPhase tag
    match ← collectiveResult with
    | some x =>
      writeG d x
      advance
    | none =>
      let s ← get
      match threadLevelOf s.th tag, domainLevelOf s s.th tag with
      | some p, _ =>
        releaseStores
        let ps ← acceptPlaces (p + 1)
        modify fun s => (acceptThread s.th.id false ps (p + 1) s).1
        writeG d 0
        advance
      | none, some (i, _) =>
        noThreadLevel
        arrive i scopeSystem (.accept tag) tag d
      | none, none =>
        writeG d 1
        advance) s

/-- REJECT, R112. (Log entry 58: DEDUCED, unsafe.) -/
def execReject (gd : Guard) (d a : Reg) (s : State) : Out :=
  strand gd (do
    let tag ← readG a
    forbidInPhase tag
    match ← collectiveResult with
    | some x =>
      writeG d x
      advance
    | none =>
      let s ← get
      match threadLevelOf s.th tag, domainLevelOf s s.th tag with
      | some p, _ =>
        modify (dropThreadLevels s.th.id p)
        writeG d 0
        advance
      | none, some (i, _) =>
        noThreadLevel
        arrive i ((domainGet s i).elim 0 (·.level)) (.reject tag) tag d
      | none, none =>
        writeG d 1
        advance) s

/-- SNAPQ's word (R117). (Log entry 61: DEDUCED, unsafe.) -/
def snapqValue (s : State) (t : Thread) (tag : Word) : Word :=
  let dom := s.domains.foldl (fun n d => if d.members.contains t.id then n + d.levels.length else n) 0
  let found := match threadLevelOf t tag, domainLevelOf s t tag with
    | some p, _ => t.levels[p]?
    | none, some (i, p) => (domainGet s i).bind fun d => d.levels[p]?
    | none, none => none
  natWord (ofBool found.isSome * 2 ^ 63 + t.levels.length * 2 ^ 52 + dom % 16 * 2 ^ 48 + min (found.elim 0 Level.count) 0xFFFFFFFF)

/-- SNAPQ, R117. -/
def execSnapq (gd : Guard) (d a : Reg) (s : State) : Out :=
  compute gd (fun r => r.wg d (snapqValue s s.th (r.rg a))) s

/-! ### The end of a collective (R33, R105, R111, R201) -/

/-- A trapped member of strand code whose collective completes without it: the result stands in its register, and its word is past,
before it resumes (R197). A result that is a trap is raised when the word is executed again, as the result of a bundle is taken. -/
def takesNow (t : Thread) (i : Nat) : Bool := decide (t.st = .trapped ∧ t.wait = .collective i) && !t.forge

/-- A word completes for a thread with a result. -/
def Thread.completed (t : Thread) (d : Reg) (w : Word) : Thread := { t with r := (t.r.wg d w).advance, wait := .none }

/-- The outcome that every member takes; the generation goes on (R197). -/
def finishCollective (i : Nat) (f : Arrival → Outcome) (s : State) : State :=
  match domainGet s i with
  | none => s
  | some d =>
    let give (s : State) (a : Arrival) : State :=
      let keep := modDomain i (fun d => { d with results := d.results ++ [(a.t, f a)] }) s
      match findThread s a.t, f a with
      | some t, .value w => if takesNow t i then putThread s (t.completed a.dst w) else if t.forge ∨ t.wait = .collective i then keep else s
      | some t, _ => if t.forge ∨ t.wait = .collective i then keep else s
      | none, _ => s
    let s := modDomain i (fun d => { d with generation := d.generation + 1, arrivals := [], sent := [] }) s
    let s := d.arrivals.foldl give s
    releaseIf (fun t => d.members.contains t.id && decide (t.wait = .collective i)) s

/-- A domain's levels at a position and inside, closed with nothing published, nested domains' inner levels with them (R112).
(Log entry 60: DEDUCED, unsafe.) -/
def dropDomainLevels (i pos : Nat) (s : State) : State :=
  match domainGet s i with
  | none => s
  | some x =>
    let serial := (x.levels[pos]?).elim 0 fun l => tagSerial l.tag
    let close (y : Domain) (k : Nat) : Domain :=
      if k = i then { y with levels := y.levels.drop (pos + 1) }
      else if y.inside x then { y with levels := y.levels.filter fun l => decide (tagSerial l.tag < serial) }
      else y
    let gone := (s.domains.flatMap fun y => if y.inside x then y.levels.filter (fun l => decide (serial ≤ tagSerial l.tag)) else []).map (·.tag)
    mapThreads (Thread.dropQueued gone) { s with domains := s.domains.zipIdx.map fun (y, k) => close y k }

/-- The open levels outside a level of a domain, of the same owners, from the innermost: those of that serial's domain and of every
domain around it (R105, R107, R110). -/
def domainOuter (s : State) (k serial : Nat) : List Owned :=
  match domainGet s k with
  | none => []
  | some x =>
    let all := s.domains.zipIdx.flatMap fun (y, j) => if j = k ∨ x.inside y then withPositions (some j) y.levels else []
    ((all.filter fun o => decide (tagSerial o.level.tag < serial)).foldr insertOwned [])

/-- The levels that the ACCEPT of a domain's level at a position accepts, from the innermost: later levels of the domain, and of the
domains nested in it, first (R110). -/
def acceptedLevels (s : State) (i pos : Nat) : List Owned :=
  match domainGet s i with
  | none => []
  | some x =>
    let serial := (x.levels[pos]?).elim 0 fun l => tagSerial l.tag
    let all := s.domains.zipIdx.flatMap fun (y, k) =>
      if k = i ∨ y.inside x then (withPositions (some k) y.levels).filter fun o => decide (serial ≤ tagSerial o.level.tag) else []
    all.foldr insertOwned []

/-- Levels of domains accepted one after the other, each folded into the levels around it as they then stand (R110). -/
def acceptDomains (m : ThreadId) (places : List (Nat × Spot)) : List Owned → State → State
  | [], s => s
  | o :: os, s =>
    let k := o.owner.getD 0
    let s := (foldLevel m o.level (domainOuter s k (tagSerial o.level.tag)) places s).1
    acceptDomains m places os (modDomain k (fun d => { d with levels := d.levels.filter fun l => decide (l.tag ≠ o.level.tag) }) s)

/-- Every arrival has the operand of the first (R201): the four words of a SNAP's descriptor, or the tag. -/
def sameKinds : List Arrival → Bool
  | [] => true
  | a :: as => as.all fun b => decide (b.kind = a.kind)

/-- Arrivals of one collective, whatever their operands. -/
def sameForm : List Arrival → Bool
  | [] => true
  | a :: as => as.all fun b => match a.kind, b.kind with
    | .sync, .sync => true
    | .snap _ _ _ _, .snap _ _ _ _ => true
    | .accept _, .accept _ => true
    | .reject _, .reject _ => true
    | _, _ => false

/-- What the completed collective of a domain does; what members in other packages give to a SYNC is open.
(Log entry 15: DEDUCED, unsafe.) -/
def completeCollective (i : Nat) (s : State) : State :=
  match domainGet s i with
  | none => s
  | some d =>
    match d.arrivals with
    | [] => s
    | a :: _ =>
      if !sameForm d.arrivals then s
      else if a.kind ≠ .sync ∧ !sameKinds d.arrivals then finishCollective i (fun a => .trap .format a.operand) s
      else match a.kind with
      | .sync =>
        let w := d.arrivals.foldl (fun w a => combine w a.operand) (if d.outside then Config.freeValue s.freeCount else 0)
        finishCollective i (fun _ => .value w) (if d.outside then { s with freeCount := s.freeCount + 1 } else s)
      | .snap base length fallback _ =>
        let (n, s) := nextSerial a.t.asid s
        let tag := makeTag n true (d.levels.length + 1)
        let l : Level := { tag := tag, base := addr base, len := length.toNat, fallback := fallback }
        finishCollective i (fun _ => .value tag) (modDomain i (fun d => { d with levels := l :: d.levels }) s)
      | .reject tag =>
        match d.levels.findIdx? fun l => decide (l.tag = tag) with
        | none => finishCollective i (fun _ => .value 1) s
        | some p => finishCollective i (fun _ => .value 0) (dropDomainLevels i p s)
      | .accept tag =>
        match d.levels.findIdx? fun l => decide (l.tag = tag), findThread s a.t with
        | some p, some m =>
          let os := acceptedLevels s i p
          match placeLines (agentOf m) (linesOf (os.map (·.level))) s with
          | (.ok ps, s) => finishCollective i (fun _ => .value 0) (acceptDomains m.id ps os s)
          | (.fault c va, s) => finishCollective i (fun _ => .trap c (natWord va)) (putThread s { m with failed := none })
          | (.miss va, s) => addMiss (agentOf m) m.id.ctx (.access m.id) va .store s
        | _, _ => finishCollective i (fun _ => .value 1) s

/-! ### The barrier tree (R372) -/

/-- Tree nodes under a node, itself included, among n. -/
def subtree (n : Nat) : Nat → Nat → List Nat
  | 0, _ => []
  | fuel + 1, k => if k < n then k :: (List.range 4).flatMap fun c => subtree n fuel (4 * k + 1 + c) else []

/-- Members whose home is one of a subtree's hearths. -/
def Domain.membersAt (s : State) (d : Domain) (k : Nat) : List ThreadId :=
  let hs := (subtree d.nodes.length 6 k).filterMap fun j => d.nodes[j]?
  d.members.filter fun m => match findThread s m with
    | some t => hs.contains t.home
    | none => false

/-- A tree node can send its combined word upward: everyone below has arrived, and its children have sent (R372). -/
def canSend (s : State) (d : Domain) (k : Nat) : Bool :=
  decide (0 < k ∧ k < d.nodes.length ∧ d.unborn = 0) && !d.sent.contains k
    && (d.membersAt s k).all (fun m => d.arrivals.any fun a => decide (a.t = m))
    && (List.range 4).all (fun c => decide (d.nodes.length ≤ 4 * k + 1 + c) || d.sent.contains (4 * k + 1 + c))
    && !d.arrivals.isEmpty

/-- BARRIER_ARRIVAL_MESSAGE, R372. -/
def execBarrierArrivalMessage (domain node : Nat) (s : State) : Out :=
  .next (match domainGet s domain with
    | some d => if canSend s d node then modDomain domain (fun d => { d with sent := d.sent ++ [node] }) s else s
    | none => s)

/-- The root has everyone's word, of root threads that are yet to be created too (R371), and the pending-byte counter is zero where the collective is a SYNC (R197, R372). -/
def canComplete (d : Domain) : Bool :=
  decide (d.unborn = 0) && !d.members.isEmpty && d.members.all (fun m => d.arrivals.any fun a => decide (a.t = m))
    && (List.range d.nodes.length).all (fun k => decide (k = 0) || d.sent.contains k)
    && (decide (d.pendingBytes = 0) || d.arrivals.all fun a => decide (a.kind ≠ .sync)) && sameForm d.arrivals

/-- BARRIER_COMPLETE, R33. (Log entry 136: DESIGN CHOICE, safe.) -/
def execBarrierComplete (domain : Nat) (s : State) : Out :=
  .next (match domainGet s domain with
    | some d => if canComplete d then completeCollective domain s else s
    | none => s)

/-! ### Ordered tasks -/

/-- TORDER, R118, R201. (Log entry 149: DESIGN CHOICE, unsafe.) -/
def execTorder (gd : Guard) (a : Reg) (l : BitVec 8) (s : State) : Out :=
  strand gd (do
    let base ← readG a
    let s ← get
    if !levelValid s.th.domset l.toNat then trapN .format l.toNat
    match domainAt s s.th l.toNat with
    | none => trapN .format l.toNat
    | some i =>
      match (domainGet s i).bind (·.group) with
      | some g => if g.base ≠ base then trap .format base
      | none => modify (modDomain i fun d => { d with group := some { base := base, cursor := base } })
      modTh fun t => { t with bound := true, tlevel := BitVec.ofNat 3 l.toNat }
      advance) s

/-- The thread's group, with its domain (R118). -/
def groupOfThread (s : State) : Option (Nat × Group) :=
  (groupDomain s s.th).bind fun i => ((domainGet s i).bind (·.group)).map fun g => (i, g)

/-- TBEGIN, R119, R201. (Log entries 65: DEDUCED, safe; 146: DESIGN CHOICE, unsafe; 147: DESIGN CHOICE, unsafe.) -/
def execTbegin (gd : Guard) (a : Reg) (s : State) : Out :=
  strand gd (do
    let t ← readG a
    let s ← get
    let bad : M Unit := trap .orderStall (t ||| (1#64 <<< 63))
    if s.th.inTask then bad
    match groupOfThread s with
    | none => bad
    | some (i, g) =>
      if t.toNat < g.cursor.toNat ∨ g.taken.contains t then bad
      if 8 ≤ s.th.levels.length then trapN .snapDepth s.th.levels.length
      modify (modDomain i fun d => { d with group := d.group.map fun g => { g with taken := t :: g.taken } })
      modTh fun x => { x with saved := some x.r, stamp := t,
                              levels := { tag := 0, task := true, base := 0, len := 2 ^ 56, fallback := 0 } :: x.levels }
      advance) s

/-- Open tasks of a group that a publication aborts: a higher timestamp, and a read of a published line (R121). -/
def conflicts (s : State) (i : Nat) (t : Word) (lines : List Nat) : List ThreadId :=
  (threads s).filterMap fun x =>
    if groupDomain s x = some i ∧ t.toNat < x.stamp.toNat ∧ x.live ∧
        x.levels.any (fun l => l.task && l.reads.any lines.contains) then some x.id else none

/-- TCOMMIT, R120, R121. A task that a domain's fallback has ended in its wait goes on at the fallback (R454); in a compute phase the
lines find room in the exchange buffer first (R38, R39). -/
def execTcommit (gd : Guard) (s : State) : Out :=
  strand gd (do
    let s ← get
    if !s.th.inTask then
      if s.th.redirect.isSome then
        modify applyRedirect
        stop
      else trap .orderStall (BitVec.allOnes 64)
    match groupOfThread s with
    | none => trap .orderStall (BitVec.allOnes 64)
    | some (i, g) =>
      if g.cursor ≠ s.th.stamp then park (.commit i s.th.stamp)
      releaseStores
      let n := s.th.levels.findIdx (·.task) + 1
      let ps ← acceptPlaces n
      let lines := linesOf (s.th.levels.take n)
      requireRecords ((lines.head?).elim 0 fun l => 128 * l.1) (lines.foldl (fun k l =>
        k + ((List.range 16).filter fun c => decide (l.2.extractLsb' (8 * c) 8 ≠ 0#8)).length) 0)
      let (s', lines) := acceptThread s.th.id true ps n (← get)
      let s' := (conflicts s' i s.th.stamp lines).foldl (fun s t => abortTask t false s) s'
      set (advanceCursor i (g.cursor + 1) s')
      modTh fun x => { x with saved := none }
      advance) s

/-- TABORT, R120. -/
def execTabort (gd : Guard) (s : State) : Out :=
  strand gd (do
    let t ← getTh
    if t.inTask then
      modify (dropThreadLevels t.id (t.levels.findIdx (·.task)))
      modTh fun x => { x with saved := none }
    advance) s

/-- TSTAT's word (R123). (Log entry 150: DESIGN CHOICE, safe.) -/
def tstatValue (s : State) : Word :=
  let cursor := (groupOfThread s).elim 0 fun g => g.2.cursor
  let holder := s.th.inTask && (groupOfThread s).isSome && decide (cursor = s.th.stamp)
  natWord (ofBool s.th.inTask * 2 ^ 63 + ofBool holder * 2 ^ 62 + min s.th.aborts 0xFFFF * 2 ^ 32 + wfield cursor 0 32)

/-- TSTAT, R123. -/
def execTstat (gd : Guard) (d : Reg) (s : State) : Out := compute gd (fun r => r.wg d (tstatValue s)) s

/-- FREEZEWD's limit (R354): values below 1,024 act as 1,024. -/
def freezeLimit (x : Hearth) : Nat := max 1024 x.freezewd.toNat

/-- A thread has waited in TCOMMIT for FREEZEWD cycles (R120). -/
def orderStallDue (s : State) (t : Thread) : Bool :=
  match t.st, t.wait with
  | .parked, .commit _ _ => decide (freezeLimit (hearthOf s t.hearth) ≤ (s.cyc - t.parkedAt).toNat) && t.inTask
  | _, _ => false

/-- ORDER_STALL_TIMEOUT, R120. -/
def execOrderStallTimeout (t : ThreadId) (s : State) : Out :=
  .next (match findThread s t with
    | some x => if orderStallDue s x then asThread t (do
        let y ← getTh
        modify (takeTrap .orderStall y.stamp)) s else s
    | none => s)

/-! ### Timelines -/

/-- TLWAIT, R203. -/
def execTlwait (gd : Guard) (d a : Reg) (e : BitVec 3) (s : State) : Out :=
  strand gd (do
    let n := (← readG a).toNat
    let l := (← getTh).timeline e.toNat
    if l.last < n then trapN .format n
    else if l.completed < n then park (.timeline e.toNat n)
    else
      writeG d (natWord l.completed)
      advance) s

/-- TLREAD, R204. -/
def execTlread (gd : Guard) (d : Reg) (l : BitVec 1) (e : BitVec 3) (s : State) : Out :=
  let t := s.th.timeline e.toNat
  compute gd (fun r => r.wg d (natWord (if l = 1 then t.last else t.completed))) s

end Sys2Proof.Machine
end

