-- ==== Sys2Proof/Machine/Shaped.lean ====
section
/-!
DEFINITION. Shape records (R234, R235), shaped operations (R236 to R241) and heaps (R246 to R248).
-/

namespace Sys2Proof.Machine

open Sys2Proof

/-! ### Shape records -/

/-- A 32-bit field of a record's words. -/
def Shape.half (x : Shape) (k : Nat) : Nat := wfield (x.words.getD (k / 2) 0) (32 * (k % 2)) 32

def Shape.base (x : Shape) : Word := x.words.getD 0 0
def Shape.size (x : Shape) (k : Nat) : Nat := x.half (2 + k)
def Shape.stride (x : Shape) (k : Nat) : Int := signed 32 (x.half (6 + k))
def Shape.attr (x : Shape) (lo len : Nat) : Nat := wfield (x.words.getD 5 0) lo len
def Shape.rank (x : Shape) : Nat := x.attr 0 3
def Shape.sat (x : Shape) : Bool := decide (x.attr 16 1 = 1)
def Shape.order (x : Shape) (level : Nat) : Nat := x.attr (8 + 2 * level) 2
def Shape.chan (x : Shape) : Word := x.words.getD 6 0
def Shape.fmt (x : Shape) : Nat := ptrFmt x.base
def Shape.blockLen (x : Shape) : Nat := 2 ^ (ptrBlk x.base + 3)
def Shape.total (x : Shape) : Nat := (List.range x.rank).foldl (fun n k => n * x.size k) 1
def Shape.nested (x : Shape) : Bool := (nestedPlanes x.fmt).isSome

/-- A format code that is assigned (R46). -/
def fmtAssigned (f : Nat) : Bool := decide (fmtBits f ≠ 0) || (nestedPlanes f).isSome

/-- Bytes of an element that is not nested. -/
def Shape.elemBytes (x : Shape) : Nat := fmtBits x.fmt / 8

/-- The rules of a nested tensor (R234). -/
def Shape.nestedOk (x : Shape) : Bool :=
  !x.nested || (decide (x.stride 0 = 1 ∧ x.size 0 % x.blockLen = 0)
    && [1, 2, 3].all fun k => decide (x.stride k % (x.blockLen : Int) = 0))

/-- A record is valid (R235), whatever its channel. -/
def Shape.valid (x : Shape) : Bool :=
  let n := x.rank
  decide (1 ≤ n ∧ n ≤ 4)
    && (List.range 4).all (fun k => decide (k < n) || decide (x.size k = 0 ∧ x.stride k = 0 ∧ x.order k = 0))
    && (List.range n).all (fun d => (List.range n).any fun l => decide (x.order l = d))
    && decide (x.attr 3 5 = 0 ∧ x.attr 17 47 = 0 ∧ x.words.getD 7 0 = 0)
    && (x.nested || decide (addr x.base % max 1 x.elemBytes = 0))
    && decide (x.total ≤ 2 ^ 40) && x.nestedOk

/-- The indices of the n-th visited element: level 0 of the order is innermost (R234, R237). -/
def Shape.index (x : Shape) (n : Nat) : List Nat :=
  let place (d : Nat) : Nat :=
    let level := (List.range x.rank).findIdx fun l => decide (x.order l = d)
    let inner := (List.range level).foldl (fun k l => k * x.size (x.order l)) 1
    n / inner % x.size d
  (List.range 4).map fun d => if d < x.rank then place d else 0

/-- Σ i_k × stride_k. -/
def Shape.offset (x : Shape) (i : List Nat) : Int :=
  (List.range 4).foldl (fun (s : Int) k => s + (i.getD k 0 : Int) * x.stride k) 0

/-- Address of an element that is not nested (R234). -/
def Shape.address (x : Shape) (i : List Nat) : Nat :=
  unsignedBits 56 ((addr x.base : Int) + x.elemBytes * x.offset i)

/-- Bytes of a nested block (R59). -/
def Shape.blockSize (x : Shape) : Nat := blockBytes ((nestedPlanes x.fmt).getD 2) x.blockLen

/-- Address of the block of a nested element, and the element's place in it (R234). (Log entry 64: DEDUCED, safe.) -/
def Shape.blockOf (x : Shape) (i : List Nat) : Nat × Nat :=
  let o := x.offset i
  (unsignedBits 56 ((addr x.base : Int) + x.blockSize * (o / (x.blockLen : Int))), (o % (x.blockLen : Int)).toNat)

/-- A record as the thread's loads read it. -/
def readShape (p : Word) : M Shape := do
  let a := addr p
  if a % 64 ≠ 0 then trapN .misaligned a
  let x ← loadM a 64
  return ⟨a, (List.range 8).map fun k => natWord (field x (64 * k) 64)⟩

/-- SHSET, R236. (Log entry 63: DEDUCED, safe.) -/
def execShset (gd : Guard) (d : BitVec 3) (a : Reg) (s : State) : Out :=
  strand gd (do
    let p ← readG a
    let x ← readShape p
    if !fmtAssigned x.fmt then trap .format x.base
    if !x.valid then trapN .format x.place
    modRegs fun r => r.wsh d p
    advance) s

/-- SHGET, R236. -/
def execShget (gd : Guard) (d : Reg) (a : BitVec 3) (s : State) : Out := compute gd (fun r => r.wg d (r.rsh a)) s

/-! ### Shaped operations -/

/-- A record that a shaped operation uses: read again, valid, of memory, and of an accepted format (R235, R236).
(Log entry 63: DEDUCED, safe.) -/
def useShape (q : QReg) (accept : Nat → Bool) : M Shape := do
  let x ← readShape ((← getRegs).rsh q)
  if !fmtAssigned x.fmt then trap .format x.base
  if !x.valid ∨ x.chan ≠ 0 ∨ !accept x.fmt then trapN .format x.place
  return x

/-- An operand record must have D's rank and sizes (R237). (Log entry 62: DEDUCED, safe.) -/
def sameShape (d x : Shape) : M Unit :=
  if d.rank = x.rank ∧ (List.range 4).all (fun k => decide (d.size k = x.size k)) then pure () else trapN .format x.place

/-- A shaped operation meets no open level (R237). (Log entry 62: DEDUCED, safe.) -/
def noLevels : M Unit := do
  let s ← get
  if !(ownedLevels s s.th).isEmpty then trapN .format 0

/-- An entry of the vector queue (R237). -/
def queueVector : M Unit := modify fun s => pushVector s true

/-- The elements of a visit from a first index on: the index is kept at offset 0xEF8 while it is not complete, and the word is
cleared at the end (R238). -/
def visitFrom (body : Nat → M Unit) : Nat → Nat → M Unit
  | 0, _ => modTh fun t => { t with resume := 0 }
  | n + 1, k => do
    modTh fun t => { t with resume := natWord (2 ^ 63 + k) }
    body k
    visitFrom body n (k + 1)

/-- Every index of D in visiting order, from where an earlier fault stopped it. -/
def visit (total : Nat) (body : Nat → M Unit) : M Unit := do
  let w := (← getTh).resume
  let k := if w.getLsbD 63 then wfield w 0 40 else 0
  visitFrom body (total - k) k

/-- An element read by the thread. -/
def loadElement (x : Shape) (i : List Nat) : M Nat := loadM (x.address i) x.elemBytes

/-- A store of a shaped operation: a page that misses is waited for, since its fault belongs to this element (R238). -/
def storeNow (va n v : Nat) : M Unit := storeAt va va (.whole n v) false

/-- An element written by the thread. -/
def storeElement (x : Shape) (i : List Nat) (v : Nat) : M Unit := storeNow (x.address i) x.elemBytes v

/-- A float element's bits as a value. -/
def floatValue (fmt : Nat) (ftz : Bool) (v : Nat) : FVal := ((floatFmt fmt).getD f32).read ftz v

/-- Result of TSEW on integers: exact, then wrapped or saturated (R239). -/
def intResult (sat : Bool) (sg : Bool) (w : Nat) (x : Int) : Nat × BitVec 6 :=
  if sat then
    let (y, f) := saturate (intRange sg w).1 (intRange sg w).2 x
    (unsignedBits w y, f)
  else (unsignedBits w x, 0)

/-- TSEW's operation on one element (R239). -/
def tsewElement (op : Nat) (fmt : Nat) (sat : Bool) (rd : Rounding) (a b d : Nat) : Nat × BitVec 6 :=
  match floatFmt fmt, intFmt fmt with
  | some f, _ =>
    let x := f.read rd.ftz a
    let y := f.read rd.ftz b
    match op with
    | 0 => f.add rd x y
    | 1 => f.add rd x y.negate
    | 2 => f.mul rd x y
    | 3 => f.pick rd.ftz true a b
    | 4 => f.pick rd.ftz false a b
    | _ => f.fma rd x y (f.read rd.ftz d)
  | none, some (sg, w) =>
    let x := readInt sg w a
    let y := readInt sg w b
    match op with
    | 0 => intResult sat sg w (x + y)
    | 1 => intResult sat sg w (x - y)
    | 2 => intResult sat sg w (x * y)
    | 3 => (if x < y then b else a, 0)
    | _ => (if y < x then b else a, 0)
  | _, _ => (a, 0)

/-- Formats that a TSEW operation accepts (R239). -/
def tsewAccepts (op f : Nat) : Bool :=
  match op with
  | 5 => decide (fmtBits f ≠ 0)
  | 6 => decide (1 ≤ f ∧ f ≤ 3)
  | _ => [1, 2, 3, 6, 7, 8, 10, 11, 12].contains f

/-- TSEW, R239. (Log entry 62: DEDUCED, safe.) -/
def execTsew (gd : Guard) (d a b : BitVec 3) (o : BitVec 4) (s : State) : Out :=
  strand gd (do
    noLevels
    let op := o.toNat
    let sd ← useShape d (tsewAccepts op)
    let sa ← useShape a (tsewAccepts op)
    let sb ← if op = 5 then pure sa else useShape b (tsewAccepts op)
    sameShape sd sa
    sameShape sd sb
    if sa.fmt ≠ sd.fmt then trapN .format sa.place
    if sb.fmt ≠ sd.fmt then trapN .format sb.place
    visit sd.total fun n => do
      let i := sd.index n
      let x ← loadElement sa i
      if op = 5 then storeElement sd i x
      else
        let y ← loadElement sb i
        let z ← if op = 6 then loadElement sd i else pure 0
        let (v, f) := tsewElement op sd.fmt sd.sat (← getRegs).rounding x y z
        storeElement sd i v
        modRegs fun r => r.raise f
    queueVector
    advance) s

/-- A dimension-0 fibre of A. -/
def fibre (x : Shape) (i : List Nat) : List (List Nat) := (List.range (x.size 0)).map fun k => k :: i.drop 1

/-- Sum of float values: exact, rounded once; NaN, or infinities of both signs, give NaN (R240). -/
def floatSum (f : FloatFmt) (rd : Rounding) (vs : List FVal) : Nat × BitVec 6 :=
  let sig := flagIf (vs.any FVal.snan) flagNV
  if vs.any FVal.isNan then (f.nan, sig)
  else
    let inf (n : Bool) : Bool := vs.any fun v => decide (v = .inf n)
    if inf true && inf false then (f.nan, flagNV)
    else if inf true || inf false then FVal.toFloat f rd 0 (.inf (inf true))
    else
      let c := vs.foldl (fun (c : Cell) v => match v with
        | .fin n m e => exactAdd c (sgn n m) e
        | _ => c) {}
      c.toFloat f rd.mode rd.ftz

/-- TSRED's result for one fibre of A: op, formats, rounding, elements (R240). -/
def tsredFibre (op fa fd : Nat) (rd : Rounding) (xs : List Nat) : Nat × BitVec 6 :=
  match floatFmt fa, floatFmt fd, intFmt fa, intFmt fd with
  | some f, some g, _, _ =>
    if op = 0 then floatSum g rd (xs.map (f.read rd.ftz))
    else match xs with
      | [] => (g.signBit (decide (op = 1)) + g.infBits, 0)
      | x :: rest =>
        let start := f.pick rd.ftz (decide (op = 1)) x x
        let (v, fl) := rest.foldl (fun (acc : Nat × BitVec 6) y =>
          let (w, k) := f.pick rd.ftz (decide (op = 1)) acc.1 y
          (w, acc.2 ||| k)) start
        if fa = fd then (v, fl) else let (w, k) := convert fa fd rd 0 v; (w, fl ||| k)
  | none, none, some (sa, wa), some (sd, wd) =>
    let vs := xs.map (readInt sa wa)
    let (lo, hi) := intRange sd wd
    let v : Int := match op, vs with
      | 0, _ => vs.sum
      | 1, [] => lo
      | 1, x :: t => t.foldl (fun a b => if a < b then b else a) x
      | _, [] => hi
      | _, x :: t => t.foldl (fun a b => if b < a then b else a) x
    let (y, f) := saturate lo hi v
    (unsignedBits wd y, f)
  | _, _, _, _ => (0, 0)

/-- Elements read one after the other. -/
def loadAll (x : Shape) : List (List Nat) → M (List Nat)
  | [] => pure []
  | i :: is => do
    let v ← loadElement x i
    let vs ← loadAll x is
    return v :: vs

/-- TSRED, R240. (Log entry 62: DEDUCED, safe.) -/
def execTsred (gd : Guard) (d a : BitVec 3) (o : BitVec 4) (s : State) : Out :=
  strand gd (do
    noLevels
    let arith (f : Nat) : Bool := decide (1 ≤ f ∧ f ≤ 13)
    let sd ← useShape d arith
    let sa ← useShape a arith
    if sd.rank ≠ sa.rank ∨ sd.size 0 ≠ 1 ∨ [1, 2, 3].any (fun k => decide (sd.size k ≠ sa.size k)) then trapN .format sa.place
    if (floatFmt sd.fmt).isSome ≠ (floatFmt sa.fmt).isSome then trapN .format sa.place
    visit sd.total fun n => do
      let i := sd.index n
      let xs ← loadAll sa (fibre sa i)
      let (v, f) := tsredFibre o.toNat sa.fmt sd.fmt (← getRegs).rounding xs
      storeElement sd i v
      modRegs fun r => r.raise f
    queueVector
    advance) s

/-- The value of an element of a tensor, nested ones too (R241): n × 2^E, all planes. -/
def loadValue (x : Shape) (i : List Nat) (ftz : Bool) : M FVal := do
  match nestedPlanes x.fmt with
  | some k =>
    let (b, j) := x.blockOf i
    let v ← loadM b x.blockSize
    let byte (n : Nat) : Byte := BitVec.ofNat 8 (field v (8 * n) 8)
    let n := readPlanes byte k x.blockLen k j
    return .fin (decide (n < 0)) n.natAbs (blockExp byte)
  | none =>
    let v ← loadElement x i
    match floatFmt x.fmt, intFmt x.fmt with
    | some f, _ => return f.read ftz v
    | none, some (sg, w) => let n := readInt sg w v; return .fin (decide (n < 0)) n.natAbs 0
    | _, _ => return .fin false v 0

/-- A value written in a format that is not nested. -/
def valueTo (fmt : Nat) (rd : Rounding) (v : FVal) : Nat × BitVec 6 :=
  match floatFmt fmt, intFmt fmt with
  | some g, _ => v.toFloat g rd 0
  | none, some (sg, w) => let (n, f) := v.toInteger (intRange sg w).1 (intRange sg w).2 rd.mode 0; (unsignedBits w n, f)
  | _, _ => (0, 0)

/-- The values of the elements that fall into a block, in its order. -/
def loadValues (x : Shape) : List (List Nat) → M (List FVal)
  | [] => pure []
  | i :: is => do
    let v ← loadValue x i false
    let vs ← loadValues x is
    return v :: vs

/-- TSCVT, R241. The visit of a nested D does its work at the element that starts a block. (Log entry 64: DEDUCED, safe.) -/
def execTscvt (gd : Guard) (d a : BitVec 3) (m : BitVec 2) (s : State) : Out :=
  strand gd (do
    noLevels
    let any (f : Nat) : Bool := decide (1 ≤ f)
    let sd ← useShape d any
    let sa ← useShape a any
    if sd.nested ∧ (sa.nested ∨ m ≠ 0) then trapN .format sd.place
    sameShape sd sa
    visit sd.total fun n => do
      let i := sd.index n
      let r ← getRegs
      match nestedPlanes sd.fmt with
      | some k =>
        let (b, j) := sd.blockOf i
        if j = 0 then
          let xs ← loadValues sa ((List.range sd.blockLen).map fun e => (i.headD 0 + e) :: i.drop 1)
          let (e, ns, f) := quantise k xs
          storeNow b sd.blockSize (bytesToNat ((writeBlock k sd.blockLen e ns).map fun x => BitVec.ofNat 8 x))
          modRegs fun r => r.raise f
      | none =>
        if sa.nested ∨ (floatFmt sa.fmt).isSome ∨ (floatFmt sd.fmt).isSome then
          let v ← loadValue sa i r.ftz
          let (x, f) := valueTo sd.fmt ⟨m.toNat, r.ftz⟩ v
          storeElement sd i x
          modRegs fun r => r.raise f
        else
          let v ← loadElement sa i
          let (x, f) := convert sa.fmt sd.fmt ⟨m.toNat, r.ftz⟩ 0 v
          storeElement sd i x
          modRegs fun r => r.raise f
    queueVector
    advance) s

/-! ### Heaps -/

/-- above(x, y), R247. -/
def heapAbove (x y : Word) : Bool :=
  let score (w : Word) : FVal := f32.decode (wfield w 32 32)
  let i (w : Word) : Nat := wfield w 0 16
  match (score x).isNan, (score y).isNan with
  | true, true => decide (i x < i y)
  | true, false => false
  | false, true => true
  | false, false =>
    match (score x).cmp (score y) with
    | .gt => true
    | .lt => false
    | .eq => decide (i x < i y)

/-- An entry goes directly above every held entry that does not rank above it (R248). -/
def heapInsert (e : Word) : List Word → List Word
  | [] => [e]
  | x :: xs => if heapAbove x e then e :: x :: xs else x :: heapInsert e xs

/-- The physical places of n words of a heap block, which must lie in the hearth's own local memory (R248); before they are read, updates
of them are merged (R97). -/
def heapPlaces (va n : Nat) (kind : AccessKind) : M (List Spot) := do
  watch (decide (kind ≠ .store)) true va (8 * n)
  if queueOverlaps (← getTh) va (8 * n) then stall .stalledMemory
  let ps ← placeOf va va (8 * n) kind
  let t ← getTh
  if ps.all (ownLocal t) then
    if kind ≠ .store then modify (mergeReads (ps.map (·.pa)))
    return ps
  else trapN .format va

/-- A word of the block, by its index. -/
def heapWord (ps : List Spot) (k : Nat) : M Word := do
  let s ← get
  return natWord (bytesToNat (((ps.drop (8 * k)).take 8).map fun p => Mem.get s.mem p.pa))

def heapPut (ps : List Spot) (k : Nat) (w : Word) : M Unit :=
  match ps[8 * k]? with
  | some p => modify (performOp (.whole 8 w.toNat) p.pa)
  | none => pure ()

/-- The words of a list written from an index on. -/
def heapPutAll (ps : List Spot) : Nat → List Word → M Unit
  | _, [] => pure ()
  | k, w :: ws => do
    heapPut ps k w
    heapPutAll ps (k + 1) ws

/-- Address of a heap: MISALIGNED unless a multiple of 8 (R248). -/
def heapAddress (a : Reg) : M Nat := do
  let va := addr (← readG a)
  if va % 8 = 0 then return va else trapN .misaligned va

/-- A heap that is there: its places, k, its header, and its n entries (R248). -/
def openHeap (a : Reg) : M (List Spot × Nat × Word × List Word) := do
  let va ← heapAddress a
  let hd ← heapPlaces va 1 .atomic
  let s ← get
  if hd.any (poisonAt s s.th) then trapN .poison va
  let h ← heapWord hd 0
  let k := wfield h 0 4
  let n := wfield h 4 4
  if k = 0 ∨ 8 < k ∨ k < n then trapN .format va
  let ps ← heapPlaces va (k + 1) .atomic
  if ps.any (poisonAt s s.th) then trapN .poison va
  let es ← (List.range n).mapM fun j => heapWord ps (j + 1)
  return (ps, k, h, es)

/-- The header with n entries; its reserved bits keep their value. -/
def heapHeader (h : Word) (n : Nat) : Word := (h &&& ~~~(0xF0#64)) ||| natWord (16 * n)

/-- HINIT, R248. -/
def execHinit (gd : Guard) (a : Reg) (k : BitVec 3) (s : State) : Out :=
  strand gd (do
    let va ← heapAddress a
    let n := k.toNat + 1
    let ps ← heapPlaces va (n + 1) .store
    heapPutAll ps 0 (natWord n :: List.replicate n 0)
    advance) s

/-- HSIFT, R248. -/
def execHsift (gd : Guard) (d a b : Reg) (s : State) : Out :=
  strand gd (do
    let (ps, k, h, es) ← openHeap a
    let e ← readG b
    let es' := if es.length < k then some (heapInsert e es)
      else match es with
        | x :: rest => if heapAbove e x then some (heapInsert e rest) else none
        | [] => none
    match es' with
    | some l =>
      heapPutAll ps 0 (heapHeader h l.length :: l)
      writeG d 1
    | none => writeG d 0
    advance) s

/-- HPOP, R248. -/
def execHpop (gd : Guard) (d a : Reg) (n : BitVec 4) (s : State) : Out :=
  strand gd (do
    let (ps, _, h, es) ← openHeap a
    match es.getLast? with
    | none => modRegs fun r => r.wp n false
    | some e =>
      heapPut ps 0 (heapHeader h (es.length - 1))
      modRegs fun r => (r.wg d e).wp n true
    advance) s

end Sys2Proof.Machine
end

