-- ==== Sys2Proof/Machine/Message.lean ====
section
/-!
DEFINITION. Messages (R205 to R215, R358, R359, R389): packets and their queues, DEPOSIT, NREAD and MRECV with the device steps
that end them; and the binding table (R216 to R218).
-/

namespace Sys2Proof.Machine

open Sys2Proof

/-! ### Receive queues and mailboxes (R206, R207, R359) -/

/-- Chunks of an address space's message pool (R207, R359). (Log entry 68: DESIGN CHOICE, unsafe.) -/
def poolChunks (s : State) (asid : BitVec 10) : Nat :=
  let n := wfield (spaceOf s asid).msgpool 0 5
  if 16 ≤ n ∧ n ≤ 30 then 2 ^ (n - 8) else 0

/-- Chunks that a queue of n words takes, some words of its first chunk popped (R207). (Log entry 68: DESIGN CHOICE, unsafe.) -/
def queueChunks (off n : Nat) : Nat := if n = 0 then 0 else (off + n + 31) / 32

/-- Chunks in use by the queues of an address space. (Log entry 68: DESIGN CHOICE, unsafe.) -/
def chunksUsed (s : State) (asid : BitVec 10) : Nat :=
  (threads s).foldl (fun k t => if t.id.asid = asid ∧ t.live then k + queueChunks t.recvOff t.recv.length else k) 0

/-- A queue has room for words (R207): a thread packet leaves the pool's reserve alone. (Log entry 69: DEDUCED, safe.) -/
def queueRoom (s : State) (t : Thread) (words : Nat) (dev : Bool) : Bool :=
  let total := poolChunks s t.id.asid
  let need := queueChunks t.recvOff (t.recv.length + words) - queueChunks t.recvOff t.recv.length
  decide (t.recv.length + words ≤ 1024) && decide (chunksUsed s t.id.asid + need ≤ if dev then total else total - total / 16)

/-- Words enter a thread's queue; a thread that waits for them goes on (R211). -/
def enterQueue (t : Thread) (ws : List Word) (s : State) : State :=
  let s := putThread s { t with recv := t.recv ++ ws }
  releaseIf (fun x => decide (x.id = t.id ∧ x.wait = .recv)) s

/-- A mailbox is bound to an address space and world (R359). -/
def mailboxBound (x : Hearth) (asid : BitVec 10) (secure : Bool) : Bool :=
  x.mboxbind.getLsbD 63 && decide (x.mboxbind.getLsbD 62 = secure) && decide (x.mboxbind.extractLsb' 32 10 = asid)

/-- A packet discarded is counted in MBOXBIND's drops (R206, R359). -/
def dropMail (h : Nat) (s : State) : State :=
  let x := hearthOf s h
  putHearth s h { x with mboxbind := x.mboxbind.extractLsb' 32 32 ++ (x.mboxbind.extractLsb' 0 32 + 1) }

/-- A mailbox packet arrives: discarded, or, with room, entered (R206, R208). None while it has to wait. -/
def deliverMail (h : Nat) (asid : BitVec 10) (secure : Bool) (ws : List Word) (s : State) : Option State :=
  let x := hearthOf s h
  if !mailboxBound x asid secure then some (dropMail h s)
  else if x.mailbox.length + ws.length ≤ 1024 then
    some (releaseIf (fun t => decide (t.wait = .mailbox h)) (putHearth s h { x with mailbox := x.mailbox ++ ws }))
  else none

/-- A thread packet arrives: discarded without a live thread or without a pool, otherwise entered once there is room (R206,
R208, R359). -/
def deliverThread (id : ThreadId) (ws : List Word) (s : State) : Option State :=
  match liveThread s id with
  | none => some s
  | some t =>
    if poolChunks s id.asid = 0 then some s
    else if queueRoom s t ws.length false then some (enterQueue t ws s) else none

/-! ### MSEND, MSENDE -/

/-- A destination word breaks its layout (R206). -/
def badDestination (w : Word) : Bool :=
  if w.getLsbD 63 then decide (wfield w 8 44 ≠ 0) || decide (191 < wfield w 0 8)
  else decide (wfield w 56 7 ≠ 0) || decide (wfield w 0 12 ≠ 0)

/-- Open packets in a hearth's buffers (R208). (Log entry 69: DEDUCED, safe.) -/
def openPackets (s : State) (h : Nat) : Nat :=
  ((threads s).filter fun t => match t.packet with
    | some p => decide (p.hearth = h)
    | none => false).length

/-- Threads in stalled-memory look again (R373): what they wait for may have come. -/
def kick (s : State) : State := mapThreads (fun t => if t.st = .stalledMemory then { t with st := .seated } else t) s

/-- The header of a thread's packet (R209). -/
def threadHeader (node : BitVec 11) (n : Nat) (ctx : BitVec 44) : Word :=
  natWord (n * 2 ^ 57 + ctx.toNat * 2 ^ 12 + node.toNat * 2)

/-- A closed packet leaves its thread (R208, R212). -/
def sendPacket (dst : Word) (ws : List Word) (s : State) : State :=
  let t := s.th
  let d : PacketDst := if dst.getLsbD 63 then .mailbox (dst.extractLsb' 52 11) (wfield dst 0 8)
    else .thread ⟨t.id.asid, dst.extractLsb' 12 44⟩
  let p : Packet := { kind := .plain, dst := d, src := t.id, srcHearth := t.hearth, secure := t.secure,
                      words := threadHeader s.node ws.length t.id.ctx :: ws }
  match computing s t with
  | some l =>
    let q : DeferredPacket := ⟨t.hearth, t.detList, t.detG1, t.detSeq, p⟩
    { modLaunch l.id (fun l => { l with mail := l.mail ++ [q] }) s with th := { t with detSeq := t.detSeq + 1 } }
  | none => { s with packets := s.packets ++ [p] }

/-- The open packet's words, after the checks of R206, R208 and R212 on the destination word. -/
def packetWords (dst : Word) (close : Bool) : M (List Word) := do
  let s ← get
  match s.th.packet with
  | some p =>
    if p.dst ≠ dst ∨ (!close ∧ 63 ≤ p.words.length) then trap .format dst
    return p.words
  | none =>
    if badDestination dst then trap .format dst
    if !dst.getLsbD 63 then forbidInPhase dst
    return []

/-- MSEND, R208: an opening word takes one of its hearth's eight buffers. -/
def execMsend (gd : Guard) (a b : Reg) (s : State) : Out :=
  strand gd (do
    let dst ← readG a
    let ws ← packetWords dst false
    let w ← readG b
    let s ← get
    match s.th.packet with
    | some p => modTh fun t => { t with packet := some { p with words := ws ++ [w] } }
    | none =>
      if 8 ≤ openPackets s s.th.hearth then stall .stalledMemory
      modTh fun t => { t with packet := some ⟨dst, [w], t.hearth, 0⟩ }
    advance) s

/-- MSENDE, R208: a release at system scope; the packet closes and is on its way. -/
def execMsende (gd : Guard) (a b : Reg) (s : State) : Out :=
  strand gd (do
    let dst ← readG a
    let ws ← packetWords dst true
    let w ← readG b
    let s ← get
    if s.th.packet.isNone ∧ 8 ≤ openPackets s s.th.hearth then stall .stalledMemory
    releaseStores
    modify (sendPacket dst (ws ++ [w]))
    modTh fun t => { t with packet := none }
    modify kick
    advance) s

/-- The first packet of its sender to its destination (R208), and, of a deterministic launch's mail, to its mailbox (R212). -/
def firstOfPair (ps : List Packet) (i : Nat) : Bool :=
  match ps[i]? with
  | none => false
  | some p => (ps.take i).all fun q => !decide (q.kind = .plain ∧ q.dst = p.dst ∧ (q.src = p.src ∨ (q.inTurn ∧ p.inTurn)))

def dropPacket (i : Nat) (s : State) : State := { s with packets := s.packets.eraseIdx i }

/-- The i-th packet on its way enters its queue if it can; a mailbox packet for another node leaves over the fabric (R206 to R208). -/
def deliverPacket (i : Nat) (s : State) : State :=
  match s.packets[i]? with
    | none => s
    | some p =>
      if p.kind ≠ .plain ∨ !firstOfPair s.packets i then s
      else match p.dst with
        | .thread id => (deliverThread id p.words s).elim s (dropPacket i)
        | .mailbox node h =>
          if node = s.node then (deliverMail h p.src.asid p.secure p.words s).elim s (dropPacket i)
          else dropPacket i s

/-- PACKET_DELIVER, R206 to R208. (Log entry 71: DEDUCED, unsafe.) -/
def execPacketDeliver (i : Nat) (s : State) : Out := .next (deliverPacket i s)

/-- The packets of deferred mail from a place in the list on, of the first n there, delivered in their order as far as there is room
(R212). -/
def deliverFrom (i : Nat) : Nat → State → State
  | 0, s => s
  | n + 1, s =>
    let s' := if (s.packets[i]?).any (·.inTurn) then deliverPacket i s else s
    deliverFrom (if s'.packets.length < s.packets.length then i else i + 1) n s'

/-- A device packet enters its handler's queue; without a live handler it is discarded. None while it waits (R358, R359). -/
def deliverDevice (id : ThreadId) (ws : List Word) (s : State) : Option State :=
  match liveThread s id with
  | none => some s
  | some t => if 0 < poolChunks s id.asid ∧ queueRoom s t ws.length true then some (enterQueue t ws s) else none

/-- TRAP_PACKET_DELIVER, R358, R359: the record shows the handler from then on. -/
def execTrapPacketDeliver (t : ThreadId) (s : State) : Out :=
  .next (match s.packets.findIdx? fun p => decide (p.kind = .trap t) with
    | none => s
    | some i =>
      match s.packets[i]? with
      | some p =>
        match p.dst with
        | .thread id =>
          match deliverDevice id p.words s with
          | none => s
          | some s' =>
            let s' := dropPacket i s'
            match findThread s' t with
            | none => s'
            | some x =>
              let w := natWord (2 ^ 63 + id.ctx.toNat * 4096 + id.asid.toNat)
              putThread s' { x with record := { x.record with handler := w } }
        | .mailbox _ _ => s
      | none => s)

/-- The miss message of an entry (R389). -/
def missPacket (s : State) (b : Nat) (m : Miss) : Packet :=
  let w := (benchOf s b).walkctx
  { kind := .miss b m.index, dst := .thread (vecThread w), src := ⟨m.asid, m.ctx⟩, srcHearth := m.hearth, secure := m.secure,
    words := [deviceHeader s.node 3 m.ctx, natWord (m.page.toNat * 4096 + m.asid.toNat),
      natWord (ofBool m.secure * 2 ^ 63 + m.priv.toNat * 2 ^ 61 + m.kinds.toNat * 2 ^ 16 + m.index * 256 + m.hearth % 256), m.cyc] }

/-- MISS_MESSAGE_SEND, R389: held while WALKCTX is not valid, or the walker's queue has no room. -/
def execMissMessageSend (bench index : Nat) (s : State) : Out :=
  .next (let b := benchOf s bench
    match b.misses.find? fun m => decide (m.index = index) && !m.sent with
    | none => s
    | some m =>
      if !b.walkctx.getLsbD 63 then s
      else match deliverDevice (vecThread b.walkctx) (missPacket s bench m).words s with
        | none => s
        | some s =>
          putBench s bench { b with
            misses := b.misses.map (fun x => if x.index = index then { x with sent := true } else x)
            missCount := if b.missCount = BitVec.allOnes 32 then b.missCount else b.missCount + 1 })

/-- An open packet has held a strand seat for FREEZEWD cycles (R210). -/
def packetOverdue (s : State) (t : Thread) : Bool :=
  match t.packet with
  | some p => decide (freezeLimit (hearthOf s t.hearth) ≤ p.seatedCycles) && t.live && decide (t.st ≠ .trapped)
  | none => false

/-- PACKET_WATCHDOG, R210. -/
def execPacketWatchdog (t : ThreadId) (s : State) : Out :=
  .next (match findThread s t with
    | some x =>
      if packetOverdue s x then
        match x.packet with
        | some p => asyncTrap .watchdog p.dst t (putThread s { x with packet := some { p with seatedCycles := 0 } })
        | none => s
      else s
    | none => s)

/-! ### DEPOSIT (R213, R214) -/

/-- DEPOSIT, R213; the value is on its way when the word completes. -/
def execDeposit (gd : Guard) (d a : Reg) (r : BitVec 5) (c : BitVec 3) (s : State) : Out :=
  strand gd (do
    let w ← readG a
    let f := addr w
    forbidInPhase (natWord f)
    if f % 4096 ≠ 0 then trap .misaligned w
    let ps ← placeOf f f 1 .store
    let s ← get
    if ps.any fun p => readOnly s s.th.id.asid p.va p.pa then trapN .ingotReadonly f
    releaseStores
    let v ← readG d
    let id : ThreadId := ⟨s.th.id.asid, natWord f |>.extractLsb' 12 44⟩
    match ps with
    | p :: _ => modify fun s => if (liveThread s id).isNone then s else
        { s with deposits := s.deposits ++ [{ src := s.th.id, pa := p.pa, node := p.node, target := id, cls := c, reg := r, value := v }] }
    | [] => pure ()
    advance) s

/-- The registers after a deposit (R213): g0 and p0 take none. (Log entry 134: DEDUCED, safe.) -/
def Regs.deposit (r : Regs) (c : BitVec 3) (n : BitVec 5) (v : Word) : Regs :=
  match c.toNat with
  | 0 => r.wg n v
  | 1 => r.wp (n.setWidth 4) (v.getLsbD 0)
  | 2 => r.wm (n.setWidth 3) v
  | _ => r

/-- No earlier deposit of its sender, or into the same register of the same thread, is on its way. -/
def firstDeposit (ds : List Deposit) (i : Nat) : Bool :=
  match ds[i]? with
  | none => false
  | some d => (ds.take i).all fun e => !decide (e.src = d.src ∨ (e.target = d.target ∧ e.cls = d.cls ∧ e.reg = d.reg))

/-- Block of a deposit's register, and the word of it (R24, R213). -/
def Deposit.slot (d : Deposit) : Nat × Nat :=
  match d.cls.toNat with
  | 0 => (0, d.reg.toNat)
  | 1 => (9, 8)
  | _ => (9, d.reg.toNat % 8)

/-- DEPOSIT_ARRIVE, R214: written into the register, and into the frame image where the block is not resident. What waits for the
deposit looks again. (Log entry 134: DEDUCED, safe.) -/
def execDepositArrive (i : Nat) (s : State) : Out :=
  .next (match s.deposits[i]? with
    | none => s
    | some d =>
      if !firstDeposit s.deposits i then s
      else
        let gone := kick { s with deposits := s.deposits.eraseIdx i }
        match liveThread gone d.target with
        | none => gone
        | some t =>
          let (b, k) := d.slot
          let t := { t with r := t.r.deposit d.cls d.reg d.value }
          let s := putThread gone t
          if hasBlock t.resident b || hasBlock t.owed b then s
          else
            let w := (blockWords t b).getD k 0
            let a := d.pa + 256 * b + 8 * k
            match d.node with
            | none => noteCheckpoint a 8 { s with mem := Mem.write s.mem a 8 w.toNat }
            | some node => sendRemote (.block t.id b) node (.store t.secure (BitVec.ofNat 52 a) (natToBytes 8 w.toNat)) (frameVa t.id + 256 * b) s)

/-! ### NREAD (R215) -/

/-- A thread whose registers NREAD may read, from a bench. -/
def nreadReady (s : State) (bench : Nat) (t : Thread) : Bool :=
  (match t.place with
    | .strand c => decide (c / 32 = bench)
    | .forge h => decide (h / 8 = bench)
    | _ => false) && decide (t.st ≠ .parked ∧ t.st ≠ .trapped ∧ t.st ≠ .ready) && t.live && !(debugOf s t).stopped

/-- Cycles an NREAD may wait, at the caller's hearth (R354). (Log entry 70: DEDUCED, safe.) -/
def nreadLimit (s : State) (q : NRead) : Nat :=
  match findThread s q.reader with
  | some t => (hearthOf s t.hearth).nreadto.toNat
  | none => 0

/-- A request as its target's hearth has it in this cycle: the first value that it finds within the limit is kept (R215). -/
def probe (s : State) (q : NRead) : NRead :=
  match liveThread s q.target, findThread s q.reader with
  | some x, some me =>
    if q.found.isNone ∧ q.reply.isNone ∧ (s.cyc - q.issued).toNat ≤ nreadLimit s q ∧ nreadReady s me.bench x then { q with found := some (x.r.rg q.reg) } else q
  | _, _ => q

/-- Every request looks at its target in this cycle. -/
def probeReads (s : State) : State := if s.nreads.isEmpty then s else { s with nreads := s.nreads.map (probe s) }

/-- NREAD, R215: the first execution sends the request, and the word takes the reply once it is there. -/
def execNread (gd : Guard) (d a : Reg) (r : BitVec 5) (n : BitVec 3) (s : State) : Out :=
  strand gd (do
    let w ← readG a
    let f := addr w
    let s ← get
    match s.nreads.find? fun q => decide (q.reader = s.th.id) with
    | some q =>
      match q.reply with
      | none => stall .stalledMemory
      | some v =>
        set ({ s with nreads := s.nreads.filter fun q => decide (q.reader ≠ s.th.id) } : State)
        match v with
        | some x => writeG d x
        | none => pure ()
        modRegs fun r => r.wp (n.setWidth 4) v.isSome
        advance
    | none =>
      if f % 4096 ≠ 0 then trapN .misaligned f
      forbidInPhase w
      let q : NRead := { reader := s.th.id, target := ⟨s.th.id.asid, (natWord f).extractLsb' 12 44⟩, reg := r, issued := s.cyc }
      set ({ s with nreads := s.nreads ++ [probe s q] } : State)
      stall .stalledMemory) s

/-- The reply reaches the caller. -/
def answerNread (t : ThreadId) (v : Option Word) (s : State) : State :=
  kick { s with nreads := s.nreads.map fun q => if q.reader = t then { q with reply := some v } else q }

/-- NREAD_REPLY, R215: the value at one cycle between arrival and reply. -/
def execNreadReply (t : ThreadId) (s : State) : Out :=
  .next (match s.nreads.find? fun q => decide (q.reader = t ∧ q.reply = none) with
    | none => s
    | some q =>
      match q.found, liveThread s q.target, findThread s t with
      | some v, some x, some me => answerNread t (some (if nreadReady s me.bench x then x.r.rg q.reg else v)) s
      | some v, _, _ => answerNread t (some v) s
      | none, _, _ => s)

/-- NREAD_TIMEOUT, R215: no cycle of the limit found the target ready. (Log entry 70: DEDUCED, safe.) -/
def execNreadTimeout (t : ThreadId) (s : State) : Out :=
  .next (match s.nreads.find? fun q => decide (q.reader = t ∧ q.reply = none) with
    | none => s
    | some q =>
      if q.found.isNone ∧ (nreadLimit s q < (s.cyc - q.issued).toNat ∨ (liveThread s q.target).isNone) then answerNread t none s else s)

/-! ### MRECV (R211) -/

/-- One word popped from the thread's queue; an emptied chunk is returned (R207). -/
def popRecv (t : Thread) : Thread :=
  let rest := t.recv.drop 1
  { t with recv := rest, recvOff := if rest.isEmpty ∨ t.recvOff + 1 = 32 then 0 else t.recvOff + 1 }

/-- MRECV, R211. (Log entries 54: DESIGN CHOICE, safe; 79: DESIGN CHOICE, safe.) -/
def execMrecv (gd : Guard) (d : Reg) (n : BitVec 3) (nb mbox : BitVec 1) (s : State) : Out :=
  strand gd (do
    let s ← get
    let t := s.th
    let h := t.hearth
    let q ← (do
      if mbox = 0 then return t.recv
      else
        match t.onHearth with
        | none => do
          let w ← drawFree
          trap .protection w
        | some h =>
          if !mailboxBound (hearthOf s h) t.id.asid t.secure then trapN .protection h
          return (hearthOf s h).mailbox)
    match q with
    | [] =>
      if nb = 1 then
        modRegs fun r => r.wp (n.setWidth 4) false
        advance
      else
        forbidInPhase 0
        park (if mbox = 0 then .recv else .mailbox h)
    | w :: rest =>
      if mbox = 0 then modTh popRecv
      else modify fun s => putHearth s h { hearthOf s h with mailbox := rest }
      writeG d w
      modRegs fun r => r.wp (n.setWidth 4) true
      advance) s

/-! ### Weight binding (R216 to R218) -/

/-- A handle (R216). -/
def handleOperand (a : Reg) : M Nat := do
  let w ← readG a
  if 255 < w.toNat then trap .format w
  return w.toNat

/-- The pages of a region translated for reading, the first that fails raising its fault (R217). -/
def requirePages (va stop : Nat) : Nat → M Unit
  | 0 => pure ()
  | n + 1 =>
    if stop ≤ va then pure ()
    else do
      let _ ← placeOf va va 1 .load
      requirePages ((va / 4096 + 1) * 4096) stop n

/-- The entry of a handle. -/
def bindingOf (s : State) (asid : BitVec 10) (h : Nat) : Binding := lookup {} (spaceOf s asid).bind h

/-- REBIND, R217. -/
def execRebind (gd : Guard) (d a b : Reg) (s : State) : Out :=
  strand gd (do
    let h ← handleOperand a
    let p := addr (← readG b)
    if p % 16 ≠ 0 then trapN .misaligned p
    let x ← loadM p 16
    let base := natWord (field x 0 64)
    let len := field x 64 64
    if 2 ^ 48 ≤ len ∨ addr base % 64 ≠ 0 ∨ len % 64 ≠ 0 ∨ 2 ^ 56 < addr base + len then trapN .format p
    forbidInPhase (natWord p)
    requirePages (addr base) (addr base + len) (len / 4096 + 2)
    releaseStores
    let asid := (← getTh).id.asid
    let gen := (bindingOf (← get) asid h).gen + 1
    modify fun s =>
      let y := spaceOf s asid
      putSpace s asid { y with bind := insert y.bind h ⟨base, len, gen⟩ }
    writeG d (gen.setWidth 64)
    advance) s

/-- Live binding blocks that hold an earlier generation of a handle (R218). -/
def earlierBlocks (s : State) (asid : BitVec 10) (h : Nat) : Nat :=
  let now := (bindingOf s asid h).gen
  (s.launches.filter fun l => decide (l.asid = asid ∧ l.state = .running) &&
    decide ((lookup {} l.binding h).gen ≠ now)).length

/-- BINDQ, R218. -/
def execBindq (gd : Guard) (d a : Reg) (sel : BitVec 8) (s : State) : Out :=
  strand gd (do
    let h ← handleOperand a
    let s ← get
    let b := bindingOf s s.th.id.asid h
    writeG d (match sel.toNat with
      | 0 => b.base
      | 1 => natWord b.length
      | 2 => b.gen.setWidth 64
      | _ => natWord (min (earlierBlocks s s.th.id.asid h) 0xFFFFFFFF))
    advance) s

end Sys2Proof.Machine
end

