-- ==== Sys2Proof/Machine/Privileged.lean ====
section
/-!
DEFINITION. Privileged state (R348 to R365): the system registers, TRET, HALTC, TRAPI and BRK; the debug modules' controls
(R413, R414), and the power cap (R450).
-/

namespace Sys2Proof.Machine

open Sys2Proof

/-! ### Which copy an access reaches (R353) -/

/-- The hearth that UNITSEL names, if it names one of the given hearths. -/
def selectedHearth (t : Thread) (ok : Nat → Bool) : Option Nat :=
  let h := wfield t.unitsel 0 8
  if t.unitsel.getLsbD 63 && decide (h < 192) && ok h then some h else none

/-- The hearth of hearth-scope registers. -/
def hearthScope (t : Thread) : Option Nat :=
  match t.place with
  | .walker b => selectedHearth t fun h => decide (h / 8 = b)
  | .steward d => selectedHearth t fun h => decide (h / 48 = d)
  | .strand c => some (c / 4)
  | .forge h => some h
  | .off => some t.hearth

/-- The bench of bench-scope registers. -/
def benchScope (t : Thread) : Option Nat :=
  match t.place with
  | .walker b => some b
  | .steward _ => (hearthScope t).map (· / 8)
  | _ => (hearthScope t).map (· / 8)

/-- The core of core-scope registers. -/
def coreScope (t : Thread) : Nat := accountCore t

/-- The die of die-scope registers. -/
def dieScope (t : Thread) : Nat :=
  match t.place with
  | .walker b => b / 6
  | .steward d => d
  | _ => t.onHearth.getD 0 / 48

/-- The unit that DBGSEL names (R413). -/
def selectedUnit (t : Thread) : Option DebugUnit :=
  let n := wfield t.dbgsel 0 10
  if t.dbgsel.getLsbD 63 then (if n < 192 then some (.sequencer n) else none)
  else if n < 768 then some (.core n) else none

def moduleOf (s : State) : DebugUnit → DebugModule
  | .core n => (coreOf s n).debug
  | .sequencer h => (hearthOf s h).debug

def putModule (u : DebugUnit) (m : DebugModule) (s : State) : State :=
  match u with
  | .core n => putCore s n { coreOf s n with debug := m }
  | .sequencer h => putHearth s h { hearthOf s h with debug := m }

/-- REFCAL's constant fields (R83). -/
def refcal : Word := 0x0000824000804000

/-! ### Levels (R354) -/

/-- Least level that reads a number: none for 0x000 to 0x0FF, UNITSEL among them (R137, R350); a number R354 does not assign needs
level 1, as SRD does (R350). (Log entry 151: DEDUCED, unsafe.) -/
def readLevel (n : Nat) : Nat :=
  if n < 0x100 then 0
  else if (0x200 ≤ n ∧ n ≤ 0x3FF) ∨ n = 0x400 ∨ (0x800 ≤ n ∧ n ≤ 0x8FF) then 2
  else 1

/-- Least level that writes a number. -/
def writeLevel (n : Nat) : Nat :=
  if (0x011 ≤ n ∧ n ≤ 0x014) ∨ n = 0x018 ∨ (0x100 ≤ n ∧ n ≤ 0x107) ∨ (0x200 ≤ n ∧ n ≤ 0x3FF) ∨ n = 0x400 ∨ n = 0x401
      ∨ (0x800 ≤ n ∧ n ≤ 0x8FF) then 2
  else 1

/-- A register that only a secure thread may write (R354). -/
def secureOnly (n : Nat) : Bool := decide (n = 0x106 ∨ n = 0x400)

/-! ### Reading -/

/-- DBGCTL (R414). -/
def DebugModule.ctl (m : DebugModule) : Word := natWord (m.reason.toNat * 16 + ofBool m.stopped * 2 + ofBool m.stop)

/-- A register of a debug module (R413). -/
def readModule (m : DebugModule) (n : Nat) : Word :=
  if n = 0x800 then m.tracectl
  else if n = 0x801 then m.ctl
  else if n = 0x802 then m.stepctx
  else if n = 0x803 then m.lost ++ m.nextRecord
  else if 0x810 ≤ n ∧ n ≤ 0x817 then m.bp.toList.getD (n - 0x810) 0
  else if n = 0x818 then m.dbgasid.setWidth 64
  else if 0x820 ≤ n ∧ n ≤ 0x823 then m.wpa.toList.getD (n - 0x820) 0
  else if 0x824 ≤ n ∧ n ≤ 0x827 then m.wpc.toList.getD (n - 0x824) 0
  else 0

/-- Handles of an address space whose length is not zero (R354). -/
def boundHandles (s : State) (asid : BitVec 10) : Nat := ((spaceOf s asid).bind.filter fun b => decide (b.2.length ≠ 0)).length

/-- A hearth's register. -/
def readHearth (x : Hearth) (n : Nat) : Word :=
  match n with
  | 0x100 => x.freezewd.setWidth 64
  | 0x101 => x.nreadto.setWidth 64
  | 0x102 => x.vlgrp.setWidth 64
  | 0x104 => x.forgespill
  | 0x105 => x.mboxbind
  | 0x106 => natWord (ofBool x.secure)
  | _ => 0

/-- A core's register; a walker or steward core has no vector queue (R353). -/
def readCore (s : State) (t : Thread) (n : Nat) : Word :=
  let c := coreOf s (coreScope t)
  match n with
  | 0x103 => if coreScope t < 768 then c.vlshare.setWidth 64 else 0
  | 0x107 => c.delaybase
  | _ => 0

/-- A bench's register (R390, R408). -/
def readBench (b : Bench) (n : Nat) : Word :=
  match n with
  | 0x200 => b.walkctx
  | 0x201 => b.splits ++ b.missCount
  | 0x202 => BitVec.ofNat 32 b.shoot.last ++ BitVec.ofNat 32 b.shoot.completed
  | 0x2F0 => natWord (b.withdrawn.toNat * 2 ^ 60 + b.lasting.toNat * 2 ^ 56 + b.rollbacks.toNat * 2 ^ 32 + b.unprot.toNat * 2 ^ 16)
  | _ => 0

/-- A die's register (R411, R412, R422). -/
def readDie (s : State) (k : Nat) (n : Nat) : Word :=
  let d := dieOf s k
  match n with
  | 0x300 => d.poisoned ++ d.transient ++ d.corrected
  | 0x301 => d.ecclog
  | 0x302 => d.poisclr
  | 0x310 => natWord (d.exhausted.toNat * 2 ^ 42 + d.highWater.toNat * 2 ^ 21 + entriesUsed s k % 2 ^ 21)
  | 0x311 => d.ckptbase
  | 0x312 => d.ckptlines.setWidth 64
  | 0x320 => d.provctl
  | 0x321 => d.provLost ++ d.provWritten
  | _ => 0

/-- PWRCAP (R450). -/
def pwrcapWord (s : State) : Word :=
  natWord (s.cap.toNat * 2 ^ 40 + s.power.toNat * 2 ^ 28 + s.temp.toNat * 2 ^ 20 + ofBool s.therm * 2 ^ 17 + ofBool s.limit * 2 ^ 16)

/-- A register of the executing thread or its address space (R354). -/
def readLow (s : State) (n : Nat) : Word :=
  let t := s.th
  let a := spaceOf s t.id.asid
  match n with
  | 0x000 => s.cyc
  | 0x001 => refcal
  | 0x002 => thrstat t
  | 0x003 => t.domset
  | 0x004 => t.id.asid.setWidth 64
  | 0x005 => natWord (ofBool t.secure)
  | 0x006 => t.record.head
  | 0x007 => t.record.pc
  | 0x008 => t.record.value
  | 0x009 => natWord (ofBool s.tlock)
  | 0x010 => a.trapvec.get 0
  | 0x011 => a.trapvec.get 1
  | 0x012 => a.trapvec.get 2
  | 0x013 => a.shpool
  | 0x014 => a.msgpool
  | 0x015 => a.rngkey
  | 0x016 => a.exptbl
  | 0x017 => natWord (boundHandles s t.id.asid)
  | 0x018 => t.unitsel
  | _ => 0

/-- The value of a system register as the current thread reads it (R353, R354). -/
def readReg (s : State) (n : Nat) : Word :=
  let t := s.th
  if n < 0x100 then readLow s n
  else if n = 0x103 ∨ n = 0x107 then readCore s t n
  else if n < 0x200 then (hearthScope t).elim 0 fun h => readHearth (hearthOf s h) n
  else if n < 0x300 then (benchScope t).elim 0 fun b => readBench (benchOf s b) n
  else if n < 0x400 then readDie s (dieScope t) n
  else if n = 0x400 then s.regiontbl
  else if n = 0x401 then pwrcapWord s
  else if 0x800 ≤ n ∧ n ≤ 0x8FE then (selectedUnit t).elim 0 fun u => readModule (moduleOf s u) n
  else if n = 0x8FF then t.dbgsel
  else 0

/-- Errors that a die has corrected since its count was last read or written: how many is open (R401).
(Log entry 156: DESIGN CHOICE, safe.) -/
def countCorrected (s : State) : State :=
  let d := dieOf s (dieScope s.th)
  let n := d.corrected.toNat + (Config.freeValue s.freeCount).toNat % 2 ^ 24
  putDie { s with freeCount := s.freeCount + 1 } (dieScope s.th) { d with corrected := BitVec.ofNat 24 (min n 0xFFFFFF) }

/-- SRD, R362; ECCCNT (0x300) counts what has been corrected meanwhile. -/
def execSrd (gd : Guard) (d : Reg) (m : BitVec 12) (s : State) : Out :=
  strand gd (do
    if (← getTh).priv.toNat < readLevel m.toNat then trapN .privilege m.toNat
    if m = 0x300 then modify countCorrected
    writeG d (readReg (← get) m.toNat)
    advance) s

/-! ### Writing -/

/-- The bits of a mask from a value. -/
def masked (mask v : Nat) : Word := natWord (v &&& mask)

/-- Bits of a word, as a number. -/
def bits (lo len : Nat) : Nat := (2 ^ len - 1) * 2 ^ lo

/-- THRSTAT written by the current thread (R349, R355). -/
def writeThrstat (v : Word) (s : State) : State :=
  let t := s.th
  let p := v.extractLsb' 40 2
  { s with th := { t with
      priv := if t.priv.toNat = 2 ∧ p ≠ 3 then p else t.priv
      r := { t.r with ftz := v.getLsbD 11, rnd := v.extractLsb' 8 3, flags := t.r.flags &&& ~~~(v.extractLsb' 0 6) } } }

/-- TRAPVEC written by the current thread (R356). -/
def writeTrapvec (c : Nat) (v : Word) (s : State) : State :=
  let t := s.th
  let a := spaceOf s t.id.asid
  let w := masked (2 ^ 63 + 2 ^ 62 + bits 12 44 + bits 0 10) v.toNat
  let w := if t.secure then w else w &&& ~~~(1#64 <<< 62)
  let w := if t.priv.toNat = 1 then (w &&& ~~~(0x3FF#64)) ||| t.id.asid.setWidth 64 else w
  putSpace s t.id.asid { a with trapvec := a.trapvec.setIfInBounds c w }

/-- VLGRP written: ignored unless two to six groups stay reserved; in effect from the next grant of the seat (R377). -/
def writeVlgrp (h : Nat) (v : Word) (s : State) : State :=
  let n := ((List.range 8).filter fun k => v.getLsbD k).length
  if 2 ≤ n ∧ n ≤ 6 then putHearth s h { hearthOf s h with vlgrp := v.extractLsb' 0 8 } else s

/-- MBOXBIND written: the drop count becomes 0 (R359). -/
def writeMboxbind (h : Nat) (v : Word) (s : State) : State :=
  putHearth s h { hearthOf s h with mboxbind := masked (2 ^ 63 + 2 ^ 62 + bits 32 10) v.toNat }

/-- HWORLD written: ignored while the hearth is not quiesced (R354). -/
def writeHworld (h : Nat) (v : Word) (s : State) : State :=
  let x := hearthOf s h
  if x.quiesced then putHearth s h { x with secure := v.getLsbD 0 } else s

/-- A hearth's register written. -/
def writeHearth (h n : Nat) (v : Word) (s : State) : State :=
  let x := hearthOf s h
  match n with
  | 0x100 => putHearth s h { x with freezewd := v.extractLsb' 0 32 }
  | 0x101 => putHearth s h { x with nreadto := v.extractLsb' 0 16 }
  | 0x102 => writeVlgrp h v s
  | 0x104 => putHearth s h { x with forgespill := masked (bits 60 4 + bits 20 32) v.toNat }
  | 0x105 => writeMboxbind h v s
  | 0x106 => writeHworld h v s
  | _ => s

/-- A core's register written. -/
def writeCore (n : Nat) (v : Word) (s : State) : State :=
  let c := coreScope s.th
  let x := coreOf s c
  match n with
  | 0x103 => if c < 768 then putCore s c { x with vlshare := v.extractLsb' 0 16 } else s
  | 0x107 => putCore s c { x with delaybase := masked (2 ^ 63 + bits 10 42) v.toNat }
  | _ => s

/-- A bench's register written (R390, R408). -/
def writeBench (k n : Nat) (v : Word) (s : State) : State :=
  let b := benchOf s k
  match n with
  | 0x200 => putBench s k { b with walkctx := masked (2 ^ 63 + bits 12 44 + bits 0 10) v.toNat }
  | 0x201 => putBench s k { b with splits := v.extractLsb' 32 32, missCount := v.extractLsb' 0 32 }
  | 0x2F0 =>
    let w := v.extractLsb' 60 4
    -- Clageong logs each pair that the steward withdraws (R449)
    let pairs := ((List.range 4).filter fun j => w.getLsbD j && !b.withdrawn.getLsbD j).map (4 * k + ·)
    let s := { s with boot := { s.boot with withdrawn := s.boot.withdrawn ++ pairs.filter fun p => !s.boot.withdrawn.contains p } }
    putBench s k { b with withdrawn := w, lasting := b.lasting &&& ~~~(v.extractLsb' 56 4),
                          rollbacks := v.extractLsb' 32 16, unprot := v.extractLsb' 16 16 }
  | _ => s

/-- A line's poison cleared, its bytes zero (R403). (Log entry 48: DEDUCED, unsafe.) -/
def clearPoison (line : Nat) (s : State) : State :=
  if s.poison.contains line || paExists (128 * line) then
    noteCheckpoint (128 * line) 128 { s with poison := s.poison.filter fun l => decide (l ≠ line), mem := clearRange (128 * line) 128 s.mem }
  else s

/-- POISCLR written (R403, R412). -/
def writePoisclr (k : Nat) (v : Word) (s : State) : State :=
  let w := masked (bits 7 45) v.toNat
  clearPoison (w.toNat / 128) (putDie s k { dieOf s k with poisclr := w })

/-- A die's register written (R411, R412, R422). -/
def writeDie (k n : Nat) (v : Word) (s : State) : State :=
  let d := dieOf s k
  match n with
  | 0x300 => putDie s k { d with poisoned := v.extractLsb' 48 16, transient := v.extractLsb' 24 24, corrected := v.extractLsb' 0 24 }
  | 0x301 => putDie s k { d with ecclog := if v.getLsbD 63 then d.ecclog &&& ~~~(1#64 <<< 63) else d.ecclog }
  | 0x302 => writePoisclr k v s
  | 0x311 => putDie s k { d with ckptbase := masked (bits 20 32) v.toNat }
  | 0x312 => putDie s k { d with ckptlines := v.extractLsb' 0 16 }
  | 0x320 => putDie s k { d with provctl := masked (2 ^ 63 + bits 12 40 + bits 0 5) v.toNat }
  | _ => s

/-! ### Debug control (R410, R414) -/

/-- A lock-step launch holds a hearth's pair (R404). -/
def inLockstep (s : State) (h : Nat) : Bool :=
  s.launches.any fun l => decide (l.state = .running) && decide (l.field 2 39 1 = 1) &&
    l.positions.any fun p => decide (p.hearth / 2 = h / 2)

/-- The same unit of a lock-step pair's other hearth. -/
def partnerUnit (s : State) : DebugUnit → Option DebugUnit
  | .core n => if inLockstep s (n / 4) then some (.core ((n / 4 ^^^ 1) * 4 + n % 4)) else none
  | .sequencer h => if inLockstep s h then some (.sequencer (h ^^^ 1)) else none

/-- A unit stops at its boundary, and its lock-step partner with it (R410, R414). -/
def stopUnit (u : DebugUnit) (reason : BitVec 4) (s : State) : State :=
  let m := moduleOf s u
  let s := if m.stopped then putModule u { m with stop := true } s
    else putModule u { m with stop := true, stopped := true, reason := reason } s
  match partnerUnit s u with
  | none => s
  | some v =>
    let m := moduleOf s v
    if m.stopped then s else putModule v { m with stop := true, stopped := true, reason := 4 } s

/-- A stopped unit runs again. -/
def runUnit (u : DebugUnit) (s : State) : State :=
  let go (u : DebugUnit) (s : State) : State := putModule u { moduleOf s u with stop := false, stopped := false, reason := 0 } s
  let s := go u s
  match partnerUnit s u with
  | none => s
  | some v => go v s

/-- A register of a debug module written (R413 to R419). -/
def writeModule (u : DebugUnit) (n : Nat) (v : Word) (s : State) : State :=
  let m := moduleOf s u
  if n = 0x800 then putModule u { m with tracectl := masked (bits 54 10 + bits 12 40 + bits 0 5) v.toNat } s
  else if n = 0x801 then (if v.getLsbD 0 then stopUnit u 1 s else runUnit u s)
  else if n = 0x802 then putModule u { m with stepctx := masked (2 ^ 63 + bits 12 44 + bits 0 10) v.toNat } s
  else if n = 0x803 then putModule u { m with lost := v.extractLsb' 32 32, nextRecord := v.extractLsb' 0 32 } s
  else if 0x810 ≤ n ∧ n ≤ 0x817 then
    putModule u { m with bp := m.bp.setIfInBounds (n - 0x810) (masked (bits 61 3 + bits 2 54) v.toNat) } s
  else if n = 0x818 then putModule u { m with dbgasid := v.extractLsb' 0 10 } s
  else if 0x820 ≤ n ∧ n ≤ 0x823 then putModule u { m with wpa := m.wpa.setIfInBounds (n - 0x820) (masked (bits 0 56) v.toNat) } s
  else if 0x824 ≤ n ∧ n ≤ 0x827 then
    putModule u { m with wpc := m.wpc.setIfInBounds (n - 0x824) (masked (bits 59 5 + bits 0 6) v.toNat) } s
  else s

/-- A register of the executing thread or its address space written. -/
def writeLow (n : Nat) (v : Word) (s : State) : State :=
  let id := s.th.id.asid
  let a := spaceOf s id
  match n with
  | 0x002 => writeThrstat v s
  | 0x010 => writeTrapvec 0 v s
  | 0x011 => writeTrapvec 1 v s
  | 0x012 => writeTrapvec 2 v s
  | 0x013 => putSpace s id { a with shpool := masked (bits 16 36 + bits 0 6) v.toNat }
  | 0x014 => putSpace s id { a with msgpool := masked (bits 16 40 + bits 0 5) v.toNat }
  | 0x015 => putSpace s id { a with rngkey := v }
  | 0x016 => putSpace s id { a with exptbl := masked (bits 0 56) v.toNat }
  | 0x018 => { s with th := { s.th with unitsel := masked (2 ^ 63 + bits 0 8) v.toNat } }
  | _ => s

/-- A new power cap is requested (R450). -/
def writePwrcap (v : Word) (s : State) : State := { s with cap := v.extractLsb' 40 12, capAt := s.cyc }

/-- A system register written by the current thread, field by field; a number that is not assigned and a field that cannot be
written ignore it (R4, R353, R354). (Log entry 75: DESIGN CHOICE, safe.) -/
def writeReg (n : Nat) (v : Word) (s : State) : State :=
  let t := s.th
  if n < 0x100 then writeLow n v s
  else if n = 0x103 ∨ n = 0x107 then writeCore n v s
  else if n < 0x200 then (hearthScope t).elim s fun h => writeHearth h n v s
  else if n < 0x300 then (benchScope t).elim s fun b => writeBench b n v s
  else if n < 0x400 then writeDie (dieScope t) n v s
  else if n = 0x400 then { s with regiontbl := masked (2 ^ 63 + bits 12 40 + bits 0 8) v.toNat }
  else if n = 0x401 then writePwrcap v s
  else if 0x800 ≤ n ∧ n ≤ 0x8FE then (selectedUnit t).elim s fun u => writeModule u n v s
  else if n = 0x8FF then { s with th := { t with dbgsel := masked (2 ^ 63 + bits 0 10) v.toNat } }
  else s

/-- What forbids the current thread a write (R350, R351, R362). -/
def writeFault (s : State) (n : Nat) : Option Cause :=
  if s.th.priv.toNat < writeLevel n then some .privilege
  else if secureOnly n && !s.th.secure then some .world else none

/-- A write by the current thread, or the fault that it raises with the register's number. -/
def writeChecked (n : Nat) (v : Word) : M Unit := do
  match writeFault (← get) n with
  | some c => trapN c n
  | none => modify (writeReg n v)

/-- SWR, R362. (Log entry 75: DESIGN CHOICE, safe.) -/
def execSwr (gd : Guard) (d : Reg) (m : BitVec 12) (s : State) : Out :=
  strand gd (do
    writeChecked m.toNat (← readG d)
    advance) s

/-! ### Register writes with rules of their own -/

/-- TRAPVEC, R356: the current thread's write of the vector of a class; class 3 does not exist.
(Log entry 75: DESIGN CHOICE, safe.) -/
def execTrapvec (cls : BitVec 2) (val : Word) (s : State) : Out :=
  if cls = 3 then .next s else outcome (writeChecked (0x010 + cls.toNat) val) s

/-- THRSTAT, R355: the current thread's write of its status. (Log entry 75: DESIGN CHOICE, safe.) -/
def execThrstat (val : Word) (s : State) : Out := outcome (writeChecked 0x002 val) s

/-- A write of a hearth's register by the current thread, whatever scope it stands in. -/
def hearthWrite (n h : Nat) (w : Nat → Word → State → State) (v : Word) (s : State) : Out :=
  outcome (do
    match writeFault (← get) n with
    | some c => trapN c n
    | none => if h < 192 then modify (w h v)) s

/-- MBOXBIND, R359. (Log entry 75: DESIGN CHOICE, safe.) -/
def execMboxbind (hearth : Nat) (val : Word) (s : State) : Out := hearthWrite 0x105 hearth writeMboxbind val s

/-- HWORLD, R354. (Log entry 75: DESIGN CHOICE, safe.) -/
def execHworld (hearth : Nat) (val : Word) (s : State) : Out := hearthWrite 0x106 hearth writeHworld val s

/-- VLGRP, R377. (Log entry 75: DESIGN CHOICE, safe.) -/
def execVlgrp (hearth : Nat) (val : Word) (s : State) : Out := hearthWrite 0x102 hearth writeVlgrp val s

/-- POISCLR, R403: the current thread's write of the register of a die. (Log entry 75: DESIGN CHOICE, safe.) -/
def execPoisclr (die : Nat) (val : Word) (s : State) : Out :=
  outcome (do
    match writeFault (← get) 0x302 with
    | some c => trapN c 0x302
    | none => if die < 4 then modify (writePoisclr die val)) s

/-- PWRCAP, R450: the current thread's write of the cap. -/
def execPwrcap (val : Word) (s : State) : Out := outcome (writeChecked 0x401 val) s

/-- DBGCTL_STOP, R414. -/
def execDbgctlStop (u : DebugUnit) (s : State) : Out := .next (stopUnit u 1 s)

/-- DBGCTL_RUN, R414. -/
def execDbgctlRun (u : DebugUnit) (s : State) : Out := .next (runUnit u s)

/-! ### TRET (R360, R363) -/

/-- A thread's name in a register, without the bits that must be zero (R363, R396). -/
def nameOf (w : Word) : ThreadId := ⟨w.extractLsb' 0 10, w.extractLsb' 12 44⟩

def badName (w : Word) : Bool := decide (wfield w 56 8 ≠ 0) || decide (wfield w 10 2 ≠ 0)

/-- The thread that TRET names, after its checks. -/
def tretTarget (d : Reg) (skip : Bool) : M Thread := do
  let n ← readG d
  let s ← get
  if badName n then trap .format n
  if s.th.priv = 1 ∧ n.extractLsb' 0 10 ≠ s.th.id.asid then trap .privilege n
  match liveThread s (nameOf n) with
  | none => trap .format n
  | some t =>
    if t.secure && !s.th.secure then trap .world n
    if t.st ≠ .trapped then trap .format n
    if skip ∧ (t.forge ∨ t.r.frame.n ≠ 0) then trap .format n
    return t

/-- TRET needs level 1 (R350). -/
def requireLevel (n : Nat) (i : Instr) : M Unit := do
  if (← getTh).priv.toNat < n then trap .privilege (wordValue i)

def clearFlags (c : BitVec 1) (t : Thread) : Thread := if c = 1 then { t with r := { t.r with flags := 0 } } else t

/-- The breakpoint or watchpoint that a trap came from, which the thread then passes once (R415, R416). -/
def passes (t : Thread) : BitVec 12 :=
  if wfield t.record.head 0 8 ≠ Cause.breakpoint.code then 0
  else if t.record.value.getLsbD 63 then 1#12 <<< (8 + wfield t.record.value 56 2)
  else if t.record.value.getLsbD 62 then 1#12 <<< wfield t.record.value 56 3
  else 0

/-- A thread leaves the trapped state: it is ready, or in the forge queue, and its replay queue is issued again (R101, R363). -/
def resumeTrapped (t : Thread) (s : State) : State :=
  asThread t.id reissueQueue (resumeThread t s)

/-- A thread that goes on at the word it trapped at. (Log entry 43: DEDUCED, safe.) -/
def Thread.passing (t : Thread) : Thread := { t with passBreak := t.passBreak ||| passes t }

/-- TRET, action 0, R363. -/
def execTretResume (gd : Guard) (d : Reg) (c : BitVec 1) (s : State) : Out :=
  strand gd (do
    requireLevel 1 (.tretResume gd d c)
    let t ← tretTarget d false
    releaseStores
    modify (resumeTrapped (clearFlags c t).passing)
    advance) s

/-- The word after the record's (R364), and no shaped operation left to continue (R238). A word that completed while the thread was
trapped is past already (R197), and a wait that the word was in is over. -/
def skipWord (t : Thread) : Thread :=
  { t with r := if t.r.pc = t.record.pc then endTest 4 (codeAdd t.record.pc 4) t.r else t.r,
           resume := 0, wait := .none, waited := false, passBreak := 0 }

/-- What completed collectives left for a thread is not taken. -/
def dropResults (id : ThreadId) (s : State) : State :=
  { s with domains := s.domains.map fun d => { d with results := d.results.filter fun x => decide (x.1 ≠ id) } }

/-- TRET, action 1, R363. -/
def execTretSkip (gd : Guard) (d : Reg) (c : BitVec 1) (s : State) : Out :=
  strand gd (do
    requireLevel 1 (.tretSkip gd d c)
    let t ← tretTarget d true
    releaseStores
    modify fun s => resumeTrapped (skipWord (clearFlags c t)) (dropResults t.id s)
    advance) s

/-- The end of a killed thread, as EXIT's from step 2 on (R180, R360, R363): once its engine operations and jobs are complete, its
levels are rejected, its exit value and dirty blocks written, and it is done. (Log entry 86: DEDUCED, safe.) -/
def killedEnd (v : Word) : M Unit := do
  let t ← getTh
  if !(t.enginesIdle && t.jobsDone) then stall .parked
  releaseStores
  modify (dropThreadLevels t.id 7)
  writeExit v
  modTh fun t => { t with st := .done, dirty := t.dirty ||| 0x8600 }
  writeBack (List.range 16)
  modify (endThread t.id v)

/-- A killed thread ends, or goes on waiting; a frame page that does not serve traps it again (R22, R363). -/
def finishKill (id : ThreadId) (s : State) : State :=
  match liveThread s id with
  | none => s
  | some t =>
    match t.killed, t.st with
    | some v, .parked =>
      match asThreadResult id (killedEnd v) s with
      | (.ok _, s) => kick s
      | (.error (.trap c x), s) => asThread id (modify (takeTrap c x)) s
      | (_, s) => asThread id (modTh fun t => { t with st := .parked }) s
    | _, _ => s

/-- Every killed thread that can end does. (Log entry 86: DEDUCED, safe.) -/
def finishKills (s : State) : State :=
  ((threads s).filter (·.killed.isSome)).foldl (fun s t => finishKill t.id s) s

/-- TRET, action 2, R360, R363: the thread waits for its end, its packet unsent and its replay queue discarded; a thread that was
killed before keeps its exit value. (Log entry 86: DEDUCED, safe.) -/
def killThread (t : Thread) (s : State) : State :=
  let v : Word := (1#64 <<< 63) ||| (t.record.head &&& 0xFF)
  finishKill t.id (putThread s { t with st := .parked, wait := .engines, killed := some (t.killed.getD v), packet := none, queue := [],
                                        asyncTrap := none, redirect := none })

/-- TRET, action 2, R363. -/
def execTretKill (gd : Guard) (d : Reg) (c : BitVec 1) (s : State) : Out :=
  strand gd (do
    requireLevel 1 (.tretKill gd d c)
    let t ← tretTarget d false
    releaseStores
    modify (killThread (clearFlags c t))
    advance) s

/-! ### TRAPI, BRK (R364) -/

/-- The current thread traps at a given pc, with an aux value. -/
def trapAt {α : Type} (c : Cause) (v pc : Word) (aux : Nat) : M α := do
  modify fun s => trapThread c v pc aux s.th s
  stop

/-- TRAPI, R364: the word completes before it traps. -/
def execTrapi (gd : Guard) (a : Reg) (x : BitVec 8) (s : State) : Out :=
  strand gd (do
    let v ← readG a
    advance
    trapAt .trapi v (← getRegs).pc x.toNat) s

/-- BRK, R364. -/
def execBrk (gd : Guard) (x : BitVec 8) (s : State) : Out :=
  strand gd (do trapAt .breakpoint 0 (← getRegs).pc x.toNat) s

/-! ### HALTC (R365) -/

/-- A thread holds a seat of a hearth. -/
def Thread.seatedOn (t : Thread) (h : Nat) : Bool :=
  t.live && match t.place with
  | .strand c => decide (c / 4 = h)
  | .forge k => decide (k = h)
  | _ => false

/-- No thread is seated on a hearth, and its forge seat is free. -/
def drained (s : State) (h : Nat) : Bool := (threads s).all (fun t => !t.seatedOn h) && (hearthOf s h).seat.isNone

/-- Those who wait for hearths to empty go on. -/
def releaseHalts (s : State) : State :=
  releaseIf (fun t => match t.wait with
    | .halted h => drained s h
    | _ => false) s

def haltcOperand (d : Reg) : M Nat := do
  let w ← readG d
  if 191 < w.toNat then trap .format w
  return w.toNat

/-- HALTC quiesce, R365. -/
def execHaltcQuiesce (gd : Guard) (d : Reg) (s : State) : Out :=
  strand gd (do
    requireLevel 2 (.haltcQuiesce gd d)
    let h ← haltcOperand d
    let s ← get
    let x := hearthOf s h
    if x.quiesced then advance
    else
      set (putHearth s h { x with quiesced := true })
      if drained s h then advance else park (.halted h)) s

/-- HALTC release, R365. -/
def execHaltcRelease (gd : Guard) (d : Reg) (s : State) : Out :=
  strand gd (do
    requireLevel 2 (.haltcRelease gd d)
    let h ← haltcOperand d
    modify fun s => putHearth s h { hearthOf s h with quiesced := false }
    advance) s

/-! ### Power (R19, R450, R451) -/

/-- The cap as it binds, once it has taken effect (R450). -/
def clampCap (c : BitVec 12) : BitVec 12 := if c.toNat < 1600 then 1600 else if 2400 < c.toNat then 2400 else c

/-- POWER_CAP_TAKES_EFFECT, R450. -/
def execPowerCapTakesEffect (s : State) : Out := .next { s with capNow := clampCap s.cap }

/-- A new cap takes effect 2^16 cycles after its write at the latest (R450). -/
def settleCap (s : State) : State :=
  if s.capNow ≠ clampCap s.cap ∧ 65536 ≤ (s.cyc - s.capAt).toNat then { s with capNow := clampCap s.cap } else s

/-- The budget in force, in watts (R450, R451). (Log entry 154: DESIGN CHOICE, safe.) -/
def budget (s : State) : Nat := if s.therm then min 1600 s.capNow.toNat else s.capNow.toNat

/-- POWER_BUDGET_BINDS, R19: the sensor reads a power, and the limit bit follows when the manager starts or stops; it starts at a
reading that the budget does not allow to rise further. (Log entry 154: DESIGN CHOICE, safe.) -/
def execPowerBudgetBinds (power : BitVec 12) (binds : Bool) (s : State) : Out :=
  .next { s with power := power, limit := binds && (s.limit || decide (budget s ≤ power.toNat)) }

/-- THERMAL_LIMIT_ENTER, R451: the hottest sensor reads at least 105 °C. -/
def execThermalLimitEnter (temp : BitVec 8) (s : State) : Out :=
  .next (if 105 ≤ temp.toNat then { s with temp := temp, therm := true } else { s with temp := temp })

/-- THERMAL_LIMIT_EXIT, R451: the hottest sensor reads below 100 °C. -/
def execThermalLimitExit (temp : BitVec 8) (s : State) : Out :=
  .next (if temp.toNat < 100 then { s with temp := temp, therm := false } else { s with temp := temp })

end Sys2Proof.Machine
end

