-- ==== Sys2Proof/Machine/Walker.lean ====
section
/-!
DEFINITION. What firmware does to translation, and how parked accesses restart (R383 to R400): TLBW, TLBINV, TLBQ, CTXEVICT and
CTXFILL, the miss table, shootdowns, and the transfers of register blocks (R22, R27, R28).
-/

namespace Sys2Proof.Machine

open Sys2Proof

/-! ### Waiters (R398, R400) -/

def modHearth (h : Nat) (f : Hearth → Hearth) (s : State) : State := putHearth s h (f (hearthOf s h))

/-- A stream register changed in place. -/
def modStream (h q : Nat) (f : Stream → Stream) (s : State) : State :=
  modHearth h (fun x => { x with forge := { x.forge with
    streams := x.forge.streams.setIfInBounds q ((x.forge.streams.toList.getD q none).map f) } }) s

/-- An engine operation changed in place. -/
def modOp (t : ThreadId) (e n : Nat) (f : EngineOp → EngineOp) (s : State) : State :=
  { s with ops := s.ops.map fun o => if o.t = t ∧ o.e = e ∧ o.n = n then f o else o }

/-- A place in a hearth's forge queue is free: threads of forge mode that wait for it take it, others execute their FORGE again (R380). -/
def placeFreed (h : Nat) (s : State) : State :=
  let s := (threads s).foldl (fun s t => if t.st = .parked ∧ t.wait = .forgeQueue h ∧ t.forge then joinForge t s else s) s
  releaseIf (fun y => decide (y.wait = .forgeQueue h) && !y.forge) s

/-- A thread gives up its place in its hearth's forge queue. (Log entries 39: DEDUCED, safe; 76: DEDUCED, safe.) -/
def quitForgeQueue (t : ThreadId) (h : Nat) (s : State) : State :=
  placeFreed h (modHearth h (fun x => { x with forgeQueue := x.forgeQueue.filter fun k => decide (k ≠ t) }) s)

/-- The trap of a register block that cannot be fetched or written back (R22, R397). A thread that the forge seat is to be
granted to leaves the queue for it: it executes its FORGE again, or joins the queue again, when it resumes. A block that is not
there and that the thread no longer waits for concerns it no more: an earlier block of the same fetch has trapped. A trapped thread
goes without: its record is written when the block is resident next.
(Log entries 39: DEDUCED, safe; 74: DEDUCED, safe; 76: DEDUCED, safe.) -/
def blockFault (c : Cause) (t : ThreadId) (b : Nat) (s : State) : State :=
  let v := natWord (t.ctx.toNat * 4096 + 256 * b)
  match findThread s t with
  | none => s
  | some x =>
    if !hasBlock x.wanted b ∧ !hasBlock x.resident b then s
    else if x.st = .trapped then putThread s { x with wanted := clearBlock x.wanted b }
    else if x.st = .parked ∧ x.wait = .forgeSeat ∧ hasBlock x.wanted b then
      asThread t (modify (takeTrap c v)) (quitForgeQueue t x.hearth (putThread s { x with wanted := 0, wait := .none }))
    else asyncTrap c v t (putThread s { x with wanted := 0 })

/-- The write-back of a block has failed: it stays, and its owner traps at its next boundary if it is ready or seated (R397).
(Log entry 74: DEDUCED, safe.) -/
def writebackFail (x : Thread) (b : Nat) (s : State) : State :=
  let x := { x with stuckBlock := some b }
  match x.st with
  | .parked => putThread s x
  | .trapped => putThread s x
  | .running => putThread s { x with asyncTrap := some (.pageContext, natWord (x.id.ctx.toNat * 4096 + 256 * b)) }
  | _ => blockFault .pageContext x.id b (putThread s x)

/-- A thread in a collective for which an ACCEPT's lines are translated (R111). -/
def Thread.collects (t : Thread) : Bool :=
  decide (t.st = .parked) && match t.wait with
    | .collective _ => true
    | _ => false

/-- A waiter of a failed entry raises the cause with its own address (R392, R400): the word, the bundle or the collective that waits
meets it when it looks again, a read stream in the unit, a write stream when it stores the unit. -/
def failWaiter (c : Cause) (p : Parked) (s : State) : State :=
  match p.who with
  | .access t =>
    match findThread s t with
    | some x =>
      if x.st = .stalledMemory then putThread s { x with st := .seated, failed := some (p.va / 4096, c) }
      else if x.st = .frozen ∨ x.collects then putThread s { x with failed := some (p.va / 4096, c) }
      else s
    | none => s
  | .queued t =>
    match (findThread s t).bind fun x => x.queue.find? fun q => (pagesOf q.va q.op.size).contains (p.va / 4096) with
    | some q => asyncTrap c (natWord q.va) t s
    | none => s
  | .block t b =>
    match findThread s t with
    | some x => if hasBlock x.resident b ∧ !hasBlock x.wanted b then writebackFail x b s else blockFault .pageContext t b s
    | none => s
  | .pipeline h =>
    match (hearthOf s h).seat.bind (findThread s) with
    | some x => putThread s { x with failed := some (p.va / 4096, c) }
    | none => s
  | .stream h q => modStream h q (fun x =>
      if x.kind = 1 then { x with failed := some (p.va / 4096, c) }
      else { x with position := x.position + 1, units := x.units ++ [.faulty c p.va], piece := 0, got := [] }) s
  | .operation t e n => modOp t e n (fun o => { o with failed := some (c, p.va) }) s

/-- Threads that may go on look again: the stalled ones, and the replay queues of a bench's threads. -/
def restart (bench : Nat) (s : State) : State :=
  kick ((threads s).foldl (fun s t => if t.live ∧ t.st ≠ .trapped ∧ t.asyncTrap = none ∧ t.bench = bench ∧ !t.queue.isEmpty then asThread t.id reissueQueue s else s) s)

/-! ### TLBW (R392) -/

/-- A bench that a form may name (R391). -/
def benchAllowed (t : Thread) (b : Nat) : Bool :=
  decide (b < 24) && match t.place with
  | .steward d => decide (b / 6 = d)
  | _ => decide (b = t.bench)

/-- A page of this package's physical memory that R383 allows. -/
def pageFits (code pa : Nat) : Bool :=
  let n := 2 ^ pageBits code
  decide (pa + n ≤ hbmBytes) ||
  (match ingotDie pa, ingotDie (pa + n - 1) with
    | some a, some b => decide (a = b ∧ code ≠ 0)
    | _, _ => false) ||
  (match localHearth pa, localHearth (pa + n - 1) with
    | some a, some b => decide (a = b)
    | _, _ => false)

/-- An entry that TLBW refuses (R392); a page of kind 1 lies in memory of the same layout (R383). -/
def badEntry (e : TlbEntry) : Bool :=
  !e.valid || decide (e.sizeCode = 7) || decide (wfield e.w1 0 12 ≠ 0) || (!e.remote && decide (e.node ≠ 0))
    || decide (e.va % e.bytes ≠ 0) || decide (e.pa % e.bytes ≠ 0) || !pageFits e.sizeCode e.pa

/-- The entry with the world that REGIONTBL gives its page (R352, R392). -/
def worldEntry (s : State) (e : TlbEntry) : TlbEntry :=
  let w := e.w0 &&& ~~~(1#64 <<< 10)
  { e with w0 := if !e.remote && touchesSecure s e.pa e.bytes then w ||| (1#64 <<< 10) else w }

/-- An entry matches an invalidation (R393). -/
def Shootdown.matchesEntry (d : Shootdown) (e : TlbEntry) : Bool :=
  let pages := wfield d.word 0 44
  let stop := if pages = 0 then 2 ^ 56 else d.base + 4096 * pages
  d.word.getLsbD (56 + e.sizeCode) && (d.word.getLsbD 63 || (!e.isGlobal && decide (e.asid = d.word.extractLsb' 44 10)))
    && decide (e.va < stop ∧ d.base < e.va + e.bytes)

/-- A miss entry whose key a TLB entry covers. -/
def TlbEntry.coversMiss (e : TlbEntry) (m : Miss) : Bool := e.hits m.asid (m.page.toNat * 4096)

/-- An entry put into a bench TLB of 4,096 (R392). -/
def installEntry (e : TlbEntry) (l : List TlbEntry) : List TlbEntry :=
  (e :: l.filter fun x => !decide (x.asid = e.asid ∧ x.isGlobal = e.isGlobal ∧ x.sizeCode = e.sizeCode ∧ x.va = e.va)).take 4096

/-- The entry installed, and the misses that it covers answered; or the misses sent again, under an invalidation (R392). -/
def installTlb (bench : Nat) (e : TlbEntry) (s : State) : State :=
  let b := benchOf s bench
  if s.shootdowns.any (fun d => d.benches.contains bench && d.matchesEntry e) then
    putBench s bench { b with misses := b.misses.map fun m => if e.coversMiss m then { m with sent := false } else m }
  else
    restart bench (putBench s bench { b with tlb := installEntry e b.tlb, misses := b.misses.filter fun m => !e.coversMiss m })

/-- A miss entry failed (R392); what waits for an entry to become free looks again (R388). -/
def failMiss (bench index : Nat) (c : Cause) (s : State) : State :=
  let b := benchOf s bench
  match b.misses.find? fun m => decide (m.index = index) with
  | none => s
  | some m =>
    let s := putBench s bench { b with misses := b.misses.filter fun x => decide (x.index ≠ index) }
    restart bench (m.waiters.foldl (fun s p => failWaiter c p s) s)

/-- TLBW, R392. -/
def execTlbw (gd : Guard) (d : Reg) (c : BitVec 5) (s : State) : Out :=
  strand gd (do
    requireLevel 2 (.tlbw gd d c)
    let k ← readG c
    let s ← get
    let bench := wfield k 0 5
    if wfield k 33 31 ≠ 0 ∨ wfield k 5 11 ≠ 0 ∨ !benchAllowed s.th bench then trap .format k
    match wfield k 24 8 with
    | 0 =>
      let e : TlbEntry := ⟨← readG d, ← readG (d + 1)⟩
      if badEntry e then trap .format e.w0
      modify (installTlb bench (worldEntry s e))
    | 0x10 => if k.getLsbD 32 then modify (failMiss bench (wfield k 16 8) .pageData) else trap .format k
    | 0x13 => if k.getLsbD 32 then modify (failMiss bench (wfield k 16 8) .protection) else trap .format k
    | 0x05 => if k.getLsbD 32 then modify (failMiss bench (wfield k 16 8) .world) else trap .format k
    | _ => trap .format k
    advance) s

/-! ### TLBINV (R393) -/

/-- The benches of a scope. -/
def scopeBenches (t : Thread) (sc : Nat) : List Nat :=
  match sc with
  | 2 => [t.bench]
  | 3 => (List.range 6).map fun k => 6 * (t.bench / 6) + k
  | _ => List.range 24

/-- A field of TLBINV's pair breaks its table. -/
def badRange (base word : Word) : Bool :=
  let pages := wfield word 0 44
  decide (wfield base 0 12 ≠ 0) || decide (wfield base 56 8 ≠ 0) || decide (wfield word 56 7 = 0) || decide (wfield word 54 2 ≠ 0)
    || (decide (pages = 0) && decide (base ≠ 0)) || decide (2 ^ 56 < base.toNat + 4096 * pages)

/-- The matching entries of the TLBs of the scope. -/
def matchingEntries (d : Shootdown) (s : State) : List TlbEntry :=
  d.benches.flatMap fun k =>
    ((benchOf s k).tlb ++ (List.range 8).flatMap fun j => (hearthOf s (8 * k + j)).l1).filter d.matchesEntry

/-- A deferred store of the scope that translated through one of some entries. -/
def deferredThrough (s : State) (d : Shootdown) (es : List TlbEntry) (x : Deferred) : Bool :=
  d.benches.contains (x.hearth / 8) && es.any fun e =>
    decide ((if e.remote ∧ e.node ≠ s.node then some e.node else none) = x.node ∧ e.pa ≤ x.pa ∧ x.pa < e.pa + e.bytes)

/-- The compute phases whose deferred stores the invalidation waits for (R37, R399). -/
def heldPhases (s : State) (d : Shootdown) : List (Nat × Nat) :=
  let es := matchingEntries d s
  (s.launches.filter fun l => l.deferred.any (deferredThrough s d es)).map fun l => (l.id, l.superstep)

/-- Matching entries leave every TLB of the scope; stores that translated through them are performed, those of the walker and the
steward of its benches too (R393, R399). -/
def removeEntries (d : Shootdown) (s : State) : State :=
  d.benches.foldl (fun s k =>
    let s := putBench s k { benchOf s k with tlb := (benchOf s k).tlb.filter fun e => !d.matchesEntry e }
    let s := (List.range 8).foldl (fun s j =>
      drainHearth (8 * k + j) (modHearth (8 * k + j) (fun x => { x with l1 := x.l1.filter fun e => !d.matchesEntry e }) s)) s
    drainHearth (216 + k / 6) (drainHearth (192 + k) s)) s

/-- TLBINV, R393. (Log entry 72: DEDUCED, safe.) -/
def execTlbinv (gd : Guard) (d a : Reg) (n : BitVec 1) (sc : BitVec 3) (s : State) : Out :=
  strand gd (do
    requireLevel 2 (.tlbinv gd d a n sc)
    let base ← readG a
    let word ← readG (a + 1)
    if badRange base word then trap .format word
    releaseStores
    let s ← get
    let b := s.th.bench
    let k := (benchOf s b).shoot.last + 1
    let x : Shootdown := { issuer := b, n := k, base := base.toNat, word := word, benches := scopeBenches s.th sc.toNat, cyc := s.cyc }
    let x := { x with phases := heldPhases s x }
    let s := putBench s b { benchOf s b with shoot := { (benchOf s b).shoot with last := k } }
    set (removeEntries x { s with shootdowns := s.shootdowns ++ [x] })
    writeG d (natWord k)
    advance
    if n = 0 then park (.shootdown b k)) s

/-- Every access that translated through a removed entry is performed: no remote request sent before the removal, from the
benches of the scope, still awaits its response, no deposit of theirs is on its way, and the compute phases that hold their deferred
stores have performed them. -/
def shootdownDone (s : State) (d : Shootdown) : Bool :=
  let mine (t : ThreadId) : Bool := (findThread s t).any fun x => d.benches.contains x.bench
  (s.remotes.all fun r => decide (d.cyc.toNat < r.issued.toNat) || !(match r.who with
    | .access t => mine t
    | .queued t => mine t
    | .block t _ => mine t
    | .pipeline h => d.benches.contains (h / 8)
    | .stream h _ => d.benches.contains (h / 8)
    | .operation t e n => s.ops.any fun o => decide (o.t = t ∧ o.e = e ∧ o.n = n) && d.benches.contains (o.hearth / 8)))
  && s.deposits.all (fun x => !mine x.src)
  && d.phases.all fun p => s.launches.all fun l => !(decide (l.id = p.1 ∧ l.superstep = p.2) && !l.deferred.isEmpty)

/-- SHOOTDOWN_COMPLETE, R393: the oldest shootdown that a bench has issued. (Log entry 72: DEDUCED, safe.) -/
def execShootdownComplete (bench : Nat) (s : State) : Out :=
  .next (match s.shootdowns.find? fun d => decide (d.issuer = bench) with
    | none => s
    | some d =>
      if shootdownDone s d then
        let b := benchOf s bench
        let s := putBench { s with shootdowns := s.shootdowns.filter fun x => !decide (x.issuer = bench ∧ x.n = d.n) } bench
          { b with shoot := b.shoot.complete d.n }
        releaseIf (fun t => decide (t.wait = .shootdown bench d.n)) s
      else s)

/-! ### TLBQ (R394) -/

/-- TLBQ, R394. -/
def execTlbq (gd : Guard) (d a : Reg) (sel : BitVec 2) (s : State) : Out :=
  strand gd (do
    requireLevel 2 (.tlbq gd d a sel)
    let w ← readG a
    let s ← get
    let k := wfield w 16 5
    if wfield w 21 43 ≠ 0 ∨ wfield w 10 6 ≠ 0 ∨ !benchAllowed s.th k then trap .format w
    let b := benchOf s k
    match sel.toNat with
    | 0 =>
      let va ← readG (a + 1)
      let e := (lookupTlb (w.extractLsb' 0 10) (addr va) b.tlb).getD ⟨0, 0⟩
      writeG d e.w0
      writeG (d + 1) e.w1
    | 1 => writeG d (natWord b.misses.length)
    | 2 => writeG d (natWord b.shoot.completed)
    | _ => writeG d (natWord b.shoot.last)
    advance) s

/-! ### Register blocks (R27, R28, R396, R397) -/

/-- A block that must stay resident (R27, R29). -/
def pinned (t : Thread) (b : Nat) : Bool :=
  match t.place with
  | .forge _ => decide (b ≤ 10 ∨ b = 15)
  | .off => decide (t.st = .trapped) && decide (b = 9 ∨ b = 15)
  | _ => decide (b = 9 ∨ b = 15)

/-- Blocks in a hearth's context cache. (Log entry 22: DEDUCED, safe.) -/
def blocksResident (s : State) (h : Nat) : Nat :=
  (threads s).foldl (fun n t => if t.live ∧ t.hearth = h ∧ !t.place.service then n + ((List.range 16).filter (hasBlock t.resident)).length else n) 0

/-- A block of a thread becomes resident with the words that memory holds; what the part changed of it meanwhile stays, and is to be
written back (R27, R397). (Log entry 67: DEDUCED, unsafe.) -/
def arriveBlock (t : Thread) (b : Nat) (ws : List Word) : Thread :=
  let wanted := clearBlock t.wanted b
  let mine := hasBlock t.owed b
  { t with r := if mine then t.r else t.r.loadBlock b ws, resident := setBlock t.resident b, wanted := wanted,
           dirty := if mine then setBlock t.dirty b else clearBlock t.dirty b, owed := clearBlock t.owed b,
           st := if wanted = 0 ∧ t.st = .stalledRegister then .seated else t.st }

/-- A fetched block is there, and its thread's core counts the response (R420). (Log entry 44: DESIGN CHOICE, safe.) -/
def takeBlock (x : Thread) (b : Nat) (ws : List Word) (p : Spot) (s : State) : State := putThread (noteDelay x p false s) (arriveBlock x b ws)

/-- REGISTER_BLOCK_ARRIVE, R28: a block that the thread waits for is fetched; its page's miss, fault or poison stands in the
way (R22, R397, R403). (Log entries 21: DEDUCED, unsafe; 67: DEDUCED, unsafe; 74: DEDUCED, safe.) -/
def execRegisterBlockArrive (t : ThreadId) (block : BitVec 4) (s : State) : Out :=
  .next (
    let b := block.toNat
    match liveThread s t with
    | none => s
    | some x =>
      if !hasBlock x.wanted b then s
      else if hasBlock x.resident b then
        let wanted := clearBlock x.wanted b
        putThread s { x with wanted := wanted, st := if wanted = 0 ∧ x.st = .stalledRegister then .seated else x.st }
      else if 1024 ≤ blocksResident s x.hearth then s
      else match placeBlock x b s with
        | (.ok (p :: _), s) =>
          match p.node with
          | none =>
            if poisoned s p.pa 256 then blockFault .poison t b s
            else takeBlock x b (readWords s.mem p.pa 32) p s
          | some node =>
            if s.remotes.any (fun r => decide (r.who = .block t b)) then s
            else sendRemote (.block t b) node (.load x.secure (BitVec.ofNat 52 p.pa) 256) p.va s
        | (.miss a, s) => addMiss (blockAgent x) x.id.ctx (.block t b) a .block s
        | (.fault _, s) => blockFault .pageContext t b s
        | (_, s) => s)

/-- A block dropped. -/
def Thread.dropBlock (t : Thread) (b : Nat) : Thread :=
  { t with resident := clearBlock t.resident b, dirty := clearBlock t.dirty b, stuckBlock := if t.stuckBlock = some b then none else t.stuckBlock }

/-- What becomes of a block that is to leave the cache. -/
inductive Eviction where
  | gone (s : State)
  | miss (va : Nat) (s : State)
  | fails (s : State)
  deriving DecidableEq, Repr

/-- A block leaves the cache (R27): a clean one at once, a dirty one once it is written back; or what stands in its way. -/
def evictBlock (ag : Agent) (x : Thread) (b : Nat) (s : State) : Eviction :=
  if !hasBlock x.dirty b then .gone (putThread s (x.dropBlock b))
  else match placeBlockFor ag x b s with
    | (.ok ps, s) => .gone (putThread (writeOut x b ps s) (x.dropBlock b))
    | (.miss a, s) => .miss a s
    | (_, s) => .fails s

/-- REGISTER_BLOCK_WRITEBACK, R27. (Log entries 21: DEDUCED, unsafe; 22: DEDUCED, safe.) -/
def execRegisterBlockWriteback (t : ThreadId) (block : BitVec 4) (s : State) : Out :=
  .next (match liveThread s t with
    | none => s
    | some x =>
      let b := block.toNat
      if hasBlock x.resident b ∧ !pinned x b then
        match evictBlock (blockAgent x) x b s with
        | .gone s => s
        | .miss a s => addMiss (blockAgent x) x.id.ctx (.block t b) a .block s
        | .fails s => s
      else s)

/-- BLOCK_WRITEBACK_FAIL, R397. -/
def execBlockWritebackFail (t : ThreadId) (block : BitVec 4) (s : State) : Out :=
  .next (match liveThread s t with
    | none => s
    | some x =>
      if hasBlock x.resident block.toNat ∧ hasBlock x.dirty block.toNat ∧ !pinned x block.toNat ∧ x.stuckBlock ≠ some block.toNat then
        match placeBlock x block.toNat s with
        | (.fault _, s) => writebackFail x block.toNat s
        | _ => s
      else s)

/-- The operands of CTXEVICT and CTXFILL (R396): the target, if it is live, and the mask. -/
def contextOperands (d : Reg) (k : BitVec 5) : M (Option Thread × BitVec 16) := do
  let n ← readG d
  let m ← readG k
  let s ← get
  if badName n then trap .format n
  if wfield m 16 48 ≠ 0 then trap .format m
  match liveThread s (nameOf n) with
  | none => return (none, m.extractLsb' 0 16)
  | some t =>
    if t.secure && !s.th.secure then trap .world n
    return (some t, m.extractLsb' 0 16)

/-- The agent of a block transfer that the current thread asks for: the block's, with the failed page that the word waited for. -/
def contextAgent (t : Thread) : M Agent := do return { blockAgent t with failed := (← getTh).failed }

/-- The current thread waits for a page that a block transfer needs. -/
def awaitBlockPage {α : Type} (ag : Agent) (va : Nat) : M α := do
  modify fun s => addMiss ag s.th.id.ctx (.access s.th.id) va .block s
  stall .stalledMemory

/-- One block of CTXEVICT. -/
def evictOne (id : ThreadId) (b : Nat) : M Unit := do
  match liveThread (← get) id with
  | none => pure ()
  | some x =>
    if hasBlock x.resident b ∧ !pinned x b then
      let ag ← contextAgent x
      match evictBlock ag x b (← get) with
      | .gone s => set s
      | .miss a s => do
        set s
        awaitBlockPage ag a
      | .fails s => set (writebackFail x b s)

/-- CTXEVICT, R396: what the word itself names of its own thread is written back and used again. (Log entry 73: DEDUCED, safe.) -/
def execCtxevict (gd : Guard) (d : Reg) (k : BitVec 5) (s : State) : Out :=
  strand gd (do
    requireLevel 2 (.ctxevict gd d k)
    let (t, mask) ← contextOperands d k
    match t with
    | none => writeG k 0
    | some t =>
      let me := (← getTh).id
      for b in List.range 16 do
        if hasBlock mask b then evictOne t.id b
      let s ← get
      if s.remotes.any (fun r => match r.who with
        | .block x _ => decide (x = t.id)
        | _ => false) then stall .stalledMemory
      let left := ((liveThread s t.id).elim 0 fun x => x.resident) &&& mask
      -- the word's own registers are in use again
      if t.id = me then modTh fun x => { x with resident := setBlock x.resident 0 }
      writeG k (left.setWidth 64)
    advance) s

/-- The words of a number. -/
def natWords (n x : Nat) : List Word := (List.range n).map fun k => natWord (field x (64 * k) 64)

/-- The words of a block in a remote package, which the current thread awaits; none where the request fails.
(Log entry 51: DEDUCED, unsafe.) -/
def remoteBlock (node : BitVec 11) (pa va : Nat) : M (Option (List Word)) := do
  let s ← get
  match s.th.replies.find? fun r => decide (r.pa = pa ∧ r.node = node ∧ r.len = 256) with
  | some r =>
    modTh fun t => { t with replies := t.replies.filter fun x => decide (x ≠ r) }
    match r.result with
    | .data bs => return some (natWords 32 (bytesToNat (bs.take 256)))
    | _ => return none
  | none =>
    if !remoteBusy s s.th node pa 256 then
      modify (sendRemote (.access s.th.id) node (.load s.th.secure (BitVec.ofNat 52 pa) 256) va)
    stall .stalledMemory

/-- A place in a hearth's context cache, which a block that nothing pins leaves where the cache is full; none where it holds only
blocks that must stay (R27, R396). (Log entry 22: DEDUCED, safe.) -/
def cacheRoom (h : Nat) (s : State) : Option State :=
  if blocksResident s h < 1024 then some s
  else (threads s).findSome? fun t =>
    if t.live ∧ t.hearth = h ∧ !t.place.service then
      (List.range 16).findSome? fun b =>
        if hasBlock t.resident b ∧ !pinned t b ∧ t.st ≠ .running then
          match evictBlock (blockAgent t) t b s with
          | .gone s => some s
          | _ => none
        else none
    else none

/-- One block of CTXFILL: fetched, or left out (R396). -/
def fillOne (id : ThreadId) (b : Nat) : M Unit := do
  match liveThread (← get) id with
  | none => pure ()
  | some x =>
    if !hasBlock x.resident b then
      let ag ← contextAgent x
      let arrive (ws : List Word) (p : Spot) (s : State) : State :=
        match cacheRoom x.hearth s with
        | none => s
        | some s => (findThread s id).elim s fun y => takeBlock y b ws p s
      match placeBlockFor ag x b (← get) with
      | (.ok (p :: _), s) => do
        set s
        match p.node with
        | none => if !poisoned s p.pa 256 then set (arrive (readWords s.mem p.pa 32) p s)
        | some node =>
          match ← remoteBlock node p.pa p.va with
          | some ws => modify (arrive ws p)
          | none => pure ()
      | (.miss a, s) => do
        set s
        awaitBlockPage ag a
      | (_, s) => set s

/-- CTXFILL, R396. -/
def execCtxfill (gd : Guard) (d : Reg) (k : BitVec 5) (s : State) : Out :=
  strand gd (do
    requireLevel 2 (.ctxfill gd d k)
    let (t, mask) ← contextOperands d k
    match t with
    | none => writeG k 0
    | some t =>
      for b in List.range 16 do
        if hasBlock mask b then fillOne t.id b
      let left := ~~~((liveThread (← get) t.id).elim 0 fun x => x.resident) &&& mask
      writeG k (left.setWidth 64)
    advance) s

/-! ### Misses and replies -/

/-- The kinds of access by their number in a miss message (R389). -/
def kindOf (k : BitVec 2) : AccessKind :=
  match k.toNat with
  | 0 => .load | 1 => .store | 2 => .fetch | _ => .block

/-- TLB_BENCH_MISS, R388: a stalled thread's access to a page that neither TLB holds joins or takes an entry. -/
def execTlbBenchMiss (bench : Nat) (t : ThreadId) (page : BitVec 44) (kind : BitVec 2) (s : State) : Out :=
  .next (match liveThread s t with
    | none => s
    | some x =>
      if x.st = .stalledMemory ∧ x.bench = bench ∧ page.toNat * 4096 < selfWindow
          ∧ (lookupTlb t.asid (page.toNat * 4096) (benchOf s bench).tlb).isNone then
        addMiss (agentOf x) t.ctx (.access t) (page.toNat * 4096) (kindOf kind) s
      else s)

/-- A stalled thread still waits for a reply or a translation. -/
def stillWaits (s : State) (t : ThreadId) : Bool :=
  s.remotes.any (fun r => decide (r.who = .access t)) ||
  s.benches.any fun b => b.2.misses.any fun m => m.waiters.any fun p => decide (p.who = .access t)

/-- MEMORY_REPLY, R398: a stalled thread whose wait is over goes on. -/
def execMemoryReply (t : ThreadId) (s : State) : Out :=
  .next (match findThread s t with
    | some x => if x.st = .stalledMemory ∧ !stillWaits s t then putThread s { x with st := .seated } else s
    | none => s)

end Sys2Proof.Machine
end

