-- ==== Sys2Proof/Machine/Streams.lean ====
section
/-!
DEFINITION. The forge pipeline's results (R251 to R255) and stream registers (R253, R262, R265 to R269, R427): units, pops and
appends, binding, prefetch, and the performance of stream writes.
-/

namespace Sys2Proof.Machine

open Sys2Proof

/-! ### The pipeline of the current thread's hearth -/

/-- The hearth whose forge sequencer the current thread drives. -/
def forgeHearth : M Nat := do return (← getTh).hearth
def getHearth : M Hearth := do
  let s ← get
  return hearthOf s s.th.hearth
def modPipe (f : Hearth → Hearth) : M Unit := modify fun s => putHearth s s.th.hearth (f (hearthOf s s.th.hearth))
def getForge : M ForgeState := do return (← getHearth).forge
def modForge (f : ForgeState → ForgeState) : M Unit := modPipe fun x => { x with forge := f x.forge }

/-- The pipeline freezes, for a cause of R382. -/
def freeze {α : Type} (code : Nat) : M α := throw (.freeze code)

/-- ILLEGAL_SCHEDULE with a reason of R255 at a slot. -/
def scheduleValue (reason slot : Nat) (pc : Word) : Word := natWord (reason * 2 ^ 56 + addr pc / 32 * 32 + slot)

def illegal {α : Type} (reason slot : Nat) : M α := do trap .illegalSchedule (scheduleValue reason slot (← getRegs).pc)

/-- P[guard] xor gn (R139): false for a slot that has no effect. -/
def Regs.slotGuard (r : Regs) (gd : SlotGuard) : Bool := xor (r.rp gd.gp) (gd.gn == 1)

/-- A slot's effect under its guard (R139). -/
def slotGuarded (gd : SlotGuard) (body : M Unit) : M Unit := do
  if (← getRegs).slotGuard gd then body else pure ()

/-- The meaning of an operation of slots 1 to 7: its effect at its bundle's issue. -/
def slot (gd : SlotGuard) (body : M Unit) (s : State) : Out := outcome (slotGuarded gd body) s

/-- Two results that land in one cycle at one destination, which is no stream (R252). -/
def collides (dst : ResultDst) (remain : Nat) (e : InFlight) : Bool :=
  match dst with
  | .q _ => false
  | _ => decide (e.dst = dst ∧ e.remain = remain)

/-- A result of latency L is put in flight (R251, R252). -/
def emit (k : Nat) (dst : ResultDst) (v : StreamUnit) (latency : Nat) : M Unit := do
  if dst = .g 0 then pure ()
  else
    if (← getHearth).inflight.any (collides dst latency) then illegal 1 k
    modPipe fun x => { x with inflight := x.inflight ++ [⟨k, dst, v, latency⟩] }

def emitG (k : Nat) (d : Reg) (w : Word) (latency : Nat) : M Unit := emit k (.g d) (.scalar w) latency
def emitP (k : Nat) (d : PReg) (b : Bool) (latency : Nat) : M Unit := emit k (.p d) (.scalar (natWord (ofBool b))) latency

/-- Sticky flags, which are no destination (R252). (Log entry 29: DEDUCED, unsafe.) -/
def raiseFlags (f : BitVec 6) : M Unit := modRegs fun r => r.raise f

/-! ### Units (R266) -/

/-- Kinds and units of a binding, as encoded (R265). -/
def readKind : BitVec 2 := 0
def writeKind : BitVec 2 := 1
def receiveKind : BitVec 2 := 2
def scalarUnit : BitVec 2 := 0
def vectorUnit : BitVec 2 := 1
def rowUnit : BitVec 2 := 2

/-- Elements of one unit. -/
def Stream.elems (x : Stream) : Nat :=
  if x.unit = scalarUnit then 1
  else if x.unit = vectorUnit then (if x.shape.nested then x.shape.blockLen else 16)
  else if x.kind = writeKind ∧ x.shape.fmt = 0 then 4096 else 256

/-- Units that may be buffered (R266). -/
def Stream.capacity (x : Stream) : Nat := [64, 32, 4, 4].getD x.unit.toNat 4

/-- Units that the generator has; a channel write stream has as many as its sizes' product says (R427). -/
def Stream.total (x : Stream) : Nat := if x.kind = writeKind ∧ x.shape.chan ≠ 0 then x.shape.total else x.shape.total / x.elems

/-- A drain stream (R266). -/
def Stream.drain (x : Stream) : Bool := decide (x.kind = writeKind ∧ x.unit = rowUnit)

/-- The group of elements of a vector unit (R189, R266). -/
def Stream.group (x : Stream) : Option Group16 := groupOf x.shape.base

/-- Address of the n-th visited element, or of its block. -/
def Stream.place (x : Stream) (n : Nat) : Nat :=
  let i := x.shape.index n
  if x.shape.nested then (x.shape.blockOf i).1 else x.shape.address i

/-- The pieces of unit n in memory: address and bytes each (R189, R266). -/
def Stream.pieces (x : Stream) (n : Nat) : List (Nat × Nat) :=
  let first := n * x.elems
  if x.shape.nested then
    if x.unit = vectorUnit then [((x.place first + 1) % 2 ^ 56, x.shape.blockSize - 1)]
    else (List.range (x.elems / x.shape.blockLen)).map fun b => (x.place (first + b * x.shape.blockLen), x.shape.blockSize)
  else (List.range x.elems).map fun e => (x.place (first + e), x.shape.elemBytes)

/-- The stream register, if it is bound. -/
def ForgeState.stream (f : ForgeState) (q : QReg) : Option Stream := f.streams.toList.getD q.toNat none
def ForgeState.setStream (f : ForgeState) (q : QReg) (x : Option Stream) : ForgeState :=
  { f with streams := f.streams.setIfInBounds q.toNat x }
def modStreamQ (q : QReg) (f : Stream → Stream) : M Unit := modForge fun x => x.setStream q ((x.stream q).map f)

/-- A stream that a slot uses: bound (reason 5), with what the use needs, and held by no TSEND (reason 7). -/
def useStream (k : Nat) (q : QReg) (ok : Stream → Bool) : M Stream := do
  match (← getForge).stream q with
  | none => illegal 5 k
  | some x =>
    if !ok x then illegal 5 k
    if x.held then illegal 7 k
    return x

/-- A stream that gives units of a kind. -/
def Stream.popsUnit (u : BitVec 2) (x : Stream) : Bool := decide (x.kind ≠ writeKind ∧ x.unit = u)
def Stream.takesUnit (u : BitVec 2) (x : Stream) : Bool := decide (x.kind = writeKind ∧ x.unit = u)

/-- The next read of a stream would meet a bank in its refresh window (R84). (Log entry 50: DEDUCED, safe.) -/
def refreshAhead (s : State) (x : Stream) : Bool :=
  decide (x.kind = readKind) && (x.pieces x.position).any fun p =>
    match (reach (agentOf s.th) p.1 p.2 .load s).1 with
    | .ok ps => refreshHolds s ps
    | _ => false

/-- The cause of a freeze for a unit that has not arrived (R254, R382). -/
def absentUnit {α : Type} (x : Stream) : M α := do
  let s ← get
  freeze (if refreshAhead s x then 3 else 1)

/-- n units must be at the head of a stream; none is popped yet. -/
def headUnits (k : Nat) (x : Stream) (n : Nat) : M (List StreamUnit) := do
  if x.kind = readKind ∧ x.total < x.used + n then illegal 6 k
  if x.units.length < n then absentUnit x
  return x.units.take n

/-- The fault that a popped unit carries is raised at the pop (R269). -/
def raiseFaulty : List StreamUnit → M Unit
  | [] => pure ()
  | .faulty c va :: _ => trapN c va
  | _ :: us => raiseFaulty us

/-- A unit that carries a fault. -/
def StreamUnit.isFaulty : StreamUnit → Bool
  | .faulty _ _ => true
  | _ => false

/-- The units leave the head of the stream (R253). -/
def dropUnits (q : QReg) (n : Nat) : M Unit := modStreamQ q fun x => { x with used := x.used + n, units := x.units.drop n }

/-- One unit popped. -/
def popUnit (k : Nat) (q : QReg) (u : BitVec 2) : M (Stream × StreamUnit) := do
  let x ← useStream k q (Stream.popsUnit u)
  let us ← headUnits k x 1
  raiseFaulty us
  dropUnits q 1
  return (x, us.headD (.scalar 0))

/-- Bytes brought to a length: what the spec does not give is a free value. (Log entry 33: DESIGN CHOICE, unsafe.) -/
def fillFree (n : Nat) (bs : List Byte) : M (List Byte) := do
  let rec go : Nat → M (List Byte)
    | 0 => pure []
    | k + 1 => do
      let w ← drawFree
      return natToBytes 8 w.toNat ++ (← go k)
  let more ← go ((n - bs.length + 7) / 8)
  return (bs ++ more).take n

/-- The bytes of a unit. -/
def StreamUnit.raw : StreamUnit → List Byte
  | .scalar w => natToBytes 8 w.toNat
  | .vector v => natToBytes 64 v.toNat
  | .bytes _ _ bs => bs
  | .faulty _ _ => []

/-- A scalar unit as a word: integers widened (R58), floats and raw as their bits (R262). -/
def scalarValue (x : Stream) (u : StreamUnit) : Word :=
  match u with
  | .scalar w => w
  | u =>
    let n := bytesToNat u.raw
    match intFmt x.shape.fmt with
    | some (true, w) => sextBytes (w / 8) n
    | _ => natWord n

/-- A vector unit as a register: converted as LDF does, or the 64 bytes of a receive buffer (R266, R267). -/
def vectorValue (x : Stream) (u : StreamUnit) : M Vec := do
  if x.kind = receiveKind then
    let bs ← fillFree 64 u.raw
    return BitVec.ofNat 512 (bytesToNat bs)
  else match x.group with
    | some g =>
      let (v, f) := g.lanes (← getRegs).rounding (bytesToNat u.raw)
      raiseFlags f
      return v
    | none => return 0

/-- A vector operand: a register, or a popped unit. -/
def vectorOperand (k : Nat) (q : BitVec 1) (r : Reg) : M Vec := do
  if q = 1 then
    let (x, u) ← popUnit k (qOf r) vectorUnit
    vectorValue x u
  else return (← getRegs).rv r

/-- Room for one more append, landed or not (reason 6 of R255). -/
def reserveAppends (k : Nat) (q : QReg) (x : Stream) (n : Nat) : M Unit := do
  if x.total < x.used + n then illegal 6 k
  modStreamQ q fun x => { x with used := x.used + n }

/-- An append of latency L to a stream of a unit (R253, R255). -/
def appendUnit (k : Nat) (q : QReg) (u : BitVec 2) (v : StreamUnit) (latency : Nat) : M Unit := do
  let x ← useStream k q (Stream.takesUnit u)
  reserveAppends k q x 1
  emit k (.q q) v latency

/-- A vector result: a register, or an append. -/
def vectorResult (k : Nat) (q : BitVec 1) (d : Reg) (v : Vec) (latency : Nat) : M Unit :=
  if q = 1 then appendUnit k (qOf d) vectorUnit (.vector v) latency else emit k (.v d) (.vector v) latency

/-! ### Landing (R251, R253, R262, R263) -/

/-- A unit as the record's format stores it, with its flags. -/
def storedUnit (x : Stream) (rd : Rounding) (v : StreamUnit) : StreamUnit × BitVec 6 :=
  let f := x.shape.fmt
  let pack (bs : List Byte) : StreamUnit := .bytes f (ptrBlk x.shape.base) bs
  match v with
  | .scalar w =>
    match intFmt f with
    | some (sg, n) =>
      let (lo, hi) := intRange sg n
      let (y, fl) := saturate lo hi (readInt sg 64 w.toNat)
      (pack (natToBytes (n / 8) (unsignedBits n y)), fl)
    | none => (pack (natToBytes x.shape.elemBytes w.toNat), 0)
  | .vector v =>
    match x.group with
    | some g =>
      let (y, fl) := g.stored rd v
      (pack (natToBytes g.extent.2.1 y), fl)
    | none => (pack [], 0)
  | u => (u, 0)

/-- A unit joins the end of its write stream (R253). (Log entry 28: DEDUCED, safe.) -/
def landAppend (q : QReg) (v : StreamUnit) : M Unit := do
  match (← getForge).stream q with
  | none => pure ()
  | some x =>
    let (u, f) := storedUnit x (← getRegs).rounding v
    raiseFlags f
    modStreamQ q fun x => { x with position := x.position + 1, appends := x.appends ++ [(x.position, u)] }

/-- A result is written to its destination. -/
def landResult (e : InFlight) : M Unit :=
  match e.dst, e.value with
  | .g r, .scalar w => writeG r w
  | .p r, .scalar w => modRegs fun x => x.wp r (w.getLsbD 0)
  | .v r, .vector v => modRegs fun x => x.wv r v
  | .q q, v => landAppend q v
  | _, _ => pure ()

/-- Results by ascending slot, those of one slot in issue order (R253). -/
def bySlot (es : List InFlight) : List InFlight := (List.range 8).flatMap fun k => es.filter fun e => decide (e.slot = k)

/-- Appends that land in this cycle on a stream would find its buffer full (R254). (Log entry 27: DEDUCED, safe.) -/
def appendBlocked (x : Hearth) (q : QReg) : Bool :=
  match x.forge.stream q with
  | none => false
  | some t =>
    let n := (x.inflight.filter fun e => decide (e.dst = .q q ∧ e.remain = 1)).length
      + (x.forge.drained.filter fun d => decide (d.1 = q ∧ d.2.1 = 1)).length
    decide (0 < n ∧ t.capacity < t.appends.length + n)

/-- The end of an advancing cycle: every latency advances, and what has reached its cycle lands (R251).
(Log entry 27: DEDUCED, safe.) -/
def landCycle : M Unit := do
  let x ← getHearth
  if (List.range 8).any fun k => appendBlocked x (BitVec.ofNat 3 k) then freeze 2
  let now := bySlot (x.inflight.filter fun e => decide (e.remain ≤ 1))
  let later := (x.inflight.filter fun e => decide (1 < e.remain)).map fun e => { e with remain := e.remain - 1 }
  let rows := x.forge.drained.filter fun d => decide (d.2.1 ≤ 1)
  let rest := (x.forge.drained.filter fun d => decide (1 < d.2.1)).map fun d => (d.1, d.2.1 - 1, d.2.2)
  modPipe fun x => { x with inflight := later, banks := x.banks.map fun b => { b with defer := b.defer - 1 },
                            forge := { x.forge with drained := rest, busy := x.forge.busy - 1 } }
  for e in now do landResult e
  for d in rows do landAppend d.1 d.2.2

/-- The thread that holds a hearth's forge seat. -/
def seatThread (s : State) (h : Nat) : Option ThreadId :=
  (hearthOf s h).seat.filter fun id => (findThread s id).any fun t => decide (t.place = .forge h)

/-- A piece of meaning performed for the thread in the forge seat; its outcome. -/
def asSeat (h : Nat) (m : M Unit) (s : State) : Out :=
  match seatThread s h with
  | none => .next s
  | some id =>
    match asThreadResult id m s with
    | (.error (.absent pa), _) => .fault (.noMemory pa)
    | (.error (.nowhere va), _) => .fault (.noHearth va)
    | (.error (.trap c v), s') => .next (asThread id (trap c v) s')
    | (.error (.freeze k), s') => .next (asThread id (throw (.freeze k)) s')
    | (_, s') => .next s'

/-- RESULT_LANDING, R251. -/
def execResultLanding (hearth : Nat) (s : State) : Out := asSeat hearth landCycle s

/-! ### Reads (R269) -/

/-- A page that a stream needs does not translate: the stream waits for it (R398). True where it does. -/
def streamReach (h q va n : Nat) (kind : AccessKind) : M Bool := do
  let s ← get
  match reach (agentOf s.th) va n kind s with
  | (.miss a, s') =>
    set (addMiss (agentOf s.th) s.th.id.ctx (.stream h q) a kind s')
    return false
  | _ => return true

/-- The pieces of a unit as loads of the thread, each read once; none while one has to wait. -/
def loadPieces (h : Nat) (q : QReg) : List (Nat × Nat) → M (Option (List Byte))
  | [] => return some (((← getForge).stream q).elim [] (·.got))
  | (va, n) :: ps => do
    if ← streamReach h q.toNat va n .load then
      let x ← loadM va n
      modStreamQ q fun y => { y with piece := y.piece + 1, got := y.got ++ natToBytes n x }
      loadPieces h q ps
    else return none

/-- A state in which a stream's access waits: its thread itself does not, and has no failed page of the stream's. -/
def streamWaits (id : ThreadId) (old s : State) : State :=
  match findThread old id, findThread s id with
  | some t, some t' => putThread s { t' with st := if t'.st = .stalledMemory then t.st else t'.st, failed := t.failed }
  | _, _ => s

/-- A unit read: it arrives at the end of the stream's buffer. -/
def arriveUnit (q : QReg) (u : StreamUnit) (x : Hearth) : Hearth :=
  let put (y : Stream) : Stream := { y with units := y.units ++ [u], position := y.position + 1, piece := 0, got := [] }
  { x with forge := x.forge.setStream q ((x.forge.stream q).map put) }

/-- STREAM_UNIT_ARRIVE, R265, R269: the next unit of a read generator is read, up to its capacity ahead of the pops; the fault of
a read waits in the unit. (Log entry 28: DEDUCED, safe.) -/
def execStreamUnitArrive (hearth : Nat) (q : BitVec 3) (s : State) : Out :=
  match seatThread s hearth, (hearthOf s hearth).forge.stream q with
  | some id, some x =>
    if x.kind = readKind ∧ x.position < x.total ∧ x.units.length < x.capacity then
      let arrive (u : StreamUnit) (s : State) : State := putHearth s hearth (arriveUnit q u (hearthOf s hearth))
      match asThreadResult id (loadPieces hearth q ((x.pieces x.position).drop x.piece)) s with
      | (.ok (some bs), s') => .next (arrive (.bytes x.shape.fmt (ptrBlk x.shape.base) bs) s')
      | (.ok none, s') => .next s'
      | (.error (.trap c v), _) => .next (arrive (.faulty c v.toNat) s)
      | (.error (.absent pa), _) => .fault (.noMemory pa)
      | (.error (.nowhere va), _) => .fault (.noHearth va)
      | (.error _, s') => .next (streamWaits id s s')
    else .next s
  | _, _ => .next s

/-! ### Writes (R100, R256, R269, R427) -/

/-- The pieces of a unit as stores of the thread, each stored once; false while one has to wait. A store of a stream is not put off
into the replay queue, so appends are performed in their order (R100). -/
def storePieces (h : Nat) (q : QReg) : List (Nat × Nat) → List Byte → M Bool
  | [], _ => pure true
  | (va, n) :: ps, bs => do
    if ← streamReach h q.toNat va n .store then
      storeAt va va (.whole n (bytesToNat (bs.take n))) false
      modStreamQ q fun y => { y with piece := y.piece + 1 }
      storePieces h q ps (bs.drop n)
    else return false

/-- The unit that stands first in a stream's appends, as stores; a TLBW may have failed its page (R398). -/
def storeUnit (h : Nat) (q : QReg) (x : Stream) (n : Nat) (bs : List Byte) : M Bool := do
  modTh fun t => { t with failed := x.failed }
  modStreamQ q fun y => { y with failed := none }
  let ps := x.pieces n
  storePieces h q (ps.drop x.piece) (bs.drop ((ps.take x.piece).foldl (fun k p => k + p.2) 0))

/-- The first append of a stream is performed. -/
def dropAppend (q : QReg) (x : Hearth) : Hearth :=
  let drop (y : Stream) : Stream := { y with appends := y.appends.drop 1, piece := 0, sent := false, failed := none }
  { x with forge := { (x.forge.setStream q ((x.forge.stream q).map drop)) with
    stuck := if x.forge.stuck = some q then none else x.forge.stuck } }

/-- Requests of a stream's stores that await their responses. -/
def streamStoresOut (s : State) (h : Nat) (q : QReg) : Bool :=
  s.remotes.any fun r => decide (r.who = .stream h q.toNat) && match r.req with
    | .unit _ _ _ => false
    | _ => true

/-- Remote stores that a thread has sent since an earlier state are those of a stream. -/
def claimRemotes (id : ThreadId) (h : Nat) (q : QReg) (old s : State) : State :=
  let n := old.remotes.length
  { s with remotes := s.remotes.take n ++ (s.remotes.drop n).map fun r => if r.who = .queued id then { r with who := .stream h q.toNat } else r }

/-- A write of a stream faults: the thread traps at the bundle boundary it has reached, and the unit stays (R256). -/
def streamFault (id : ThreadId) (h : Nat) (q : QReg) (c : Cause) (v : Word) (s : State) : State :=
  let y := hearthOf s h
  let put (x : Stream) : Stream := { x with piece := 0, sent := false, failed := none }
  asThread id (trap c v) (putHearth s h { y with forge := { (y.forge.setStream q ((y.forge.stream q).map put)) with stuck := some q } })

/-- STREAM_WRITE_PERFORM, R100, R256: the first unit appended to a write stream is stored, or sent to its channel; it is performed
when every remote part has its response. A write that faults traps the thread, and the unit stays.
(Log entry 28: DEDUCED, safe.) -/
def execStreamWritePerform (hearth : Nat) (q : BitVec 3) (s : State) : Out :=
  match seatThread s hearth, (hearthOf s hearth).forge.stream q with
  | some id, some x =>
    match x.appends with
    | [] => .next s
    | (n, u) :: _ =>
      let performed (s : State) : State := putHearth s hearth (dropAppend q (hearthOf s hearth))
      if x.shape.chan ≠ 0 then
        .next (performed (if x.node = s.node then
            { s with units := s.units ++ [{ hearth := x.peer, channel := x.channel, item := u, src := some (.stream hearth q.toNat) }] }
          else sendRemote (.stream hearth q.toNat) x.node (.unit x.peer x.channel u.raw) 0 s))
      else if streamStoresOut s hearth q then .next s
      else if x.sent then .next (performed s)
      else
        match asThreadResult id (storeUnit hearth q x n u.raw) s with
        | (.ok true, s') =>
          let s' := claimRemotes id hearth q s (streamWaits id s s')
          .next (if streamStoresOut s' hearth q then modStream hearth q.toNat (fun y => { y with sent := true }) s' else performed s')
        | (.ok false, s') => .next (claimRemotes id hearth q s (streamWaits id s s'))
        | (.error (.trap c v), _) => .next (streamFault id hearth q c v s)
        | (.error (.absent pa), _) => .fault (.noMemory pa)
        | (.error (.nowhere va), _) => .fault (.noHearth va)
        | (.error _, s') => .next (claimRemotes id hearth q s (streamWaits id s s'))
  | _, _ => .next s

/-- Appends of a stream that are not performed: in flight, drained, in the buffer, or on their way to a channel (R100, R268). -/
def appendsPending (s : State) (h : Nat) (q : QReg) : Bool :=
  let x := hearthOf s h
  x.inflight.any (fun e => decide (e.dst = .q q)) || x.forge.drained.any (fun d => decide (d.1 = q))
    || (x.forge.stream q).any (fun y => !y.appends.isEmpty)
    || s.units.any (fun u => decide (u.src = some (.stream h q.toNat)))
    || s.remotes.any (fun r => decide (r.who = .stream h q.toNat) && match r.req with
      | .unit _ _ _ => true
      | _ => false)

/-- No append of any stream of a hearth is pending, and the thread's replay queue is empty (R100, R250, R270). -/
def writesDone (s : State) (h : Nat) : Bool :=
  (List.range 8).all (fun k => !appendsPending s h (BitVec.ofNat 3 k)) && s.th.queue.isEmpty

/-! ### Channels (R267, R427) -/

/-- The stream of a hearth that is bound to a channel as a receive buffer. -/
def receiver (x : Hearth) (channel : BitVec 16) : Option QReg :=
  ((List.range 8).map (BitVec.ofNat 3)).find? fun q =>
    (x.forge.stream q).any fun y => decide (y.kind = receiveKind ∧ y.channel = channel)

/-- Bytes that a unit occupies in a receive buffer (R266). -/
def unitSize (y : Stream) (u : StreamUnit) : Nat := if y.unit = vectorUnit then 64 else u.raw.length

/-- CHANNEL_UNIT_RECEIVE, R267, R427: a unit enters its receive buffer if the channel is bound and there is room; units of one
sender enter in order; one that came from another package is answered now. (Log entry 33: DESIGN CHOICE, unsafe.) -/
def execChannelUnitReceive (i : Nat) (s : State) : Out :=
  .next (match s.units[i]? with
    | none => s
    | some u =>
      let x := hearthOf s u.hearth
      if (s.units.take i).any fun v => decide (v.hearth = u.hearth ∧ v.channel = u.channel ∧ v.src = u.src) then s
      else match receiver x u.channel with
        | none => s
        | some q =>
          match x.forge.stream q with
          | none => s
          | some y =>
            let used := y.units.foldl (fun n v => n + unitSize y v) 0
            if used + unitSize y u.item ≤ y.size then
              let s := putHearth { s with units := s.units.eraseIdx i } u.hearth (arriveUnit q u.item x)
              if u.src.isNone then respond (.data []) s else s
            else s)

/-! ### QBIND, QADV, QWAITF, QWAITE (R265, R267, R268) -/

/-- A record's format and layout suit a unit (R266). -/
def unitAccepts (kind unit : BitVec 2) (x : Shape) : Bool :=
  if unit = scalarUnit then !x.nested
  else if unit = vectorUnit then (groupOf x.base).isSome
  else if kind = writeKind then decide (x.fmt = 0 ∨ x.fmt = 1 ∨ x.fmt = 2 ∨ x.fmt = 8)
  else x.nested && decide (x.size 0 = 256 ∧ x.stride 0 = 1 ∧ x.order 0 = 0)

/-- A destination word names a channel of a node's hearth (R270, R427). -/
def badChannel (w : Word) : Bool :=
  !w.getLsbD 63 || decide (wfield w 40 12 ≠ 0 ∨ wfield w 8 16 ≠ 0 ∨ 191 < wfield w 0 8)

/-- A generator bound to a record (R265, R427). (Log entry 34: DEDUCED, unsafe.) -/
def bindGenerator (kind unit : BitVec 2) (sh : QReg) : M Stream := do
  let x ← readShape ((← getRegs).rsh sh)
  if !fmtAssigned x.fmt ∨ !x.valid ∨ !unitAccepts kind unit x then trapN .format x.place
  let c := x.chan
  if c ≠ 0 ∧ (kind = readKind ∨ unit = rowUnit ∨ badChannel c) then trapN .format x.place
  return { kind := kind, unit := unit, shape := x, channel := c.extractLsb' 24 16, node := c.extractLsb' 52 11, peer := wfield c 0 8 }

/-- A receive buffer bound to a channel (R267). (Log entry 34: DEDUCED, unsafe.) -/
def bindReceiver (q : QReg) (unit : BitVec 2) (a : Reg) : M Stream := do
  let p ← readG a
  let va := addr p
  if va % 16 ≠ 0 then trapN .format va
  let w ← loadM va 16
  let base := field w 0 56
  let ch := BitVec.ofNat 16 (field w 96 16)
  let size := field w 64 32
  if field w 56 8 ≠ 0 ∨ field w 112 16 ≠ 0 ∨ size < 4096 ∨ 1048576 < size ∨ size ≠ 2 ^ (bitLen size - 1) ∨ base % size ≠ 0 then trapN .format va
  let ds ← placeOf va va 16 .load
  let first ← placeOf va base 1 .load
  let last ← placeOf va (base + size - 1) 1 .load
  let t ← getTh
  if !(ds ++ first ++ last).all (ownLocal t) then trapN .format va
  match receiver (← getHearth) ch with
  | some k => if k ≠ q then trapN .format va
  | none => pure ()
  return { kind := receiveKind, unit := unit, shape := ⟨va, []⟩, channel := ch, base := base, size := size }

/-- QBIND, R265. -/
def execQbind (gd : SlotGuard) (q : QReg) (kind unit : BitVec 2) (sh : BitVec 3) (a : Reg) (s : State) : Out :=
  slot gd (do
    let s ← get
    match (← getForge).stream q with
    | some x =>
      if x.held then illegal 7 7
      if x.kind = writeKind ∧ appendsPending s s.th.hearth q then freeze 12
    | none => pure ()
    let x ← if kind = receiveKind then bindReceiver q unit a else bindGenerator kind unit sh
    modForge fun f => f.setStream q (some x)) s

/-- QADV, R268. (Log entry 28: DEDUCED, safe.) -/
def execQadv (gd : SlotGuard) (q : QReg) (a : Reg) (s : State) : Out :=
  slot gd (do
    let x ← useStream 7 q (fun _ => true)
    let n := (← readG a).toNat
    if x.kind = receiveKind then
      if x.units.length < n then freeze 1
      dropUnits q n
    else
      if x.total < x.used + n then illegal 6 7
      if x.kind = writeKind then modStreamQ q fun x => { x with used := x.used + n, position := x.position + n }
      else
        let on := decide (x.position < x.used + n)
        modStreamQ q fun x =>
          { x with used := x.used + n, units := x.units.drop n, position := max x.position (x.used + n),
                   piece := if on then 0 else x.piece, got := if on then [] else x.got }) s

/-- QWAITF, R268. -/
def execQwaitf (gd : SlotGuard) (q : QReg) (n : BitVec 8) (s : State) : Out :=
  slot gd (do
    let x ← useStream 7 q (fun _ => true)
    let room := if x.kind = receiveKind then x.size / (x.units.head?.elim 64 (unitSize x)) else x.capacity
    if room < n.toNat + 1 then illegal 10 7
    if x.units.length < n.toNat + 1 then freeze 8) s

/-- QWAITE, R268. -/
def execQwaite (gd : SlotGuard) (q : QReg) (s : State) : Out :=
  slot gd (do
    match (← getForge).stream q with
    | some x =>
      if x.held then illegal 7 7
      if x.kind ≠ writeKind then illegal 10 7
    | none => illegal 10 7
    let s ← get
    if appendsPending s s.th.hearth q ∨ !s.th.queue.isEmpty then freeze 9) s

end Sys2Proof.Machine
end

