-- ==== Sys2Proof/Machine/Slots.lean ====
section
/-!
DEFINITION. Slots 0 to 3 and 6 of a bundle: control (R250, R260), scalar (R261, R262), vector (R263) and crossbar (R264).
-/

namespace Sys2Proof.Machine

open Sys2Proof

/-! ### Slot 0 -/

/-- The next bundle follows, by the end test (R260). -/
def nextBundle : M Unit := modRegs fun r => endTest 32 (codeAdd r.pc 32) r

/-- The meaning of an operation of slot 0: its effect, which decides the next bundle, or the bundle after this one. -/
def control (gd : SlotGuard) (body : M Unit) (s : State) : Out :=
  outcome (do if (← getRegs).slotGuard gd then body else nextBundle) s

/-- BBR, R260. -/
def execBbr (gd : SlotGuard) (off : BitVec 22) (s : State) : Out :=
  control gd (modRegs fun r => jumpFrom 32 r.depth ((r.pc + branchOffset 32 off) &&& pcMask) r) s

/-- BLOOP, R260. -/
def execBloop (gd : SlotGuard) (d : Reg) (len : BitVec 12) (s : State) : Out :=
  control gd (do
    let r ← getRegs
    let c := (r.rg d).toNat
    let start := codeAdd r.pc 32
    let stop := codeAdd start (natWord (32 * len.toNat))
    if c ≠ 0 ∧ r.loopBlocked 32 stop then illegal 8 0
    else if 0x3FFFFFF < c then trapN .format c
    else if c = 0 then modRegs fun r => endTest 32 stop r
    else modRegs fun r => r.openLoop start c len) s

/-- BLEAVE, R250: the pipeline drains from the next cycle on, and the thread goes on after the bundle. -/
def execBleave (gd : SlotGuard) (s : State) : Out :=
  control gd (do
    modForge fun f => { f with leaving := true }
    modRegs fun r => { r with pc := codeAdd r.pc 32 }) s

/-- BWAITTL, R260. -/
def execBwaittl (gd : SlotGuard) (a : Reg) (e : BitVec 3) (s : State) : Out :=
  control gd (do
    let n := (← readG a).toNat
    let l := (← getTh).timeline e.toNat
    if l.last < n then trapN .format n
    if l.completed < n then freeze 6
    nextBundle) s

/-- The result of the barrier at which the current thread has arrived; it stays until the bundle issues. -/
def barrierResult : M (Option Word) := do
  let s ← get
  match openCollective s s.th.id with
  | none => return none
  | some i =>
    match (domainGet s i).bind (·.resultOf s.th.id) with
    | none => freeze 7
    | some r =>
      modify (modDomain i fun d => { d with results := d.results.filter fun x => decide (x.1 ≠ s.th.id) })
      match r with
      | .value w => return some w
      | .trap c v => trap c v

/-- BSYNC, R260: an arrival is made once, and the pipeline freezes until the barrier completes. -/
def execBsync (gd : SlotGuard) (d a : Reg) (l : BitVec 3) (s : State) : Out :=
  control gd (do
    let w ← readG a
    if l = 0 then
      emitG 0 d w 1
      nextBundle
    else
      match ← barrierResult with
      | some x =>
        emitG 0 d x 1
        nextBundle
      | none =>
        let i ← barrierDomain l.toNat
        let s ← get
        if awaitsRelease l.toNat s s.th then freeze 7
        if scopeHearth < l.toNat then modify fun s => drainHearth s.th.view s
        modify fun s => modDomain i (fun x => x.arriveOnce { t := s.th.id, kind := .sync, operand := w, dst := d }) s
        freeze 7) s

/-- NOP, R139: an empty slot; an empty slot 0 lets the bundle after this one follow. -/
def execNop (k : BitVec 3) (s : State) : Out := outcome (if k = 0 then nextBundle else pure ()) s

/-! ### Slot 1 -/

/-- The second operand of ops 1 to 8 (R261). -/
def scalarOperand (b : Reg) (i : BitVec 1) (x : BitVec 6) (r : Regs) : Word :=
  if i = 1 then (b ++ x).signExtend 64 else r.rg b

/-- A scalar slot G[d] := f(G[a], y). -/
def scalarSlot (gd : SlotGuard) (f : Word → Word → Word) (d a b : Reg) (i : BitVec 1) (x : BitVec 6) (s : State) : Out :=
  slot gd (do
    let r ← getRegs
    emitG 1 d (f (r.rg a) (scalarOperand b i x r)) 1) s

/-- SADD, R261. -/
def execSadd (gd : SlotGuard) (d a b : Reg) (i : BitVec 1) (x : BitVec 6) (s : State) : Out := scalarSlot gd valAdd d a b i x s
/-- SSUB, R261. -/
def execSsub (gd : SlotGuard) (d a b : Reg) (i : BitVec 1) (x : BitVec 6) (s : State) : Out := scalarSlot gd valSub d a b i x s
/-- SMUL, R261. -/
def execSmul (gd : SlotGuard) (d a b : Reg) (i : BitVec 1) (x : BitVec 6) (s : State) : Out := scalarSlot gd valMul d a b i x s
/-- SAND, R261. -/
def execSand (gd : SlotGuard) (d a b : Reg) (i : BitVec 1) (x : BitVec 6) (s : State) : Out := scalarSlot gd valAnd d a b i x s
/-- SOR, R261. -/
def execSor (gd : SlotGuard) (d a b : Reg) (i : BitVec 1) (x : BitVec 6) (s : State) : Out := scalarSlot gd valOr d a b i x s
/-- SXOR, R261. -/
def execSxor (gd : SlotGuard) (d a b : Reg) (i : BitVec 1) (x : BitVec 6) (s : State) : Out := scalarSlot gd valXor d a b i x s
/-- SSHL, R261. -/
def execSshl (gd : SlotGuard) (d a b : Reg) (i : BitVec 1) (x : BitVec 6) (s : State) : Out := scalarSlot gd valShl d a b i x s
/-- SSHR, R261. -/
def execSshr (gd : SlotGuard) (d a b : Reg) (i : BitVec 1) (x : BitVec 6) (s : State) : Out := scalarSlot gd valShr d a b i x s

/-- SLI, R261. -/
def execSli (gd : SlotGuard) (d : Reg) (i : BitVec 17) (s : State) : Out := slot gd (emitG 1 d (imm17 i) 1) s

/-- SCMP, R261. -/
def execScmp (gd : SlotGuard) (d : PReg) (a b : Reg) (i : BitVec 1) (c : BitVec 3) (s : State) : Out :=
  slot gd (do
    let r ← getRegs
    emitP 1 d (condition c.toNat (r.rg a) (if i = 1 then b.signExtend 64 else r.rg b)) 1) s

/-- SMOVQ in direction 0, R262. -/
def execSmovqPop (gd : SlotGuard) (d : Reg) (q : QReg) (s : State) : Out :=
  slot gd (do
    let (x, u) ← popUnit 1 q scalarUnit
    emitG 1 d (scalarValue x u) 1) s

/-- SMOVQ in direction 1, R262. -/
def execSmovqAppend (gd : SlotGuard) (q : QReg) (a : Reg) (s : State) : Out :=
  slot gd (do appendUnit 1 q scalarUnit (.scalar (← readG a)) 1) s

/-! ### Slots 2 and 3 -/

/-- The number of a vector slot. (Log entry 29: DEDUCED, unsafe.) -/
def vectorSlot (sl : BitVec 1) : Nat := if sl = 0 then 2 else 3

/-- The type4 of a vector slot's ty: f32, bf16, s32, s8 (R141). -/
def slotType (ty : BitVec 2) : BitVec 4 := [0#4, 1#4, 7#4, 5#4].getD ty.toNat 0

/-- A strand form's effect on vectors x, y and z, which stand in v0, v1 and v2 of an otherwise equal register file: v2 and the
flags after it. -/
def onVectors (f : Regs → Regs) (x y z : Vec) (r : Regs) : Vec × BitVec 6 :=
  let r' := f ((((({ r with flags := 0 } : Regs).wv 0 x).wv 1 y).wv 2 z))
  (r'.rv 2, r'.flags)

/-- BVADD, BVMUL and BVMAX (R263): a strand form of the type applied to two operands. -/
def vectorBinary (gd : SlotGuard) (f : BitVec 4 → Regs → Regs) (sl : BitVec 1) (d a b : Reg) (ty : BitVec 2) (qa qb qd : BitVec 1)
    (s : State) : Out :=
  slot gd (do
    let k := vectorSlot sl
    let x ← vectorOperand k qa a
    let y ← vectorOperand k qb b
    let (v, fl) := onVectors (f (slotType ty)) x y 0 (← getRegs)
    raiseFlags fl
    vectorResult k qd d v 3) s

/-- A float form for f32 and bf16, an integer form for s32 and s8. -/
def byType (f g : BitVec 4 → Regs → Regs) (t : BitVec 4) : Regs → Regs := if t.toNat ≤ 4 then f t else g t

/-- BVADD, R263. -/
def execBvadd (gd : SlotGuard) (sl : BitVec 1) (d a b : Reg) (ty : BitVec 2) (qa qb qd : BitVec 1) (s : State) : Out :=
  vectorBinary gd (byType (fun t => effFloat3 (fun f rd x y _ => f.add rd x y) t 2 0 1) (fun t => effInt (· + ·) t 2 0 1))
    sl d a b ty qa qb qd s

/-- BVMUL, R263. -/
def execBvmul (gd : SlotGuard) (sl : BitVec 1) (d a b : Reg) (ty : BitVec 2) (qa qb qd : BitVec 1) (s : State) : Out :=
  vectorBinary gd (byType (fun t => effFloat3 (fun f rd x y _ => f.mul rd x y) t 2 0 1) (fun t => effInt (· * ·) t 2 0 1))
    sl d a b ty qa qb qd s

/-- BVMAX, R263. -/
def execBvmax (gd : SlotGuard) (sl : BitVec 1) (d a b : Reg) (ty : BitVec 2) (qa qb qd : BitVec 1) (s : State) : Out :=
  vectorBinary gd (byType (fun t => effVpick true t 2 0 1) (fun t => effInt (fun x y => if x < y then y else x) t 2 0 1))
    sl d a b ty qa qb qd s

/-- BVFMA, R263: the old D is read at issue. -/
def execBvfma (gd : SlotGuard) (sl : BitVec 1) (d a b : Reg) (ty : BitVec 2) (qa qb : BitVec 1) (s : State) : Out :=
  slot gd (do
    let k := vectorSlot sl
    let x ← vectorOperand k qa a
    let y ← vectorOperand k qb b
    let r ← getRegs
    let (v, fl) := onVectors (effFloat3 (fun f rd x y z => f.fma rd x y z) (slotType ty) 2 0 1) x y (r.rv d) r
    raiseFlags fl
    emit k (.v d) (.vector v) 4) s

/-- The conversion codes of BVCVT (R263): 0, 4, 10 and 12. -/
def slotConversion (ty : BitVec 2) : BitVec 4 := [0#4, 4#4, 10#4, 12#4].getD ty.toNat 0

/-- BVCVT, R263. -/
def execBvcvt (gd : SlotGuard) (sl : BitVec 1) (d a : Reg) (ty : BitVec 2) (qa qd : BitVec 1) (mode : BitVec 3) (s : State) : Out :=
  slot gd (do
    let k := vectorSlot sl
    let x ← vectorOperand k qa a
    let (v, fl) := onVectors (effVcvt 0 2 0 mode 0 (slotConversion ty)) x 0 0 (← getRegs)
    raiseFlags fl
    vectorResult k qd d v 4) s

/-- BVQNT, R263: the exponent is a second result; g0 discards it. -/
def execBvqnt (gd : SlotGuard) (sl : BitVec 1) (d a b : Reg) (ty : BitVec 2) (qa qd : BitVec 1) (s : State) : Out :=
  slot gd (do
    let k := vectorSlot sl
    let x ← vectorOperand k qa a
    let (v, e, fl) := quantiseVec (if ty.getLsbD 0 then bf16 else f32) (if ty.getLsbD 1 then 8 else 16) x
    raiseFlags fl
    vectorResult k qd d v 4
    emitG k b (BitVec.ofInt 64 e) 4) s

/-- The reductions of BVCMP (R263): any, all, element 0. -/
def reduceBits (mode : BitVec 2) (bs : List Bool) : Bool :=
  match mode.toNat with
  | 0 => bs.any id
  | 1 => bs.all id
  | _ => bs.headD false

/-- BVCMP, R263. -/
def execBvcmp (gd : SlotGuard) (sl : BitVec 1) (d : PReg) (a b : Reg) (ty : BitVec 2) (mode : BitVec 2) (c : BitVec 3) (s : State) : Out :=
  slot gd (do
    let r ← getRegs
    let cs := conditions (slotType ty) c.toNat r.ftz (r.rv a) (r.rv b)
    raiseFlags (orFlags (cs.map (·.2)))
    emitP (vectorSlot sl) d (reduceBits mode (cs.map (·.1))) 2) s

/-- BVSEL, R263. -/
def execBvsel (gd : SlotGuard) (sl : BitVec 1) (d a b : Reg) (p : PReg) (s : State) : Out :=
  slot gd (do
    let r ← getRegs
    emit (vectorSlot sl) (.v d) (.vector (if r.rp p then r.rv a else r.rv b)) 1) s

/-- BVMOV, R263. -/
def execBvmov (gd : SlotGuard) (sl : BitVec 1) (d a : Reg) (qa qd : BitVec 1) (s : State) : Out :=
  slot gd (do
    let k := vectorSlot sl
    let x ← vectorOperand k qa a
    vectorResult k qd d x 1) s

/-! ### Slot 6 -/

/-- Width in bits of a crossbar element (R264). -/
def crossBits (w : BitVec 2) : Nat := 8 * 2 ^ w.toNat

/-- The element that XPERM drives to place j, or 0. -/
def driven (as bs : List Nat) (n j : Nat) : Nat :=
  ((as.zip bs).find? fun p => decide (p.2 % n = j)).elim 0 (·.1)

/-- Two elements of B name one place. -/
def doubleDrive (n : Nat) (bs : List Nat) : Bool := decide ((bs.map (· % n)).eraseDups.length ≠ bs.length)

/-- XPERM, R264. -/
def execXperm (gd : SlotGuard) (d a b : Reg) (w : BitVec 2) (s : State) : Out :=
  slot gd (do
    let r ← getRegs
    let k := crossBits w
    let n := 512 / k
    let as := lanes k (r.rv a)
    let bs := lanes k (r.rv b)
    if doubleDrive n bs then illegal 2 6
    emit 6 (.v d) (.vector (fromLanes k ((List.range n).map (driven as bs n)))) 2) s

/-- XBCAST, R264. -/
def execXbcast (gd : SlotGuard) (d a : Reg) (w : BitVec 2) (i : BitVec 6) (s : State) : Out :=
  slot gd (do
    let k := crossBits w
    let x := lane k ((← getRegs).rv a) i.toNat
    emit 6 (.v d) (.vector (fromLanes k (List.replicate (512 / k) x))) 2) s

/-- XROT, R264: element i goes to place i + s modulo n. -/
def execXrot (gd : SlotGuard) (d a : Reg) (w : BitVec 2) (i : BitVec 6) (s : State) : Out :=
  slot gd (do
    let k := crossBits w
    let n := 512 / k
    let v := (← getRegs).rv a
    emit 6 (.v d) (.vector (fromLanes k ((List.range n).map fun j => lane k v ((j + (n - i.toNat % n)) % n)))) 2) s

end Sys2Proof.Machine
end

