-- ==== Sys2Proof/Machine/Anvil.lean ====
section
/-!
DEFINITION. The Anvil (R64, R65, R271 to R276): weight tiles and banks, rows of A, partial sums, the scale port, and the drain of
accumulator rows.
-/

namespace Sys2Proof.Machine

open Sys2Proof

/-! ### Tiles and rows (R59 to R61, R266, R271) -/

/-- Bytes of one row of A, or of one column of a tile: 256 elements along K. -/
def lineBytes (k len : Nat) : Nat := 256 / len * blockBytes k len

/-- Block b of column j of the tile in a bank, read at pw planes (R61, R271). -/
def Bank.block (x : Bank) (pw j b : Nat) : Int × List Int :=
  let k := (nestedPlanes x.fmt).getD 2
  let len := blockLen x.blk
  let off := j * lineBytes k len + b * blockBytes k len
  readBlock (fun i => Mem.get x.data (off + i)) k len pw

/-- The blocks of one line of 256 elements. -/
def Bank.column (x : Bank) (pw j : Nat) : List (Int × List Int) := (List.range (256 / blockLen x.blk)).map (x.block pw j)

/-- A row of A from its bytes. -/
def rowOf (fmt blk : Nat) (bs : List Byte) : Row :=
  let k := (nestedPlanes fmt).getD 2
  let len := blockLen blk
  let n := blockBytes k len
  { fmt := fmt, len := blk + 3,
    blocks := (List.range (256 / len)).map fun b =>
      let chunk := (bs.drop (b * n)).take n
      readBlock (fun i => chunk.getD i 0) k len k }

/-- The integer that a read of the first n of K planes yields for an integer of K planes (R61). -/
def truncPlanes (k n : Nat) (x : Int) : Int := x / 2 ^ (k - n) * 2 ^ (k - n) + (if n < k then 2 ^ (k - 1 - n) else 0)

/-- A row's blocks read at pa planes. -/
def Row.read (x : Row) (pa : Nat) : List (List Int) :=
  let k := (nestedPlanes x.fmt).getD 2
  x.blocks.map fun b => b.2.map (truncPlanes k pa)

def Row.exps (x : Row) : List Int := x.blocks.map (·.1)

/-- Σ a' × b' over a block (R65). -/
def dot (xs ys : List Int) : Int := ((xs.zip ys).map fun p => p.1 * p.2).sum

/-- The partial sums S of a row against a tile: per column, per K-block (R65). -/
def rowSums (x : Row) (pa : Nat) (b : Bank) (pw : Nat) : List (List Int) :=
  let as := x.read pa
  (List.range 256).map fun j => (as.zip (b.column pw j)).map fun p => dot p.1 p.2.2

/-- The block exponents of a tile's columns. -/
def Bank.exps (x : Bank) : List (List Int) := (List.range 256).map fun j => (x.column x.planes j).map (·.1)

/-- A row and a tile may be multiplied (R64, R273). -/
def suits (x : Row) (pa : Nat) (b : Bank) : Bool :=
  match nestedPlanes x.fmt with
  | some k => decide (x.len = b.blk + 3 ∧ pa ≤ k)
  | none => false

/-- A bank that is valid for a thread (R255, R276, R280). -/
def Bank.usable (x : Bank) (asid : BitVec 10) (secure : Bool) : Bool :=
  x.valid && decide (x.asid = asid ∧ x.secure = secure) && x.pinned.isNone

/-- A bank after a load (R271): its old tile stays until the load has completed, as far as rows in flight read it. -/
def Bank.load (x : Bank) (asid : BitVec 10) (secure : Bool) (l : Loader) (va : Nat) (tag : Word) (planes : Nat)
    (data : List Host.Cell) (cycles : Option Nat) (defer : Nat := 0) : Bank :=
  { x with defer := defer, valid := true, fmt := ptrFmt tag, blk := ptrBlk tag, planes := planes, asid := asid, secure := secure, loader := l,
           va := va, loading := cycles, data := data }

def Hearth.bank (x : Hearth) (b : BitVec 1) : Bank := x.banks.toList.getD b.toNat {}
def Hearth.setBank (x : Hearth) (b : BitVec 1) (y : Bank) : Hearth := { x with banks := x.banks.setIfInBounds b.toNat y }

/-- A tag that a weight tile may have, with at least pw planes (R64, R271). (Log entry 32: DEDUCED, unsafe.) -/
def tileTag (w : Word) (pw : Nat) : Option (Nat × Nat) :=
  match nestedPlanes (ptrFmt w) with
  | some k => if k ≤ 8 ∧ 2 ≤ ptrBlk w ∧ ptrBlk w ≤ 5 ∧ pw ≤ k then some (k, blockLen (ptrBlk w)) else none
  | none => none

/-- Bytes as cells by offset, zeros unlisted. -/
def cellsOf (bs : List Byte) : List Host.Cell := (bs.zipIdx.filter fun p => p.1 ≠ 0).map fun p => (p.2, p.1)

/-- Bytes read by the current thread, in pieces of at most 4,096 that lie in one page. -/
def loadBytes (va : Nat) : Nat → Nat → M (List Byte)
  | 0, _ => pure []
  | fuel + 1, n => do
    if n = 0 then return []
    let k := min n (4096 - va % 4096)
    let x ← loadM va k
    return natToBytes k x ++ (← loadBytes ((va + k) % 2 ^ 56) fuel (n - k))

/-- n blocks of the tile layout as far as planes 0 to pw − 1, the other planes zero (R61), by a reader of bytes. -/
def readPlanesWith (read : Nat → Nat → M (List Byte)) (k len pw : Nat) : Nat → Nat → M (List Byte)
  | _, 0 => pure []
  | va, n + 1 => do
    let got := 1 + pw * (len / 8)
    let bs ← read va got
    let rest ← readPlanesWith read k len pw ((va + blockBytes k len) % 2 ^ 56) n
    return bs ++ List.replicate (blockBytes k len - got) 0 ++ rest

/-! ### AWLD, ASWAP (R271, R272) -/

/-- Cycles of a load of pw planes (R20, R251): 32 × pw from local memory, and the nominal figure of the ingot store.
(Log entry 31: DEDUCED, safe.) -/
def loadCycles (pa pw : Nat) : Nat := if (localHearth pa).isSome then 32 * pw else (315 * pw + 7) / 8

/-- AWLD, R271. (Log entries 31: DEDUCED, safe; 32: DEDUCED, unsafe.) -/
def execAwld (gd : SlotGuard) (bank : BitVec 1) (src : BitVec 2) (a : Reg) (pw : BitVec 3) (s : State) : Out :=
  slot gd (do
    let n := pw.toNat + 1
    let t ← getTh
    let x ← getHearth
    if src = 1 then
      if (x.bank bank).pinned.isSome then trapN .format 0
      if (x.bank bank).loading.isSome then freeze 5
      match x.bankQueue.toList.getD bank.toNat [] with
      | [] => freeze 5
      | (data, tag, planes) :: rest =>
        if (tileTag tag n).isNone then trap .format tag
        modPipe fun x => { x.setBank bank ((x.bank bank).load t.id.asid t.secure .awld 0 tag (min n planes) data none) with
          bankQueue := x.bankQueue.setIfInBounds bank.toNat rest }
    else
      let p ← readG a
      match tileTag p n with
      | none => trap .format p
      | some (k, len) =>
        let va := addr p
        if va % 64 ≠ 0 then trapN .misaligned va
        let ps ← placeOf va va 1 .load
        let place := ps.headD ⟨va, 0, none⟩
        if place.node.isSome ∨ !((localHearth place.pa).isSome || (ingotDie place.pa).isSome) ∨ (x.bank bank).pinned.isSome then trap .format p
        if (x.bank bank).loading.isSome then freeze 5
        let bs ← readPlanesWith (fun a m => loadBytes a 2 m) k len n va (256 * (256 / len))
        let defer := if x.forge.busyBank = bank then x.forge.busy else 0
        modPipe fun x => x.setBank bank
          ((x.bank bank).load t.id.asid t.secure .awld va p n (cellsOf bs) (some (loadCycles place.pa n)) defer)) s

/-- A load under way counts its cycles, once the rows in flight against its bank have finished. (Log entry 31: DEDUCED, safe.) -/
def Bank.tick (x : Bank) : Bank := if x.defer = 0 then { x with loading := x.loading.map (· - 1) } else x

/-- BANK_LOAD_COMPLETE, R271: a load whose cycles have passed is complete. (Log entry 31: DEDUCED, safe.) -/
def execBankLoadComplete (hearth : Nat) (bank : BitVec 1) (s : State) : Out :=
  .next (
    let x := hearthOf s hearth
    let b := x.bank bank
    if b.loading = some 0 then putHearth s hearth (x.setBank bank { b with loading := none }) else s)

/-- ASWAP of slot 4, R272. -/
def execAswapSlot (gd : SlotGuard) (set bank : BitVec 1) (s : State) : Out :=
  slot gd (modForge fun f => { f with sel := if set = 1 then bank else ~~~f.sel }) s

/-! ### AISS (R273) -/

/-- The rows that an AISS broadcasts: of the row buffer, or at the head of a stream, popped if it takes effect. -/
def rowsFor (q : QReg) (rb : BitVec 1) (n : Nat) : M (List Row) := do
  if rb = 1 then
    let f ← getForge
    if f.rowBuf.length < n then illegal 12 4
    return f.rowBuf.take n
  else
    let x ← useStream 4 q (Stream.popsUnit rowUnit)
    let us ← headUnits 4 x n
    raiseFaulty us
    return us.map fun u => match u with
      | .bytes fmt blk bs => rowOf fmt blk bs
      | _ => { fmt := 0, len := 0, blocks := [] }

/-- AISS, R273. -/
def execAiss (gd : SlotGuard) (q : QReg) (rb two : BitVec 1) (pa : BitVec 4) (r : BitVec 7) (s : State) : Out :=
  slot gd (do
    let t ← getTh
    let x ← getHearth
    let f := x.forge
    let bank := x.bank f.sel
    let n := 1 + two.toNat
    let p := pa.toNat + 1
    if !bank.usable t.id.asid t.secure then illegal 11 4
    if f.busy ≠ 0 then illegal 3 4
    if 16 ≤ f.expQueue.length then illegal 4 4
    if 127 < r.toNat + two.toNat then illegal 9 4
    let rows ← rowsFor q rb n
    if !rows.all (fun y => suits y p bank) then trapN .format 0
    if bank.loading.isSome then freeze 4
    if rb = 0 then
      dropUnits q n
      modForge fun f => { f with rowBuf := rows }
    let sums : PortSums := { remain := p + 8, rows := rows.map fun y => rowSums y p bank bank.planes, index := f.issued,
                             fmtA := (rows.headD ⟨0, 0, []⟩).fmt, fmtB := bank.fmt, len := blockLen bank.blk }
    let entry : ExpEntry := { exps := rows.map Row.exps, tile := bank.exps, r := r.toNat, two := decide (two = 1) }
    modForge fun f => { f with expQueue := f.expQueue ++ [entry], port := f.port ++ [sums], issued := f.issued + 1, busy := p, busyBank := f.sel }) s

/-! ### The scale port (R274) -/

/-- Events of an addition: a cell's ALIGN_LOSS or saturation where it was clear before (R67, R75). -/
def addEvents (a b : Cell) (row col seg fmtA fmtB : Nat) : List ProvEvent :=
  (if b.saturated ∧ !a.saturated then [⟨3, row, col, seg, fmtA, fmtB⟩] else [])
    ++ (if b.alignLoss ∧ !a.alignLoss then [⟨5, row, col, seg, fmtA, fmtB⟩] else [])

/-- One event of an accumulation: a drain event that was recorded first gives way to it (R76). -/
def Prov.noteSum (p : Prov) (e : ProvEvent) : Prov :=
  if p.w0.getLsbD 63 ∧ p.w1.extractLsb' 32 32 = BitVec.allOnes 32 then
    let q := ({} : Prov).note e
    { q with w1 := q.w1 ||| (p.w1.extractLsb' 0 5).setWidth 64 }
  else p.note e

/-- The additions of one column: the cell, its events, and how many exponents the entry does not give (R274).
(Log entries 30: DESIGN CHOICE, safe; 84: DEDUCED, unsafe.) -/
def addColumn (sums ea eb : List Int) (bias free : Int) (row col index len fmtA fmtB : Nat) (c : Cell) : Cell × List ProvEvent :=
  sums.zipIdx.foldl (fun (acc : Cell × List ProvEvent) (x, b) =>
    let e := match ea[b]?, eb[b]? with
      | some p, some q => p + q + bias
      | _, _ => free
    let c' := exactAdd { acc.1 with saturated := false, alignLoss := false } x e
    let ev := addEvents {} c' row col (segmentOf (8 * index + b * len / 32)) fmtA fmtB
    ({ c' with saturated := acc.1.saturated || c'.saturated, alignLoss := acc.1.alignLoss || c'.alignLoss }, acc.2 ++ ev)) (c, [])

/-- The sums of one row added into an accumulator row. -/
def addRow (p : PortSums) (sums : List (List Int)) (ea : List Int) (tile : List (List Int)) (bias free : Int) (row : Nat)
    (f : ForgeState) : ForgeState :=
  let start : List (Nat × Cell) × List ProvEvent := (f.cells, [])
  let (cells, evs) := sums.zipIdx.foldl (fun (acc : List (Nat × Cell) × List ProvEvent) (xs, j) =>
    let (c, ev) := addColumn xs ea (tile.getD j []) bias free row j p.index p.len p.fmtA p.fmtB (cellAt acc.1 (row * 256 + j))
    (putCell acc.1 (row * 256 + j) c, acc.2 ++ ev)) start
  { f with cells := cells, rowFmts := insert f.rowFmts row (p.fmtA, p.fmtB), prov := (sortEvents evs).foldl Prov.noteSum f.prov }

/-- SCEXP, R274. (Log entry 30: DESIGN CHOICE, safe.) -/
def execScexp (gd : SlotGuard) (a : Reg) (s : State) : Out :=
  slot gd (do
    let bias := signed 16 (← readG a).toNat
    let f ← getForge
    match f.port.find? (fun p => decide (p.remain = 0)), f.expQueue with
    | some p, e :: rest =>
      let w ← drawFree
      let free := signed 16 w.toNat
      let row (i : Nat) (f : ForgeState) : ForgeState :=
        match p.rows[i]?, e.exps[i]? with
        | some sums, some ea => addRow p sums ea e.tile bias free (e.r + i) f
        | _, _ => f
      let f := row 1 (row 0 f)
      modForge fun _ => { f with expQueue := rest, port := f.port.filter (fun x => decide (x.remain ≠ 0)),
                                 scexpMiss := f.scexpMiss || decide (e.exps.length < p.rows.length) }
    | some _, [] => modForge fun f => { f with port := f.port.filter (fun x => decide (x.remain ≠ 0)), scexpMiss := true }
    | none, _ => modForge fun f => { f with scexpIdle := true }) s

/-- The end of a cycle at the scale port: sums that still stand there are lost, and the others come nearer (R274). -/
def portCycle : M Unit :=
  modForge fun f =>
    { f with scexpMiss := f.scexpMiss || f.port.any (fun p => decide (p.remain = 0)),
             port := (f.port.filter fun p => decide (p.remain ≠ 0)).map fun p => { p with remain := p.remain - 1 } }

/-- SCALE_PORT_SUMS, R274. -/
def execScalePortSums (hearth : Nat) (s : State) : Out := asSeat hearth portCycle s

/-! ### AZERO, ASHOUT (R275) -/

/-- Accumulator rows cleared. -/
def ForgeState.clearRows (f : ForgeState) (r n : Nat) : ForgeState :=
  { f with cells := f.cells.filter (fun c => !decide (r * 256 ≤ c.1 ∧ c.1 < (r + n) * 256)),
           rowFmts := f.rowFmts.filter fun c => !decide (r ≤ c.1 ∧ c.1 < r + n) }

/-- AZERO, R275. -/
def execAzero (gd : SlotGuard) (r n : BitVec 7) (s : State) : Out :=
  slot gd (do
    if 127 < r.toNat + n.toNat then illegal 9 4
    modForge fun f => f.clearRows r.toNat (n.toNat + 1)) s

/-- Format codes of a drain: f32, bf16, s32, raw (R275). -/
def drainFormat (fmt : BitVec 2) : Nat := [1, 2, 8, 0].getD fmt.toNat 0

/-- ASHOUT, R275: its rows are read from the third cycle on. -/
def execAshout (gd : SlotGuard) (q : QReg) (fmt : BitVec 2) (clr : BitVec 1) (r n : BitVec 7) (s : State) : Out :=
  slot gd (do
    if (← getForge).drain.isSome then illegal 3 4
    let x ← useStream 4 q (fun x => x.drain && decide (x.shape.fmt = drainFormat fmt))
    if 127 < r.toNat + n.toNat then illegal 9 4
    reserveAppends 4 q x (n.toNat + 1)
    modForge fun f =>
      { f with drain := some { q := q, fmt := drainFormat fmt, clr := decide (clr = 1), r := r.toNat, n := n.toNat + 1, wait := 3 } }) s

/-- A cell converted for a drain: its bytes, its flags, and the causes it records (R69, R70, R75).
(Log entry 145: DESIGN CHOICE, unsafe.) -/
def drainCell (fmt : Nat) (ftz : Bool) (c : Cell) : List Byte × BitVec 6 × List Nat :=
  match floatFmt fmt with
  | some f =>
    let (v, fl) := c.toFloat f 0 ftz
    (natToBytes (f.width / 8) v, fl, if f.decode v = .inf false ∨ f.decode v = .inf true then [2] else [])
  | none =>
    if fmt = 8 then
      let (v, sat, inexact) := c.toS32
      (natToBytes 4 (unsignedBits 32 v), flagIf sat flagNV ||| flagIf (inexact && !sat) flagNX, if sat then [3] else [])
    else (c.words.flatMap fun w => natToBytes 8 w.toNat, 0, [])

/-- A row of 256 cells drained: bytes, flags, events (R76, R275). -/
def drainRow (fmt : Nat) (ftz : Bool) (row : Nat) (fmts : Nat × Nat) (cell : Nat → Cell) : List Byte × BitVec 6 × List ProvEvent :=
  (List.range 256).foldl (fun (acc : List Byte × BitVec 6 × List ProvEvent) j =>
    let (bs, fl, cs) := drainCell fmt ftz (cell j)
    (acc.1 ++ bs, acc.2.1 ||| fl, acc.2.2 ++ cs.map fun c => ⟨c, row, j, drainSegment, fmts.1, fmts.2⟩)) ([], 0, [])

/-- The drain's part of a cycle: a row whose cycle has come is read, and cleared if the drain clears; it lands two cycles later.
(Log entry 29: DEDUCED, unsafe.) -/
def drainCycle : M Unit := do
  let f ← getForge
  match f.drain with
  | none => pure ()
  | some d =>
    if d.k = d.n then modForge fun f => { f with drain := none }
    else if 1 < d.wait then modForge fun f => { f with drain := some { d with wait := d.wait - 1 } }
    else
      let row := d.r + d.k
      let (bs, fl, evs) := drainRow d.fmt (← getRegs).ftz row (lookup (0, 0) f.rowFmts row) fun j => cellAt f.cells (row * 256 + j)
      raiseFlags fl
      modForge fun f =>
        let f := if d.clr then f.clearRows row 1 else f
        { f with prov := f.prov.noteAll evs, drain := some { d with k := d.k + 1, wait := 1 },
                 drained := f.drained ++ [(d.q, 3, .bytes d.fmt 0 bs)] }

/-- ASHOUT_ROW_DRAIN, R275. -/
def execAshoutRowDrain (hearth : Nat) (s : State) : Out := asSeat hearth drainCycle s

/-! ### APROV (R276) -/

/-- The Anvil status word (R276). -/
def anvilStatus (x : Hearth) (t : Thread) : Word :=
  let b0 := x.bank 0
  let b1 := x.bank 1
  natWord (x.forge.sel.toNat * 64 + ofBool b1.loading.isSome * 32 + ofBool b0.loading.isSome * 16
    + ofBool (b1.usable t.id.asid t.secure) * 8 + ofBool (b0.usable t.id.asid t.secure) * 4
    + ofBool x.forge.scexpMiss * 2 + ofBool x.forge.scexpIdle)

/-! ### Provenance collection (R422) -/

/-- Entries of a die's ring, while collection is on. (Log entry 158: DEDUCED, unsafe.) -/
def provRoom (d : Die) : Option Nat :=
  let n := wfield d.provctl 0 5
  if d.provctl.getLsbD 63 ∧ 12 ≤ n ∧ n ≤ 24 then some (2 ^ n / 32) else none

/-- A valid record of a thread's operation appended to the ring of its hearth's die: kind 0 an AISS sequence, 1 a group, 2 a GMM.
(Log entry 158: DEDUCED, unsafe.) -/
def collectProv (h kind : Nat) (t : Thread) (p : Prov) (s : State) : State :=
  let d := dieOf s (dieOfHearth h)
  match provRoom d with
  | none => s
  | some n =>
    if !p.w0.getLsbD 63 then s
    else
      let words := [p.w0, p.w1, natWord (wfield t.domset 48 16 * 2 ^ 48 + kind), natWord (t.id.ctx.toNat * 4096 + t.id.asid.toNat)]
      putDie { s with mem := writeWords (wfield d.provctl 12 40 * 4096 + 32 * (d.provWritten.toNat % n)) words s.mem } (dieOfHearth h)
        { d with provWritten := countUp 32 d.provWritten }

/-- The record of the AISS sequence that the current thread ends. (Log entry 158: DEDUCED, unsafe.) -/
def collectSequence (s : State) : State := collectProv s.th.hearth 0 s.th (hearthOf s s.th.hearth).forge.prov s

/-- APROV, R276. -/
def execAprov (gd : SlotGuard) (d : Reg) (st clr : BitVec 1) (s : State) : Out :=
  slot gd (do
    let t ← getTh
    let x ← getHearth
    if st = 1 then
      emitG 4 d (anvilStatus x t) 2
      if clr = 1 then modForge fun f => { f with scexpMiss := false, scexpIdle := false }
    else
      emitG 4 d x.forge.prov.w0 2
      emitG 4 (d + 1) x.forge.prov.w1 2
      if clr = 1 then
        modify collectSequence
        modForge fun f => { f with prov := {}, issued := 0 }) s

end Sys2Proof.Machine
end

