-- ==== Sys2Proof/Machine/Sequencer.lean ====
section
/-!
DEFINITION. The forge seat (R29, R43, R249, R259, R380), the drain that BLEAVE starts (R250), and the freeze watchdog (R382).
-/

namespace Sys2Proof.Machine

open Sys2Proof

/-! ### Granting the seat -/

/-- Spill slots of a hearth (R259). -/
def spillSlots (x : Hearth) : Nat := min 8 (wfield x.forgespill 60 4)

/-- The number of a free spill slot. -/
def freeSpill (x : Hearth) : Option Nat := (List.range (spillSlots x)).find? fun k => x.spill.all fun e => decide (e.1 ≠ k)

/-- The thread to which the seat goes next (R29, R259), of those that may have it: the first in the queue, but the owner of the state
in place when that state cannot be spilled; none where nobody can be granted it. -/
def seatCandidate (ok : ThreadId → Bool) (x : Hearth) : Option ThreadId :=
  match x.forgeQueue.find? ok, x.owner with
  | none, _ => none
  | some t, none => some t
  | some t, some o =>
    if t = o ∨ (freeSpill x).isSome then some t else if x.forgeQueue.contains o && ok o then some o else none

/-- The banks after others are put in their place: a pinned bank stays (R280, R309). -/
def swapBanks (now new : Vector Bank 2) : Vector Bank 2 :=
  Vector.ofFn fun i => if (now.get i).pinned.isSome then now.get i else new.get i

/-- The words that a spill leaves in its slot, whose layout is open: 1 MiB of them at the slot's place.
(Log entry 141: DESIGN CHOICE, safe.) -/
def writeSlot (x : Hearth) (k : Nat) (s : State) : State :=
  let a := wfield x.forgespill 20 32 * 2 ^ 20 + k * 2 ^ 20
  { s with mem := writeWords a ((List.range 131072).map fun i => Config.freeValue (s.freeCount + i)) s.mem, freeCount := s.freeCount + 131072 }

/-- The state in place is written to a free slot of the hearth's spill area (R259). (Log entry 141: DESIGN CHOICE, safe.) -/
def spillOwner (h : Nat) (s : State) : State :=
  let x := hearthOf s h
  match x.owner, freeSpill x with
  | some o, some k => putHearth (writeSlot x k s) h { x with owner := none, forge := {}, spill := x.spill ++ [(k, o, x.forge, x.banks)] }
  | _, _ => s

/-- A spilled state of the grantee is read back (R259). -/
def reloadState (t : ThreadId) (x : Hearth) : Hearth :=
  match x.spill.find? fun e => decide (e.2.1 = t) with
  | some (k, _, f, b) => { x with owner := some t, forge := f, banks := swapBanks x.banks b, spill := x.spill.filter fun e => decide (e.1 ≠ k) }
  | none => x

/-- Blocks that a seated forge thread has pinned (R29). (Log entry 76: DEDUCED, safe.) -/
def forgeBlocks : BitVec 16 := 0x87FF

/-- First bundle after a FORGE word (R139). -/
def firstBundle (pc : Word) : Word := natWord ((addr pc / 32 + 1) * 32) &&& pcMask

/-- The seat granted to a thread whose blocks are resident (R249, R256); another's state in place is spilled first (R259), and the
earlier stores of a thread that was pre-empted are performed (R92). -/
def grantSeat (h : Nat) (t : Thread) (s : State) : State :=
  let s := if t.preempted then drainHearth h s else s
  let s := if (hearthOf s h).owner = some t.id then s else spillOwner h s
  let x := hearthOf s h
  let x := { reloadState t.id x with
    forgeQueue := x.forgeQueue.filter (fun k => decide (k ≠ t.id)), seat := some t.id, seatCycles := 0, frozen := none, frozenFor := 0,
    preempt := false, boundary := false, vlgrpNow := x.vlgrp }
  let x := if t.forge then { x with owner := some t.id, inflight := t.replay.elim [] (·.entries) }
    else { x with owner := some t.id, forge := {}, inflight := [] }
  let t := { t with forge := true, replay := none, place := .forge h, st := .running, wait := .none, waited := false, wanted := 0,
                    preempted := false,
                    r := if t.forge then t.r else { t.r with pc := firstBundle t.r.pc } }
  placeFreed h (putThread (putHearth s h x) t)

/-- A queued thread whose course is to change takes it instead of the seat (R114, R122). (Log entry 39: DEDUCED, safe.) -/
def leaveQueue (h : Nat) (t : Thread) (s : State) : State :=
  let x := hearthOf s h
  let mine := decide (x.owner = some t.id)
  let x := { x with forgeQueue := x.forgeQueue.filter (fun k => decide (k ≠ t.id)), owner := if mine then none else x.owner,
                    forge := if mine then {} else x.forge, spill := x.spill.filter fun e => decide (e.2.1 ≠ t.id) }
  placeFreed h (putThread (putHearth s h x) { t.redirected with st := .ready, wait := .none, place := .off, forge := false, readyFor := 0 })

/-- A hearth seats only threads of its own world (R351). -/
def ownWorld (s : State) (h : Nat) (id : ThreadId) : Bool := (findThread s id).any fun t => decide (t.secure = (hearthOf s h).secure)

/-- FORGE_SEAT_GRANT, R29, R92, R249, R259, R351: the next thread of the queue is granted a free seat, once its blocks are resident and
its earlier stores under way. -/
def execForgeSeatGrant (hearth : Nat) (s : State) : Out :=
  .next (
    let x := hearthOf s hearth
    if x.seat.isSome ∨ x.quiesced then s
    else match (seatCandidate (ownWorld s hearth) x).bind (findThread s) with
      | none => s
      | some t =>
        if t.redirect.isSome then leaveQueue hearth t s
        else if t.preempted && awaitsRelease scopeSystem s t then s
        else
          let missing := forgeBlocks &&& ~~~t.resident
          if missing = 0 then grantSeat hearth t s else putThread s { t with wanted := t.wanted ||| missing })

/-! ### Pre-emption (R43, R258, R380) -/

/-- Pre-emption of the thread in the seat is to be requested. -/
def preemptWanted (s : State) (x : Hearth) (t : Thread) : Bool :=
  x.quiesced || ((freeSpill x).isSome &&
    ((decide (65536 ≤ x.seatCycles) && x.forgeQueue.any fun id => (findThread s id).any fun y => decide (t.basePrio < y.basePrio))
      || (decide (1048576 ≤ x.seatCycles) && !x.forgeQueue.isEmpty)))

/-- An ASHOUT has read all its rows. -/
def Drain.done (d : Drain) : Bool := decide (d.n ≤ d.k)

/-- A point at which a forge thread may be pre-empted (R258): rows that an ASHOUT has read are in flight until they are appended. -/
def preemptible (x : Hearth) : Bool :=
  x.boundary && x.inflight.isEmpty && x.forge.drained.isEmpty && x.forge.expQueue.isEmpty && x.forge.drain.all Drain.done && !x.forge.leaving && !(x.debug).stopped

/-- A freeze has lasted longer than the limit (R382). -/
def overdue (x : Hearth) : Bool := x.frozen.isSome && decide (freezeLimit x < x.frozenFor)

/-- FORGE_PREEMPT, R43, R258, R365, R380, R381: the request, and at a permitted point the pre-emption: the thread joins the tail of the
queue, its forge state in place, or spilled where the hearth is quiesced and a slot is free. The watchdog and a trap that awaits the
boundary come first. -/
def execForgePreempt (hearth : Nat) (s : State) : Out :=
  .next (
    let x := hearthOf s hearth
    match (seatThread s hearth).bind (findThread s) with
    | none => s
    | some t =>
      let x := { x with preempt := x.preempt || preemptWanted s x t }
      if x.preempt && preemptible x && !overdue x && t.asyncTrap.isNone then
        let s := putHearth s hearth { x with seat := none, preempt := false, boundary := false, frozen := none, frozenFor := 0 }
        let s := if x.quiesced then spillOwner hearth s else s
        joinForge { t with parkedAt := s.cyc, preempted := true } s
      else putHearth s hearth x)

/-- Whether pre-emption is requested, in each cycle (R380). -/
def notePreempt (s : State) : State :=
  s.hearths.foldl (fun s (e : Nat × Hearth) =>
    match (seatThread s e.1).bind (findThread s) with
    | some t => modHearth e.1 (fun x => { x with preempt := preemptWanted s x t }) s
    | none => s) s

/-! ### The end of a drain (R250) -/

/-- Everything in flight has landed or passed, and every ASHOUT has finished. -/
def pipelineEmpty (x : Hearth) : Bool :=
  x.inflight.isEmpty && x.forge.drained.isEmpty && x.forge.port.isEmpty && x.forge.drain.all Drain.done

/-- The thread leaves forge mode: its loops closed, its forge state discarded but for the banks, the seat free. -/
def leaveForge : M Unit := do
  let s ← get
  set (freeSeatKeepingBanks (collectSequence s))
  modTh fun t => { t with forge := false, place := .off, st := .ready, readyFor := 0, r := t.r.closeAll }
where
  freeSeatKeepingBanks (s : State) : State :=
    let x := hearthOf s s.th.hearth
    putHearth s s.th.hearth { x with seat := none, owner := none, forge := {}, inflight := [], frozen := none, frozenFor := 0,
                                     preempt := false, boundary := false }

/-- One cycle of the drain after BLEAVE: the pipeline advances; then it freezes until every append is performed; then the thread
leaves. (Log entry 35: DEDUCED, safe.) -/
def leaveCycle : M Unit := do
  let x ← getHearth
  let s ← get
  if !pipelineEmpty x then
    drainCycle
    portCycle
    landCycle
  else if !writesDone s s.th.hearth then freeze 12
  else leaveForge

/-! ### The freeze watchdog (R382) -/

/-- The code of a cycle that the power manager holds (R382). -/
def powerCode : Nat := 10

/-- Frozen cycles are counted (R382), but not those of a stopped sequencer (R414); a cycle that the power manager holds is counted when
it does. -/
def countFrozen (x : Hearth) : Hearth := if x.frozen.isSome ∧ x.frozen ≠ some powerCode ∧ !(x.debug).stopped then { x with frozenFor := x.frozenFor + 1 } else x

/-- An advancing cycle resets the count (R382). -/
def Hearth.thawed (x : Hearth) : Hearth := { x with frozen := none, frozenFor := 0, seatCycles := x.seatCycles + 1 }

/-- FREEZE_WATCHDOG, R45, R382. -/
def execFreezeWatchdog (hearth : Nat) (s : State) : Out :=
  .next (
    let x := hearthOf s hearth
    match seatThread s hearth, x.frozen with
    | some id, some code => if overdue x then asThread id (trapN .watchdog code) s else s
    | _, _ => s)

end Sys2Proof.Machine
end

