-- ==== Sys2Proof/Machine/Engines.lean ====
section
/-!
DEFINITION. What the engines share (R98, R277 to R279): descriptors, the issue of an operation, the memory accesses of an
engine, and the course of an operation to its completion.
-/

namespace Sys2Proof.Machine

open Sys2Proof

/-! ### Operations -/

/-- An operation's name: its thread, context and number. -/
def EngineOp.named (o : EngineOp) (t : ThreadId) (e n : Nat) : Bool := decide (o.t = t ∧ o.e = e ∧ o.n = n)

def findOp (s : State) (t : ThreadId) (e n : Nat) : Option EngineOp := s.ops.find? fun o => o.named t e n

def dropOp (o : EngineOp) (s : State) : State := { s with ops := s.ops.filter fun x => !x.named o.t o.e o.n }

/-- The waiter that stands for an operation. -/
def EngineOp.waiter (o : EngineOp) : Waiter := .operation o.t o.e o.n

/-- The agent that an operation's accesses are made by (R279, R389): the operations of context 2 are the dispatch engine's.
(Log entry 142: DEDUCED, safe.) -/
def EngineOp.agent (o : EngineOp) : Agent :=
  { asid := o.t.asid, secure := o.secure, priv := o.priv, hearth := if o.service then none else some o.hearth, bench := o.bench,
    engine := true, dispatch := decide (o.e = 2) }

/-- Word k of the descriptor. -/
def EngineOp.word (o : EngineOp) (k : Nat) : Word := o.desc.getD k 0

/-- Field [lo + len − 1 : lo] of word k of the descriptor. -/
def EngineOp.field (o : EngineOp) (k lo len : Nat) : Nat := wfield (o.word k) lo len

/-- The engine status word (R278). -/
def statusWord (fault : Option (Cause × Nat)) (aux units : Nat) : Word :=
  natWord (2 ^ 63 + (fault.elim 0 fun f => 2 ^ 62 + f.1.code * 2 ^ 48) + (aux % 2 ^ 16) * 2 ^ 32 + min units 0xFFFFFFFF)

def EngineOp.status (o : EngineOp) : Word := statusWord o.fault o.aux o.progress

/-! ### Issue (R277) -/

/-- What every issue waits for first: no compute phase forbids it, and the replay queue is empty (R101, R279, R453). -/
def engineReady (w : Word) : M Unit := do
  forbidInPhase w
  releaseStores

/-- A misaligned descriptor comes before a compute phase (R186). -/
def requireAligned (w : Word) (align : Nat) : M Unit := do
  if addr w % align ≠ 0 then trapN .misaligned (addr w)

/-- The words of bytes. -/
def wordsOf (bs : List Byte) : List Word := natWords (bs.length / 8) (bytesToNat bs)

/-- Words of memory as the thread's loads read them. -/
def loadWords (va n : Nat) : M (List Word) := do return wordsOf (← loadBytes va (8 * n / 4096 + 2) (8 * n))

/-- A descriptor of n words: its address, which must be aligned, and its words. -/
def descriptor (w : Word) (align n : Nat) : M (Nat × List Word) := do
  let va := addr w
  if va % align ≠ 0 then trapN .misaligned va
  return (va, ← loadWords va n)

/-- An operation as its thread issues it. (Log entry 90: DEDUCED, safe.) -/
def Thread.operation (t : Thread) (kind : EngineKind) (e n va : Nat) (desc : List Word) : EngineOp :=
  { t := t.id, e := e, n := n, kind := kind, hearth := t.hearth, bench := t.bench, service := t.place.service, secure := t.secure,
    priv := t.priv, launch := t.launch, addr := va, desc := desc, ftz := t.r.ftz }

/-- An operation is issued on a context: its number (R98, R277). -/
def issueOp (kind : EngineKind) (e va : Nat) (desc : List Word) (f : EngineOp → EngineOp) : M Nat := do
  let n ← issueNumber e
  modify fun s => { s with ops := s.ops ++ [f (s.th.operation kind e n va desc)] }
  return n

/-! ### Accesses (R279) -/

/-- The place of bytes of one page, or what an engine access meets: a fault ends the operation, a miss waits for the walker.
(Log entry 137: DESIGN CHOICE, safe.) -/
def enginePlace (o : EngineOp) (va n : Nat) (kind : AccessKind) : M (List Spot) := do
  match o.failed with
  | some (c, a) => if a / 4096 = va / 4096 then trapN (failCause kind c) va
  | none => pure ()
  let s ← get
  match reach o.agent va n kind s with
  | (.ok ps, s') =>
    set s'
    match (ps.take 1).find? fun p => p.node.isNone && !paExists p.pa with
    | some p => throw (.absent p.pa)
    | none => return ps
  | (.fault c, s') =>
    set s'
    trapN c va
  | (.miss a, s') =>
    set (addMiss o.agent o.t.ctx o.waiter a kind s')
    stop
  | (.nowhere, _) => throw (.nowhere va)

/-- The operation's record changed while it is performed. -/
def noteOp (o : EngineOp) (f : EngineOp → EngineOp) : M Unit := modify (modOp o.t o.e o.n f)

/-- The operation's record as it stands. -/
def opNow (o : EngineOp) : M EngineOp := do return (findOp (← get) o.t o.e o.n).getD o

/-- An access of an operation, or another effect of it, that is performed once: an operation that had to wait is gone through again
from its start, and takes what its log has instead of performing it again. (Log entry 77: DEDUCED, safe.) -/
def logged (o : EngineOp) (m : M Logged) : M Logged := do
  let now ← opNow o
  match now.todo with
  | r :: rest =>
    noteOp o fun x => { x with todo := rest }
    match r with
    | .fault c v => trap c v
    | r => return r
  | [] =>
    if now.steps = some 0 then stop
    let note (r : Logged) : M Unit :=
      noteOp o fun x => { x with log := r :: x.log, steps := x.steps.map (· - 1), hand := [] }
    let r ← tryCatch m fun e => match e with
      | .trap c v => do
        note (.fault c v)
        trap c v
      | e => throw e
    note r
    return r

/-- An effect that is no access, taken once. -/
def once (o : EngineOp) (m : M Unit) : M Unit := do
  let _ ← logged o (do
    m
    return .done)

/-- A value that is found once. -/
def onceWord (o : EngineOp) (m : M Word) : M Word := do
  match ← logged o (do return .word (← m)) with
  | .word w => return w
  | _ => return 0

/-- A request of an operation, which it awaits: its response, or the fault that it brings. -/
def engineRemote (o : EngineOp) (node : BitVec 11) (pa n va : Nat) (req : RemoteRequest) : M (List Byte) := do
  match (← opNow o).replies.find? fun r => decide (r.pa = pa ∧ r.node = node ∧ r.len = n) with
  | some r =>
    noteOp o fun x => { x with replies := x.replies.filter fun y => decide (y ≠ r) }
    match r.result with
    | .data bs => return bs.take n
    | x => trapN ((RemoteResult.cause x).getD .fabric) va
  | none =>
    if !(← get).remotes.any (fun x => decide (x.who = o.waiter ∧ x.node = node ∧ x.req = req)) then modify (sendRemote o.waiter node req va)
    stop

/-- The pieces of a local access that this event performs: all that remain, or one of them, which a free value chooses (R94). -/
def nextPieces (o : EngineOp) (pa n : Nat) : M (List (Nat × Nat)) := do
  let now ← opNow o
  let left := (pieceSpans pa n).filter fun p => now.hand.all fun h => decide (h.1 ≠ p.1)
  if now.steps.isNone ∨ left.length ≤ 1 then return left
  else
    let w ← drawFree
    return (left[w.toNat % left.length]?).toList

/-- Pieces are performed; the access goes on in a later event unless they were the last. -/
def piecesDone (o : EngineOp) (pa n : Nat) (ps : List (Nat × List Byte)) : M Unit := do
  noteOp o fun x => { x with hand := x.hand ++ ps }
  if (← opNow o).hand.length < (pieceSpans pa n).length then stop

/-- Bytes of one page of this package as an engine reads them, piece by piece (R84, R94, R97, R403). -/
def readLocal (o : EngineOp) (ps : List Spot) (pa n : Nat) : M (List Byte) := do
  let s0 ← get
  if (ingotDie pa).isSome && refreshHolds s0 ps then stop
  match if poisoned s0 pa n then ps.find? fun q => poisoned s0 q.pa 1 else none with
  | some q => trapN .poison q.va
  | none => pure ()
  modify (mergeReads (ps.map (·.pa)))
  let s ← get
  if (← opNow o).steps.isNone && (← opNow o).hand.isEmpty then
    let m := Mem.window s.mem pa n
    return ps.map fun q => Mem.get m q.pa
  else
    let next ← nextPieces o pa n
    piecesDone o pa n (next.map fun (a, m) => (a, (List.range m).map fun i => Mem.get s.mem (pa + a + i)))
    let hand := (← opNow o).hand
    return (pieceSpans pa n).flatMap fun (a, _) => (hand.find? fun h => decide (h.1 = a)).elim [] (·.2)

/-- Bytes of one page as an engine reads them. -/
def engineReadPage (o : EngineOp) (va n : Nat) : M (List Byte) := do
  match ← logged o (do
    let ps ← enginePlace o va n .load
    match ps with
    | [] => return .bytes []
    | p :: _ =>
      match p.node with
      | some node => return .bytes (← engineRemote o node p.pa n va (.load o.secure (BitVec.ofNat 52 p.pa) n))
      | none => return .bytes (← readLocal o ps p.pa n)) with
  | .bytes bs => return bs
  | _ => return []

/-- Bytes as an engine reads them, page by page. -/
def engineReadFrom (o : EngineOp) : Nat → Nat → Nat → M (List Byte)
  | 0, _, _ => pure []
  | fuel + 1, va, n => do
    if n = 0 then return []
    let k := min n (4096 - va % 4096)
    let bs ← engineReadPage o va k
    return bs ++ (← engineReadFrom o fuel ((va + k) % 2 ^ 56) (n - k))

def engineRead (o : EngineOp) (va n : Nat) : M (List Byte) := engineReadFrom o (n / 4096 + 2) (va % 2 ^ 56) n

/-- A word as an engine reads it. -/
def engineWord (o : EngineOp) (va n : Nat) : M Nat := do return bytesToNat (← engineRead o va n)

/-- How an engine writes: it may write the ingot store and weight regions (R81), and a line that it writes whole is no longer
poisoned (R403). -/
structure WriteMode where
  ingot : Bool := false
  heals : Bool := false
  deriving DecidableEq, Repr

/-- The poison of the lines that a range covers whole is cleared. (Log entry 48: DEDUCED, unsafe.) -/
def healLines (pa n : Nat) (s : State) : State :=
  { s with poison := s.poison.filter fun l => !decide (pa ≤ 128 * l ∧ 128 * l + 128 ≤ pa + n) }

/-- Bytes that an operation has performed at their destination leave its domain's pending-byte counter (R199). -/
def uncountBytes (o : EngineOp) (k : Nat) (s : State) : State :=
  match o.domain with
  | some d =>
    let n := min k ((findOp s o.t o.e o.n).elim 0 (·.counted))
    kick (modDomain d (fun x => { x with pendingBytes := x.pendingBytes - n })
      (modOp o.t o.e o.n (fun x => { x with counted := x.counted - n }) s))
  | none => s

/-- Bytes of one page of this package as an engine writes them, piece by piece (R94, R293). -/
def writeLocal (o : EngineOp) (pa : Nat) (bs : List Byte) : M Unit := do
  let put (a : Nat) (ws : List Byte) : M Unit := modify fun s =>
    uncountBytes o ws.length (performOp (.whole ws.length (bytesToNat ws)) (pa + a) s)
  if (← opNow o).steps.isNone && (← opNow o).hand.isEmpty then put 0 bs
  else
    let next ← nextPieces o pa bs.length
    for p in next do put p.1 ((bs.drop p.1).take p.2)
    piecesDone o pa bs.length (next.map fun p => (p.1, []))

/-- Bytes of one page as an engine writes them (R80, R279, R293); at a remote package they are performed when its response is there. -/
def engineWritePage (o : EngineOp) (m : WriteMode) (va : Nat) (bs : List Byte) : M Unit :=
  once o do
    let ps ← enginePlace o va bs.length .store
    let s ← get
    match if m.ingot then none else ps.find? fun q => readOnly s o.t.asid q.va q.pa with
    | some q => trapN .ingotReadonly q.va
    | none =>
      match ps with
      | [] => pure ()
      | p :: _ =>
        match p.node with
        | some node =>
          let _ ← engineRemote o node p.pa bs.length va (.store o.secure (BitVec.ofNat 52 p.pa) bs)
          modify (uncountBytes o bs.length)
        | none =>
          writeLocal o p.pa bs
          if m.heals then modify (healLines p.pa bs.length)

/-- Bytes as an engine writes them, page by page. -/
def engineWriteFrom (o : EngineOp) (m : WriteMode) : Nat → Nat → List Byte → M Unit
  | 0, _, _ => pure ()
  | fuel + 1, va, bs => do
    if bs.isEmpty then return ()
    let k := min bs.length (4096 - va % 4096)
    engineWritePage o m va (bs.take k)
    engineWriteFrom o m fuel ((va + k) % 2 ^ 56) (bs.drop k)

def engineWrite (o : EngineOp) (m : WriteMode) (va : Nat) (bs : List Byte) : M Unit :=
  engineWriteFrom o m (bs.length / 4096 + 2) (va % 2 ^ 56) bs

/-- A word as an engine writes it. -/
def engineStore (o : EngineOp) (va n : Nat) (x : Nat) : M Unit := engineWrite o {} va (natToBytes n x)

/-- One more unit is performed (R278). -/
def unitDone (o : EngineOp) : M Unit := noteOp o fun x => { x with progress := x.progress + 1 }

/-! ### The course of an operation -/

/-- The end of a pass over an operation: its next state, when its effects are all performed, or end with a fault, or have to
wait; what was performed stays (R279). (Log entries 77: DEDUCED, safe; 78: DEDUCED, safe.) -/
def endPass (o : EngineOp) (r : Except Stop Unit × State) (ok : State → State) (bad : Cause → Nat → State → State) : Out :=
  match r with
  | (.ok _, s') => .next (ok s')
  | (.error (.trap c v), s') => .next (bad c v.toNat s')
  | (.error (.absent pa), _) => .fault (.noMemory pa)
  | (.error (.nowhere va), _) => .fault (.noHearth va)
  | (.error _, s') => .next (modOp o.t o.e o.n (fun x => { x with failed := none }) s')

/-- A pass over an operation begins; it may perform so many new accesses, or any number. -/
def EngineOp.begins (limit : Option Nat) (o : EngineOp) : EngineOp := { o with todo := o.log.reverse.drop o.base, steps := limit }

/-- Its effects are performed, or ended with a fault: its status comes next. -/
def EngineOp.performed (f : Option (Cause × Nat)) (o : EngineOp) : EngineOp :=
  { o with phase := 1, failed := none, fault := f, replies := [], base := o.log.length, hand := [] }

/-- Requests of an operation that await their responses. -/
def opWaits (o : EngineOp) (s : State) : Bool := s.remotes.any fun r => decide (r.who = o.waiter)

/-- The effects of an operation; how far it has come is counted anew in each pass.
(Log entries 77: DEDUCED, safe; 78: DEDUCED, safe.) -/
def performPass (limit : Option Nat) (o : EngineOp) (body : M Unit) (s : State) : Out :=
  let start := modOp o.t o.e o.n
    (fun x => { x.begins limit with progress := 0, aux := 0, rows := 0, flags := 0, prov := {} }) s
  let after (f : Option (Cause × Nat)) : State → State := modOp o.t o.e o.n (EngineOp.performed f)
  endPass o (runResult body start) (after none) (fun c v => after (some (c, v)))

/-- A write that is dropped where it fails (R278). (Log entry 87: DEDUCED, unsafe.) -/
def tryStore (o : EngineOp) (va : Nat) (w : Word) : M Unit :=
  tryCatch (engineStore o va 8 w.toNat) fun e => match e with
    | .trap _ _ => pure ()
    | e => throw e

/-- The status, and the fault address, written where the record has them (R278). (Log entry 87: DEDUCED, unsafe.) -/
def statusPass (limit : Option Nat) (o : EngineOp) (places : Option Nat × Option Nat) (s : State) : Out :=
  let body : M Unit := do
    match places.2, o.fault with
    | some a, some f => tryStore o a (natWord f.2)
    | _, _ => pure ()
    match places.1 with
    | some a => tryStore o a o.status
    | none => pure ()
  let after : State → State := modOp o.t o.e o.n fun x => { x with phase := 2, failed := none }
  endPass o (runResult body (modOp o.t o.e o.n (·.begins limit) s)) after (fun _ _ => after)

/-- The operation is complete (R98); the bytes that it still counts leave its domain's pending-byte counter (R199). -/
def retireOp (o : EngineOp) (s : State) : State := completeNumber o.t o.e o.n (dropOp o (uncountBytes o o.counted s))

/-- An outcome continued. -/
def andThen (x : Out) (f : State → Out) : Out :=
  match x with
  | .next s => f s
  | y => y

/-- One stage of an operation, if it is due: its effects, its status, its completion. -/
def opStage (limit : Option Nat) (effects : EngineOp → M Unit) (places : EngineOp → Option Nat × Option Nat)
    (finish : EngineOp → State → State) (t : ThreadId) (e n : Nat) (s : State) : Out :=
  match findOp s t e n with
  | none => .next s
  | some o =>
    match o.phase with
    | 0 => performPass limit o (effects o) s
    | 1 => if opWaits o s then .next s else statusPass limit o (places o) s
    | _ => if opWaits o s then .next s else .next (finish o (retireOp o s))

/-- An operation brought as far as it can come: what it does to memory, where its status stands, and what else its completion
brings; or, under a limit, one stage so far. (Log entry 77: DEDUCED, safe.) -/
def opEvent (limit : Option Nat) (effects : EngineOp → M Unit) (places : EngineOp → Option Nat × Option Nat)
    (finish : EngineOp → State → State) (t : ThreadId) (e n : Nat) (s : State) : Out :=
  let stage := opStage limit effects places finish t e n
  match limit with
  | none => andThen (andThen (stage s) stage) stage
  | some _ => stage s

/-- The number of new accesses of an event in which an operation goes on by one. -/
def oneStep : Option Nat := some 1

/-- An operation whose completion brings nothing else. -/
def noMore (_ : EngineOp) (s : State) : State := s

end Sys2Proof.Machine
end

