-- ==== Sys2Proof/Machine/Tongs.lean ====
section
/-!
DEFINITION. Tongs (R199, R270, R291 to R295): copies, gathers, scatters, transfer lists, and the send of stream units.
-/

namespace Sys2Proof.Machine

open Sys2Proof

/-- A trap whose value no rule states. (Log entry 79: DESIGN CHOICE, safe.) -/
def trapOpen {α : Type} (c : Cause) : M α := do
  let w ← drawFree
  trap c w

/-! ### Command records (R292) -/

/-- A signed word. -/
def wordInt (w : Word) : Int := w.toInt

/-- An address some rows of a stride further. -/
def rowAddr (base : Word) (n : Nat) (stride : Int) : Nat := unsignedBits 56 ((addr base : Int) + n * stride)

/-- A command record breaks a limit of R292. -/
def badCommand (kind : EngineKind) (ws : List Word) (count : Nat) : Bool :=
  let w (k : Nat) : Word := ws.getD k 0
  decide (wfield (w 0) 0 3 ≠ 0) || decide (wfield (w 1) 0 3 ≠ 0) || decide (0xFFFFFFFF < count) ||
  (match kind with
    | .cpy => decide (count % 8 ≠ 0 ∨ w 2 ≠ 0 ∨ w 3 ≠ 0)
    | _ =>
      let row := wfield (w 3) 0 32
      decide (wfield (w 2) 0 2 ≠ 0 ∨ wfield (w 3) 33 31 ≠ 0 ∨ row % 8 ≠ 0 ∨ row < 8 ∨ 2 ^ 20 < row
        ∨ wfield (w 4) 0 3 ≠ 0 ∨ wfield (w 5) 0 3 ≠ 0))

/-- CPY, GATH and SCAT up to their issue (R277, R292): the operation's number. -/
def issueCommand (kind : EngineKind) (a b : Reg) : M Nat := do
  let p ← readG a
  requireAligned p 64
  engineReady p
  let count ← readG b
  let (va, ws) ← descriptor p 64 8
  if badCommand kind ws count.toNat then trapN .format va
  issueOp kind 1 va ws fun o => { o with arg := count }

/-- The result of an issuing strand form. -/
def issued (d : Reg) (issue : M Nat) : M Unit := do
  let n ← issue
  writeG d (natWord n)
  advance

/-- CPY, R293. -/
def execCpy (gd : Guard) (d a b : Reg) (s : State) : Out := strand gd (issued d (issueCommand .cpy a b)) s

/-- GATH, R293. -/
def execGath (gd : Guard) (d a b : Reg) (s : State) : Out := strand gd (issued d (issueCommand .gath a b)) s

/-- SCAT, R293. -/
def execScat (gd : Guard) (d a b : Reg) (s : State) : Out := strand gd (issued d (issueCommand .scat a b)) s

/-! ### Transfer lists (R199, R294, R295) -/

/-- An entry of a transfer list. -/
structure Entry where
  dst : Nat
  src : Nat
  len : Nat
  after : Bool
  deriving DecidableEq, Repr

/-- The four words of entry i break a limit of R294. -/
def badEntryWords (ws : List Word) : Bool :=
  let w (k : Nat) : Word := ws.getD k 0
  decide (wfield (w 0) 0 3 ≠ 0 ∨ wfield (w 1) 0 3 ≠ 0 ∨ wfield (w 2) 40 24 ≠ 0 ∨ wfield (w 2) 0 3 ≠ 0 ∨ wfield (w 3) 1 63 ≠ 0)

def entryOf (ws : List Word) : Entry :=
  let w (k : Nat) : Word := ws.getD k 0
  ⟨addr (w 0), addr (w 1), wfield (w 2) 0 40, (w 3).getLsbD 0⟩

/-- The entries of a list, its header apart. -/
def entriesOf : Nat → List Word → List (List Word)
  | 0, _ => []
  | n + 1, ws => ws.take 4 :: entriesOf n (ws.drop 4)

/-- The entries of an operation's list. -/
def listEntries (desc : List Word) : List Entry := (entriesOf (wfield (desc.getD 0 0) 0 32) (desc.drop 4)).map entryOf

/-- The payload bytes of a list (R294). (Log entry 80: DEDUCED, safe.) -/
def payload (desc : List Word) : Nat := ((listEntries desc).map (·.len)).sum

/-- A transfer list read and checked (R294). -/
def readList (p : Word) : M (Nat × List Word) := do
  let (va, hd) ← descriptor p 32 4
  let n := (hd.getD 0 0).toNat
  if n = 0 ∨ 65535 < n ∨ hd.getD 3 0 ≠ 0 then trapN .format va
  let ws ← loadWords ((va + 32) % 2 ^ 56) (4 * n)
  if (entriesOf n ws).any badEntryWords then trapN .format va
  return (va, hd ++ ws)

/-- XFER up to its issue. (Log entry 52: DEDUCED, safe.) -/
def issueList (a : Reg) : M Nat := do
  let p ← readG a
  requireAligned p 32
  engineReady p
  let (va, ws) ← readList p
  issueOp .xfer 1 va ws id

/-- XFER, R295. -/
def execXfer (gd : Guard) (d a : Reg) (s : State) : Out := strand gd (issued d (issueList a)) s

/-- XCHG, R199: an invalid level comes first, then misalignment and a compute phase (R186).
(Log entries 79: DESIGN CHOICE, safe; 80: DEDUCED, safe.) -/
def execXchg (gd : Guard) (d a : Reg) (l : BitVec 8) (s : State) : Out :=
  strand gd (do
    let p ← readG a
    let t ← getTh
    if l ≠ 0 ∧ !levelValid t.domset l.toNat then trapOpen .format
    requireAligned p 32
    engineReady (l.setWidth 64)
    let (va, ws) ← readList p
    let n := payload ws
    if 0xFFFFFFFF < n then trap .format p
    if l = 0 then issued d (issueOp .xfer 1 va ws id)
    else
      match domainAt (← get) t l.toNat with
      | none => trapOpen .format
      | some k =>
        let now := ((domainGet (← get) k).elim 0 fun x => x.pendingBytes)
        if 0xFFFFFFFF < now + n then stall .stalledMemory
        modify (modDomain k fun x => { x with pendingBytes := x.pendingBytes + n })
        issued d (issueOp .xfer 1 va ws fun o => { o with domain := some k, counted := n })) s

/-! ### Forge forms (R270) -/

/-- A Tongs issue of a bundle: it freezes until every earlier append of the thread is performed, and its number has latency 1; a
descriptor of an alignment comes before a compute phase (R186). (Log entry 37: DESIGN CHOICE, safe.) -/
def issuedSlot (d a : Reg) (align : Nat) (issue : M Nat) : M Unit := do
  let p ← readG a
  requireAligned p align
  forbidInPhase p
  let s ← get
  if !writesDone s s.th.hearth then
    let w ← drawFree
    freeze (if s.th.queue.isEmpty then wfield w 0 8 else 11)
  let n ← issue
  emitG 5 d (natWord n) 1

/-- TCOPY, R270. -/
def execTcopy (gd : SlotGuard) (d a b : Reg) (s : State) : Out := slot gd (issuedSlot d a 64 (issueCommand .cpy a b)) s

/-- TGATH, R270. -/
def execTgath (gd : SlotGuard) (d a b : Reg) (s : State) : Out := slot gd (issuedSlot d a 64 (issueCommand .gath a b)) s

/-- TSCAT, R270. -/
def execTscat (gd : SlotGuard) (d a b : Reg) (s : State) : Out := slot gd (issuedSlot d a 64 (issueCommand .scat a b)) s

/-- TXFER, R270: XFER has no field that G[b] would stand for. (Log entry 52: DEDUCED, safe.) -/
def execTxfer (gd : SlotGuard) (d a _b : Reg) (s : State) : Out := slot gd (issuedSlot d a 32 (issueList a)) s

/-- TSEND, R270: it holds its stream until its last pop. (Log entry 79: DESIGN CHOICE, safe.) -/
def execTsend (gd : SlotGuard) (d a b : Reg) (q : QReg) (s : State) : Out :=
  slot gd (do
    let x ← useStream 5 q (fun x => decide (x.kind ≠ writeKind))
    let dst ← readG a
    if badChannel dst then trapOpen .format
    issuedSlot d a 1 (do
      let n ← readG b
      if x.kind = readKind ∧ x.total < x.used + n.toNat then illegal 6 5
      if n ≠ 0 then modStreamQ q fun x => { x with held := true }
      issueOp .send 1 q.toNat [dst] fun o => { o with arg := n })) s

/-! ### Performance (R293, R295) -/

/-- A copy in the pieces that 4 KiB-aligned destinations bound. -/
def copyPieces (o : EngineOp) (dst src : Nat) : Nat → Nat → M Unit
  | 0, _ => pure ()
  | fuel + 1, n => do
    if n = 0 then return ()
    let k := min n (4096 - dst % 4096)
    let bs ← engineRead o src k
    engineWrite o { heals := true } dst bs
    unitDone o
    copyPieces o ((dst + k) % 2 ^ 56) ((src + k) % 2 ^ 56) fuel (n - k)

/-- A row marked to be skipped. -/
def skipped (o : EngineOp) (x : Nat) : Bool := decide (o.field 3 32 1 = 1 ∧ x = 0xFFFFFFFF)

/-- Row r of a gather. -/
def gathRow (o : EngineOp) (r : Nat) : M Unit := do
  let n := o.field 3 0 32
  let x ← engineWord o (addr (o.word 2) + 4 * r) 4
  let dst := rowAddr (o.word 0) r (wordInt (o.word 4))
  if skipped o x then engineWrite o {} dst (List.replicate n 0)
  else
    let bs ← engineRead o (rowAddr (o.word 1) x (wordInt (o.word 5))) n
    engineWrite o {} dst bs

/-- Row r of a scatter. -/
def scatRow (o : EngineOp) (r : Nat) : M Unit := do
  let n := o.field 3 0 32
  let x ← engineWord o (addr (o.word 2) + 4 * r) 4
  if skipped o x then pure ()
  else
    let bs ← engineRead o (rowAddr (o.word 1) r (wordInt (o.word 4))) n
    engineWrite o {} (rowAddr (o.word 0) x (wordInt (o.word 5))) bs

/-- Units from number k on, each counted when it is performed. -/
def unitsFrom (o : EngineOp) (f : Nat → M Unit) (k : Nat) : Nat → M Unit
  | 0 => pure ()
  | n + 1 => do
    f k
    unitDone o
    unitsFrom o f (k + 1) n

/-- The entries that were read are written, in order (R295); aux shows the entry in hand. (Log entry 81: DEDUCED, unsafe.) -/
def writeEntries (o : EngineOp) : List (Nat × Entry × List Byte) → M Unit
  | [] => pure ()
  | (i, e, bs) :: rest => do
    noteOp o fun x => { x with aux := i }
    engineWrite o { heals := true } e.dst bs
    unitDone o
    writeEntries o rest

/-- The entries of a list: those without `after` may be read before earlier ones are written. Where a read faults, the entries
before it are performed. (Log entry 81: DEDUCED, unsafe.) -/
def runEntries (o : EngineOp) : List (Nat × Entry) → List (Nat × Entry × List Byte) → M Unit
  | [], done => writeEntries o done
  | (i, e) :: rest, done => do
    if e.after then writeEntries o done
    let kept := if e.after then [] else done
    let bs ← tryCatch (engineRead o e.src e.len) fun x => match x with
      | .trap c v => do
        writeEntries o kept
        noteOp o fun x => { x with aux := i }
        trap c v
      | x => throw x
    runEntries o rest (kept ++ [(i, e, bs)])

/-- The entries of a transfer list performed; aux is 0 unless it ends in a fault (R294). -/
def runList (o : EngineOp) (es : List Entry) : M Unit := do
  runEntries o (es.zipIdx.map fun (e, i) => (i, e)) []
  noteOp o fun x => { x with aux := 0 }

/-- A unit as a TSEND sends it: a vector unit of a read generator is the register that a pop of it gives, with the flags that its
conversion raises (R253, R266, R270). -/
def poppedUnit (x : Stream) (rd : Rounding) (u : StreamUnit) : StreamUnit × BitVec 6 :=
  match x.group with
  | some g =>
    if x.unit = vectorUnit ∧ x.kind = readKind then
      let (v, f) := g.lanes rd (bytesToNat u.raw)
      (.vector v, f)
    else (u, 0)
  | none => (u, 0)

/-- The next units of a TSEND that have arrived leave for their receive buffer, up to the first that carries a fault, which is
raised behind them (R269, R270). -/
def sendUnits (o : EngineOp) : M Unit := do
  let s ← get
  let q : QReg := BitVec.ofNat 3 o.addr
  let h := o.hearth
  match (hearthOf s h).forge.stream q, findThread s o.t with
  | some x, some t =>
    if (hearthOf s h).owner ≠ some o.t ∨ !x.held then pure ()
    else
      let next := x.units.take (o.arg.toNat - o.progress)
      let us := next.takeWhile fun u => !u.isFaulty
      let n := us.length
      let popped := us.map (poppedUnit x t.r.rounding)
      let dst := o.word 0
      let node := dst.extractLsb' 52 11
      let ch := dst.extractLsb' 24 16
      let send (s : State) (u : StreamUnit) : State :=
        if node = s.node then { s with units := s.units ++ [{ hearth := wfield dst 0 8, channel := ch, item := u, src := some o.waiter }] }
        else sendRemote o.waiter node (.unit (wfield dst 0 8) ch u.raw) 0 s
      let t' : Thread := { t with r := t.r.raise (popped.foldl (fun f u => f ||| u.2) 0) }
      modify fun s => (popped.map (·.1)).foldl send (putThread s t')
      let last := decide (o.arg.toNat ≤ o.progress + n)
      let x' : Stream := { x with used := x.used + n, units := x.units.drop n, held := !last }
      modify fun s => modHearth h (fun y => { y with forge := y.forge.setStream q (some x') }) s
      noteOp o fun y => { y with progress := y.progress + n }
      raiseFaulty (next.drop n)
  | _, _ => pure ()

/-- A TSEND whose stream is no more has nothing left to pop. (Log entry 35: DEDUCED, safe.) -/
def sendOver (o : EngineOp) (s : State) : Bool :=
  decide (o.arg.toNat ≤ o.progress) || !(decide ((hearthOf s o.hearth).owner = some o.t)
    && ((hearthOf s o.hearth).forge.stream (BitVec.ofNat 3 o.addr)).any fun x => x.held)

/-- A faulted pop ends a TSEND, and frees its stream (R269, R279). -/
def endSend (o : EngineOp) (c : Cause) (v : Nat) (s : State) : State :=
  let s := modStream o.hearth o.addr (fun x => { x with held := false }) s
  modOp o.t o.e o.n (fun x => { x with phase := 1, fault := some (c, v) }) s

/-- A TSEND's progress: it completes when its units have all been entered (R268, R270). (Log entry 35: DEDUCED, safe.) -/
def sendEvent (t : ThreadId) (n : Nat) (s : State) : Out :=
  match findOp s t 1 n with
  | none => .next s
  | some o =>
    let s' := if o.phase = 0 then endPass o (runResult (sendUnits o) s) id (endSend o) else .next s
    andThen s' fun s =>
      match findOp s t 1 n with
      | none => .next s
      | some o =>
        if (o.phase ≠ 0 ∨ sendOver o s) ∧ !opWaits o s ∧ !s.units.any (fun u => decide (u.src = some o.waiter)) then .next (retireOp o s)
        else .next s

/-- Where a Tongs operation's status and fault address stand (R292, R294). -/
def tongsPlaces (o : EngineOp) : Option Nat × Option Nat :=
  match o.kind with
  | .xfer => (some (o.addr + 8), some (o.addr + 16))
  | _ => (some (o.addr + 0x30), some (o.addr + 0x38))

/-- What a Tongs operation does (R293, R295). -/
def tongsEffects (o : EngineOp) : M Unit :=
  match o.kind with
  | .cpy => copyPieces o (addr (o.word 0)) (addr (o.word 1)) (o.arg.toNat / 4096 + 2) o.arg.toNat
  | .gath => unitsFrom o (gathRow o) 0 o.arg.toNat
  | .scat => unitsFrom o (scatRow o) 0 o.arg.toNat
  | _ => runList o (listEntries o.desc)

/-- An operation of Tongs goes on, by a limit. -/
def tongsEvent (limit : Option Nat) (t : ThreadId) (n : Nat) (s : State) : Out :=
  if (findOp s t 1 n).any fun o => decide (o.kind = .send) then sendEvent t n s
  else opEvent limit tongsEffects tongsPlaces noMore t 1 n s

/-- TONGS_OP_COMPLETE, R270, R293, R295. (Log entry 136: DESIGN CHOICE, safe.) -/
def execTongsOpComplete (t : ThreadId) (n : Nat) (s : State) : Out := tongsEvent none t n s

end Sys2Proof.Machine
end

