-- ==== Sys2Proof/Machine/Matrix.lean ====
section
/-!
DEFINITION. Matrix jobs (R280 to R290): MMJ, MCOMMIT, MWAIT, ACCREL and ACCRD, accumulator memory, and the jobs' runs on the
hearth's Anvil.
-/

namespace Sys2Proof.Machine

open Sys2Proof

/-! ### The job descriptor (R282) -/

def jobA (o : EngineOp) : Word := o.word 0
def jobB (o : EngineOp) : Word := o.word 1
def jobStride (o : EngineOp) : Nat := o.field 2 32 32
def jobNcol (o : EngineOp) : Nat := o.field 2 19 3 + 1
def jobCol0 (o : EngineOp) : Nat := o.field 2 16 3
def jobPw (o : EngineOp) : Nat := o.field 2 12 3 + 1
def jobPa (o : EngineOp) : Nat := o.field 2 8 4 + 1
def jobRows (o : EngineOp) : Nat := o.field 2 0 8

/-- A row of A may have this tag, with at least pa planes (R64). -/
def rowTag (w : Word) (pa : Nat) : Option (Nat × Nat) :=
  match nestedPlanes (ptrFmt w) with
  | some k => if 2 ≤ ptrBlk w ∧ ptrBlk w ≤ 5 ∧ pa ≤ k then some (k, blockLen (ptrBlk w)) else none
  | none => none

/-- The descriptor's fields break a limit of R282 or R64. -/
def badJob (o : EngineOp) : Bool :=
  match rowTag (jobA o) (jobPa o), tileTag (jobB o) (jobPw o) with
  | some (ka, la), some (_, lb) =>
    decide (la ≠ lb ∨ addr (jobB o) % 64 ≠ 0 ∨ jobStride o < lineBytes ka la ∨ o.field 2 22 10 ≠ 0 ∨ o.field 2 15 1 ≠ 0
      ∨ 8 < jobCol0 o + jobNcol o ∨ jobRows o = 0 ∨ 128 < jobRows o ∨ o.field 3 16 48 ≠ 0 ∨ addr (o.word 5) % 32 ≠ 0
      ∨ o.word 6 ≠ 0 ∨ o.word 7 ≠ 0)
  | _, _ => true

/-- The descriptor's fat pointer with a reserved format, of A first, which comes before every other breach (R47). -/
def reservedFmt (o : EngineOp) : Option Word := [jobA o, jobB o].find? fun w => !fmtAssigned (ptrFmt w)

/-- The name of tile row r and column tile c (R282). -/
def tileName (o : EngineOp) (r c : Nat) : BitVec 16 := BitVec.ofNat 16 (o.field 3 0 16 + r * jobNcol o + c)

/-- The job's names. -/
def jobNames (o : EngineOp) : List (BitVec 16) :=
  (List.range ((jobRows o + 31) / 32)).flatMap fun r => (List.range (jobNcol o)).map fun c => tileName o r c

/-! ### Accumulator memory (R283) -/

def mappedTile (x : Hearth) (t : ThreadId) (name : BitVec 16) : Option AccTile :=
  x.accMap.find? fun a => decide (a.t = t ∧ a.name = name)

/-- Names of a job that are neither mapped nor reserved for the thread. (Log entry 85: DEDUCED, safe.) -/
def newNames (x : Hearth) (t : ThreadId) (names : List (BitVec 16)) : List (BitVec 16) :=
  names.filter fun n => (mappedTile x t n).isNone && !x.accReserved.contains (t, n)

/-- Slots that are free and unreserved. -/
def freeSlots (x : Hearth) : Nat := 64 - (x.accMap.length + x.accReserved.length)

/-- A name that a job writes is mapped to a reserved slot, which is cleared. (Log entry 85: DEDUCED, safe.) -/
def mapName (t : ThreadId) (name : BitVec 16) (x : Hearth) : Hearth :=
  if (mappedTile x t name).isSome then x
  else { x with accMap := x.accMap ++ [{ t := t, name := name }], accReserved := x.accReserved.filter fun a => decide (a ≠ (t, name)) }

/-- A name unmapped, its slot free. -/
def unmapName (t : ThreadId) (name : BitVec 16) (x : Hearth) : Hearth :=
  { x with accMap := x.accMap.filter fun a => !decide (a.t = t ∧ a.name = name) }

/-- The cell of a mapped name. -/
def tileCell (x : Hearth) (t : ThreadId) (name : BitVec 16) (k : Nat) : Cell :=
  match mappedTile x t name with
  | some a => cellAt a.cells k
  | none => {}

def putTileCell (t : ThreadId) (name : BitVec 16) (k : Nat) (c : Cell) (x : Hearth) : Hearth :=
  { x with accMap := x.accMap.map fun a => if a.t = t ∧ a.name = name then { a with cells := putCell a.cells k c } else a }

/-! ### Groups (R285) -/

def groupOf? (t : Thread) (n : Nat) : Option MatrixGroup := t.groups.find? fun g => decide (g.n = n)

def modGroup (t : ThreadId) (n : Nat) (f : MatrixGroup → MatrixGroup) (s : State) : State :=
  match findThread s t with
  | none => s
  | some x => putThread s { x with groups := x.groups.map fun g => if g.n = n then f g else g }

/-- The number that the open group will have. -/
def openGroup (t : Thread) : Nat := (t.timeline 0).last + 1

/-! ### MMJ -/

/-- Bytes that must lie in memory of a kind, as far as they translate; their faults are the job's (R277, R282).
(Log entry 82: DEDUCED, safe.) -/
def requireKind (desc : Nat) (ok : Spot → Bool) (va : Nat) : M Unit := do
  let s ← get
  match reach (agentOf s.th) va 1 .load s with
  | (.ok ps, s') =>
    set s'
    if !ps.all ok then trapN .format desc
  | (.miss a, s') =>
    set (addMiss (agentOf s.th) s.th.id.ctx (.access s.th.id) a .load s')
    stall .stalledMemory
  | (.fault _, s') => set s'
  | (.nowhere, _) => throw (.nowhere va)

def inLocal (h : Nat) (p : Spot) : Bool := p.node.isNone && decide (localHearth p.pa = some h)
def inLocalOrIngot (p : Spot) : Bool := p.node.isNone && ((localHearth p.pa).isSome || (ingotDie p.pa).isSome)

/-- Addresses of a range: one in each page, and the last. -/
def pageStarts (va n : Nat) : List Nat :=
  (List.range ((va + n - 1) / 4096 - va / 4096 + 1)).map (fun k => if k = 0 then va else (va / 4096 + k) * 4096 % 2 ^ 56)

/-- Address of row i of A. -/
def jobRowAddr (o : EngineOp) (i : Nat) : Nat := (addr (jobA o) + i * jobStride o) % 2 ^ 56

/-- Bytes of a row of A, and of the tile. -/
def jobRowBytes (o : EngineOp) : Nat := (rowTag (jobA o) 1).elim 0 fun k => lineBytes k.1 k.2
def jobTileBytes (o : EngineOp) : Nat := (tileTag (jobB o) 1).elim 0 fun k => 256 * lineBytes k.1 k.2

/-- The first row of a resumed job (R289). -/
def resumeRow (o : EngineOp) : M Nat := do
  if o.word 4 = 0 then return 0
  let ws ← loadWords (addr (o.word 4)) 4
  let w := ws.getD 0 0
  if !w.getLsbD 63 ∨ wfield w 24 39 ≠ 0 ∨ jobRows o ≤ wfield w 0 16 ∨ ws.getD 2 0 ≠ 0 ∨ ws.getD 3 0 ≠ 0 then trapN .format o.addr
  return wfield w 0 16

/-- Every row of A lies in the hearth's local memory, and the tile in local memory or the ingot store, as far as they translate
(R282). (Log entry 82: DEDUCED, safe.) -/
def jobPlaces (o : EngineOp) : M Unit := do
  for i in List.range (jobRows o) do
    for b in pageStarts (jobRowAddr o i) (jobRowBytes o) do requireKind o.addr (inLocal o.hearth) b
  for b in pageStarts (addr (jobB o)) (jobTileBytes o) do requireKind o.addr inLocalOrIngot b

/-- MMJ, R283, R284. -/
def execMmj (gd : Guard) (a : Reg) (s : State) : Out :=
  strand gd (do
    let p ← readG a
    releaseStores
    let (va, ws) ← descriptor p 64 8
    let t ← getTh
    let o := t.operation .group 5 0 va ws
    match reservedFmt o with
    | some w => trap .format w
    | none => pure ()
    if badJob o then trapN .format va
    jobPlaces o
    let first ← resumeRow o
    let x := hearthOf (← get) t.hearth
    let new := newNames x t.id (jobNames o)
    if freeSlots x < new.length then trapN .accExhausted new.length
    let g := openGroup t
    let k := (groupOf? t g).elim 0 fun y => y.jobs
    let n := g * 2 ^ 32 + k
    let op : EngineOp := { o with n := n, arg := natWord first }
    modify fun s => { putHearth s t.hearth { x with accReserved := x.accReserved ++ new.map (fun m => (t.id, m)), jobs := x.jobs ++ [⟨t.id, n, g, k⟩] } with
      ops := s.ops ++ [op] }
    let add (y : MatrixGroup) : MatrixGroup := { y with jobs := y.jobs + 1, left := y.left + 1 }
    modTh fun t => { t with groups := if (groupOf? t g).isSome then t.groups.map (fun y => if y.n = g then add y else y)
      else t.groups ++ [add { n := g }] }
    advance) s

/-! ### MCOMMIT, MWAIT -/

/-- MCOMMIT, R285: an empty group completes at once. -/
def execMcommit (gd : Guard) (d : Reg) (s : State) : Out :=
  strand gd (do
    releaseStores
    let n ← issueNumber 0
    let t ← getTh
    if (groupOf? t n).isNone then
      modTh fun t => { t with groups := t.groups ++ [{ n := n }] }
      modify (completeNumber t.id 0 n)
    writeG d (natWord n)
    advance) s

/-- MATRIX_GROUP_COMPLETE, R285: a closed group whose jobs are all complete; the context keeps 16 groups (R286). -/
def execMatrixGroupComplete (t : ThreadId) (n : Nat) (s : State) : Out :=
  .next (match findThread s t with
    | none => s
    | some x =>
      let l := x.timeline 0
      match groupOf? x n with
      | some g =>
        if g.left = 0 ∧ n ≤ l.last ∧ l.completed < n ∧ !l.ahead.contains n then
          let keep (y : MatrixGroup) : Bool := decide (l.last < y.n + 16) || decide (y.left ≠ 0) || decide (y.n = n)
          completeNumber t 0 n (putThread (collectProv x.hearth 1 x g.prov s) { x with groups := x.groups.filter keep })
        else s
      | none => s)

/-- The status of a group (R286). -/
def groupStatus (g : MatrixGroup) : Word := statusWord g.fault g.faultJob g.rows

/-- MWAIT, R286. -/
def execMwait (gd : Guard) (d a b : Reg) (s : State) : Out :=
  strand gd (do
    let w ← readG a
    let n := w.toNat
    let t ← getTh
    let l := t.timeline 0
    if n = 0 ∨ l.last < n then trap .format w
    if l.completed < n then park (.timeline 0 n)
    match if n + 16 ≤ l.last then none else groupOf? t n with
    | some g =>
      writeG d (groupStatus g)
      if b ≠ 0 then
        writeG b g.prov.w0
        writeG (b + 1) g.prov.w1
    | none => writeG d 0x8000000000000000
    advance) s

/-! ### The run of a job (R280, R284, R289) -/

/-- Another job or GMM has begun on an operation's hearth (R280, R284). -/
def anvilTaken (o : EngineOp) (s : State) : Bool :=
  s.ops.any fun x => decide (x.hearth = o.hearth ∧ x.phase = 0 ∧ (x.kind = .group ∨ x.kind = .gmm)) && !x.named o.t o.e o.n
    && !(x.log.isEmpty && x.hand.isEmpty)

/-- The Anvil of an operation's hearth is made ready for it: forge state in place without a seat is spilled (R280). None while it
has to wait. -/
def anvilFree (o : EngineOp) (s : State) : Option State :=
  let x := hearthOf s o.hearth
  if x.seat.isSome ∨ anvilTaken o s then none
  else if x.owner.isSome ∧ (freeSpill x).isNone then none
  else some (spillOwner o.hearth s)

/-- A bank that a job loads: one that is not pinned, and either of two (R284). (Log entry 83: DESIGN CHOICE, safe.) -/
def jobBank (x : Hearth) (free : Word) : Option (BitVec 1) :=
  match (x.bank 0).pinned, (x.bank 1).pinned with
  | none, none => some (free.extractLsb' 0 1)
  | none, some _ => some 0
  | some _, none => some 1
  | some _, some _ => none

/-- The pages of n bytes that an engine reads are of one kind of memory. (Log entry 82: DEDUCED, safe.) -/
def engineKind (o : EngineOp) (ok : Spot → Bool) (va n : Nat) : M Unit :=
  once o do
    for a in pageStarts va n do
      let ps ← enginePlace o a 1 .load
      if !ps.all ok then trapN .format a

/-- Bytes of n blocks of the tile layout up to plane pw − 1 of the last. -/
def planeSpan (k len pw n : Nat) : Nat := (n - 1) * blockBytes k len + 1 + pw * (len / 8)

/-- n blocks of the tile layout as cells by offset, planes 0 to pw − 1, as an engine reads them. -/
def engineCells (o : EngineOp) (k len pw : Nat) : Nat → Nat → Nat → M (List Host.Cell)
  | _, _, 0 => pure []
  | off, va, n + 1 => do
    let bs ← engineRead o va (1 + pw * (len / 8))
    let rest ← engineCells o k len pw (off + blockBytes k len) ((va + blockBytes k len) % 2 ^ 56) n
    return (cellsOf bs).map (fun c => (off + c.1, c.2)) ++ rest

/-- The tile of a fat pointer, planes 0 to pw − 1, as cells by offset. -/
def engineTile (o : EngineOp) (ok : Spot → Bool) (tag : Word) (pw : Nat) : M (List Host.Cell) := do
  match tileTag tag pw with
  | none => return []
  | some (k, len) =>
    let n := 256 * (256 / len)
    engineKind o ok (addr tag) (planeSpan k len pw n)
    engineCells o k len pw 0 (addr tag) n

/-- A row of A at an address, planes 0 to pa − 1. -/
def engineRow (o : EngineOp) (ok : Spot → Bool) (tag : Word) (pa va : Nat) : M Row := do
  match rowTag tag pa with
  | none => return { fmt := 0, len := 0, blocks := [] }
  | some (k, len) =>
    engineKind o ok va (planeSpan k len pa (256 / len))
    return rowOf (ptrFmt tag) (ptrBlk tag) (← readPlanesWith (engineRead o) k len pa va (256 / len))

/-- The sums of row i added into the job's tiles, column by column (R284); the events of the row.
(Log entry 84: DEDUCED, unsafe.) -/
def addJobRow (o : EngineOp) (j : MatrixJob) (row : Row) (bank : Bank) (i : Nat) (x : Hearth) : Hearth × List ProvEvent :=
  let sums := rowSums row (jobPa o) bank (jobPw o)
  let exps := bank.exps
  let cols := (List.range (32 * jobNcol o)).map fun c => 32 * jobCol0 o + c
  cols.foldl (fun (acc : Hearth × List ProvEvent) c =>
    let name := tileName o (i / 32) (c / 32 - jobCol0 o)
    let x := mapName o.t name acc.1
    let k := i % 32 * 32 + c % 32
    let (v, ev) := addColumn (sums.getD c []) row.exps (exps.getD c []) 0 0 i c j.index (blockLen bank.blk) row.fmt bank.fmt (tileCell x o.t name k)
    (putTileCell o.t name k v x, acc.2 ++ ev)) (x, [])

/-- Row i is added, and its events are recorded in the job's group (R284). -/
def takeRow (o : EngineOp) (j : MatrixJob) (bank : Bank) (row : Row) (i : Nat) (s : State) : State :=
  let (x, ev) := addJobRow o j row bank i (hearthOf s o.hearth)
  modGroup o.t j.group (fun g => { g with prov := g.prov.noteAll (sortEvents ev) }) (putHearth s o.hearth x)

/-- The rows of a job from row i on; a fault leaves the row's number in aux. -/
def jobRowsFrom (o : EngineOp) (j : MatrixJob) (bank : Bank) (i : Nat) : Nat → M Unit
  | 0 => pure ()
  | n + 1 => do
    noteOp o fun x => { x with aux := i }
    let row ← engineRow o (inLocal o.hearth) (jobA o) (jobPa o) (jobRowAddr o i)
    once o (modify (takeRow o j bank row i))
    unitDone o
    jobRowsFrom o j bank (i + 1) n

/-- A job (R284): it loads its bank anew when it goes on after a pause, and waits while both banks are pinned (R280). -/
def runJob (o : EngineOp) (j : MatrixJob) : M Unit := do
  let w ← onceWord o drawFree
  noteOp o fun x => { x with aux := o.arg.toNat }
  match jobBank (hearthOf (← get) o.hearth) w with
  | none => stop
  | some b =>
    let data ← engineTile o inLocalOrIngot (jobB o) (jobPw o)
    modify (modHearth o.hearth fun x =>
      x.setBank b ((x.bank b).load o.t.asid o.secure .matrix (addr (jobB o)) (jobB o) (jobPw o) data none))
    let bank := (hearthOf (← get) o.hearth).bank b
    jobRowsFrom o j bank o.arg.toNat (jobRows o - o.arg.toNat)

/-- The resume record of a job that ended in a fault (R289). -/
def resumeRecord (o : EngineOp) : List Byte :=
  match o.fault with
  | none => []
  | some (c, a) => natToBytes 8 (2 ^ 63 + c.code * 2 ^ 16 + o.aux) ++ natToBytes 8 a ++ List.replicate 16 0

/-- The resume record written, if there is one; a write that fails is dropped. (Log entry 87: DEDUCED, unsafe.) -/
def resumePass (limit : Option Nat) (o : EngineOp) (s : State) : Out :=
  let after : State → State := modOp o.t o.e o.n fun x => { x with phase := 2, failed := none }
  if o.word 5 = 0 ∨ o.fault = none then .next (after s)
  else endPass o (runResult (engineWrite o {} (addr (o.word 5)) (resumeRecord o)) (modOp o.t o.e o.n (·.begins limit) s)) after
    (fun _ _ => after)

/-- A job is complete (R285, R286, R290). (Log entry 85: DEDUCED, safe.) -/
def retireJob (o : EngineOp) (j : MatrixJob) (s : State) : State :=
  let s := dropOp o s
  let s := modHearth o.hearth (fun x => { x with jobs := x.jobs.filter fun k => decide (k ≠ j) }) s
  let note (g : MatrixGroup) : MatrixGroup :=
    { g with left := g.left - 1, rows := g.rows + o.progress, faultJob := if g.fault = none ∧ o.fault ≠ none then j.index else g.faultJob,
             fault := if g.fault = none then o.fault else g.fault }
  let s := modGroup o.t j.group note s
  let s := releaseIf (fun y => decide (y.id = o.t ∧ (y.wait = .matrix ∨ y.wait = .engines))) s
  if (liveThread s o.t).isNone then modHearth o.hearth (fun x => x.forget o.t) s else s

/-- One stage of the job at the head of a hearth. (Log entry 83: DESIGN CHOICE, safe.) -/
def jobStage (limit : Option Nat) (hearth : Nat) (s : State) : Out :=
  match (hearthOf s hearth).jobs with
  | [] => .next s
  | j :: _ =>
    match findOp s j.t 5 j.n with
    | none => .next s
    | some o =>
      match o.phase with
      | 0 =>
        match anvilFree o s with
        | none => .next s
        | some s => performPass limit o (runJob o j) s
      | 1 => if opWaits o s then .next s else resumePass limit o s
      | _ => if opWaits o s then .next s else .next (retireJob o j s)

/-- The job at the head of a hearth goes on, by a limit: jobs run in issue order, one at a time (R284). -/
def jobEvent (limit : Option Nat) (hearth : Nat) (s : State) : Out :=
  let stage := jobStage limit hearth
  match limit with
  | none => andThen (andThen (stage s) stage) stage
  | some _ => stage s

/-- MATRIX_JOB_COMPLETE, R284. -/
def execMatrixJobComplete (hearth : Nat) (s : State) : Out := jobEvent none hearth s

/-! ### ACCREL, ACCRD (R287, R288) -/

/-- A job of the thread that is not complete names a tile. -/
def jobNaming (s : State) (t : ThreadId) (name : BitVec 16) : Bool :=
  s.ops.any fun o => decide (o.t = t ∧ o.e = 5) && (jobNames o).contains name

/-- ACCREL, R287. (Log entry 79: DESIGN CHOICE, safe.) -/
def execAccrel (gd : Guard) (a : Reg) (s : State) : Out :=
  strand gd (do
    let w ← readG a
    if wfield w 16 48 ≠ 0 then trapOpen .format
    let t ← getTh
    let name := w.extractLsb' 0 16
    if jobNaming (← get) t.id name then park .matrix
    modify (modHearth t.hearth (unmapName t.id name))
    advance) s

/-- Bytes of an element that a drain writes (R275, R288). -/
def drainBytes (fmt : BitVec 2) : Nat := [4, 2, 4, 16].getD fmt.toNat 4

/-- The cells of a row as bytes, with the flags that their rounding sets (R69, R288). (Log entry 145: DESIGN CHOICE, unsafe.) -/
def rowImage (fmt : BitVec 2) (ftz : Bool) (cell : Nat → Cell) : Nat → List Byte × BitVec 6
  | 0 => ([], 0)
  | n + 1 =>
    let (bs, f) := rowImage fmt ftz cell n
    let (es, g, _) := drainCell (drainFormat fmt) ftz (cell n)
    (bs ++ es, f ||| (g &&& (flagOF ||| flagUF ||| flagNX)))

/-- Rows of a tile stored from row r on (R288). -/
def storeRows (x : Hearth) (t : ThreadId) (name : BitVec 16) (fmt : BitVec 2) (va stride r : Nat) : Nat → M (BitVec 6)
  | 0 => pure 0
  | n + 1 => do
    let (bs, f) := rowImage fmt (← getRegs).ftz (fun c => tileCell x t name (32 * r + c)) 32
    storeM ((va + r * stride) % 2 ^ 56) (.whole bs.length (bytesToNat bs))
    return f ||| (← storeRows x t name fmt va stride (r + 1) n)

/-- ACCRD, R288. (Log entry 79: DESIGN CHOICE, safe.) -/
def execAccrd (gd : Guard) (a b : Reg) (s : State) : Out :=
  strand gd (do
    let w ← readG b
    let va := addr (← readG a)
    let fmt := w.extractLsb' 16 2
    let stride := wfield w 32 32
    if wfield w 19 13 ≠ 0 ∨ stride % 64 ≠ 0 ∨ va % drainBytes fmt ≠ 0 then trapOpen .format
    let t ← getTh
    let name := w.extractLsb' 0 16
    if jobNaming (← get) t.id name then park .matrix
    let x := hearthOf (← get) t.hearth
    let f ← storeRows x t.id name fmt va (if stride = 0 then 32 * drainBytes fmt else stride) 0 32
    raiseFlags f
    if w.getLsbD 18 then modify (modHearth t.hearth (unmapName t.id name))
    advance) s

end Sys2Proof.Machine
end

