-- ==== Sys2Proof/Machine/Experts.lean ====
section
/-!
DEFINITION. The dispatch engine (R296 to R305, R316 to R322, R455): DSPCNT, DSPGO and its permits, DSPCMB, and the grouped
matrix operation GMM over ragged bins.
-/

namespace Sys2Proof.Machine

open Sys2Proof

/-- n 32-bit elements of an array, as an engine reads them. -/
def engineHalves (o : EngineOp) (va n : Nat) : M (List Nat) := do
  let x ← engineWord o va (4 * n)
  return (List.range n).map fun k => field x (32 * k) 32

/-- A word of an address some bytes further. -/
def offAddr (w : Word) (n : Nat) : Nat := (addr w + n) % 2 ^ 56

/-! ### DSPCNT (R297) -/

/-- Experts of a count descriptor. -/
def cntExperts (o : EngineOp) : Nat := o.field 3 0 16 + 1

/-- DSPCNT, R297. -/
def execDspcnt (gd : Guard) (d a b : Reg) (s : State) : Out :=
  strand gd (do
    let p ← readG a
    requireAligned p 32
    engineReady p
    let rank ← readG b
    let (va, ws) ← descriptor p 32 4
    let t ← getTh
    let w := ws.getD 3 0
    let l := wfield w 21 3
    if wfield w 24 40 ≠ 0 ∨ wfield w 16 5 ≠ 0 ∨ !levelValid t.domset l ∨ wfield (ws.getD 0 0) 0 3 ≠ 0 then trapN .format va
    match domainAt (← get) t l with
    | none => trapN .format va
    | some k => issued d (issueOp .dspcnt 2 va ws fun o => { o with arg := rank, domain := some k })) s

/-- The descriptor of a DSPCNT; the sums that its member is to write stand behind it once all counts are read. -/
def cntWords : Nat := 4

/-- The operations of a domain's current generation, when every member has contributed: the oldest of each whose counts are not
taken yet. (Log entry 88: DEDUCED, unsafe.) -/
def countGroup (s : State) (d : Nat) : Option (List EngineOp) :=
  match domainGet s d with
  | none => none
  | some x =>
    let first (m : ThreadId) : Option EngineOp :=
      s.ops.find? fun o => decide (o.t = m ∧ o.kind = .dspcnt ∧ o.domain = some d ∧ o.phase = 0 ∧ o.desc.length = cntWords)
    let os := x.members.map first
    if x.unborn = 0 && os.all (·.isSome) then some (os.filterMap id) else none

/-- A member's place in the order of R297: package, hearth, rank. -/
def countKey (s : State) (o : EngineOp) : Nat :=
  let pkg := (findThread s o.t).elim 0 fun t => wfield t.domset 8 11
  pkg * 2 ^ 24 + o.hearth * 2 ^ 16 + wfield o.arg 0 16

/-- Operations by rising place. -/
def insertCount (s : State) (o : EngineOp) : List EngineOp → List EngineOp
  | [] => [o]
  | x :: xs => if countKey s o ≤ countKey s x then o :: x :: xs else x :: insertCount s o xs

/-- Σ of two lists of counts. -/
def addCounts (a b : List Nat) : List Nat := (List.range (max a.length b.length)).map fun k => a.getD k 0 + b.getD k 0

/-- The counts of a generation are all read: each member's operation goes on to write the sums over all and before it. -/
def shareCounts (total : List Nat) : List (EngineOp × List Nat) → List Nat → M Unit
  | [], _ => pure ()
  | (o, c) :: rest, before => do
    let n := cntExperts o
    let sums (l : List Nat) : List Word := (List.range n).map fun e => natWord (l.getD e 0)
    noteOp o fun x => { x with desc := x.desc ++ sums total ++ sums before, log := [], todo := [], base := 0, hand := [] }
    shareCounts total rest (addCounts before c)

/-- The members' counts, one after the other. -/
def readCounts : List EngineOp → M (List (List Nat))
  | [] => pure []
  | o :: os => do
    let c ← engineHalves o (addr (o.word 0)) (cntExperts o)
    if (← opNow o).steps = some 0 then stop
    return c :: (← readCounts os)

/-- Counts of members in other packages, which are open: at most 2^44 an expert. (Log entry 15: DEDUCED, unsafe.) -/
def openCounts (n : Nat) : M (List Nat) := do
  let s ← get
  set { s with freeCount := s.freeCount + n }
  return (List.range n).map fun e => wfield (Config.freeValue (s.freeCount + e)) 0 44

/-- A generation of DSPCNT: two members of a hearth with one rank end every member's operation with FORMAT.
(Log entry 88: DEDUCED, unsafe.) -/
def countAll (os : List EngineOp) (s0 : State) : M Unit := do
  let keys := os.map (countKey s0)
  if keys.eraseDups.length < keys.length then
    for o in os do noteOp o (EngineOp.performed (some (.format, o.addr)))
  else
    let cs ← readCounts os
    let most := (os.map cntExperts).foldl max 0
    let outside := os.any fun o => (o.domain.bind (domainGet s0)).any fun d => d.outside
    let before ← if outside then openCounts most else pure []
    let behind ← if outside then openCounts most else pure []
    shareCounts (addCounts (cs.foldl addCounts before) behind) (os.zip cs) before

/-- The counts of the generation of which an operation is part, if it is complete; a fault on some member's counts ends every
member's operation. (Log entry 88: DEDUCED, unsafe.) -/
def countEvent (limit : Option Nat) (o : EngineOp) (s : State) : Out :=
  match o.domain.bind (countGroup s) with
  | none => .next s
  | some os =>
    let sorted := os.foldr (insertCount s) []
    let each (f : EngineOp → EngineOp) (s : State) : State := sorted.foldl (fun s o => modOp o.t o.e o.n f s) s
    endPass o (runResult (countAll sorted s) (each (·.begins limit) s)) id fun c v => each (EngineOp.performed (some (c, v)))

/-- A member's arrays written: the sums over all and before it, saturated; a fault ends its operation alone.
(Log entry 88: DEDUCED, unsafe.) -/
def writeCounts (o : EngineOp) : M Unit := do
  let n := cntExperts o
  let top : Nat := 0xFFFFFFFF
  let sum (k : Nat) : Nat := (o.word (cntWords + k)).toNat
  let image (k : Nat) : List Byte := (List.range n).flatMap fun e => natToBytes 4 (min (sum (k * n + e)) top)
  engineWrite o {} (addr (o.word 1)) (image 0)
  engineWrite o {} (addr (o.word 2)) (image 1)
  let beyond := (List.range (2 * n)).any fun e => decide (top < sum e)
  noteOp o fun x => { x with progress := n, aux := ofBool beyond }

/-- Where DSPCNT's status stands. -/
def countPlaces (o : EngineOp) : Option Nat × Option Nat := (some (offAddr (o.word 0) (2 ^ 56 - 8)), none)

/-- A DSPCNT goes on, by a limit: with its generation while counts are read, then by itself. -/
def dspcntEvent (limit : Option Nat) (t : ThreadId) (n : Nat) (s : State) : Out :=
  let write (s : State) : Out :=
    if (findOp s t 2 n).any fun o => decide (o.phase = 0 ∧ o.desc.length = cntWords) then .next s
    else opEvent limit writeCounts countPlaces noMore t 2 n s
  match findOp s t 2 n with
  | none => .next s
  | some o =>
    if o.kind ≠ .dspcnt then .next s
    else if o.phase = 0 ∧ o.desc.length = cntWords then
      match limit with
      | none => andThen (countEvent limit o s) write
      | some _ => countEvent limit o s
    else write s

/-- DSPCNT_COMPLETE, R297. -/
def execDspcntComplete (t : ThreadId) (n : Nat) (s : State) : Out := dspcntEvent none t n s

/-! ### DSPGO (R298, R299) -/

def goRow (o : EngineOp) : Nat := o.field 4 32 32
def goEntries (o : EngineOp) : Nat := o.field 4 0 32
def goBinStride (o : EngineOp) : Nat := o.field 5 32 32
def goSrcStride (o : EngineOp) : Nat := o.field 5 0 32

/-- DSPGO, R298. -/
def execDspgo (gd : Guard) (d a : Reg) (s : State) : Out :=
  strand gd (do
    let p ← readG a
    requireAligned p 64
    engineReady p
    let (va, ws) ← descriptor p 64 8
    let o := (← getTh).operation .dspgo 2 0 va ws
    if goRow o % 64 ≠ 0 ∨ goRow o = 0 ∨ 65536 < goRow o ∨ goBinStride o < goRow o ∨ goBinStride o % 64 ≠ 0 ∨ ws.getD 7 0 ≠ 0 then
      trapN .format va
    issued d (issueOp .dspgo 2 va ws id)) s

/-- An entry of a destination map (R298): bin, index array, capacity, and the receiving engine's word. -/
structure MapEntry where
  bin : Nat
  bidx : Nat
  cap : Nat
  engine : Nat
  deriving DecidableEq, Repr

/-- Destination-map entry of an expert. (Log entry 99: DEDUCED, unsafe.) -/
def mapEntry (o : EngineOp) (dmap : Word) (e : Nat) : M MapEntry := do
  let x ← engineWord o (offAddr dmap (32 * e)) 32
  return ⟨field x 0 56, field x 64 56, field x 128 32, field x 192 16⟩

/-- The bench of this package whose dispatch engine receives for a destination-map entry (R298). -/
def receivingBench (s : State) (engine : Nat) : Option Nat :=
  if engine / 32 = s.node.toNat then some (engine % 32) else none

/-- The receive credits of a bench's dispatch engine changed (R299, R432). -/
def modCredits (b : Option Nat) (f : Nat → Nat) (s : State) : State :=
  match b with
  | some b => putBench s b { benchOf s b with credits := f (benchOf s b).credits }
  | none => s

/-- A run of slots covers a slot of an expert's bin. -/
def granted (o : EngineOp) (e slot : Nat) : Bool := o.runs.any fun r => decide (r.1 = e ∧ r.2.1 ≤ slot ∧ slot < r.2.1 + r.2.2)

/-- A row is sent: its permit is used, and its receiving engine may grant one more (R299, R432).
(Log entry 91: DESIGN CHOICE, safe.) -/
def usePermit (o : EngineOp) (engine : Nat) (s : State) : State :=
  modCredits (receivingBench s engine) (· + 1) (modOp o.t o.e o.n (fun x => { x with permits := x.permits - 1 }) s)

/-- The rows of a route list from entry r on: `seen` counts the valid entries of each expert; a row without a permit is held, and the
rows behind it with it. (Log entries 91: DESIGN CHOICE, safe; 99: DEDUCED, unsafe.) -/
def goFrom (o : EngineOp) (r : Nat) : Nat → List (Nat × Nat) → M Unit
  | 0, _ => pure ()
  | n + 1, seen => do
    let w ← engineWord o (offAddr (o.word 1) (8 * r)) 8
    if !w.testBit 16 then goFrom o (r + 1) n seen
    else
      let e := field w 0 16
      let k := lookup 0 seen e
      let slot := (← engineWord o (offAddr (o.word 2) (4 * e)) 4) + k
      let m ← mapEntry o (o.word 3) e
      if m.cap ≤ slot then noteOp o fun x => { x with aux := min 0xFFFF (x.aux + 1) }
      else
        if !granted (← opNow o) e slot then
          noteOp o fun x => { x with rows := 1, request := some (e, slot, m.cap, m.engine) }
          stop
        let bs ← engineRead o (offAddr (o.word 0) (r * goSrcStride o)) (goRow o)
        engineWrite o {} ((m.bin + slot * goBinStride o) % 2 ^ 56) bs
        engineStore o ((m.bidx + 4 * slot) % 2 ^ 56) 4 (field w 32 32)
        once o (modify (usePermit o m.engine))
        unitDone o
      goFrom o (r + 1) n (insert seen e (k + 1))

/-- DISPATCH_PERMIT_GRANT, R299: the receiving engine grants the row that is held a run of slots of its bin, below the bin's
capacity and within its receive credits. (Log entry 91: DESIGN CHOICE, safe.) -/
def execDispatchPermitGrant (t : ThreadId) (n rows : Nat) (s : State) : Out :=
  .next (match findOp s t 2 n with
    | none => s
    | some o =>
      match o.request with
      | none => s
      | some (e, slot, cap, engine) =>
        let b := receivingBench s engine
        let k := min (min rows (cap - slot)) (b.elim (cap - slot) fun b => ((benchOf s b).credits))
        if k = 0 then s
        else modCredits b (· - k) (modOp t 2 n (fun o =>
          { o with permits := o.permits + k, runs := o.runs ++ [(e, slot, k)], request := none, rows := 0 }) s))

/-- A DSPGO goes on, by a limit. -/
def dspgoEvent (limit : Option Nat) (t : ThreadId) (n : Nat) (s : State) : Out :=
  if (findOp s t 2 n).all fun o => decide (o.kind ≠ .dspgo) then .next s
  else opEvent limit (fun o => goFrom o 0 (goEntries o) []) (fun o => (some (o.addr + 0x30), none)) noMore t 2 n s

/-- DSPGO_COMPLETE, R298, R299. -/
def execDspgoComplete (t : ThreadId) (n : Nat) (s : State) : Out := dspgoEvent none t n s

/-! ### DSPCMB (R300) -/

def cmbFmt (o : EngineOp) : Nat := o.field 3 36 2
def cmbK (o : EngineOp) : Nat := o.field 3 32 4
def cmbTokens (o : EngineOp) : Nat := o.field 3 0 32
def cmbWidth (o : EngineOp) : Nat := o.field 4 0 32
def cmbBytes (o : EngineOp) : Nat := if cmbFmt o = 0 then 4 else 2

/-- DSPCMB, R300. The descriptor gives no stride of the bins' rows: it is an open multiple of 64 that a row fits in (R298).
(Log entry 89: DESIGN CHOICE, safe.) -/
def execDspcmb (gd : Guard) (d a : Reg) (s : State) : Out :=
  strand gd (do
    let p ← readG a
    requireAligned p 64
    engineReady p
    let (va, ws) ← descriptor p 64 8
    let o := (← getTh).operation .dspcmb 2 0 va ws
    if o.field 3 38 26 ≠ 0 ∨ 1 < cmbFmt o ∨ cmbK o = 0 ∨ 8 < cmbK o ∨ cmbWidth o % 16 ≠ 0 ∨ 16384 < cmbWidth o ∨ o.word 6 ≠ 0 ∨ o.word 7 ≠ 0 then
      trapN .format va
    let w ← drawFree
    let row := (cmbWidth o * cmbBytes o + 63) / 64
    issued d (issueOp .dspcmb 2 va ws fun o => { o with arg := natWord (64 * (row + wfield w 0 26)) })) s

/-- Element i of a row as f32. -/
def cmbElement (o : EngineOp) (bs : List Byte) (i : Nat) : Nat :=
  let n := cmbBytes o
  let x := bytesToNat ((bs.drop (n * i)).take n)
  if n = 4 then x else x * 2 ^ 16

/-- One entry's row added to a token's sums (R300): the sums and their flags.
(Log entries 89: DESIGN CHOICE, safe; 99: DEDUCED, unsafe.) -/
def cmbEntry (o : EngineOp) (entry : Nat) (accs : List Nat) : M (List Nat) := do
  if !entry.testBit 16 then return accs
  let m ← mapEntry o (o.word 1) (field entry 0 16)
  let bs ← engineRead o ((m.bin + field entry 32 32 * o.arg.toNat) % 2 ^ 56) (cmbWidth o * cmbBytes o)
  let factor := f32.read o.ftz (field entry 64 32)
  let sums := accs.zipIdx.map fun (acc, i) => f32.fma ⟨0, o.ftz⟩ factor (f32.read o.ftz (cmbElement o bs i)) (f32.read o.ftz acc)
  noteOp o fun x => { x with flags := sums.foldl (fun f y => f ||| y.2) x.flags }
  return sums.map (·.1)

/-- The entries of a token, in list order. -/
def cmbEntries (o : EngineOp) (va : Nat) : Nat → List Nat → M (List Nat)
  | 0, accs => pure accs
  | n + 1, accs => do
    let x ← engineWord o va 16
    let accs ← cmbEntry o x accs
    cmbEntries o ((va + 16) % 2 ^ 56) n accs

/-- Token i combined. -/
def cmbToken (o : EngineOp) (i : Nat) : M Unit := do
  let accs ← cmbEntries o (offAddr (o.word 0) (16 * cmbK o * i)) (cmbK o) (List.replicate (cmbWidth o) 0)
  engineWrite o {} (offAddr (o.word 2) (i * o.field 4 32 32)) (accs.flatMap (natToBytes 4))

/-- The flags of an operation, in its thread (R56, R300, R455). (Log entry 90: DEDUCED, safe.) -/
def giveFlags (o : EngineOp) (s : State) : State :=
  match findThread s o.t with
  | some x => putThread s { x with r := x.r.raise o.flags }
  | none => s

/-- A DSPCMB goes on, by a limit. -/
def dspcmbEvent (limit : Option Nat) (t : ThreadId) (n : Nat) (s : State) : Out :=
  if (findOp s t 2 n).all fun o => decide (o.kind ≠ .dspcmb) then .next s
  else opEvent limit (fun o => unitsFrom o (cmbToken o) 0 (cmbTokens o)) (fun o => (some (o.addr + 0x28), none)) giveFlags t 2 n s

/-- DSPCMB_COMPLETE, R300. -/
def execDspcmbComplete (t : ThreadId) (n : Nat) (s : State) : Out := dspcmbEvent none t n s

/-! ### The expert table (R301, R321) -/

/-- An entry of the expert table. -/
structure Expert where
  handle : Nat
  residency : Nat
  fallback : Nat
  replicas : Nat
  woff : Nat
  budget : Nat
  cost : Nat
  rtab : Nat
  deriving DecidableEq, Repr

/-- Address of an expert's entry; FORMAT for an id that the table does not hold. -/
def expertAddr (o : EngineOp) (e : Nat) : M Nat := do
  let w := (spaceOf (← get) o.t.asid).exptbl
  let va := (wfield w 6 50 * 64 + 64 * e) % 2 ^ 56
  if 16 < wfield w 0 6 ∨ 2 ^ wfield w 0 6 ≤ e then trapN .format va
  return va

/-- An expert's entry; FORMAT for a reserved value. (Log entry 99: DEDUCED, unsafe.) -/
def readExpert (o : EngineOp) (e : Nat) : M Expert := do
  let va ← expertAddr o e
  let ws := wordsOf (← engineRead o va 64)
  let w (k : Nat) : Word := ws.getD k 0
  let reps := wfield (w 0) 24 8
  if wfield (w 0) 32 32 ≠ 0 ∨ reps = 0 ∨ 4 < reps ∨ wfield (w 0) 12 12 ≠ 0 ∨ 1 < wfield (w 0) 10 2 ∨ wfield (w 1) 0 6 ≠ 0
      ∨ wfield (w 5) 0 4 ≠ 0 ∨ w 6 ≠ 0 ∨ w 7 ≠ 0 then trapN .format va
  return { handle := wfield (w 0) 0 8, residency := wfield (w 0) 8 2, fallback := wfield (w 0) 10 2, replicas := reps,
           woff := (w 1).toNat, budget := (w 2).toNat, cost := wfield (w 3) 0 32, rtab := addr (w 5) }

/-- A handle's entry in the binding block of the operation's launch (R80, R218). -/
def launchBinding (s : State) (id h : Nat) : Binding :=
  match s.launches.find? fun l => decide (l.id = id) with
  | some l => lookup {} l.binding h
  | none => {}

/-- The replica table's entries below `n`, checked (R321). (Log entry 92: DEDUCED, unsafe.) -/
def readReplicas (o : EngineOp) (rtab : Nat) : Nat → M (List (Nat × Nat))
  | 0 => pure []
  | n + 1 => do
    let l ← readReplicas o rtab n
    let x ← engineWord o ((rtab + 16 * n) % 2 ^ 56) 16
    if field x 2 62 ≠ 0 ∨ field x 120 8 ≠ 0 ∨ field x 64 6 ≠ 0 then trapN .format (rtab + 16 * n)
    return l ++ [(field x 0 2, field x 64 56)]

/-- Where an expert's weights are read from a die: its replica there, otherwise the primary copy (R322).
(Log entry 92: DEDUCED, unsafe.) -/
def weightsOf (o : EngineOp) (x : Expert) (b : Binding) (die : Nat) : M Nat := do
  let copies ← readReplicas o x.rtab x.replicas
  return match (copies.drop 1).find? fun c => decide (c.1 = die) with
    | some c => c.2
    | none => (addr b.base + x.woff) % 2 ^ 56

/-! ### GMM (R303, R304, R316, R455) -/

def gmmOut (o : EngineOp) : BitVec 2 := (o.word 1).extractLsb' 26 2
def gmmPw (o : EngineOp) : Nat := o.field 1 23 3 + 1
def gmmPa (o : EngineOp) : Nat := o.field 1 19 4 + 1
def gmmBins (o : EngineOp) : Nat := o.field 1 0 16 + 1

/-- GMM, R303. -/
def execGmm (gd : Guard) (d a : Reg) (s : State) : Out :=
  strand gd (do
    let p ← readG a
    requireAligned p 64
    engineReady p
    let (va, ws) ← descriptor p 64 8
    let o := (← getTh).operation .gmm 2 0 va ws
    if o.field 0 0 5 ≠ 0 ∨ o.field 1 28 36 ≠ 0 ∨ o.field 1 16 3 ≠ 0 ∨ o.field 2 0 6 ≠ 0 ∨ o.word 6 ≠ 0 ∨ o.word 7 ≠ 0 then trapN .format va
    let n ← issueOp .gmm 2 va ws id
    modTh fun t => { t with gmm := { n := n } }
    writeG d (natWord n)
    advance) s

/-- GMMQ, R305. (Log entry 93: DEDUCED, unsafe.) -/
def execGmmq (gd : Guard) (d : Reg) (sel : BitVec 8) (s : State) : Out :=
  strand gd (do
    forbidInPhase 0
    let r := (← getTh).gmm
    writeG d (match sel.toNat with
      | 0 => r.progress
      | 1 => r.prov.w0
      | 2 => r.prov.w1
      | _ => r.status)
    advance) s

/-- What a GMM carries from bin to bin: the units each expert has spent, entries placed in the re-route list, AISS so far, the
bank of the bin before, and whether it has loaded one. -/
structure GmmRun where
  spent : List (Nat × Nat) := []
  rerouted : Nat := 0
  issued : Nat := 0
  last : Option (BitVec 1) := none
  loaded : Bool := false
  deriving DecidableEq, Repr

/-- A tile is in a bank (R455). -/
def bankHolds (o : EngineOp) (b : Bank) (e va : Nat) : Bool :=
  b.valid && (b.loader == .gmm || b.loader == .pin) && decide (b.asid = o.t.asid ∧ b.secure = o.secure ∧ b.va = va ∧ gmmPw o ≤ b.planes)
    && (match b.pinned with
      | some p => decide (p = e)
      | none => true)

/-- (Log entry 92: DEDUCED, unsafe.) -/
def bankWith (o : EngineOp) (x : Hearth) (e va : Nat) : Option (BitVec 1) :=
  if bankHolds o (x.bank 0) e va then some 0 else if bankHolds o (x.bank 1) e va then some 1 else none

/-- The idle bank (R455); none where both are pinned. (Log entry 92: DEDUCED, unsafe.) -/
def idleBank (x : Hearth) (r : GmmRun) : Option (BitVec 1) :=
  match (x.bank 0).pinned.isSome, (x.bank 1).pinned.isSome with
  | true, true => none
  | false, true => some 0
  | true, false => some 1
  | false, false => if r.loaded then some (~~~(r.last.getD 1)) else some 0

/-- Rows that the budget accepts of c (R316). -/
def accepted (x : Expert) (spent c : Nat) : Nat := if x.cost = 0 then c else min c ((x.budget * 256 - spent) / x.cost)

/-- Rows that take the fallback, from row lo to c − 1 (R304): the entries then in the re-route list.
(Log entry 92: DEDUCED, unsafe.) -/
def fallbackRows (o : EngineOp) (x : Expert) (e dst lo : Nat) (placed : Nat) : Nat → M Nat
  | 0 => pure placed
  | n + 1 => do
    if x.fallback = 0 then
      if o.word 4 = 0 then trapN .format o.addr
      engineStore o (offAddr (o.word 4) (8 * placed)) 8 (e + lo * 2 ^ 16)
      noteOp o fun y => { y with counted := placed + 1 }
      fallbackRows o x e dst (lo + 1) (placed + 1) n
    else
      engineWrite o {} ((dst + lo * o.field 3 32 32) % 2 ^ 56) (List.replicate (256 * drainBytes (gmmOut o)) 0)
      fallbackRows o x e dst (lo + 1) placed n

/-- The cells of row r against a bank, with the events of its accumulation (R303). (Log entry 84: DEDUCED, unsafe.) -/
def gmmCells (row : Row) (pa : Nat) (b : Bank) (pw index r : Nat) : List (Cell × List ProvEvent) :=
  let exps := b.exps
  (rowSums row pa b pw).zipIdx.map fun (xs, j) => addColumn xs row.exps (exps.getD j []) 0 0 r j index (blockLen b.blk) row.fmt b.fmt {}

/-- The rows of a bin from row r on, with the drain events so far, which are recorded after the bin's accumulation (R76). -/
def gmmRows (o : EngineOp) (rows : Word) (b : Bank) (dst issuedSoFar r : Nat) (evs : List ProvEvent) : Nat → M Unit
  | 0 => noteOp o fun x => { x with prov := x.prov.noteAll evs }
  | n + 1 => do
    let row ← tryCatch (engineRow o (fun _ => true) rows (gmmPa o) ((addr rows + r * o.field 3 0 32) % 2 ^ 56)) fun e => do
      noteOp o fun x => { x with prov := x.prov.noteAll evs }
      throw e
    let cells := gmmCells row (gmmPa o) b (gmmPw o) (issuedSoFar + r / 2) r
    noteOp o fun x => { x with prov := x.prov.noteAll (sortEvents (cells.flatMap (·.2))) }
    let (bs, f, ev) := drainRow (drainFormat (gmmOut o)) o.ftz r (row.fmt, b.fmt) fun j => (cells.getD j ({}, [])).1
    tryCatch (engineWrite o {} ((dst + r * o.field 3 32 32) % 2 ^ 56) bs) fun e => do
      noteOp o fun x => { x with prov := x.prov.noteAll (evs ++ ev), flags := x.flags ||| f }
      throw e
    noteOp o fun x => { x with rows := r + 1, flags := x.flags ||| f }
    gmmRows o rows b dst issuedSoFar (r + 1) (evs ++ sortEvents ev) n

/-- The bank of a bin's tile at va: one that has it, or the idle bank, into which it is yet to be loaded; none where the fallback
applies (R303, R318, R455). -/
def chooseBank (o : EngineOp) (x : Expert) (b : Binding) (e va : Nat) (r : GmmRun) (s : State) : Logged :=
  let h := hearthOf s o.hearth
  match bankWith o h e va with
  | some k => .bank (some k) false (h.bank k)
  | none => .bank (if x.residency = 3 ∨ b.length = 0 then none else idleBank h r) true {}

/-- A GMM's tile stands in its bank, also when it goes on after a pause; a bank that is pinned keeps what it has (R280). -/
def showBank (o : EngineOp) (k : BitVec 1) (b : Bank) (s : State) : State :=
  modHearth o.hearth (fun y => if (y.bank k).pinned.isSome then y else y.setBank k { b with pinned := none, loading := none }) s

/-- The tile of a bin's expert, with its bank, and whether it was loaded for the bin; none for the fallback. The tag of its rows is
checked before it is read. -/
def gmmBank (o : EngineOp) (x : Expert) (b : Binding) (e : Nat) (check : M Unit) (r : GmmRun) : M (Option (BitVec 1 × Bool × Bank)) := do
  let va := ((← weightsOf o x b (o.hearth / 48)) + (o.word 2).toNat) % 2 ^ 56
  match ← logged o (do return chooseBank o x b e va r (← get)) with
  | .bank (some k) false t =>
    check
    modify (showBank o k t)
    return some (k, false, t)
  | .bank (some k) true _ =>
    check
    let tag := (b.base &&& ~~~pcMask) ||| natWord va
    if !fmtAssigned (ptrFmt tag) then trap .format tag
    if (tileTag tag (gmmPw o)).isNone then trapN .format va
    let data ← engineTile o (fun _ => true) tag (gmmPw o)
    let t := ((hearthOf (← get) o.hearth).bank k).load o.t.asid o.secure .gmm va tag (gmmPw o) data none
    modify (showBank o k t)
    return some (k, true, t)
  | _ => return none

/-- One bin (R303, R318): its bstat apart from `done`; a reserved format of its rows comes before any access to them or to the
weights (R47). (Log entry 99: DEDUCED, unsafe.) -/
def gmmBin (o : EngineOp) (i : Nat) (r : GmmRun) : M (Nat × GmmRun) := do
  let va := offAddr (o.word 0) (32 * i)
  let w ← engineWord o va 24
  let e := field w 0 16
  let c := field w 32 32
  let rows := natWord (field w 64 64)
  let dst := field w 128 56
  if field w 16 16 ≠ 0 then trapN .format va
  if c = 0 then return (2 ^ 60, r)
  if !fmtAssigned (ptrFmt rows) then trap .format rows
  let x ← readExpert o e
  let b := launchBinding (← get) o.launch x.handle
  let check : M Unit := if (rowTag rows (gmmPa o)).isNone then trapN .format va else pure ()
  match ← gmmBank o x b e check r with
  | none =>
    let placed ← fallbackRows o x e dst 0 r.rerouted c
    return ((2 + x.fallback) * 2 ^ 60 + min c 0xFFFF * 2 ^ 32, { r with rerouted := placed })
  | some (k, fresh, bank) =>
    if ((rowTag rows (gmmPa o)).elim 0 (·.2)) ≠ blockLen bank.blk then trapN .format va
    let spent := lookup 0 r.spent e
    let a := accepted x spent c
    gmmRows o rows bank dst r.issued 0 [] a
    let placed ← fallbackRows o x e dst a r.rerouted (c - a)
    return (min (c - a) 0xFFFF * 2 ^ 32 + a,
      { spent := insert r.spent e (spent + a * x.cost), rerouted := placed, issued := r.issued + (a + 1) / 2, last := some k,
        loaded := r.loaded || fresh })

/-- The bins from bin i on (R303, R304); the number of re-routed rows is written at the end. -/
def gmmFrom (o : EngineOp) (i : Nat) (r : GmmRun) : Nat → M Unit
  | 0 => do
    engineStore o (o.addr + 0x28) 8 r.rerouted
    noteOp o fun x => { x with aux := 0 }
  | n + 1 => do
    noteOp o fun x => { x with aux := i, rows := 0 }
    let va := offAddr (o.word 0) (32 * i + 24)
    let r' ← tryCatch (do
        let (st, r') ← gmmBin o i r
        engineStore o va 8 (2 ^ 63 + st)
        return r') fun x => match x with
      | .trap c v => do
        let now := (findOp (← get) o.t o.e o.n).getD o
        tryStore o va (natWord now.rows)
        tryStore o (o.addr + 0x28) (natWord now.counted)
        trap c v
      | x => throw x
    unitDone o
    gmmFrom o (i + 1) r' n

/-- Every bin in table order. -/
def gmmAll (o : EngineOp) : M Unit := do
  noteOp o fun x => { x with counted := 0 }
  gmmFrom o 0 {} (gmmBins o)

/-- What a thread's GMMQ shows of its GMM (R305). (Log entry 93: DEDUCED, unsafe.) -/
def gmmRecord (o : EngineOp) (status : Word) : GmmRecord :=
  let i := if o.phase ≠ 0 ∧ o.fault = none then gmmBins o - 1 else o.aux
  { n := o.n, progress := natWord (i * 2 ^ 32 + o.progress), prov := o.prov, status := status }

/-- The record of the GMM that a thread issued last. (Log entry 93: DEDUCED, unsafe.) -/
def noteGmm (o : EngineOp) (status : Word) (s : State) : State :=
  match findThread s o.t with
  | some x => if x.gmm.n = o.n then putThread s { x with gmm := gmmRecord o status } else s
  | none => s

/-- A GMM is complete: its flags and its record. -/
def giveGmm (o : EngineOp) (s : State) : State :=
  noteGmm o o.status (giveFlags o ((findThread s o.t).elim s fun t => collectProv o.hearth 2 t o.prov s))

/-- A GMM goes on, by a limit, when it can have the hearth's Anvil (R280); GMMQ shows how far it has come. -/
def gmmEvent (limit : Option Nat) (t : ThreadId) (n : Nat) (s : State) : Out :=
  match findOp s t 2 n with
  | none => .next s
  | some o =>
    if o.kind ≠ .gmm then .next s
    else match if o.phase = 0 then anvilFree o s else some s with
      | none => .next s
      | some s => andThen (opEvent limit gmmAll (fun _ => (none, none)) giveGmm t 2 n s) fun s =>
        .next ((findOp s t 2 n).elim s fun o => noteGmm o 0 s)

/-- GMM_COMPLETE, R303, R304: it waits while it cannot have the hearth's Anvil (R280). -/
def execGmmComplete (t : ThreadId) (n : Nat) (s : State) : Out := gmmEvent none t n s

end Sys2Proof.Machine
end

