-- ==== Sys2Proof/Machine/Bellows.lean ====
section
/-!
DEFINITION. Bellows (R306 to R310): weight streams, pins, and the residency field; deliveries to a bank queue and their end.
-/

namespace Sys2Proof.Machine

open Sys2Proof

/-! ### WSTREAM (R307, R308) -/

def strMode (o : EngineOp) : Nat := o.field 2 0 2
def strKind (o : EngineOp) : Nat := o.field 2 2 2
def strHearth (o : EngineOp) : Nat := o.field 2 12 8
def strBank (o : EngineOp) : BitVec 1 := (o.word 2).extractLsb' 20 1
def strPw (o : EngineOp) : Nat := o.field 2 21 3 + 1
def strCount (o : EngineOp) : Nat := (o.word 3).toNat

/-- Formats that a mode accepts (R307): re-layout of one niK format, quantisation of f32 or bf16, any bytes otherwise.
(Log entry 96: DEDUCED, unsafe.) -/
def strFormats (o : EngineOp) : Bool :=
  let src := o.word 0
  let dst := o.word 1
  match strMode o with
  | 1 => (tileTag dst 1).isSome && decide (ptrFmt src = ptrFmt dst ∧ ptrBlk src = ptrBlk dst)
  | 2 => (tileTag dst 1).isSome && decide (ptrFmt src = 1 ∨ ptrFmt src = 2)
  | _ => true

/-- A stream descriptor breaks a limit of R307. (Log entry 96: DEDUCED, unsafe.) -/
def badStream (o : EngineOp) : Bool :=
  let tiles := decide (strMode o = 1 ∨ strMode o = 2)
  decide (o.field 2 24 40 ≠ 0 ∨ o.field 2 4 8 ≠ 0 ∨ 1 < strKind o ∨ o.word 7 ≠ 0)
    || (decide (strKind o = 1) && (!tiles || decide (191 < strHearth o) || (tileTag (o.word 1) (strPw o)).isNone))
    || decide (strMode o = 0 ∧ strCount o % 64 ≠ 0) || decide (strMode o = 3 ∧ strCount o % 4096 ≠ 0) || !strFormats o

/-- A fat pointer of modes 1 and 2 with a reserved format, the source first, which comes before every other breach (R47). -/
def streamReserved (o : EngineOp) : Option Word :=
  if strMode o = 1 ∨ strMode o = 2 then [o.word 0, o.word 1].find? fun w => !fmtAssigned (ptrFmt w) else none

/-- WSTREAM, R307. -/
def execWstream (gd : Guard) (d a : Reg) (s : State) : Out :=
  strand gd (do
    let p ← readG a
    requireAligned p 64
    engineReady p
    let (va, ws) ← descriptor p 64 8
    let o := (← getTh).operation .wstream 3 0 va ws
    match streamReserved o with
    | some w => trap .format w
    | none => pure ()
    if badStream o then trapN .format va
    issued d (issueOp .wstream 3 va ws id)) s

/-- Bellows may write the ingot store (R81), and its writes heal poisoned lines (R403). -/
def bellowsWrite : WriteMode := { ingot := true, heals := true }

/-- More units are performed, in the measure of count. -/
def unitsDone (o : EngineOp) (k : Nat) : M Unit := noteOp o fun x => { x with progress := x.progress + k }

/-- Mode 0: bytes copied, in pieces of the destination's pages. -/
def streamCopy (o : EngineOp) (dst src : Nat) : Nat → Nat → M Unit
  | 0, _ => pure ()
  | fuel + 1, n => do
    if n = 0 then return ()
    let k := min n (4096 - dst % 4096)
    let bs ← engineRead o src k
    engineWrite o bellowsWrite dst bs
    unitsDone o k
    streamCopy o ((dst + k) % 2 ^ 56) ((src + k) % 2 ^ 56) fuel (n - k)

/-- The bytes of a plane-sparse chunk: segments in order, the absent ones zero (R308). -/
def chunkBytes (map : Nat) (present : List Byte) : Nat → List Byte
  | 0 => []
  | n + 1 =>
    let before := ((List.range n).filter fun k => map.testBit k).length
    chunkBytes map present n ++ (if map.testBit n then (present.drop (64 * before)).take 64 else List.replicate 64 0)

/-- Mode 3: chunks expanded, one after the other. -/
def streamChunks (o : EngineOp) (dst src : Nat) : Nat → M Unit
  | 0 => pure ()
  | n + 1 => do
    let map ← engineWord o src 8
    let k := ((List.range 64).filter fun b => map.testBit b).length
    let bs ← engineRead o ((src + 8) % 2 ^ 56) (64 * k)
    engineWrite o bellowsWrite dst (chunkBytes map bs 64)
    unitsDone o 4096
    streamChunks o ((dst + 4096) % 2 ^ 56) ((src + 8 + 64 * k) % 2 ^ 56) n

/-- Where tile t of the source starts: the first at src; R307 does not say where the others do.
(Log entry 94: DESIGN CHOICE, safe.) -/
def sourceTile (o : EngineOp) (t : Nat) : M Nat := do
  if t = 0 then return addr (o.word 0)
  return addr (← onceWord o drawFree)

/-- The rows of a 256 × 256 source tile, as blocks of exact values for mode 2, K by N. -/
def sourceValues (o : EngineOp) (va : Nat) : Nat → M (List (List FVal))
  | 0 => pure []
  | n + 1 => do
    let l ← sourceValues o va n
    let w := if ptrFmt (o.word 0) = 1 then 4 else 2
    let bs ← engineRead o ((va + n * (o.word 4).toNat) % 2 ^ 56) (256 * w)
    let f := (floatFmt (ptrFmt (o.word 0))).getD f32
    return l ++ [(List.range 256).map fun j => f.decode (bytesToNat ((bs.drop (w * j)).take w))]

/-- The rows of a source tile of an niK format, blocks along N, for mode 1: per row its blocks. -/
def sourceBlocks (o : EngineOp) (k len va : Nat) : Nat → M (List (List (Int × List Int)))
  | 0 => pure []
  | n + 1 => do
    let l ← sourceBlocks o k len va n
    let bs ← engineRead o ((va + n * (o.word 4).toNat) % 2 ^ 56) (lineBytes k len)
    let row := (List.range (256 / len)).map fun b =>
      readBlock (fun i => (bs.drop (b * blockBytes k len)).getD i 0) k len k
    return l ++ [row]

/-- One block along K of a re-laid tile: the same integers, and the same exponent where the source has one for them all.
(Log entry 95: DESIGN CHOICE, safe.) -/
def relaidBlock (k len : Nat) (rows : List (List (Int × List Int))) (col b : Nat) (free : Int) : List Byte :=
  let items := (rows.drop (b * len)).take len |>.map fun row =>
    let blk := row.getD (col / len) (0, [])
    (blk.1, blk.2.getD (col % len) 0)
  let e := match items with
    | [] => free
    | x :: rest => if rest.all fun y => decide (y.1 = x.1) then x.1 else free
  (writeBlock k len e (items.map (·.2))).map fun x => BitVec.ofNat 8 x

/-- Mode 1: one tile (R307). (Log entry 95: DESIGN CHOICE, safe.) -/
def relayTile (o : EngineOp) (k len va : Nat) : M (List Byte) := do
  let rows ← sourceBlocks o k len va 256
  let w ← onceWord o drawFree
  return (List.range 256).flatMap fun j => (List.range (256 / len)).flatMap fun b => relaidBlock k len rows j b (signed 8 w.toNat)

/-- Mode 2: one tile (R62, R307); Q, OF and NV are recorded in aux. -/
def quantTile (o : EngineOp) (k len va : Nat) : M (List Byte) := do
  let rows ← sourceValues o va 256
  let blocks := (List.range 256).flatMap fun j => (List.range (256 / len)).map fun b =>
    quantise k (((rows.drop (b * len)).take len).map fun row => row.getD j (.fin false 0 0))
  let f : BitVec 6 := blocks.foldl (fun f x => f ||| x.2.2) 0
  let has (g : BitVec 6) : Nat := ofBool (decide (f &&& g ≠ 0))
  noteOp o fun x => { x with aux := x.aux ||| (has flagQ + 2 * has flagOF + 4 * has flagNV) }
  return blocks.flatMap fun x => (writeBlock k len x.1 x.2.1).map fun y => BitVec.ofNat 8 y

/-- Tile t of the output of modes 1 and 2. -/
def makeTile (o : EngineOp) (t : Nat) : M (List Byte) := do
  match tileTag (o.word 1) 1 with
  | none => return []
  | some (k, len) =>
    let va ← sourceTile o t
    if strMode o = 1 then relayTile o k len va else quantTile o k len va

/-- Tiles written at dst, one after the other. (Log entry 94: DESIGN CHOICE, safe.) -/
def streamTiles (o : EngineOp) (t dst : Nat) : Nat → M Unit
  | 0 => pure ()
  | n + 1 => do
    let bs ← makeTile o t
    engineWrite o bellowsWrite dst bs
    unitDone o
    streamTiles o (t + 1) ((dst + bs.length) % 2 ^ 56) n

/-- The tile with its planes from pw on zero. -/
def firstPlanes (k len pw : Nat) (bs : List Byte) : List Byte :=
  let n := blockBytes k len
  bs.zipIdx.map fun (b, i) => if i % n < 1 + pw * (len / 8) then b else 0

/-- A delivery goes on, by a limit: the next tile of a kind-1 stream enters its bank queue, which holds two (R307). -/
def deliverEvent (limit : Option Nat) (t : ThreadId) (n : Nat) (s : State) : Out :=
  match findOp s t 3 n with
  | none => .next s
  | some o =>
    let q := (hearthOf s (strHearth o)).bankQueue.toList.getD (strBank o).toNat []
    if o.kind ≠ .wstream ∨ strKind o ≠ 1 ∨ o.phase ≠ 0 ∨ strCount o ≤ o.progress ∨ 2 ≤ q.length then .next s
    else
      let deliver : M Unit := do
        let bs ← makeTile o o.progress
        let (k, len) := (tileTag (o.word 1) 1).getD (8, 32)
        let item := (cellsOf (firstPlanes k len (strPw o) bs), o.word 1, strPw o)
        modify (modHearth (strHearth o) fun x => { x with bankQueue := x.bankQueue.setIfInBounds (strBank o).toNat (q ++ [item]) })
        unitDone o
      let tile : State → State := modOp t 3 n fun x => { x with failed := none, log := [], todo := [], base := 0, hand := [] }
      endPass o (runResult deliver (modOp t 3 n (·.begins limit) s)) tile fun c v => modOp t 3 n (EngineOp.performed (some (c, v)))

/-- BELLOWS_TILE_DELIVER, R307. -/
def execBellowsTileDeliver (t : ThreadId) (n : Nat) (s : State) : Out := deliverEvent none t n s

/-- What a weight stream into memory does (R307). -/
def streamEffects (o : EngineOp) : M Unit :=
  let dst := addr (o.word 1)
  let src := addr (o.word 0)
  let n := strCount o
  match strMode o with
  | 0 => streamCopy o dst src (n / 4096 + 2) n
  | 3 => streamChunks o dst src (n / 4096)
  | _ => streamTiles o 0 dst n

/-! ### WPIN, WUNPIN, WPOL (R309, R310) -/

/-- The forms that name an expert: checked operand, then issue. (Log entry 79: DESIGN CHOICE, safe.) -/
def issueExpert (kind : EngineKind) (d a b : Reg) (bad : Word → Bool) : M Unit := do
  let e ← readG a
  engineReady e
  let w ← readG b
  if bad w then trapOpen .format
  issued d (issueOp kind 3 0 [e, w] id)

/-- A place operand breaks its layout (R309). -/
def badPlace (w : Word) : Bool := decide (wfield w 9 7 ≠ 0 ∨ 191 < wfield w 0 8 ∨ wfield w 16 6 ≠ 0)

/-- WPIN, R309. -/
def execWpin (gd : Guard) (d a b : Reg) (s : State) : Out := strand gd (issueExpert .wpin d a b badPlace) s

/-- WUNPIN, R309. -/
def execWunpin (gd : Guard) (d a b : Reg) (s : State) : Out := strand gd (issueExpert .wunpin d a b badPlace) s

/-- WPOL, R310. -/
def execWpol (gd : Guard) (d a b : Reg) (s : State) : Out := strand gd (issueExpert .wpol d a b fun w => decide (3 < w.toNat)) s

/-- A place: hearth and bank. (Log entry 97: DEDUCED, unsafe.) -/
def placeHearth (o : EngineOp) : Nat := o.field 1 0 8
/-- (Log entry 97: DEDUCED, unsafe.) -/
def placeBank (o : EngineOp) : BitVec 1 := (o.word 1).extractLsb' 8 1

/-- WPIN's load: the expert's tile with all its planes, pinned (R309). (Log entry 97: DEDUCED, unsafe.) -/
def pinTile (o : EngineOp) : M Unit := do
  let e := (o.word 0).toNat
  let x ← readExpert o e
  let b := launchBinding (← get) o.launch x.handle
  let va := (addr b.base + x.woff + o.field 1 16 48) % 2 ^ 56
  let tag := (b.base &&& ~~~pcMask) ||| natWord va
  if b.length ≠ 0 ∧ !fmtAssigned (ptrFmt tag) then trap .format tag
  match if b.length = 0 then none else tileTag tag 1 with
  | none => trapN .format va
  | some (k, _) =>
    let data ← engineTile o (fun _ => true) tag k
    modify (modHearth (placeHearth o) fun y =>
      let z := (y.bank (placeBank o)).load o.t.asid o.secure .pin va tag k data none
      y.setBank (placeBank o) { z with pinned := some e })
    unitDone o

/-- WUNPIN: the pin of the expert is cleared (R309). -/
def unpinTile (o : EngineOp) : M Unit := do
  modify (modHearth (placeHearth o) fun y =>
    let z := y.bank (placeBank o)
    if z.pinned = some (o.word 0).toNat then y.setBank (placeBank o) { z with pinned := none } else y)
  unitDone o

/-- WPOL's write of the residency field (R310). (Log entry 98: DEDUCED, safe.) -/
def setResidency (o : EngineOp) : M Unit := do
  let e := (o.word 0).toNat
  let _ ← readExpert o e
  let va ← expertAddr o e
  let w ← engineWord o va 8
  engineStore o va 8 ((w &&& (2 ^ 64 - 1 - 0x300)) + o.field 1 0 2 * 2 ^ 8)
  unitDone o

/-- An earlier Bellows operation of the thread is not complete. -/
def earlierBellows (s : State) (o : EngineOp) : Bool := s.ops.any fun x => decide (x.t = o.t ∧ x.e = 3 ∧ x.n < o.n)

/-- What a Bellows operation does, its tile deliveries apart. -/
def bellowsEffects (o : EngineOp) : M Unit :=
  match o.kind with
  | .wstream => streamEffects o
  | .wpin => pinTile o
  | .wunpin => unpinTile o
  | _ => setResidency o

/-- Where a Bellows operation's status stands. -/
def bellowsPlaces (o : EngineOp) : Option Nat × Option Nat :=
  if o.kind = .wstream then (some (o.addr + 0x28), some (o.addr + 0x30)) else (none, none)

/-- A Bellows operation goes on, by a limit: a kind-1 stream completes when its tiles are delivered, WPOL after the operations before
it (R307, R310). -/
def bellowsEvent (limit : Option Nat) (t : ThreadId) (n : Nat) (s : State) : Out :=
  match findOp s t 3 n with
  | none => .next s
  | some o =>
    let waits := decide (o.phase = 0) &&
      ((decide (o.kind = .wstream ∧ strKind o = 1) && decide (o.progress < strCount o)) || (decide (o.kind = .wpol) && earlierBellows s o))
    if waits then .next s
    else if o.kind = .wstream ∧ strKind o = 1 ∧ o.phase = 0 then
      opEvent limit bellowsEffects bellowsPlaces noMore t 3 n (modOp t 3 n (EngineOp.performed none) s)
    else opEvent limit bellowsEffects bellowsPlaces noMore t 3 n s

/-- BELLOWS_OP_COMPLETE, R307, R309, R310. -/
def execBellowsOpComplete (t : ThreadId) (n : Nat) (s : State) : Out := bellowsEvent none t n s

end Sys2Proof.Machine
end

