-- ==== Sys2Proof/Machine/Launch.lean ====
section
/-!
DEFINITION. Launches (R311 to R315, R338, R343, R344, R366 to R372): their issue and status, step 1 of the launch unit, the choice
among queues, placement, domains, and the threads they start.
-/

namespace Sys2Proof.Machine

open Sys2Proof

/-! ### A launch as an agent -/

/-- A launch's own entry among the operations, which its reads and writes are made by. (Log entry 101: DEDUCED, safe.) -/
def launchOp (l : Launch) (hearth : Nat) : EngineOp :=
  { t := ⟨l.asid, 0⟩, e := 6, n := l.id, kind := .launch, hearth := hearth, secure := l.secure, priv := l.priv, launch := l.id,
    addr := l.addr, desc := l.record }

def findLaunch (s : State) (id : Nat) : Option Launch := s.launches.find? fun l => decide (l.id = id)

def opOfLaunch (s : State) (l : Launch) : EngineOp := (findOp s ⟨l.asid, 0⟩ 6 l.id).getD (launchOp l 0)

/-- The phase controller of a position acts under a name of its own. (Log entry 101: DEDUCED, safe.) -/
def positionOp (l : Launch) (p : Position) : EngineOp := { launchOp l p.hearth with e := 7 + p.index }

def opOfPosition (s : State) (l : Launch) (p : Position) : EngineOp :=
  (findOp s ⟨l.asid, 0⟩ (7 + p.index) l.id).getD (positionOp l p)

/-- A launch's own entries gone. -/
def dropLaunchOps (l : Launch) (s : State) : State :=
  { s with ops := s.ops.filter fun o => !decide (o.kind = .launch ∧ o.t = ⟨l.asid, 0⟩ ∧ o.n = l.id) }

/-- A piece of a launch's course, by a limit: its end is the next state; a fault is kept for the launch; a miss waits for the walker.
(Log entry 106: DEDUCED, unsafe.) -/
def launchPass (limit : Option Nat) (o : EngineOp) (body : M Unit) (bad : Cause → Nat → State → State) (s : State) : Out :=
  let after : State → State := modOp o.t o.e o.n fun x => { x with failed := none, replies := [], log := [], todo := [], base := 0, hand := [] }
  endPass o (runResult body (modOp o.t o.e o.n (·.begins limit) s)) after (fun c v s => after (bad c v s))

/-- A launch stops with a fault: nothing more of it starts, and it completes when its threads are done; its domains await no more
threads. (Log entries 106: DEDUCED, unsafe; 107: DEDUCED, unsafe.) -/
def stopLaunch (id : Nat) (c : Cause) (v : Nat) (s : State) : State :=
  modLaunch id (fun l => { l with fault := l.fault.orElse fun _ => some (c, v) })
    { s with domains := s.domains.map fun d => if d.launch = id then { d with unborn := 0 } else d }

/-! ### LAUNCH, LSTAT (R311, R314, R315) -/

/-- A new launch at the end of its queue. (Log entry 101: DEDUCED, safe.) -/
def addLaunch (l : Launch) (hearth : Nat) (s : State) : State :=
  { s with launches := s.launches ++ [l], launchCount := s.launchCount + 1, ops := s.ops ++ [launchOp l hearth] }

/-- LAUNCH, R314. (Log entries 79: DESIGN CHOICE, safe; 100: DEDUCED, unsafe.) -/
def execLaunch (gd : Guard) (d a : Reg) (s : State) : Out :=
  strand gd (do
    let p ← readG a
    requireAligned p 64
    engineReady p
    let (va, ws) ← descriptor p 64 16
    let t ← getTh
    let w := ws.getD 2 0
    if w.extractLsb' 42 10 ≠ t.id.asid ∨ w.getLsbD 40 ≠ t.secure then trapOpen .world
    let n ← issueNumber 4
    modify fun s =>
      let l : Launch := { id := s.launchCount + 1, issuer := some (t.id, n), asid := t.id.asid, secure := t.secure, priv := t.priv,
                          prio := t.launchPrio, addr := va, record := ws }
      addLaunch l t.hearth s
    writeG d (natWord n)
    advance) s

def LaunchState.aux : LaunchState → Nat
  | .queued => 0 | .waiting => 1 | .running => 2 | .complete => 3

/-- The packages of a launch's shape (R312). -/
def Launch.packages (l : Launch) : Nat := l.field 3 25 11 + 1

/-- Threads of a launch over several packages that are done in the others by now, which is open.
(Log entry 15: DEDUCED, unsafe.) -/
def noteOutside (id : Nat) (s : State) : State :=
  match s.launches.find? fun l => decide (l.id = id) with
  | some l =>
    if 1 < l.packages ∧ l.state = .running then
      modLaunch id (fun x => { x with outside := x.outside + wfield (Config.freeValue s.freeCount) 0 24 }) { s with freeCount := s.freeCount + 1 }
    else s
  | none => s

/-- The status word of a launch (R278, R315): done once it is complete. -/
def Launch.status (l : Launch) : Word :=
  let w := statusWord l.fault l.state.aux (l.doneCount + l.outside)
  if l.state = .complete then w else natWord (wfield w 0 48)

/-- LSTAT, R315. -/
def execLstat (gd : Guard) (d a : Reg) (sel : BitVec 8) (s : State) : Out :=
  strand gd (do
    let n ← readG a
    forbidInPhase n
    let s ← get
    let last := (s.th.timeline 4).last
    if n = 0 ∨ last < n.toNat then trap .format n
    let issued (l : Launch) : Bool := decide (l.issuer = some (s.th.id, n.toNat))
    modify fun s => (s.launches.find? issued).elim s fun l => noteOutside l.id s
    let s ← get
    let l := if n.toNat + 64 ≤ last then none else s.launches.find? issued
    writeG d (match sel.toNat, l with
      | 0, some l => l.status
      | 0, none => 0x8000000000000000
      | 1, some l => natWord (l.fault.elim 0 (·.2))
      | 2, some l => natWord l.skipped
      | 3, some l => natWord l.tag
      | _, _ => 0)
    advance) s

/-! ### Step 1 (R312, R314, R351, R367, R404) -/

def Launch.det (l : Launch) : Bool := decide (l.field 2 38 1 = 1)
def Launch.lockstep (l : Launch) : Bool := decide (l.field 2 39 1 = 1)
def Launch.tiles (l : Launch) : Nat := l.field 10 0 64
def Launch.supersteps (l : Launch) : Nat := l.field 8 0 32

/-- Hearths, benches, dies and packages of the shape. -/
def Launch.shape (l : Launch) : Nat × Nat × Nat × Nat := (l.field 3 16 4, l.field 3 20 3, l.field 3 23 2 + 1, l.packages)

/-- Hearths that a launch asks for in each package. -/
def Launch.packageHearths (l : Launch) : Nat :=
  let (h, b, d, _) := l.shape
  h * b * d

/-- Hearths that a launch asks for. -/
def Launch.hearthCount (l : Launch) : Nat := l.packageHearths * l.packages

/-- A launch record breaks R312, R370 or R404. (Log entry 105: DEDUCED, unsafe.) -/
def Launch.badRecord (l : Launch) : Bool :=
  let (h, b, _, _) := l.shape
  let per := l.field 3 8 7
  let reserved := decide (l.field 2 52 12 ≠ 0 ∨ l.field 2 41 1 ≠ 0 ∨ l.field 3 36 28 ≠ 0 ∨ l.field 3 15 1 ≠ 0 ∨ l.field 3 5 3 ≠ 0
    ∨ l.field 6 8 56 ≠ 0 ∨ l.field 11 32 32 ≠ 0) || (l.record.drop 12).any fun w => decide (w ≠ 0)
  let ranges := decide (l.field 0 0 2 ≠ 0 ∨ b = 0 ∨ 6 < b ∨ h = 0 ∨ 8 < h ∨ per = 0 ∨ 64 < per ∨ l.field 4 0 12 ≠ 0
    ∨ l.field 5 0 4 ≠ 0 ∨ l.field 9 32 4 ≠ 0 ∨ l.field 10 0 5 ≠ 0)
  let threads := l.field 2 0 32
  let counts := if l.tiles = 0 then decide (threads ≠ per * l.hearthCount) else decide (threads ≠ 0 ∨ l.field 3 0 5 ≠ 0) || l.det
  let stride := l.field 8 32 32
  let steps := l.det && decide (per ≠ 1 ∨ l.field 0 0 64 ≠ 0 ∨ (stride ≠ 0 ∧ (stride % 16 ≠ 0 ∨ stride < 16 * l.supersteps)))
  reserved || ranges || counts || steps || (l.lockstep && (!l.det || decide (h % 2 = 1)))

/-- A dependency entry's first word breaks R312. -/
def badDependency (w : Word) : Bool :=
  if w.getLsbD 63 then decide (wfield w 14 49 ≠ 0) else decide (wfield w 56 7 ≠ 0 ∨ wfield w 3 9 ≠ 0 ∨ 4 < wfield w 0 3)

/-- The dependency list from entry k on. -/
def readDependencies (o : EngineOp) (base k : Nat) : Nat → M (List (Word × Word))
  | 0 => pure []
  | n + 1 => do
    let a := (base + 16 * k) % 2 ^ 56
    let ws := wordsOf (← engineRead o a 16)
    let w := ws.getD 0 0
    if badDependency w then trapN .format a
    let rest ← readDependencies o base (k + 1) n
    return (w, ws.getD 1 0) :: rest

/-- The launch record, read once by the launch unit, at step 1 (R344, R367). (Log entry 100: DEDUCED, unsafe.) -/
def fetchRecord (o : EngineOp) (l : Launch) : M Launch := do
  let ws ← tryCatch (engineRead o l.addr 128) fun e => match e with
    | .trap c _ => trapN c l.addr
    | e => throw e
  let l := { l with record := wordsOf ws }
  if l.field 2 42 10 ≠ l.asid.toNat ∨ decide (l.field 2 40 1 = 1) ≠ l.secure then trapN .format l.addr
  return l

/-- The launch is complete (R98, R314, R368): its binding block retires and its issuer's timeline advances; a host launch's
completion is still to be written. -/
def finishLaunch (l : Launch) (s : State) : State :=
  let s := modLaunch l.id (fun l => { l with state := .complete, computing := false, held := false, binding := [], startMem := [],
                                             deferred := [], mail := [] }) (noteOutside l.id s)
  let s := if l.host.isSome then s else dropLaunchOps l s
  match l.issuer with
  | some (t, n) => completeNumber t 4 n s
  | none => s

/-- Step 1 of R314 and step 2 for the head of a queue. (Log entry 100: DEDUCED, unsafe.) -/
def checkLaunch (l : Launch) (s : State) : Out :=
  let o := opOfLaunch s l
  launchPass none o (do
    let l ← fetchRecord o l
    if l.badRecord then trapN .format l.addr
    let deps ← readDependencies o (addr (l.record.getD 5 0)) 0 (l.field 6 0 8)
    let prio := min (l.field 2 32 6) l.prio
    modify (modLaunch l.id fun x => { x with record := l.record, checked := true, deps := deps, prio := prio }))
    (fun c v s => finishLaunch l (stopLaunch l.id c v s)) s

/-! ### Queues (R366, R369) -/

/-- The order of queues: host queues by number, then device queues by address space. -/
def Launch.queue (l : Launch) : Nat := l.host.elim (16384 + l.asid.toNat) (·.1)

def Launch.pending (l : Launch) : Bool := decide (l.state = .queued ∨ l.state = .waiting)

/-- The head of each queue. -/
def headsOf : List Launch → List Nat → List Launch
  | [], _ => []
  | l :: ls, seen =>
    if !l.pending || seen.contains l.queue then headsOf ls seen else l :: headsOf ls (l.queue :: seen)

def queueHeads (s : State) : List Launch := headsOf s.launches []

/-- Where the descriptor of a host queue stands (R366, R439). (Log entry 104: DEDUCED, unsafe.) -/
def queueDescriptor (s : State) (q : Nat) : Nat := wfield s.mgmt.qtbase 0 52 + 64 * q

/-- A dependency is met (R312, R368). (Log entry 104: DEDUCED, unsafe.) -/
def dependencyMet (s : State) (asid : BitVec 10) (d : Word × Word) : Bool :=
  let n := d.2.toNat
  if d.1.getLsbD 63 then decide (n ≤ Mem.read s.mem (queueDescriptor s (wfield d.1 0 14) + 0x18) 8)
  else decide (n = 0) || match findThread s ⟨asid, d.1.extractLsb' 12 44⟩ with
    | some t => decide (n ≤ (t.timeline (wfield d.1 0 3)).completed)
    | none => false

def Launch.ready (l : Launch) (s : State) : Bool := l.checked && l.deps.all (dependencyMet s l.asid)

/-- The candidate with the least key. -/
def leastBy {α : Type} (f : α → Nat) : List α → Option α
  | [] => none
  | x :: xs => match leastBy f xs with
    | some y => if f y < f x then some y else some x
    | none => some x

/-- The launch that R369 chooses next. (Log entry 103: DEDUCED, safe.) -/
def chooseLaunch (s : State) : Option Launch :=
  let ready := (queueHeads s).filter fun l => l.ready s
  let top (ls : List Launch) : Nat := ls.foldl (fun p l => max p l.prio) 0
  let p := top ready
  let held := ready.filter (·.held)
  if ready.isEmpty then none
  else if !held.isEmpty ∧ p ≤ top held then leastBy (·.id) (held.filter fun l => decide (l.prio = top held))
  else
    let at_ := ready.filter fun l => decide (l.prio = p)
    match (s.lastQueue.find? fun x => decide (x.1 = p)).map (·.2) with
    | none => leastBy Launch.queue at_
    | some last => (leastBy Launch.queue (at_.filter fun l => decide (last < l.queue))).orElse fun _ => leastBy Launch.queue at_

/-! ### Placement (R338, R370, R372, R404) -/

/-- A unit that a launch may take: what it compares by, and the hearths it would take there. -/
structure Choice where
  load : Nat
  blocks : Nat
  taken : Nat
  number : Nat
  hearths : List Nat
  deriving DecidableEq, Repr

/-- Lower load first, then more free context-cache blocks, then a free forge seat, then the lower number.
(Log entry 103: DEDUCED, safe.) -/
def Choice.before (a b : Choice) : Bool :=
  decide (a.load < b.load) || (decide (a.load = b.load) && (decide (a.blocks < b.blocks) || (decide (a.blocks = b.blocks) &&
    (decide (a.taken < b.taken) || (decide (a.taken = b.taken) && decide (a.number ≤ b.number))))))

def insertChoice (c : Choice) : List Choice → List Choice
  | [] => [c]
  | x :: xs => if c.before x then c :: x :: xs else x :: insertChoice c xs

/-- Numbers in rising order. -/
def insertNat (n : Nat) : List Nat → List Nat
  | [] => [n]
  | x :: xs => if n ≤ x then n :: x :: xs else x :: insertNat n xs

/-- A unit made of smaller ones, its hearths in rising order. (Log entry 103: DEDUCED, safe.) -/
def combineChoices (number : Nat) (cs : List Choice) : Choice :=
  ⟨(cs.map (·.load)).sum, (cs.map (·.blocks)).sum, (cs.map (·.taken)).sum, number, (cs.flatMap (·.hearths)).foldr insertNat []⟩

/-- The best n of some units, as one unit, if there are so many. (Log entry 103: DEDUCED, safe.) -/
def takeChoices (n number : Nat) (cs : List Choice) : Option Choice :=
  if cs.length < n then none else some (combineChoices number ((cs.foldr insertChoice []).take n))

/-- A domain's nodes are in use: it has members, or is to have some (R371, R372). -/
def nodesLive (s : State) (d : Domain) : Bool :=
  !d.members.isEmpty || decide (0 < d.unborn) || s.launches.any fun l => decide (l.id = d.launch ∧ l.state = .running) && (decide (l.field 2 38 1 = 1) || d.outside)

/-- Domain nodes that a hearth holds; those of a domain whose last member is done are free again (R372). -/
def nodesHeld (s : State) (h : Nat) : Nat := (s.domains.filter fun d => d.nodes.contains h && nodesLive s d).length

/-- A hearth is withdrawn (R408). -/
def withdrawn (s : State) (h : Nat) : Bool := (benchOf s (h / 8)).withdrawn.getLsbD (h % 8 / 2)

/-- The levels that a launch marks. -/
def Launch.levels (l : Launch) : List Nat := ((List.range 5).filter fun k => decide (l.field 3 k 1 = 1)).map (· + 1)

/-- A hearth may be taken. -/
def eligible (s : State) (l : Launch) (h : Nat) : Bool :=
  let x := hearthOf s h
  decide (x.secure = l.secure) && !x.quiesced && !withdrawn s h && !inLockstep s h && decide (nodesHeld s h + l.levels.length ≤ 256)

/-- Seated and ready threads of a hearth at a launch's priority or above. -/
def loadOf (s : State) (prio h : Nat) : Nat :=
  ((threads s).filter fun t => decide (prio ≤ t.effPrio) && match t.place with
    | .strand c => decide (c / 4 = h)
    | .off => decide (t.st = .ready ∧ t.hearth = h)
    | _ => false).length

def hearthChoice (s : State) (l : Launch) (h : Nat) : Choice :=
  ⟨loadOf s l.prio h, blocksResident s h, ofBool (hearthOf s h).seat.isSome, h, [h]⟩

/-- The choice within a bench: hearths, or pairs of a lock-step launch. -/
def benchChoice (s : State) (l : Launch) (b : Nat) : Option Choice :=
  let one (h : Nat) : Option Choice := if eligible s l h then some (hearthChoice s l h) else none
  let (n, _) := l.shape
  if l.lockstep then
    takeChoices (n / 2) b ((List.range 4).filterMap fun k =>
      match one (8 * b + 2 * k), one (8 * b + 2 * k + 1) with
      | some x, some y => some (combineChoices (8 * b + 2 * k) [x, y])
      | _, _ => none)
  else takeChoices n b ((List.range 8).filterMap fun k => one (8 * b + k))

/-- The hearths that a launch takes in this package, by position. -/
def placeLaunch (s : State) (l : Launch) : Option (List Nat) :=
  let (_, benches, dies, _) := l.shape
  let die (d : Nat) : Option Choice := takeChoices benches d ((List.range 6).filterMap fun b => benchChoice s l (6 * d + b))
  (takeChoices dies 0 ((List.range 4).filterMap die)).map (·.hearths)

/-- The launch asks for more hearths of its world than exist and are not withdrawn (R369), as far as this package shows it.
(Log entry 15: DEDUCED, unsafe.) -/
def asksTooMuch (s : State) (l : Launch) : Bool :=
  decide (((List.range 192).filter fun h => decide ((hearthOf s h).secure = l.secure) && !withdrawn s h).length < l.packageHearths)

/-- Where a launch goes: it is accepted, with its hearths in this package, the package's place among those of the launch, and its
number in its fabric group with the group's; it is held; or it ends with FORMAT. -/
inductive Placing where
  | here (hs : List Nat) (rank : Nat) (group : Nat × Nat)
  | held
  | refused
  deriving DecidableEq, Repr

/-- The placement of a launch (R338, R369, R370). Of a launch over several packages it is open whether the others have room, which
packages take part, and which of them this one is. (Log entry 15: DEDUCED, unsafe.) -/
def placing (s : State) (l : Launch) (w : Word) : Placing :=
  if l.packages = 1 then
    match placeLaunch s l with
    | some hs => .here hs 0 (0, 0)
    | none => if asksTooMuch s l then .refused else .held
  else if w.getLsbD 63 then
    let rank := wfield w 0 11 % l.packages
    let first := wfield w 11 11 % (rank + 1)
    .here (if w.getLsbD 62 then (placeLaunch s l).getD [] else []) rank (rank - first, wfield w 22 11 % (first + 1))
  else if w.getLsbD 61 then .refused else .held

/-! ### Acceptance (R31, R314, R371) -/

/-- The unit of a level that holds a hearth. -/
def unitAt (level h : Nat) : Nat :=
  match level with
  | 1 => h
  | 2 => h / 8
  | 3 => h / 48
  | _ => 0

/-- The units of a level that hold some hearths, in rising order. -/
def unitsOf (level : Nat) (hs : List Nat) : List Nat := (hs.map (unitAt level)).eraseDups

/-- The next valid higher level. -/
def higherLevel (levels : List Nat) (level : Nat) : Option Nat := levels.find? fun x => decide (level < x)

/-- The index of a hearth's domain of a level (R31). -/
def domainIndex (levels hs : List Nat) (level h : Nat) : Nat :=
  let peers := match higherLevel levels level with
    | some up => hs.filter fun x => decide (unitAt up x = unitAt up h)
    | none => hs
  (unitsOf level peers).findIdx fun u => decide (u = unitAt level h)

/-- DOMSET of a root thread on a hearth, in the package of a number in the fabric group of a number (R31). -/
def domsetOf (tag : Nat) (levels hs : List Nat) (group : Nat × Nat) (h : Nat) : Word :=
  let place (level : Nat) : Nat :=
    let i := domainIndex levels hs level h
    2 ^ (43 + (level - 1)) + match level with
      | 1 => (i % 256) * 2 ^ 35
      | 2 => (i % 256) * 2 ^ 27
      | 3 => (i % 256) * 2 ^ 19
      | 4 => (group.1 % 2048) * 2 ^ 8
      | _ => group.2 % 256
  natWord (tag * 2 ^ 48 + (levels.map place).sum)

/-- The domains of a launch: one for each unit of each marked level, over the threads placed there (R371): so many root threads to each
of its hearths. -/
def newDomains (l : Launch) (levels hs : List Nat) (group : Nat × Nat) : List Domain :=
  levels.flatMap fun level => (unitsOf level hs).map fun u =>
    let nodes := hs.filter fun h => decide (unitAt level h = u)
    let index := if level = 4 then group.1 else if level = 5 then group.2 else domainIndex levels hs level (nodes.getD 0 0)
    { launch := l.id, level := level, index := index, members := [], nodes := nodes,
      unborn := if l.det then 0 else nodes.length * l.field 3 8 7, outside := decide (level = 5 ∧ 1 < l.packages) }

/-- A launch tag is in use (R31). (Log entry 102: DEDUCED, safe.) -/
def tagUsed (s : State) (tag : Nat) : Bool :=
  s.launches.any fun l => decide (l.tag = tag) &&
    (decide (l.state = .running) || s.domains.any fun d => decide (d.launch = l.id) && !d.members.isEmpty)

/-- A tag that no live launch has; which one is not fixed. (Log entry 102: DEDUCED, safe.) -/
def freshTag (s : State) (w : Word) : Nat :=
  ((List.range (s.launches.length + 1)).map fun k => (w.toNat + k) % 65535 + 1).find? (fun x => !tagUsed s x) |>.getD 1

/-- The positions of a launch in this package begin with this number (R338). -/
def Launch.firstPosition (l : Launch) : Nat := l.rank * l.packageHearths

/-- The positions of a deterministic launch in this package (R338, R404): a lock-step pair is one, numbered by its even hearth.
(Log entry 105: DEDUCED, unsafe.) -/
def newPositions (l : Launch) (hs : List Nat) : List Position :=
  hs.zipIdx.filterMap fun (h, i) => if l.lockstep ∧ h % 2 = 1 then none else some { index := l.firstPosition + i, hearth := h }

/-- Root threads, or phase controllers, of the launch in this package: the number of the first, and of the one behind the last. -/
def Launch.roots (l : Launch) : Nat × Nat :=
  let per := l.field 3 8 7
  (l.firstPosition * per, (l.firstPosition + l.hearths.length) * per)

/-- A launch accepted on its hearths. (Log entry 105: DEDUCED, unsafe.) -/
def acceptLaunch (l : Launch) (hs : List Nat) (rank : Nat) (group : Nat × Nat) (w : Word) (s : State) : State :=
  let tag := freshTag s w
  let homes := if l.lockstep then hs.filter fun h => decide (h % 2 = 0) else hs
  let taken (x : Launch) : Launch :=
    let y := { x with state := .running, held := false, tag := tag, hearths := hs, rank := rank, binding := (spaceOf s l.asid).bind,
                      domsets := homes.map (fun h => (h, domsetOf tag l.levels homes group h)) }
    { y with positions := if l.det then newPositions y hs else [], next := if l.tiles = 0 then y.roots.1 else 0 }
  let positions := if l.det then newPositions { l with rank := rank } hs else []
  let s := { modLaunch l.id taken s with domains := s.domains ++ newDomains l l.levels homes group, ops := s.ops ++ positions.map (positionOp l) }
  { s with lastQueue := (l.prio, l.queue) :: s.lastQueue.filter fun x => decide (x.1 ≠ l.prio) }

/-! ### Threads (R314, R338, R343) -/

/-- A thread that a launch starts on a hearth. -/
def Launch.thread (l : Launch) (ctx : BitVec 44) (h : Nat) (entry : Word) (gs : List (Reg × Word)) (mask : Word) : Thread :=
  let r : Regs := gs.foldl (fun r g => r.wg g.1 g.2) {}
  { id := ⟨l.asid, ctx⟩, secure := l.secure, domset := lookup 0 l.domsets h, r := { r.wm 0 mask with pc := entry &&& pcMask },
    st := .ready, priv := l.priv, basePrio := l.prio, effPrio := l.prio, launchPrio := l.prio, hearth := h, home := h, launch := l.id,
    started := true }

/-- The context address of frame k of the launch's pool. -/
def Launch.frame (l : Launch) (k : Nat) : BitVec 44 := BitVec.ofNat 44 (wfield (l.record.getD 4 0) 12 44 + k)

/-- A thread started: its frame written, and it joins the launch's domains that hold its hearth (R32, R80, R371).
(Log entry 101: DEDUCED, safe.) -/
def startThread (o : EngineOp) (l : Launch) (t : Thread) : M Unit := do
  let ps ← enginePlace { o with hearth := t.hearth } (frameVa t.id) 1 .store
  let s ← get
  match ps.find? fun q => readOnly s l.asid q.va q.pa with
  | some q => trapN .ingotReadonly q.va
  | none => pure ()
  modify fun s =>
    let s := createThread t t.id ps s
    let join (d : Domain) : Domain :=
      if d.launch = l.id ∧ d.nodes.contains t.hearth then { d with members := d.members ++ [t.id], unborn := d.unborn - 1 } else d
    modLaunch l.id (fun x => { x with threads := x.threads + 1 }) { s with domains := s.domains.map join }

/-- A step repeated as long as it makes progress, at most n times. -/
def repeatWhile (progress : State → Nat) (f : State → Out) : Nat → State → Out
  | 0, s => .next s
  | n + 1, s =>
    match f s with
    | .next s' => if progress s' = progress s then .next s' else repeatWhile progress f n s'
    | y => y

def nextOf (id : Nat) (s : State) : Nat := (findLaunch s id).elim 0 fun l => l.next

/-- The next root thread of a launch; a quiesced hearth takes none (R314, R365). -/
def startRoot (id : Nat) (s : State) : Out :=
  match findLaunch s id with
  | none => .next s
  | some l =>
    let h := l.hearths.getD ((l.next - l.roots.1) / l.field 3 8 7) 0
    if l.state ≠ .running ∨ l.fault.isSome ∨ l.det ∨ l.tiles ≠ 0 ∨ l.roots.2 ≤ l.next ∨ (hearthOf s h).quiesced then .next s
    else
      let o := opOfLaunch s l
      launchPass none o (do
        let t := l.thread (l.frame l.next) h (l.record.getD 0 0) [(1, natWord l.next), (2, l.record.getD 1 0)] 0
        startThread o l t
        modify (modLaunch id fun x => { x with next := x.next + 1 })) (stopLaunch id) s

/-- The root threads of a launch, as far as their frames translate. -/
def startRoots (l : Launch) : State → Out := repeatWhile (nextOf l.id) (startRoot l.id) (l.hearths.length * l.field 3 8 7)

/-- A chosen launch goes where it is placed: it is accepted and its root threads start, or it is held, or it ends with FORMAT (R369). -/
def acceptNext (s : State) : Out :=
  match chooseLaunch s with
  | none => .next s
  | some l =>
    let w := Config.freeValue s.freeCount
    match placing s l (Config.freeValue (s.freeCount + 1)) with
    | .here hs rank group =>
      let s := acceptLaunch l hs rank group w { s with freeCount := s.freeCount + 2 }
      if l.tiles ≠ 0 ∧ l.field 11 0 32 = 0 then .next (finishLaunch l s)
      else match findLaunch s l.id with
        | some l => startRoots l s
        | none => .next s
    | .refused => .next (finishLaunch l (stopLaunch l.id .format l.addr { s with freeCount := s.freeCount + 2 }))
    | .held => .next (modLaunch l.id (fun x => { x with held := true }) { s with freeCount := s.freeCount + 2 })

/-- Outcomes one after the other. -/
def eachNext {α : Type} (f : α → State → Out) : List α → State → Out
  | [], s => .next s
  | x :: xs, s => andThen (f x s) (eachNext f xs)

/-- Heads that are past step 1 wait for their dependencies, or do not (R315). -/
def noteWaiting (s : State) : State :=
  { s with launches := s.launches.map fun l =>
    if l.pending ∧ l.checked then { l with state := if l.ready s then .queued else .waiting } else l }

/-- LAUNCH_ACCEPT, R314, R369 to R371: accepted launches go on starting their root threads, heads are checked, and one is chosen. -/
def execLaunchAccept (s : State) : Out :=
  andThen (eachNext startRoots (s.launches.filter fun l => decide (l.state = .running)) s) fun s =>
    andThen (eachNext checkLaunch ((queueHeads s).filter fun l => !l.checked) s) fun s => acceptNext (noteWaiting s)

/-- A tile record breaks R313, or starts no thread (R314, R344). -/
def badTile (ws : List Word) : Bool :=
  let w (k : Nat) : Word := ws.getD k 0
  let rows := wfield (w 1) 0 6
  decide (wfield (w 0) 16 16 ≠ 0 ∨ wfield (w 1) 32 32 ≠ 0 ∨ wfield (w 1) 6 2 ≠ 0 ∨ w 3 ≠ 0 ∨ rows = 0 ∨ 32 < rows)

/-- TILE_THREAD_START, R313, R314, R343, R344: the next tile record; a quiesced hearth takes no thread (R365), and the records of other
packages are read there, where it is open whether they start one. (Log entries 15: DEDUCED, unsafe; 108: DEDUCED, unsafe.) -/
def execTileThreadStart (launch : Nat) (s : State) : Out :=
  match findLaunch s launch with
  | none => .next s
  | some l =>
    let pos := l.next % max 1 l.hearthCount
    let passed (x : Launch) : Launch := { x with next := x.next + 1 }
    if l.state ≠ .running ∨ l.fault.isSome ∨ l.tiles = 0 ∨ l.field 11 0 32 ≤ l.next then .next s
    else match if pos < l.firstPosition then none else l.hearths[pos - l.firstPosition]? with
      | none =>
        let skips := ofBool ((Config.freeValue s.freeCount).getLsbD 0)
        .next (modLaunch launch (fun x => { passed x with skipped := x.skipped + skips }) { s with freeCount := s.freeCount + 1 })
      | some h =>
        let here := ((threads s).filter fun t => decide (t.launch = launch ∧ t.home = h) && t.started && t.live).length
        if l.field 3 8 7 ≤ here ∨ (hearthOf s h).quiesced then .next s
        else
          let o := opOfLaunch s l
          launchPass none o (do
            let a := (addr (l.record.getD 10 0) + 32 * l.next) % 2 ^ 56
            let ws := wordsOf (← engineRead o a 32)
            if badTile ws then modify (modLaunch launch fun x => { x with skipped := x.skipped + 1 })
            else
              let rows := wfield (ws.getD 1 0) 0 6
              startThread o l (l.thread (l.frame l.next) h (l.record.getD 0 0)
                [(1, natWord l.next), (2, natWord a), (3, l.record.getD 1 0)] (natWord (2 ^ rows - 1)))
            modify (modLaunch launch passed)) (stopLaunch launch) s

/-- Everything that a launch starts has been started: a fault, or its last root thread, tile record or exchange phase. After
LOCKSTEP_LASTING the other hearths go on to their next barrier (R407). (Log entries 106: DEDUCED, unsafe; 107: DEDUCED, unsafe.) -/
def Launch.allStarted (l : Launch) : Bool :=
  if l.fault.isSome then !l.positions.any (·.lasting) || l.positions.all fun p => p.lasting || p.ended
  else if l.det then decide (l.supersteps ≤ l.superstep) && !l.computing
  else decide ((if l.tiles = 0 then l.roots.2 else l.field 11 0 32) ≤ l.next)

/-- LAUNCH_COMPLETE, R314, R407. -/
def execLaunchComplete (launch : Nat) (s : State) : Out :=
  .next (match findLaunch s launch with
    | none => s
    | some l =>
      if l.state = .running ∧ l.allStarted ∧ l.threads ≤ l.doneCount ∧ !opWaits (opOfLaunch s l) s then finishLaunch l s else s)

end Sys2Proof.Machine
end

