-- ==== Sys2Proof/Machine/Supersteps.lean ====
section
/-!
DEFINITION. Deterministic launches (R35 to R40, R102, R338) and lock-step pairs (R404 to R410): supersteps, routine lists, the
exchange phase, and what a mismatch brings.
-/

namespace Sys2Proof.Machine

open Sys2Proof

/-! ### Positions -/

def modPosition (id pos : Nat) (f : Position → Position) : State → State :=
  modLaunch id fun l => { l with positions := l.positions.modify pos f }

/-- An entry of a routine list (R36). -/
structure Routine where
  entry : Word
  arg : Word
  threads : Nat
  join : Bool
  last : Bool
  deriving DecidableEq, Repr

/-- A routine-list entry, unless it breaks R36. -/
def routineOf (ws : List Word) : Option Routine :=
  let w (k : Nat) : Word := ws.getD k 0
  let n := wfield (w 2) 0 32
  if wfield (w 0) 0 2 ≠ 0 ∨ n = 0 ∨ wfield (w 2) 34 30 ≠ 0 ∨ w 3 ≠ 0 then none
  else some ⟨w 0, w 1, n, (w 2).getLsbD 32, (w 2).getLsbD 33⟩

/-- The entry at an address. -/
def readRoutine (o : EngineOp) (a : Nat) : M (Option Routine) := do return routineOf (wordsOf (← engineRead o a 32))

/-- The threads of a routine list, up to its last entry or one that breaks R36. -/
def listThreads (o : EngineOp) : Nat → Nat → M Nat
  | 0, _ => pure 0
  | fuel + 1, a => do
    match ← readRoutine o a with
    | none => return 0
    | some r => if r.last then return r.threads else return r.threads + (← listThreads o fuel ((a + 32) % 2 ^ 56))

/-- Entry s of a position's superstep table (R35): its routine list and its transfer list. -/
def tableEntry (o : EngineOp) (l : Launch) (index step : Nat) : M (Nat × Nat) := do
  let a := (addr (l.record.getD 7 0) + l.field 8 32 32 * index + 16 * step) % 2 ^ 56
  let ws := wordsOf (← engineRead o a 16)
  return (addr (ws.getD 0 0), addr (ws.getD 1 0))

/-- The numbers of all positions of a launch; a lock-step pair is one. -/
def Launch.positionNumbers (l : Launch) : List Nat :=
  (List.range l.hearthCount).filter fun i => !l.lockstep || decide (i % 2 = 0)

/-- w of R338: the largest total of any list of the launch. -/
def launchWidth (o : EngineOp) (l : Launch) : M Nat := do
  let mut w := 0
  for i in l.positionNumbers do
    for step in List.range l.supersteps do
      let (a, _) ← tableEntry o l i step
      if a ≠ 0 then w := max w (← listThreads o (2 ^ 51) a)
  return w

/-! ### SUPERSTEP_START (R35, R37, R406, R409) -/

/-- A position as a superstep starts; a lock-step pair opens its checkpoint over the local memory. -/
def startPosition (s : State) (l : Launch) (p : Position) (list transfer : Nat) : Position :=
  let room := ckptLimit s p.hearth
  { p with list := list, next := list, entry := 0, before := 0, sub := 0, ended := decide (list = 0), started := 0, done := 0,
           transfer := transfer, ckptLines := [], ckptRoom := room, rollbacks := 0, firstPoint := none,
           checkpoint := if l.lockstep then some (Mem.slice s.mem (localBase + p.hearth * 2 ^ 22) localBytes) else none,
           unprotected := l.lockstep && decide (room = 0) }

/-- A superstep that runs unprotected is counted (R408, R409). (Log entry 110: DEDUCED, unsafe.) -/
def countUnprotected (p : Position) (s : State) : State :=
  if p.unprotected then
    let b := benchOf s (p.hearth / 8)
    putBench s (p.hearth / 8) { b with unprot := if b.unprot = 0xFFFF then b.unprot else b.unprot + 1 }
  else s

/-- Nothing of a launch's phase controllers awaits a response (R40). -/
def controllersIdle (l : Launch) (s : State) : Bool :=
  !opWaits (opOfLaunch s l) s && l.positions.all fun p => !opWaits (opOfPosition s l p) s

/-- SUPERSTEP_START, R35: the moment at which loads of a compute phase see memory (R37). -/
def execSuperstepStart (launch : Nat) (s : State) : Out :=
  match findLaunch s launch with
  | none => .next s
  | some l =>
    if l.state ≠ .running ∨ !l.det ∨ l.computing ∨ l.fault.isSome ∨ l.supersteps ≤ l.superstep ∨ !controllersIdle l s then .next s
    else
      let o := opOfLaunch s l
      launchPass none o (do
        modify fun s => l.positions.foldl (fun s p => drainHearth p.hearth s) s
        let w ← match l.width with
          | some w => pure w
          | none => launchWidth o l
        let ps ← l.positions.mapM fun p => do
          let (a, t) ← tableEntry { o with hearth := p.hearth } l p.index l.superstep
          return startPosition (← get) l p a t
        modify fun s =>
          let go (l : Launch) : Launch :=
            { l with computing := true, width := some w, startMem := s.mem, remoteStart := [], deferred := [], mail := [], positions := ps }
          ps.foldl (fun s p => countUnprotected p s) (modLaunch launch go s)) (stopLaunch launch) s

/-! ### ROUTINE_ENTRY_START (R36, R338) -/

/-- Threads that a position has started in the superstep, and how many it has created of the entry in hand. -/
def startedAt (id pos : Nat) (s : State) : Nat := (findLaunch s id).elim 0 fun l => (l.positions[pos]?).elim 0 (·.started)

/-- A routine thread j of the entry in hand, with the priority of the launch record (R338). -/
def Launch.routine (l : Launch) (p : Position) (r : Routine) : Thread :=
  let t := l.thread (l.frame (p.index * l.width.getD 0 + p.before + p.sub)) p.hearth r.entry [(1, natWord p.sub), (2, r.arg)] 0
  let prio := l.field 2 32 6
  { t with detList := p.entry, detG1 := p.sub, basePrio := prio, effPrio := prio }

/-- The position after one more thread of an entry; the entry with its last thread is behind it. -/
def Position.startOne (p : Position) (r : Routine) : Position :=
  let p := { p with started := p.started + 1, sub := p.sub + 1 }
  if p.sub < r.threads then p
  else { p with sub := 0, before := p.before + r.threads, entry := p.entry + 1, next := (p.next + 32) % 2 ^ 56, ended := r.last }

/-- The next thread of the entry in hand, or the fault of an entry that breaks R36; a quiesced hearth takes none (R365).
(Log entry 106: DEDUCED, unsafe.) -/
def startRoutine (id pos : Nat) (s : State) : Out :=
  match findLaunch s id, (findLaunch s id).bind fun l => l.positions[pos]? with
  | some l, some p =>
    let stopped := l.fault.isSome && !l.positions.any (·.lasting)
    if l.state ≠ .running ∨ !l.computing ∨ p.ended ∨ p.lasting ∨ stopped ∨ (hearthOf s p.hearth).quiesced then .next s
    else
      let o := opOfPosition s l p
      launchPass none o (do
        match ← readRoutine o p.next with
        | none => trapN .format p.next
        | some r =>
          if r.join ∧ p.sub = 0 ∧ p.done < p.started then pure ()
          else
            startThread o l (l.routine p r)
            modify (modPosition id pos fun p => p.startOne r)) (stopLaunch id) s
  | _, _ => .next s

/-- ROUTINE_ENTRY_START, R36: the threads of the entry in hand, and of those after it, as far as they may start. -/
def execRoutineEntryStart (launch pos : Nat) (s : State) : Out := repeatWhile (startedAt launch pos) (startRoutine launch pos) (2 ^ 32) s

/-! ### EXCHANGE_PHASE (R40, R102) -/

/-- The order in which deferred effects take place (R40). -/
def laterKey (a b : Nat × Nat × Nat × Nat) : Bool :=
  decide (a.1 < b.1) || (decide (a.1 = b.1) && (decide (a.2.1 < b.2.1) || (decide (a.2.1 = b.2.1) &&
    (decide (a.2.2.1 < b.2.2.1) || (decide (a.2.2.1 = b.2.2.1) && decide (a.2.2.2 ≤ b.2.2.2))))))

def Deferred.key (d : Deferred) : Nat × Nat × Nat × Nat := (d.hearth, d.list, d.g1, d.seq)
def DeferredPacket.key (d : DeferredPacket) : Nat × Nat × Nat × Nat := (d.hearth, d.list, d.g1, d.seq)

def insertKeyed {α : Type} (f : α → Nat × Nat × Nat × Nat) (x : α) : List α → List α
  | [] => [x]
  | y :: ys => if laterKey (f x) (f y) then x :: y :: ys else y :: insertKeyed f x ys

/-- A list in the order of R40. (Log entry 143: DESIGN CHOICE, unsafe.) -/
def inOrder {α : Type} (f : α → Nat × Nat × Nat × Nat) (l : List α) : List α := l.foldr (insertKeyed f) []

/-- A deferred store or update performed at system scope. -/
def performDeferred (o : EngineOp) (d : Deferred) (s : State) : State :=
  match d.node with
  | none => performOp d.op d.pa s
  | some node => sendRemote o.waiter node (storeRequest o.secure d.pa d.op) 0 s

/-- A transfer list run with the effect of XCHG (R40, R199, R295): its status stands in its header.
(Log entry 111: DEDUCED, unsafe.) -/
def runTransfer (o : EngineOp) (a : Nat) : M Unit := do
  if a % 32 ≠ 0 then trapN .misaligned a
  let hd := wordsOf (← engineRead o a 32)
  let n := (hd.getD 0 0).toNat
  if n = 0 ∨ 65535 < n ∨ hd.getD 3 0 ≠ 0 then trapN .format a
  let ws := wordsOf (← engineRead o ((a + 32) % 2 ^ 56) (32 * n))
  if (entriesOf n ws).any badEntryWords then trapN .format a
  noteOp o fun x => { x with progress := 0, aux := 0 }
  let fault ← tryCatch (do
      runList o (listEntries (hd ++ ws))
      return none) fun e => match e with
    | .trap c v => pure (some (c, v.toNat))
    | e => throw e
  let x ← opNow o
  match fault with
  | some f => tryStore o (a + 16) (natWord f.2)
  | none => pure ()
  tryStore o (a + 8) (statusWord fault x.aux x.progress)

/-- Every position has ended its list and all its threads are done. -/
def Launch.phaseOver (l : Launch) : Bool := l.computing && l.positions.all fun p => p.ended && decide (p.started ≤ p.done)

/-- A launch in its exchange phase (R40). -/
def exchanging (s : State) (id : Nat) : Option Launch :=
  (findLaunch s id).filter fun l => decide (l.state = .running) && l.phaseOver && l.fault.isNone

/-- The exchange phase begins: the hearths' own stores are performed, deferred stores stand in their aligned 8-byte pieces in the
order of R40, updates behind them, and deferred mail is on its way in its order (R39, R40, R212). (Log entry 66: DEDUCED, safe.) -/
def beginExchange (l : Launch) (s : State) : State :=
  let cut (d : Deferred) : List Deferred := (pieces d.hearth d.pa d.op).map fun p => { d with pa := p.pa, op := p.op }
  let ds := (inOrder Deferred.key l.deferred).flatMap cut
  let mail := (inOrder DeferredPacket.key l.mail).map fun m => { m.packet with inTurn := true }
  let s := l.positions.foldl (fun s p => drainHearth p.hearth s) s
  modLaunch l.id (fun l => { l with deferred := (ds.filter fun d => !d.op.isUpdate) ++ ds.filter fun d => d.op.isUpdate, mail := [] })
    { s with packets := s.packets ++ mail }

/-- Two deferred stores write some byte in common. -/
def Deferred.meets (a b : Deferred) : Bool := decide (a.node = b.node ∧ a.pa < b.pa + b.op.size ∧ b.pa < a.pa + a.op.size)

/-- A deferred store may be performed: none that comes before it writes a byte of it, here or in a request that is not answered yet
(R40, R102). -/
def exchangeable (l : Launch) (i : Nat) (s : State) : Option Deferred :=
  (l.deferred[i]?).filter fun d =>
    (l.deferred.take i).all (fun e => !e.meets d) && (d.node.isNone || !opWaits (opOfLaunch s l) s)

/-- One deferred store of an exchange phase is performed, in any order of different bytes (R102). -/
def exchangeOne (id i : Nat) (s : State) : State :=
  match exchanging s id with
  | none => s
  | some l =>
    let s := beginExchange l s
    match findLaunch s id with
    | none => s
    | some l =>
      match exchangeable l i s with
      | none => s
      | some d => performDeferred (opOfLaunch s l) d (modLaunch id (fun l => { l with deferred := l.deferred.eraseIdx i }) s)

/-- A hearth's transfer list goes on, by a limit, once every deferred store is performed (R40). -/
def transferEvent (limit : Option Nat) (id pos : Nat) (s : State) : Out :=
  match exchanging s id, (exchanging s id).bind fun l => l.positions[pos]? with
  | some l, some p =>
    if p.transfer = 0 ∨ !l.deferred.isEmpty ∨ opWaits (opOfLaunch s l) s then .next s
    else
      launchPass limit (opOfPosition s l p) (do
        runTransfer (opOfPosition s l p) p.transfer
        modify (modPosition id pos fun p => { p with transfer := 0 })) (stopLaunch id) s
  | _, _ => .next s

/-- What remote packages answered to deferred stores; a failure stops the launch. (Log entry 106: DEDUCED, unsafe.) -/
def exchangeFault (l : Launch) (s : State) : Option Cause := (opOfLaunch s l).replies.findSome? fun r => RemoteResult.cause r.result

/-- The exchange phase ends when everything of it is performed, and its mail delivered as far as there is room (R40, R212). -/
def endExchange (id : Nat) (s : State) : State :=
  match exchanging s id with
  | none => s
  | some l =>
    if !l.deferred.isEmpty ∨ !controllersIdle l s ∨ l.positions.any fun p => decide (p.transfer ≠ 0) then s
    else match exchangeFault l s with
      | some c => stopLaunch id c 0 s
      | none =>
        let next (l : Launch) : Launch :=
          { l with computing := false, superstep := l.superstep + 1, startMem := [], remoteStart := [],
                   positions := l.positions.map fun p => { p with checkpoint := none } }
        let o := opOfLaunch s l
        deliverFrom 0 s.packets.length (modLaunch id next (modOp o.t o.e o.n (fun x => { x with replies := [] }) s))

/-- EXCHANGE_PHASE, R40: deferred stores in their order, held updates, deferred mailbox packets, and the transfer lists, as far as they
have not been performed one by one. (Log entry 66: DEDUCED, safe.) -/
def execExchangePhase (launch : Nat) (s : State) : Out :=
  match exchanging s launch with
  | none => .next s
  | some l =>
    let n := (l.deferred.flatMap fun d => pieces d.hearth d.pa d.op).length
    let s := (List.range n).foldl (fun s _ => exchangeOne launch 0 s) (beginExchange l s)
    andThen (eachNext (transferEvent none launch) (List.range l.positions.length) s) fun s => .next (endExchange launch s)

/-! ### LOCKSTEP_MISMATCH (R406, R407, R410) -/

/-- Threads that a position has started. -/
def routineThreads (s : State) (id h : Nat) : List Thread :=
  (threads s).filter fun t => decide (t.launch = id ∧ t.home = h) && t.started && t.live

/-- A thread discarded without any EXIT effect (R406). (Log entry 130: DEDUCED, unsafe.) -/
def discardThread (id : ThreadId) (s : State) : State :=
  let s := leaveDomains id s
  let s := { s with
    hearths := s.hearths.map fun (e : Nat × Hearth) => (e.1, Hearth.forget e.2 id)
    cores := s.cores.map fun (c : Nat × Core) => (c.1, Core.forget c.2 id)
    ops := s.ops.filter fun o => !decide (o.t = id ∧ o.e < 6)
    remotes := s.remotes.filter fun r => match r.who with
      | .access t => decide (t ≠ id)
      | .queued t => decide (t ≠ id)
      | _ => true
    deposits := s.deposits.filter fun d => decide (d.target ≠ id)
    nreads := s.nreads.filter fun q => decide (q.reader ≠ id) }
  { s with th := if s.th.id = id then {} else s.th, others := s.others.filter fun t => decide (t.id ≠ id) }

/-- The accumulator slots, forge state and bank validity of a hearth discarded. (Log entry 130: DEDUCED, unsafe.) -/
def discardForge (h : Nat) : State → State :=
  modHearth h fun x => { x with
    accMap := [], accReserved := [], jobs := [], forge := {}, owner := none, seat := none, spill := []
    inflight := [], frozen := none, frozenFor := 0, preempt := false, boundary := false, forgeQueue := []
    banks := x.banks.map fun b => { b with valid := false, loading := none } }

/-- The local memory of a hearth as its checkpoint holds it. (Log entry 130: DEDUCED, unsafe.) -/
def restoreLocal (h : Nat) (cells : List Host.Cell) (s : State) : State :=
  let base := localBase + h * 2 ^ 22
  { s with mem := cells.foldr (fun c m => Mem.set m (base + c.1) c.2) (clearRange base localBytes s.mem) }

/-- The checker's own local memory is a copy of the worker's (R404). -/
def mirrorPair (h : Nat) (s : State) : State :=
  let cells := Mem.slice s.mem (localBase + h * 2 ^ 22) localBytes
  if cells = Mem.slice s.mem (localBase + (h + 1) * 2 ^ 22) localBytes then s else restoreLocal (h + 1) cells s

/-- The checkers of every lock-step launch that runs follow their workers (R404). -/
def mirrorCheckers (s : State) : State :=
  (s.launches.filter fun l => decide (l.state = .running) && l.lockstep).foldl (fun s l => l.positions.foldl (fun s p => mirrorPair p.hearth s) s) s

/-- A rollback: the superstep starts again for the pair (R406). (Log entry 130: DEDUCED, unsafe.) -/
def rollback (id pos : Nat) (l : Launch) (p : Position) (point : Nat × Nat) (s : State) : State :=
  let s := (routineThreads s id p.hearth).foldl (fun s t => discardThread t.id s) s
  let s := restoreLocal p.hearth (p.checkpoint.getD []) (discardForge p.hearth s)
  let o := opOfPosition s l p
  let s := modOp o.t o.e o.n (fun x => { x with replies := [], log := [], todo := [], base := 0, hand := [] }) s
  let fresh (p : Position) : Position :=
    { p with next := p.list, entry := 0, before := 0, sub := 0, ended := decide (p.list = 0), started := 0, done := 0, ckptLines := [],
             rollbacks := p.rollbacks + 1, firstPoint := p.firstPoint.orElse fun _ => some point }
  let s := modLaunch id (fun x => { x with
    deferred := x.deferred.filter (fun d => decide (d.hearth ≠ p.hearth))
    mail := x.mail.filter (fun d => decide (d.hearth ≠ p.hearth))
    threads := x.threads - p.started, doneCount := x.doneCount - p.done, positions := l.positions.modify pos fresh }) s
  let b := benchOf s (p.hearth / 8)
  putBench s (p.hearth / 8) { b with rollbacks := if b.rollbacks = 0xFFFF then b.rollbacks else b.rollbacks + 1 }

/-- LOCKSTEP_LASTING: every routine thread of the worker traps, and the pair's controllers stop (R407).
(Log entry 107: DEDUCED, unsafe.) -/
def lasting (id pos : Nat) (l : Launch) (p : Position) (s : State) : State :=
  let v := natWord (l.superstep * 2 ^ 32 + p.hearth)
  let hit : M Unit := do
    modTh fun t => { t with wait := .none }
    modify (takeTrap .lockstepLasting v)
  let s := (routineThreads s id p.hearth).foldl (fun s t => asThread t.id hit s) s
  let s := stopLaunch id .lockstepLasting 0 (modPosition id pos (fun p => { p with lasting := true }) s)
  let b := benchOf s (p.hearth / 8)
  putBench s (p.hearth / 8) { b with lasting := b.lasting ||| (1#4 <<< (p.hearth % 8 / 2)) }

/-- The thread that issued last on a unit of a worker (cores 0 to 3, 4 the forge sequencer) takes POISON: that comes before a mismatch
at the same point (R410). -/
def poisonTaken (h unit : Nat) (s : State) : Bool :=
  let m := if unit = 4 then (hearthOf s h).debug else (coreOf s (4 * h + unit)).debug
  (m.last.bind (findThread s)).any fun t =>
    decide (t.st = .trapped ∧ wfield t.record.head 0 8 = Cause.poison.code) || t.asyncTrap.any fun x => decide (x.1 = .poison)

/-- LOCKSTEP_MISMATCH, R406, R407: a mismatch of a unit of the pair (cores 0 to 3, 4 the forge sequencer) at an issue count.
(Log entry 109: DEDUCED, unsafe.) -/
def execLockstepMismatch (launch pos unit count : Nat) (s : State) : Out :=
  .next (match findLaunch s launch, (findLaunch s launch).bind fun l => l.positions[pos]? with
    | some l, some p =>
      if l.state ≠ .running ∨ !l.lockstep ∨ !l.computing ∨ p.lasting ∨ 4 < unit ∨ poisonTaken p.hearth unit s then s
      else if p.unprotected ∨ p.firstPoint = some (unit, count) ∨ 3 ≤ p.rollbacks then lasting launch pos l p s
      else rollback launch pos l p (unit, count) s
    | _, _ => s)

end Sys2Proof.Machine
end

