-- ==== Sys2Proof/Machine/Sched.lean ====
section
/-!
DEFINITION. Seating, pre-emption and vector shares (R27, R41, R42, R92, R373 to R381): which ready thread takes a strand seat, which
seated thread gives one up, and which lane group serves which core's vector queue.
-/

namespace Sys2Proof.Machine

open Sys2Proof

/-! ### Pools (R374) -/

/-- The lowest valid domain level of a DOMSET. (Log entry 112: DEDUCED, unsafe.) -/
def lowestLevel (domset : Word) : Option Nat := [1, 2, 3, 4, 5].find? fun l => domset.getLsbD (42 + l)

/-- A thread stands in the pool of its current hearth (R374). (Log entry 112: DEDUCED, unsafe.) -/
def hearthPool (s : State) (t : Thread) : Bool :=
  (findLaunch s t.launch).any Launch.det || t.packet.isSome || t.domset.getLsbD 43 || !t.seatedOnce ||
    s.hearths.any fun (e : Nat × Hearth) => decide (e.2.owner = some t.id) || e.2.spill.any (fun x => decide (x.2.1 = t.id))
      || e.2.accMap.any (fun a => decide (a.t = t.id)) || e.2.jobs.any fun j => decide (j.t = t.id)

/-- A hearth serves the pool in which a ready thread stands, and has its world (R351, R374). (Log entry 112: DEDUCED, unsafe.) -/
def serves (s : State) (h : Nat) (t : Thread) : Bool :=
  decide ((hearthOf s h).secure = t.secure) && !(hearthOf s h).quiesced &&
    (if hearthPool s t then decide (t.hearth = h)
     else match lowestLevel t.domset with
       | some l => decide (unitAt l t.home = unitAt l h)
       | none => match findLaunch s t.launch with
         | some l => l.hearths.contains h
         | none => decide (t.hearth = h))

/-- A thread that may be seated: ready, with nothing left in its replay queue, and, after a pre-emption, with no store of its own
under way (R92). -/
def seatable (s : State) (t : Thread) : Bool :=
  decide (t.st = .ready) && !t.forge && t.queue.isEmpty && !(t.preempted && awaitsRelease scopeSystem s t)

/-- Higher effective priority, then the longer wait, then the lower context address (R375). -/
def seatsBefore (a b : Thread) : Bool :=
  decide (b.effPrio < a.effPrio) || (decide (a.effPrio = b.effPrio) && (decide (b.readyFor < a.readyFor) ||
    (decide (a.readyFor = b.readyFor) && decide (a.id.ctx.toNat ≤ b.id.ctx.toNat))))

/-- The first of some threads in an order. -/
def firstThread (before : Thread → Thread → Bool) : List Thread → Option Thread
  | [] => none
  | t :: ts => match firstThread before ts with
    | some u => if before t u then some t else some u
    | none => some t

/-- The ready thread that a hearth seats next. -/
def seatChoice (s : State) (h : Nat) : Option Thread := firstThread seatsBefore ((threads s).filter fun t => seatable s t && serves s h t)

/-! ### Seats (R375) -/

/-- Threads seated on a core. -/
def coreSeats (s : State) (c : Nat) : Nat := ((threads s).filter fun t => t.live && decide (t.place = .strand c)).length

/-- The core that takes a thread: the fewest seated, the lower number first; none where every seat is taken. -/
def freeCore (s : State) (h : Nat) : Option Nat :=
  (leastBy (fun c => coreSeats s c) [4 * h, 4 * h + 1, 4 * h + 2, 4 * h + 3]).filter fun c => decide (coreSeats s c < 16)

/-- A thread as it takes a seat. -/
def Thread.seat (t : Thread) (c now : Nat) : Thread :=
  { t with place := .strand c, st := .seated, effPrio := t.basePrio, readyFor := 0, seatedAt := now, seatedOnce := true, wanted := 0,
           preempted := false }

/-- A thread sits down on a core, last in its order (R376); after a pre-emption its earlier stores are performed first (R92). -/
def takeSeat (t : Thread) (c : Nat) (s : State) : State :=
  let s := if t.preempted then drainHearth t.hearth s else s
  putThread (putCore s c ((coreOf s c).last t.id)) (t.seat c s.cyc.toNat)

/-- A ready thread brought to a hearth: its blocks leave another hearth, dirty ones to their frame (R375, R397), whose stores are performed
(R92); then it waits there for blocks 9 and 15. (Log entry 113: DEDUCED, safe.) -/
def bringThread (h : Nat) (t : Thread) (s : State) : State :=
  if t.hearth = h then putThread s { t with wanted := t.wanted ||| (seatBlocks &&& ~~~t.resident) }
  else
    let s := (List.range 16).foldl (fun s b =>
      match liveThread s t.id with
      | none => s
      | some x =>
        if hasBlock x.resident b then
          match evictBlock (blockAgent x) x b s with
          | .gone s => s
          | .miss a s => addMiss (blockAgent x) x.id.ctx (.block x.id b) a .block s
          | .fails s => writebackFail x b s
        else s) s
    match liveThread s t.id with
    | none => s
    | some x => if x.resident = 0 ∧ x.st = .ready then drainHearth t.hearth (putThread s { x with hearth := h }) else s

/-- A thread can sit down on a hearth at once. (Log entry 113: DEDUCED, safe.) -/
def seatReady (h : Nat) (t : Thread) : Bool := decide (t.hearth = h) && decide (seatBlocks &&& ~~~t.resident = 0)

/-- THREAD_SEAT, R375: a free strand seat of a hearth takes its next ready thread, once its blocks are resident. -/
def execThreadSeat (hearth : Nat) (s : State) : Out :=
  .next (match freeCore s hearth, seatChoice s hearth with
    | some c, some t => if seatReady hearth t then takeSeat t c s else bringThread hearth t s
    | _, _ => s)

/-- A point at which a seated strand thread may be pre-empted: its unit is not stopped (R414), and no trap awaits the
boundary, which would come first (R42, R381). -/
def strandPreemptible (s : State) (t : Thread) : Bool :=
  !unitStopped s t && t.packet.isNone && t.asyncTrap.isNone && !s.remotes.any fun r => decide (r.who = .access t.id) && match r.req with
    | .atomic _ _ _ _ _ _ => true
    | _ => false

/-- The threads seated on a hearth's strand cores. -/
def seatedOn (s : State) (h : Nat) : List Thread :=
  (threads s).filter fun t => t.live && match t.place with
    | .strand c => decide (c / 4 = h)
    | _ => false

/-- The seated thread that gives up its seat first: the lowest effective priority, then the one seated longest. -/
def seatVictim (s : State) (h : Nat) : Option (Thread × Nat) :=
  match firstThread (fun a b => decide (a.effPrio < b.effPrio) || (decide (a.effPrio = b.effPrio) && decide (a.seatedAt ≤ b.seatedAt))) (seatedOn s h) with
  | some t => match t.place with
    | .strand c => some (t, c)
    | _ => none
  | none => none

/-- A strand thread as it is pre-empted. -/
def Thread.unseat (t : Thread) : Thread :=
  { t with st := .ready, place := .off, effPrio := t.basePrio, readyFor := 0, wanted := 0, preempted := true }

/-- A thread of a quiesced hearth that is to give up its strand seat (R365). -/
def quiesceVictim (s : State) (h : Nat) : Option Thread :=
  if (hearthOf s h).quiesced then (seatedOn s h).find? (strandPreemptible s) else none

/-- SEAT_PREEMPT, R42, R365, R375: a thread of a quiesced hearth gives up its seat; with every seat of a hearth taken, a ready thread
of higher effective priority takes the victim's. (Log entry 113: DEDUCED, safe.) -/
def execSeatPreempt (hearth : Nat) (s : State) : Out :=
  .next (match quiesceVictim s hearth with
    | some v => putThread s v.unseat
    | none =>
      match freeCore s hearth, seatChoice s hearth, seatVictim s hearth with
      | none, some t, some (v, c) =>
        if t.effPrio ≤ v.effPrio then s
        else if !seatReady hearth t then bringThread hearth t s
        else if strandPreemptible s v then takeSeat t c (putThread s v.unseat)
        else s
      | _, _, _ => s)

/-- The effective priority of a thread that has waited for a seat (R41, R375). -/
def Thread.aged (t : Thread) : Thread := { t with effPrio := min 63 (t.basePrio + t.readyFor / 65536) }

/-- PRIORITY_AGING, R41: the effective priority of a thread that waits for a seat, which each cycle keeps up to date too. -/
def execPriorityAging (t : ThreadId) (s : State) : Out :=
  .next (match findThread s t with
    | some x => if x.st = .ready then putThread s x.aged else s
    | none => s)

/-! ### Lane groups (R29, R377 to R379) -/

/-- The first entry of a core's vector queue that is not bound. -/
def vectorHead (s : State) (c : Nat) : Option VectorEntry := (coreOf s c).vqueue.find? fun e => e.group.isNone

/-- The weight of a core's head entry (R378); none without one. -/
def headWeight (s : State) (c : Nat) : Option Nat :=
  (vectorHead s c).map fun e =>
    let p := (findThread s e.t).elim 0 fun t => t.effPrio
    wfield ((coreOf s c).vlshare.setWidth 64) (4 * (p / 16)) 4

/-- The cores of a hearth in turn after the last one granted, by their place 0 to 3. -/
def afterLast (x : Hearth) : List Nat := (List.range 4).map fun k => (x.lastCore + 1 + k) % 4

def deficitOf (x : Hearth) (k : Nat) : Int := x.deficits.toList.getD k 0

/-- Every core with a head entry adds its weight, up to 30. -/
def addWeights (s : State) (h : Nat) (x : Hearth) : Hearth :=
  { x with deficits := Vector.ofFn fun k =>
    match headWeight s (4 * h + k.val) with
    | some w => min 30 (deficitOf x k.val + w)
    | none => deficitOf x k.val }

/-- The core that a free group goes to, and the hearth with its deficits (R379). (Log entry 114: DEDUCED, safe.) -/
def chooseCore (s : State) (h : Nat) (granted : List Nat) (x : Hearth) : Option Nat × Hearth :=
  let open_ := (afterLast x).filter fun k => (headWeight s (4 * h + k)).isSome && !granted.contains k
  let due (x : Hearth) : Option Nat := open_.find? fun k => decide (1 ≤ deficitOf x k)
  match due x with
  | some k => (some k, x)
  | none =>
    if (List.range 4).all fun k => decide ((headWeight s (4 * h + k)).getD 0 = 0) then (open_.head?, x)
    else
      let x := addWeights s h x
      (due x, x)

/-- The first unbound entry bound to a group. -/
def bindHead (g : Nat) : List VectorEntry → List VectorEntry
  | [] => []
  | e :: es => if e.group.isNone then { e with group := some g } :: es else e :: bindHead g es

/-- The free strand lane groups of a hearth (R30, R377). -/
def freeGroups (s : State) (h : Nat) : List Nat :=
  (List.range 8).filter fun g => !(hearthOf s h).vlgrpNow.getLsbD g &&
    (List.range 4).all fun k => (coreOf s (4 * h + k)).vqueue.all fun e => decide (e.group ≠ some g)

/-- One cycle of the arbiter over the free groups. (Log entry 114: DEDUCED, safe.) -/
def bindGroups (h : Nat) : List Nat → List Nat → State → State
  | [], _, s => s
  | g :: gs, granted, s =>
    let (c, x) := chooseCore s h granted (hearthOf s h)
    match c with
    | none => bindGroups h gs granted (putHearth s h x)
    | some k =>
      let s := putHearth s h { x with lastCore := k }
      let y := coreOf s (4 * h + k)
      bindGroups h gs (k :: granted) (putCore s (4 * h + k) { y with vqueue := bindHead g y.vqueue })

/-- LANE_GROUP_BIND, R379. -/
def execLaneGroupBind (hearth : Nat) (s : State) : Out := .next (bindGroups hearth (freeGroups s hearth) [] s)

/-- A core's deficit falls for a group held for a cycle (R379). -/
def Hearth.charge (x : Hearth) (k n : Nat) : Hearth := { x with deficits := x.deficits.setIfInBounds k (max (-255) (deficitOf x k - n)) }

/-- Threads that waited for their entries of a core's vector queue, and have none left there, go on. -/
def vectorsDone (s : State) : State :=
  releaseIf (fun t => decide (t.wait = .vector) && s.cores.all fun (c : Nat × Core) => c.2.vqueue.all fun e => decide (e.t ≠ t.id)) s

/-- The first bound entry of a queue completes. -/
def dropBound : List VectorEntry → List VectorEntry
  | [] => []
  | e :: es => if e.group.isSome then es else e :: dropBound es

/-- VECTOR_ENTRY_COMPLETE, R29, R379: a bound entry, which has held its group to the end of its run, completes.
(Log entries 53: DEDUCED, safe; 114: DEDUCED, safe.) -/
def execVectorEntryComplete (core : Nat) (s : State) : Out :=
  .next (
    let y := coreOf s core
    if y.vqueue.any fun e => e.group.isSome then
      let h := hearthOfCore core
      let s := putCore s core { y with vqueue := dropBound y.vqueue }
      vectorsDone (putHearth s h ((hearthOf s h).charge (core % 4) 1))
    else s)

/-- One cycle of a core's bound entries: each costs its core 1, and a short form's entry completes (R379).
(Log entry 114: DEDUCED, safe.) -/
def holdGroups (s : State) (c : Nat) : State :=
  let y := coreOf s c
  let bound := (y.vqueue.filter fun e => e.group.isSome).length
  if bound = 0 then s
  else
    let h := hearthOfCore c
    let s := putCore s c { y with vqueue := y.vqueue.filter fun e => e.group.isNone || e.shaped }
    putHearth s h ((hearthOf s h).charge (c % 4) bound)

/-- One cycle of the vector queues: groups are held, then the arbiters bind heads to the free ones (R379). -/
def vectorCycle (s : State) : State :=
  let busy := (s.cores.filter fun (c : Nat × Core) => !c.2.vqueue.isEmpty).map (·.1)
  if busy.isEmpty then s
  else
    let s := vectorsDone (busy.foldl holdGroups s)
    (busy.map hearthOfCore).eraseDups.foldl (fun s h => bindGroups h (freeGroups s h) [] s) s

end Sys2Proof.Machine
end

