-- ==== Sys2Proof/Machine/Reliability.lean ====
section
/-!
DEFINITION. What memory and its errors do by themselves (R84, R87, R97, R401 to R403, R412), and the trace encoder (R418, R419).
-/

namespace Sys2Proof.Machine

open Sys2Proof

/-! ### Stores and updates (R87, R97) -/

/-- An earlier store of the same hearth stands before this one at some byte. -/
def storeBlocked (ps : List Pending) (i : Nat) (p : Pending) : Bool :=
  (ps.take i).any fun q => decide (q.hearth = p.hearth ∧ q.pa < p.pa + p.op.size ∧ p.pa < q.pa + q.op.size)

/-- The i-th store that only its hearth sees is performed everywhere, if it is of the kind meant and nothing stands before it.
(Log entry 16: DEDUCED, unsafe.) -/
def performPending (update : Bool) (i : Nat) (s : State) : State :=
  match s.pending[i]? with
  | none => s
  | some p =>
    if p.op.isUpdate ≠ update ∨ storeBlocked s.pending i p then s
    else performOp p.op p.pa { s with pending := s.pending.eraseIdx i }

/-- STORE_COMPLETION, R87. (Log entry 136: DESIGN CHOICE, safe.) -/
def execStoreCompletion (i : Nat) (s : State) : Out := .next (performPending false i s)

/-- UPDATE_LINE_MERGE, R97. (Log entry 56: DEDUCED, safe.) -/
def execUpdateLineMerge (i : Nat) (s : State) : Out := .next (performPending true i s)

/-- REFRESH_WINDOW_END, R84: reads that a bank's window held go on. (Log entry 50: DEDUCED, safe.) -/
def execRefreshWindowEnd (_die bank : Nat) (s : State) : Out :=
  .next (if s.cyc.toNat % 16384 / 128 = 2 * bank then s else kick s)

/-! ### Errors (R402, R412) -/

/-- The word that ECCLOG keeps of the first event since its valid bit was cleared (R412). (Log entry 115: DEDUCED, unsafe.) -/
def eccWord (source : BitVec 2) (pa : Nat) : Word :=
  natWord (2 ^ 63 + source.toNat * 2 ^ 61 + 2 ^ 60 + pa / 128 % 2 ^ 45 * 2 ^ 7)

/-- A retry that succeeded is counted at a die (R402). -/
def countTransient (k : Nat) (s : State) : State :=
  let d := dieOf s k
  putDie s k { d with transient := countUp 24 d.transient }

/-- The line of an address is poisoned, counted and logged (R402, R412). -/
def poisonLine (source : BitVec 2) (a : Nat) (s : State) : State :=
  let line := a / 128
  let d := dieOf s (homeDie a)
  putDie { s with poison := if s.poison.contains line then s.poison else line :: s.poison } (homeDie a)
    { d with poisoned := countUp 16 d.poisoned, ecclog := if d.ecclog.getLsbD 63 then d.ecclog else eccWord source a }

/-- The register block whose copy in a context cache stands for an address. -/
def cachedBlock (a : Nat) (s : State) : Option (Thread × Nat) :=
  let holds (x : Thread) (b : Nat) : Bool := hasBlock x.resident b && match (placeBlock x b s).1 with
    | .ok (p :: _) => p.node.isNone && decide (p.pa ≤ a ∧ a < p.pa + 256)
    | _ => false
  (threads s).findSome? fun x => if x.live then ((List.range 16).find? (holds x)).map fun b => (x, b) else none

/-- A register block's own copy has failed for good: a clean one is fetched again; a dirty one takes the poison to memory, and its owner
traps (R402, R403). -/
def failBlock (a : Nat) (x : Thread) (b : Nat) (s : State) : State :=
  if !hasBlock x.dirty b then countTransient (homeDie a) s
  else
    let s := match placeBlock x b s with
      | (.ok ps, s) => writeImage x b ps s
      | (_, s) => s
    let s := blockFault .poison x.id b (poisonLine 3 a s)
    match findThread s x.id with
    | some x => if pinned x b then s else putThread s (x.dropBlock b)
    | none => s

/-- The k-th shadow line of levels in order is poisoned; or how many lines are still to come before it.
(Log entry 157: DESIGN CHOICE, safe.) -/
def poisonNth : Option Nat → List Level → Option Nat × List Level
  | none, ls => (none, ls)
  | some k, [] => (some k, [])
  | some k, l :: ls =>
    if k < l.count then (none, { l with lines := l.lines.modify k fun x => { x with poisoned := true } } :: ls)
    else
      let (r, ls) := poisonNth (some (k - l.count)) ls
      (r, l :: ls)

/-- The k-th shadow line of an address space is poisoned, if it has so many (R403). (Log entry 157: DESIGN CHOICE, safe.) -/
def poisonShadow (asid : BitVec 10) (k : Nat) (s : State) : State :=
  let ofThread (k : Option Nat) (t : Thread) : Option Nat × Thread :=
    if t.id.asid = asid then let (r, ls) := poisonNth k t.levels; (r, { t with levels := ls }) else (k, t)
  let ofDomain (k : Option Nat) (d : Domain) : Option Nat × Domain :=
    if d.members.head?.any fun m => decide (m.asid = asid) then let (r, ls) := poisonNth k d.levels; (r, { d with levels := ls }) else (k, d)
  let (k, th) := ofThread (some k) s.th
  let (k, others) := s.others.foldl (fun acc t => let (r, t) := ofThread acc.1 t; (r, acc.2 ++ [t])) (k, [])
  let (_, domains) := s.domains.foldl (fun acc d => let (r, d) := ofDomain acc.1 d; (r, acc.2 ++ [d])) (k, [])
  { s with th := th, others := others, domains := domains }

/-- The address space in whose crucible an address lies (R411). -/
def poolAt (a : Nat) (s : State) : Option (BitVec 10) :=
  (s.spaces.find? fun (e : Nat × Space) =>
    let base := wfield e.2.shpool 16 36 * 65536
    let lg := wfield e.2.shpool 0 6
    decide (16 ≤ lg ∧ lg ≤ 40 ∧ base ≤ a ∧ a < base + 2 ^ lg)).map fun e => BitVec.ofNat 10 e.1

/-- A lasting fault inside a crucible poisons the shadow line that lies there, if any: which one that is, is open (R403).
(Log entry 157: DESIGN CHOICE, safe.) -/
def poisonPool (a : Nat) (s : State) : State :=
  match poolAt a s with
  | none => s
  | some asid =>
    let w := Config.freeValue s.freeCount
    poisonShadow asid (w.toNat % (poolUsed s asid + 1)) { s with freeCount := s.freeCount + 1 }

/-- ECC_UNCORRECTABLE, R402: a retry that succeeds is counted; a lasting fault poisons the line, or falls on a register block.
(Log entries 115: DEDUCED, unsafe; 137: DESIGN CHOICE, safe.) -/
def execEccUncorrectable (source : BitVec 2) (pa : BitVec 52) (lasting : Bool) (s : State) : Out :=
  let a := pa.toNat
  if !paExists a then .fault (.noMemory a)
  else if !lasting then .next (countTransient (homeDie a) s)
  else if source = 3 ∧ (localHearth a).isNone then .next ((cachedBlock a s).elim s fun (x, b) => failBlock a x b s)
  else .next (poisonPool a (poisonLine source a s))

/-! ### Tracing (R418, R419) -/

/-- Records of a trace buffer, if tracing is on. -/
def traceRoom (m : DebugModule) : Option Nat :=
  let n := wfield m.tracectl 0 5
  if m.tracectl.getLsbD 63 ∧ 12 ≤ n ∧ n ≤ 30 then some (2 ^ n / 32) else none

/-- A record appended to a module's buffer, or counted as lost. (Log entry 116: DEDUCED, unsafe.) -/
def traceRecord (u : DebugUnit) (ws : List Word) (s : State) : State :=
  let m := moduleOf s u
  match traceRoom m with
  | none => s
  | some room =>
    let k := m.nextRecord.toNat
    if room ≤ k ∧ !m.tracectl.getLsbD 62 then putModule u { m with lost := countUp 32 m.lost } s
    else
      let k := if room ≤ k then 0 else k
      let s := { s with mem := writeWords (wfield m.tracectl 12 40 * 4096 + 32 * k) ws s.mem }
      putModule u { m with nextRecord := BitVec.ofNat 32 (k + 1) } s

/-- The words of a record (R418). -/
def traceWords (type pc cause target : Nat) (cyc : Word) (t : Option ThreadId) : List Word :=
  [natWord (type * 2 ^ 60 + pc), natWord (cause * 2 ^ 56 + target), cyc,
   t.elim 0 fun t => natWord (t.ctx.toNat * 4096 + t.asid.toNat)]

/-- TRACE_TIMESTAMP, R419: a type 5 record. -/
def execTraceTimestamp (u : DebugUnit) (s : State) : Out :=
  let n := wfield (moduleOf s u).tracectl 54 6
  .next (if 10 ≤ n ∧ n ≤ 40 then traceRecord u (traceWords 5 0 0 0 s.cyc (moduleOf s u).last) s else s)

end Sys2Proof.Machine
end

