-- ==== Sys2Proof/Machine/Fabric.lean ====
section
/-!
DEFINITION. The Gornen fabric (R15, R206, R423 to R432): requests that arrive, responses to requests sent, time-outs and lost links,
congestion control, the fabric state table, and the lock of CYC to the fabric's time.
-/

namespace Sys2Proof.Machine

open Sys2Proof

/-! ### Serving (R423, R424) -/

/-- Why this package refuses an access of n bytes. -/
def refuseRemote (s : State) (secure : Bool) (pa n : Nat) : Option RemoteResult :=
  if (List.range n).any fun k => !paExists (pa + k) then some .noMemory
  else if !secure && touchesSecure s pa n then some .wrongWorld
  else none

/-- An access performed against this package's memory, or refused; updates that wait for its bytes are merged first (R97), and a write of
the ingot store is never performed (R80, R81). (Log entry 117: DEDUCED, unsafe.) -/
def serveAccess (secure : Bool) (pa n : Nat) (write : Bool) (f : State → State) (s : State) : State :=
  match refuseRemote s secure pa n with
  | some r => respond r s
  | none => if write && (ingotDie pa).isSome then respond .noMemory s
    else f (mergeReads ((List.range n).map (pa + ·)) s)

/-- Context address of a packet's sender, as its header gives it (R209). (Log entry 118: DEDUCED, unsafe.) -/
def headerThread (asid : BitVec 10) (ws : List Word) : ThreadId := ⟨asid, (ws.getD 0 0).extractLsb' 12 44⟩

/-- A packet from another node stands in line for its delivery. (Log entry 118: DEDUCED, unsafe.) -/
def arrivePacket (dst : PacketDst) (asid : BitVec 10) (secure : Bool) (ws : List Word) (s : State) : State :=
  { s with packets := s.packets ++ [{ kind := .plain, dst := dst, src := headerThread asid ws, srcHearth := 0, secure := secure, words := ws }] }

/-- A member's word from another package (R372). -/
def arriveMember (w : Word) (t : ThreadId) (d : Domain) : Domain :=
  if d.members.contains t && !d.arrivals.any (fun a => decide (a.t = t)) then { d with arrivals := d.arrivals ++ [{ t := t, kind := .sync, operand := w }] } else d

/-- What a request does here. (Log entries 15: DEDUCED, unsafe; 118: DEDUCED, unsafe.) -/
def serveRequest (r : RemoteRequest) (s : State) : State :=
  match r with
  | .load secure pa n =>
    serveAccess secure pa.toNat n false (fun s =>
      if poisoned s pa.toNat n then respond .poisoned s
      else respond (.data ((List.range n).map fun k => Mem.get s.mem (pa.toNat + k))) s) s
  | .store secure pa bs =>
    serveAccess secure pa.toNat bs.length true (fun s =>
      respond (.data []) (performOp (.whole bs.length (bytesToNat bs)) pa.toNat s)) s
  | .atomic secure op pa n operand expect =>
    serveAccess secure pa.toNat n true (fun s =>
      if poisoned s pa.toNat n then respond .poisoned s
      else
        let old := Mem.read s.mem pa.toNat n
        let s := respond (.data (natToBytes n old)) s
        match atomicValue op.toNat n old operand expect with
        | some y => performOp (.whole n y) pa.toNat s
        | none => s) s
  | .update secure op fmt pa x =>
    serveAccess secure pa.toNat (updateBytes fmt) true (fun s =>
      respond (.data []) (performOp (.update op fmt (natWord x)) pa.toNat s)) s
  | .masked secure pa n data mask =>
    serveAccess secure pa.toNat n true (fun s => respond (.data []) (performOp (.bytes n data mask) pa.toNat s)) s
  | .packet dst ws => arrivePacket (.thread dst) dst.asid false ws s
  | .mailbox asid secure h ws => arrivePacket (.mailbox s.node h) asid secure ws s
  | .unit h ch bs => { s with units := s.units ++ [{ hearth := h, channel := ch, item := .bytes 0 0 bs }] }
  | .arrival d w t => modDomain d (arriveMember w t) s

/-- REMOTE_REQUEST_SERVE, R423. -/
def execRemoteRequestServe (r : RemoteRequest) (s : State) : Out := .next (serveRequest r s)

/-! ### Responses (R424, R426, R428, R429) -/

/-- A time has passed since an event, if there was one. (Log entry 120: DEDUCED, safe.) -/
def elapsed (now : Word) (t : Option Word) (n : Nat) : Bool :=
  match t with
  | some t => decide (n ≤ (now - t).toNat)
  | none => true

/-- The peer's cap and smoothed round-trip time after a response (R429). (Log entries 119: DEDUCED, unsafe; 120: DEDUCED, safe.) -/
def afterResponse (s : State) (r : Remote) (x : NodeState) : NodeState :=
  let sample := (s.cyc - r.sent.getD r.issued).toNat
  let x := { x with out := x.out - r.bytes, returned := x.returned + r.bytes }
  let x := if x.cap ≤ x.returned then { x with cap := min (2 ^ 20) (x.cap + 4096), returned := 0 } else x
  let x := if s.mgmt.rttTarget < sample ∧ elapsed s.cyc x.capCutAt x.srtt then
      { x with cap := max 4096 (x.cap / 2), returned := 0, capCutAt := some s.cyc } else x
  { x with srtt := ((x.srtt : Int) + Int.tdiv ((sample : Int) - x.srtt) 8).toNat }

/-- The access of the request, for whoever waits for its reply. -/
def replyOf (r : Remote) (x : RemoteResult) : RemoteReply :=
  let (pa, n) := (requestSpan r.req).getD (0, 0)
  ⟨pa, r.node, n, x⟩

/-- The request answers with a value. -/
def valueReturning : RemoteRequest → Bool
  | .load _ _ _ => true
  | .atomic _ _ _ _ _ _ => true
  | _ => false

/-- A response, or the failure that stands for one, reaches whoever waits for it (R398, R424). (Log entry 15: DEDUCED, unsafe.) -/
def deliverResponse (r : Remote) (x : RemoteResult) (s : State) : State :=
  match r.who with
  | .access t =>
    match findThread s t with
    | some y => if valueReturning r.req then putThread s { y with replies := y.replies ++ [replyOf r x] } else s
    | none => s
  | .queued t =>
    match RemoteResult.cause x with
    | some c => kick (asyncTrap c (natWord r.va) t s)
    | none => kick s
  | .block t b =>
    match RemoteResult.cause x, r.req, liveThread s t, x with
    | some c, _, _, _ => blockFault c t b s
    | none, .load _ pa _, some y, .data bs => takeBlock y b (wordsOf bs) ⟨r.va, pa.toNat, some r.node⟩ s
    | _, _, _, _ => s
  | .pipeline _ => s
  | .stream h k =>
    match RemoteResult.cause x, seatThread s h, (hearthOf s h).owner with
    | some c, some t, _ => streamFault t h (BitVec.ofNat 3 k) c (natWord r.va) s
    | some c, none, some t => asyncTrap c (natWord r.va) t s
    | _, _, _ => s
  | .operation t e n =>
    modOp t e n (fun o =>
      match (requestSpan r.req).isSome, RemoteResult.cause x with
      | true, _ => { o with replies := o.replies ++ [replyOf r x] }
      | false, some c => { o with fault := o.fault.orElse fun _ => some (c, r.va) }
      | false, none => o) s

/-- A request that has left is answered: the congestion state, and whoever waits. -/
def answerRemote (i : Nat) (x : RemoteResult) (s : State) : State :=
  match s.remotes[i]? with
  | none => s
  | some r =>
    if heldBehind s.remotes i r || r.sent.isNone then s
    else
      let s := putNode { s with remotes := s.remotes.eraseIdx i } r.node (afterResponse s r (nodeOf s r.node))
      deliverResponse r x s

/-- REMOTE_RESPONSE, R426. -/
def execRemoteResponse (i : Nat) (r : RemoteResult) (s : State) : Out := .next (answerRemote i r s)

/-- A request that no response answers fails (R424): its bytes are outstanding no longer. (Log entry 119: DEDUCED, unsafe.) -/
def failRemote (i : Nat) (s : State) : State :=
  match s.remotes[i]? with
  | none => s
  | some r =>
    let x := nodeOf s r.node
    deliverResponse r .noMemory (putNode { s with remotes := s.remotes.eraseIdx i } r.node
      (if r.sent.isSome then { x with out := x.out - r.bytes } else x))

/-- The time-out of R424, in cycles (R439). -/
def fabricTimeout (s : State) : Nat :=
  let n := s.mgmt.fabtoLog
  2 ^ (if 16 ≤ n ∧ n ≤ 30 then n else 24)

/-- REMOTE_TIMEOUT, R424. -/
def execRemoteTimeout (i : Nat) (s : State) : Out :=
  .next (match s.remotes[i]? with
    | some r => if fabricTimeout s ≤ (s.cyc - r.issued).toNat then failRemote i s else s
    | none => s)

/-- Requests to lost nodes fail, the oldest first. -/
def failLost (nodes : List Nat) : Nat → State → State
  | 0, s => s
  | n + 1, s =>
    match s.remotes.findIdx? fun r => nodes.contains r.node.toNat with
    | some i => failLost nodes n (failRemote i s)
    | none => s

/-- LINK_LOST, R424: every request to a node that no link reaches fails. -/
def execLinkLost (nodes : List (BitVec 11)) (s : State) : Out :=
  let ns := nodes.map (·.toNat)
  .next (failLost ns s.remotes.length { s with lostNodes := ns })

/-! ### Congestion (R428, R432) -/

/-- MARKED_RESPONSE, R428. (Log entries 119: DEDUCED, unsafe; 120: DEDUCED, safe.) -/
def execMarkedResponse (node : BitVec 11) (s : State) : Out :=
  let x := nodeOf s node
  let x := { x with marks := min 0xFFFFFFFF (x.marks + 1), markedAt := some s.cyc }
  .next (putNode s node (if elapsed s.cyc x.halvedAt 512 then
      { x with rate := max 16 (x.rate / 2), halvedAt := some s.cyc, changedAt := s.cyc } else x))

/-- RATE_INCREASE, R428: 1,024 cycles without a mark, none of them before the last halving or increase.
(Log entry 119: DEDUCED, unsafe.) -/
def execRateIncrease (node : BitVec 11) (s : State) : Out :=
  let x := nodeOf s node
  .next (if 1024 ≤ (s.cyc - x.changedAt).toNat ∧ elapsed s.cyc x.markedAt 1024 ∧ x.rate < 3200 then
    putNode s node { x with rate := min 3200 (x.rate + 32), changedAt := s.cyc } else s)

/-- What the fabric's source side does in every cycle: requests to lost nodes fail (R424), rates rise (R428), held requests leave (R429). -/
def fabricCycle (s : State) : State :=
  let s := failLost s.lostNodes s.remotes.length s
  sendHeld (s.nodes.foldl (fun s n => match execRateIncrease (BitVec.ofNat 11 n.1) s with
    | .next s' => s'
    | _ => s) s)

/-- The two words of a node's entry in the fabric state table (R432). -/
def nodeWords (x : NodeState) : List Word :=
  [natWord (x.rate % 4096 * 2 ^ 36 + x.cap / 4096 % 512 * 2 ^ 24 + x.out % 2 ^ 21), natWord (x.marks * 2 ^ 32 + min 0xFFFF x.srtt)]

/-- The four words of a bench's entry: permits granted and not used, and rows held, of its dispatches; and the receive credits of its
engine (R299). (Log entry 91: DESIGN CHOICE, safe.) -/
def benchWords (s : State) (b : Nat) : List Word :=
  let os := s.ops.filter fun o => decide (o.kind = .dspgo ∧ o.bench = b ∧ o.phase = 0)
  [natWord ((os.map (·.permits)).sum % 2 ^ 32), natWord ((os.map (·.rows)).sum % 2 ^ 32), natWord ((benchOf s b).credits % 2 ^ 32), 0]

/-- FABRIC_STATE_UPDATE, R432. -/
def execFabricStateUpdate (s : State) : Out :=
  .next (
    if s.mgmt.fst.getLsbD 63 then
      let base := wfield s.mgmt.fst 16 36 * 65536
      let m := (List.range 2048).foldl (fun m n => writeWords (base + 16 * n) (nodeWords (lookup {} s.nodes n)) m) s.mem
      { s with mem := (List.range 24).foldl (fun m b => writeWords (base + 0x8000 + 32 * b) (benchWords s b) m) m }
    else s)

/-! ### Time (R15) -/

/-- The state of every peer when the fabric interface is enabled (R428). -/
def resetNodes (s : State) : State :=
  { s with nodes := s.nodes.map fun (n : Nat × NodeState) => (n.1, { n.2 with rate := 3200, marks := 0, halvedAt := none, markedAt := none, free := 0, changedAt := s.cyc }) }

/-- FAB_EN, R15, R439: the first time, CYC is loaded from the time reference. (Log entry 121: DESIGN CHOICE, safe.) -/
def execFabEn (reference : BitVec 64) (s : State) : Out :=
  let s := { s with mgmt := { s.mgmt with fabEn := true } }
  .next (resetNodes (if s.tlock then s else { s with cyc := reference, tlock := true }))

/-- CYC_SLEW_STEP, R15: in an odd slot of the calendar, at most once in 1,024 cycles, one count is added, or the next one withheld; none
is added in the slot's last cycle, so that no count of the even slot after it is left out. -/
def execCycSlewStep (add : Bool) (s : State) : Out :=
  .next (
    if s.tlock ∧ s.cyc.toNat % 16384 / 128 % 2 = 1 ∧ !(add ∧ s.cyc.toNat % 128 = 127) ∧ elapsed s.cyc s.slewAt 1024 then
      let s := { s with slewAt := some s.cyc }
      if add then { s with cyc := s.cyc + 1 } else { s with withhold := true }
    else s)

end Sys2Proof.Machine
end

