-- ==== Sys2Proof/Machine/HostPort.lean ====
section
/-!
DEFINITION. The host port (R81, R366 to R368, R433 to R440): doorbells, ring entries, completions and their interrupts, the
management window, and host copies.
-/

namespace Sys2Proof.Machine

open Sys2Proof

/-! ### Host queues (R366, R434 to R436) -/

/-- Word k of a queue's descriptor. -/
def queueWord (s : State) (q k : Nat) : Word := natWord (Mem.read s.mem (queueDescriptor s q + 8 * k) 8)

def putQueueWord (s : State) (q k : Nat) (w : Word) : State := { s with mem := Mem.write s.mem (queueDescriptor s q + 8 * k) 8 w.toNat }

def hostQueue (s : State) (q : Nat) : HostQueue := lookup {} s.queues q
def putQueue (s : State) (q : Nat) (x : HostQueue) : State := { s with queues := insert s.queues q x }

/-- log2 of the ring's entries, while the queue is served. (Log entry 123: DEDUCED, unsafe.) -/
def ringLog (s : State) (q : Nat) : Option Nat :=
  let w := queueWord s q 1
  let n := wfield w 0 5
  if s.boot.state = .ready ∧ w.getLsbD 63 ∧ wfield w 60 2 ≠ 3 ∧ 4 ≤ n ∧ n ≤ 16 then some n else none

/-- Queues whose descriptors have the enable bit set. -/
def enabledQueues (s : State) : List Nat :=
  let base := queueDescriptor s 0
  s.mem.filterMap fun c =>
    if base ≤ c.1 ∧ c.1 < base + 64 * 16384 ∧ (c.1 - base) % 64 = 15 ∧ 128 ≤ c.2.toNat then some ((c.1 - base) / 64) else none

/-- The device takes up a queue: entries and completions are counted anew (R366, R368). (Log entry 123: DEDUCED, unsafe.) -/
def startQueue (q : Nat) (s : State) : State :=
  putQueueWord (putQueueWord (putQueue s q { served := true, epoch := (hostQueue s q).epoch + 1 }) q 2 0) q 3 0

/-- A queue that is no longer served keeps nothing that was to come. -/
def stopQueue (q : Nat) (s : State) : State := putQueue s q { epoch := (hostQueue s q).epoch }

/-- Queues are taken up and given up as their descriptors say, in each cycle (R366). (Log entry 123: DEDUCED, unsafe.) -/
def watchQueues (s : State) : State :=
  let s := ((s.queues.filter fun (e : Nat × HostQueue) => e.2.served && (ringLog s e.1).isNone).map (·.1)).foldl (fun s q => stopQueue q s) s
  ((enabledQueues s).filter fun q => (ringLog s q).isSome && !(hostQueue s q).served).foldl (fun s q => startQueue q s) s

/-- The queue stops with an error (R436); the doorbell's target stands. (Log entry 122: DEDUCED, unsafe.) -/
def queueError (q code stamp index : Nat) (s : State) : State :=
  putQueueWord (putQueue s q { hostQueue s q with firstRead := none }) q 4
    (natWord (2 ^ 63 + code * 2 ^ 48 + stamp % 2 ^ 16 * 2 ^ 32 + index % 2 ^ 32))

/-- Entries that the queue may still fetch. (Log entry 123: DEDUCED, unsafe.) -/
def pendingEntries (s : State) (q : Nat) : Nat :=
  match (hostQueue s q).target with
  | some t => (t + 2 ^ 32 - (queueWord s q 2).toNat % 2 ^ 32) % 2 ^ 32
  | none => 0

/-- DOORBELL_WRITE, R434, R436. (Log entry 122: DEDUCED, unsafe.) -/
def execDoorbellWrite (q : BitVec 14) (count : BitVec 32) (s : State) : Out :=
  let q := q.toNat
  .next (match ringLog s q with
    | none => s
    | some n =>
      let fetched := (queueWord s q 2).toNat
      let d := (count.toNat + 2 ^ 32 - fetched % 2 ^ 32) % 2 ^ 32
      if 2 ^ n < d then queueError q 2 0 fetched s
      else
        let s := if (queueWord s q 4).getLsbD 63 then putQueueWord s q 4 0 else s
        if pendingEntries s q < d then putQueue s q { hostQueue s q with target := some count.toNat } else s)

/-- A launch that a ring entry asks for (R367, R368): number k + 1 of its queue. -/
def entryLaunch (s : State) (q k : Nat) (ws : List Word) : Launch :=
  let d := queueWord s q 1
  let w (k : Nat) : Word := ws.getD k 0
  { id := s.launchCount + 1, epoch := (hostQueue s q).epoch, host := some (q, k + 1, natWord (wfield (w 1) 32 32), w 2), asid := d.extractLsb' 32 10,
    secure := d.getLsbD 62, priv := d.extractLsb' 60 2, prio := wfield d 54 6, addr := addr (w 0), record := [] }

/-- A ring entry breaks R367. -/
def badRingEntry (ws : List Word) : Bool :=
  let w (k : Nat) : Word := ws.getD k 0
  decide (wfield (w 1) 16 16 ≠ 0 ∨ wfield (w 0) 0 6 ≠ 0) || (ws.drop 3).any fun w => decide (w ≠ 0)

/-- An entry consumed: its launch stands at the end of the queue, or has ended with FORMAT. -/
def consumeEntry (q : Nat) (ws : List Word) (s : State) : State :=
  let k := (queueWord s q 2).toNat
  let l := entryLaunch s q k ws
  let s := putQueueWord s q 2 (natWord (k + 1))
  let s := putQueue s q { hostQueue s q with firstRead := none }
  let s := addLaunch l 0 s
  if badRingEntry ws then finishLaunch l (stopLaunch l.id .format l.addr s) else s

/-- RING_ENTRY_FETCH, R434 to R436: what the DMA read of the next entry gave, or that it failed. -/
def execRingEntryFetch (q : BitVec 14) (entry : Option (List (BitVec 8))) (s : State) : Out :=
  let q := q.toNat
  .next (
    if (ringLog s q).isNone ∨ (queueWord s q 4).getLsbD 63 ∨ pendingEntries s q = 0 then s
    else
      let k := (queueWord s q 2).toNat
      match entry with
      | none => queueError q 3 0 k s
      | some bs =>
        let ws := wordsOf (bs ++ List.replicate (64 - bs.length) 0)
        if wfield (ws.getD 1 0) 0 16 = (k + 1) % 2 ^ 16 then consumeEntry q (ws.take 8) s
        else
          let x := hostQueue s q
          putQueue s q { x with firstRead := x.firstRead.orElse fun _ => some s.cyc, stamp := wfield (ws.getD 1 0) 0 16 })

/-- QUEUE_NOT_READY, R435: the entry has not matched for 4,096 cycles. -/
def execQueueNotReady (q : BitVec 14) (stamp : BitVec 16) (s : State) : Out :=
  let q := q.toNat
  .next (match (hostQueue s q).firstRead with
    | some c => if 4096 ≤ (s.cyc - c).toNat then queueError q 1 stamp.toNat (queueWord s q 2).toNat s else s
    | none => s)

/-- Queues whose entry in hand has not matched for 4,096 cycles stop, in each cycle (R435). -/
def staleQueues (s : State) : State :=
  s.queues.foldl (fun s (e : Nat × HostQueue) =>
    if e.2.firstRead.any fun c => decide (4096 ≤ (s.cyc - c).toNat) then queueError e.1 1 e.2.stamp (queueWord s e.1 2).toNat s else s) s

/-! ### Completions (R368, R440) -/

/-- MSI-X vector v is masked, by its entry's control bit. (Log entry 125: PRESUMED, unsafe.) -/
def vectorMasked (s : State) (v : Nat) : Bool := (lookup 0 s.mgmt.msix (2 * v + 1)).getLsbD 32

/-- A vector signalled, or pending while it is masked. (Log entry 125: PRESUMED, unsafe.) -/
def signal (v : Nat) (s : State) : State :=
  if vectorMasked s v then { s with mgmt := { s.mgmt with pba := if s.mgmt.pba.contains v then s.mgmt.pba else s.mgmt.pba ++ [v] } }
  else { s with interrupts := s.interrupts ++ [v] }

/-- Entry n of a queue, of its present enable, is complete: done advances, and the interrupt follows (R368, R440). -/
def advanceDone (q n epoch : Nat) (s : State) : State :=
  let x := hostQueue s q
  let now := (queueWord s q 3).toNat
  let l : Timeline := (⟨0, now, x.completedAhead⟩ : Timeline).complete n
  if !x.served ∨ x.epoch ≠ epoch then s
  else
    let s := putQueue s q { x with completedAhead := l.ahead }
    if l.completed = now then s
    else
      let s := putQueueWord s q 3 (natWord l.completed)
      if (lookup 0 s.mgmt.intena (q / 64)).getLsbD (q % 64) then signal (q % 2048) s else s

/-- HOST_LAUNCH_COMPLETION, R368: status and tag at the completion block, then done. (Log entry 124: DEDUCED, unsafe.) -/
def execHostLaunchCompletion (launch : Nat) (s : State) : Out :=
  match findLaunch s launch with
  | none => .next s
  | some l =>
    match l.host, findOp s ⟨l.asid, 0⟩ 6 l.id with
    | some (q, n, tag, cpl), some o =>
      if l.state ≠ .complete ∨ opWaits o s then .next s
      else
        launchPass none o (do
          if cpl ≠ 0 then
            tryStore o (addr cpl) l.status
            tryStore o ((addr cpl + 8) % 2 ^ 56) tag
          modify fun s => advanceDone q n l.epoch (dropLaunchOps l s)) (fun _ _ s => s) s
    | _, _ => .next s

/-! ### The management window (R439) -/

/-- A masked vector whose mask is lifted is signalled. (Log entry 125: PRESUMED, unsafe.) -/
def releaseMasked (s : State) : State :=
  let out := s.mgmt.pba.filter fun v => !vectorMasked s v
  { s with mgmt := { s.mgmt with pba := s.mgmt.pba.filter (vectorMasked s) }, interrupts := s.interrupts ++ out }

/-- A write of the window: fields marked S keep their value unless the security controller writes; the first enabling of the fabric
interface loads CYC from a reference that is outside the package (R15). (Log entry 121: DESIGN CHOICE, safe.) -/
def writeMgmt (off : Nat) (v : Word) (controller : Bool) (s : State) : State :=
  let m := s.mgmt
  if off = 0x8 then (if controller then { s with mgmt := { m with qtbase := masked (bits 20 32) v.toNat } } else s)
  else if off = 0x10 then { s with mgmt := { m with fst := masked (2 ^ 63 + bits 16 36) v.toNat } }
  else if off = 0x18 then
    let s := { s with mgmt := { m with fabEn := v.getLsbD 63, fabtoLog := wfield v 16 5, rttTarget := wfield v 0 16 },
                      node := if controller then v.extractLsb' 32 11 else s.node }
    if v.getLsbD 63 ∧ !m.fabEn then
      resetNodes (if s.tlock then s else { s with cyc := Config.freeValue s.freeCount, freeCount := s.freeCount + 1, tlock := true })
    else s
  else if 0x1000 ≤ off ∧ off < 0x1800 then { s with mgmt := { m with intena := insert m.intena ((off - 0x1000) / 8) v } }
  else if 0x2000 ≤ off ∧ off < 0xA000 then releaseMasked { s with mgmt := { m with msix := insert m.msix ((off - 0x2000) / 8) v } }
  else s

/-- What a read of the window gives; before start-up is complete, ident and zero elsewhere (R439, R445). -/
def readMgmt (off : Nat) (s : State) : Word :=
  let m := s.mgmt
  if off = 0 then Config.ident
  else if s.boot.state ≠ .ready then 0
  else if off = 0x8 then m.qtbase
  else if off = 0x10 then m.fst
  else if off = 0x18 then
    natWord (ofBool m.fabEn * 2 ^ 63 + ofBool s.tlock * 2 ^ 62 + s.node.toNat * 2 ^ 32 + m.fabtoLog % 32 * 2 ^ 16 + m.rttTarget % 65536)
  else if 0x1000 ≤ off ∧ off < 0x1800 then lookup 0 m.intena ((off - 0x1000) / 8)
  else if 0x2000 ≤ off ∧ off < 0xA000 then lookup 0 m.msix ((off - 0x2000) / 8)
  else if 0xA000 ≤ off ∧ off < 0xA100 then
    natWord (((m.pba.filter fun v => decide (v / 64 = (off - 0xA000) / 8)).map fun v => 2 ^ (v % 64)).sum)
  else if 0x10000 ≤ off ∧ off < 0x10000 + 32 * 16384 then
    queueWord s ((off - 0x10000) / 32) ([2, 3, 4, 0].getD ((off - 0x10000) % 32 / 8) 0)
  else 0

/-- MGMT_WINDOW_WRITE, R439, R445. -/
def execMgmtWindowWrite (off : BitVec 20) (val : BitVec 64) (controller : Bool) (s : State) : Out :=
  .next (if s.boot.state = .ready ∧ off.toNat % 8 = 0 then writeMgmt off.toNat val controller s else s)

/-! ### Host copies (R81) -/

/-- HOST_MEMORY_ACCESS, R81, R97, R351: a read or a copy of the host, which is not secure.
(Log entries 126: DEDUCED, unsafe; 137: DESIGN CHOICE, safe.) -/
def execHostMemoryAccess (pa : BitVec 52) (write : Option (List (BitVec 8))) (len : Nat) (s : State) : Out :=
  let a := pa.toNat
  let n := match write with
    | some bs => bs.length
    | none => len
  match (List.range n).find? fun k => !paExists (a + k) with
  | some k => .fault (.noMemory (a + k))
  | none =>
    if touchesSecure s a n then .next s
    else match write with
      | some bs => .next (performOp (.whole n (bytesToNat bs)) a s)
      | none =>
        let s := mergeReads ((List.range n).map (a + ·)) s
        .next { s with hostReads := s.hostReads ++ [(List.range n).map fun k => Mem.get s.mem (a + k)] }

end Sys2Proof.Machine
end

