-- ==== Sys2Proof/Machine/Boot.lean ====
section
/-!
DEFINITION. Reset, firmware verification, attestation and the thermal trip (R445 to R449, R451).
-/

namespace Sys2Proof.Machine

open Sys2Proof

/-! ### SHA-256 -/

/-- The largest number whose k-th power is at most n, bit by bit from bit 39. -/
def floorRoot (k n : Nat) : Nat := (List.range 40).foldr (fun b r => if (r + 2 ^ b) ^ k ≤ n then r + 2 ^ b else r) 0

/-- The first 64 primes, from which the function takes its constants. -/
def shaPrimes : List Nat := (List.range 312).filter fun p => decide (2 ≤ p) && (List.range p).all fun d => decide (d < 2 ∨ p % d ≠ 0)

/-- The first 32 fraction bits of the k-th root of p. -/
def rootFraction (k p : Nat) : Nat := floorRoot k (p * 2 ^ (32 * k)) % 2 ^ 32

/-- The constants of the rounds, and the hash before the first block. -/
def shaRounds : List Nat := shaPrimes.map (rootFraction 3)
def shaStart : List Nat := (shaPrimes.take 8).map (rootFraction 2)

/-- A word of 32 bits rotated to the right. -/
def turn (r x : Nat) : Nat := (x / 2 ^ r + x * 2 ^ (32 - r)) % 2 ^ 32

/-- The turns of a word, added bit by bit. -/
def turned (rs : List Nat) (x : Nat) : Nat := rs.foldl (fun y r => y ^^^ turn r x) 0

/-- A round on the eight words, the last first, with the sum of its constant and its message word. -/
def shaRound (v : List Nat) (kw : Nat) : List Nat :=
  match v with
  | [h, g, f, e, d, c, b, a] =>
    let choice := g ^^^ (e &&& (f ^^^ g))
    let most := (a &&& (b ||| c)) ||| (b &&& c)
    let t := kw + h + turned [6, 11, 25] e + choice
    [g, f, e, (t + d) % 2 ^ 32, c, b, a, (t + turned [2, 13, 22] a + most) % 2 ^ 32]
  | _ => []

/-- The message words, the latest first, and n more. -/
def shaWords : Nat → List Nat → List Nat
  | 0, ws => ws
  | n + 1, ws =>
    let near := ws.getD 1 0
    let far := ws.getD 14 0
    let next := turned [17, 19] near ^^^ (near / 2 ^ 10)
    shaWords n ((next + ws.getD 6 0 + (turned [7, 18] far ^^^ (far / 2 ^ 3)) + ws.getD 15 0) % 2 ^ 32 :: ws)

/-- Big-endian number of bytes. -/
def bytesBig (bs : List Byte) : Nat := bs.foldl (fun n b => 256 * n + b.toNat) 0

/-- A number as n big-endian bytes. (Log entry 129: DEDUCED, unsafe.) -/
def bigBytes (n x : Nat) : List Byte := ((List.range n).map fun k => BitVec.ofNat 8 (x / 256 ^ k)).reverse

/-- The hash after a block of 64 bytes. -/
def shaBlock (v : List Nat) (bs : List Byte) : List Nat :=
  let first := (List.range 16).map fun k => bytesBig ((bs.drop (4 * k)).take 4)
  let sums := List.zipWith (· + ·) shaRounds (shaWords 48 first.reverse).reverse
  List.zipWith (fun x y => (x + y) % 2 ^ 32) v (sums.foldl shaRound v.reverse).reverse

/-- The hash after the first n blocks of a message. -/
def shaBlocks (bs : List Byte) (n : Nat) : List Nat :=
  (List.range n).foldl (fun v k => shaBlock v ((bs.drop (64 * k)).take 64)) shaStart

/-- SHA-256 of a message: padded with a 1 bit, zeros, and its length in bits. -/
def sha256 (bs : List Byte) : List Byte :=
  let tail : List Byte := List.replicate ((119 - bs.length % 64) % 64) 0 ++ bigBytes 8 (8 * bs.length)
  let m := bs ++ (0x80#8 :: tail)
  (shaBlocks m (m.length / 64)).flatMap (bigBytes 4)

/-! ### RSASSA-PSS (R446) -/

/-- x squared n times, modulo m. -/
def squareMod (m : Nat) : Nat → Nat → Nat
  | 0, x => x
  | n + 1, x => squareMod m n (x * x % m)

/-- x to the public exponent 65,537, modulo m. (Log entry 129: DEDUCED, unsafe.) -/
def rsaPublic (m x : Nat) : Nat := squareMod m 16 x * x % m

/-- The mask generation function over SHA-256, n bytes. -/
def mgf1 (seed : List Byte) (n : Nat) : List Byte :=
  ((List.range ((n + 31) / 32)).flatMap fun k => sha256 (seed ++ bigBytes 4 k)).take n

/-- An encoded message of 384 bytes is a PSS encoding of the hash of a message, with a salt of 32 bytes. -/
def pssValid (hash em : List Byte) : Bool :=
  let masked := em.take 351
  let h := (em.drop 351).take 32
  let db : List Byte := (masked.zip (mgf1 h 351)).map fun (a, b) => a ^^^ b
  let db : List Byte := match db with
    | b :: bs => (b &&& 0x7F) :: bs
    | [] => []
  decide (em.getLast? = some 0xBC) && decide ((masked.headD 0) &&& 0x80 = 0) && (db.take 318).all (fun b => decide (b = 0))
    && decide (db.getD 318 0 = 1) && decide (sha256 (List.replicate 8 0 ++ hash ++ db.drop 319) = h)

/-- A signature over a message under a modulus. (Log entry 129: DEDUCED, unsafe.) -/
def signatureValid (modulus signature message : List Byte) : Bool :=
  let n := bytesBig modulus
  let s := bytesBig signature
  decide (s < n) && pssValid (sha256 message) (bigBytes 384 (rsaPublic n s))

/-! ### Images (R446) -/

/-- Bytes [a, a + n) of an image. -/
def part (image : List Byte) (a n : Nat) : List Byte := (image.drop a).take n

/-- The first check that an image fails. -/
def checkImage (b : Boot) (image : List Byte) : Option ImageCheck :=
  let len := bytesToNat (part image 8 8)
  if bytesToNat (part image 0 4) ≠ 0x4C434743 then some .magic
  else if (part image 0x1B0 80).any (fun x => decide (x ≠ 0)) then some .reserved
  else if sha256 (part image 0x30 384) ≠ b.keyHash then some .key
  else if !signatureValid (part image 0x30 384) (part image 0x200 384) (part image 0 512) then some .signature
  else if image.length < 0x380 + len ∨ sha256 (part image 0x380 len) ≠ part image 0x10 32 then some .digest
  else if bytesToNat (part image 4 4) < b.minVersion.toNat then some .version
  else none

/-- The digest of an image's body, as its header gives it. (Log entry 127: DEDUCED, unsafe.) -/
def imageDigest (image : List Byte) : List Byte := part image 0x10 32

/-! ### The reset sequence (R445) -/

/-- The package in reset: what lies outside it stays. -/
def heldState (s : State) : State :=
  { State.reset with
    boot := { s.boot with state := .held, measurements := [], logged := [] }
    agenda := s.agenda
    freeCount := s.freeCount }

/-- The firmware core that a thread is started on has a number of its own beyond the hearths.
(Log entry 40: DESIGN CHOICE, unsafe.) -/
def serviceNumber : Place → Nat
  | .walker b => 192 + b
  | .steward d => 216 + d
  | _ => 220

/-- A steward or walker thread as Clageong starts it, at level 2 (R349, R445). (Log entry 5: DESIGN CHOICE, unsafe.) -/
def startService (t : Thread) : Thread :=
  { t with st := .seated, priv := 2, resident := 0xFFFF, hearth := serviceNumber t.place, home := serviceNumber t.place }

/-- The withdrawn bits of every logged pair (R449). -/
def restoreWithdrawn (pairs : List Nat) (s : State) : State :=
  pairs.foldl (fun s p =>
    let b := benchOf s (p / 4)
    putBench s (p / 4) { b with withdrawn := b.withdrawn ||| (1#4 <<< (p % 4)) }) s

/-- Step 5: what Clageong configures, and its firmware threads.
(Log entries 4: DESIGN CHOICE, unsafe; 5: DESIGN CHOICE, unsafe.) -/
def configure (s : State) : State :=
  let f := s.boot.firmware
  let s := restoreWithdrawn s.boot.withdrawn s
  let s := (List.range 4).foldl (fun s k =>
    putDie s k { dieOf s k with ckptbase := f.ckptbase.toList.getD k 0, ckptlines := f.ckptlines.toList.getD k 0 }) s
  { s with
    node := f.node
    regiontbl := f.regiontbl
    mgmt := { s.mgmt with qtbase := masked (bits 20 32) f.qtbase.toNat }
    mem := f.mem.foldl (fun m c => Mem.set m c.1 c.2) s.mem
    others := (f.threads.filter fun t => t.place.service).map startService
    boot := { s.boot with state := .ready, logged := s.boot.withdrawn } }

/-- A step of the sequence failed (R447). (Log entry 132: DEDUCED, safe.) -/
def recover (step : Nat) (c : ImageCheck) (s : State) : State := { s with boot := { s.boot with state := .recovery step c } }

/-- A measurement recorded. (Log entry 127: DEDUCED, unsafe.) -/
def measure (image : List Byte) (s : State) : State :=
  { s with boot := { s.boot with measurements := s.boot.measurements ++ [imageDigest image] } }

/-- Step 2: the monitor's image, slot A or else slot B. -/
def monitorImage (b : Boot) : Except ImageCheck (List Byte) :=
  let a := b.slots.getD 0 []
  let c := b.slots.getD 1 []
  match checkImage b a, checkImage b c with
  | none, _ => .ok a
  | some _, none => .ok c
  | some _, some e => .error e

/-- Steps 1 to 5. (Log entry 127: DEDUCED, unsafe.) -/
def bootSequence (s : State) : State :=
  let s := heldState s
  match monitorImage s.boot with
  | .error c => recover 2 c s
  | .ok image =>
    let s := measure image s
    let steward := s.boot.slots.getD 2 []
    let walker := s.boot.slots.getD 3 []
    match checkImage s.boot steward, checkImage s.boot walker with
    | some c, _ => recover 4 c s
    | none, some c => recover 4 c s
    | none, none => configure (measure walker (measure steward s))

/-! ### Attestation (R448) -/

/-- Pairs as bits, 96 of them. (Log entry 128: DEDUCED, unsafe.) -/
def pairBits (ps : List Nat) : Nat := ((List.range 96).map fun k => if ps.contains k then 2 ^ k else 0).sum

/-- A report's fields and their signature. (Log entry 128: DEDUCED, unsafe.) -/
def reportOf (s : State) (nonce : List Byte) : List Byte :=
  let b := s.boot
  let fields := natToBytes 8 Config.ident.toNat ++ natToBytes 4 b.minVersion.toNat ++ b.measurements.flatten
    ++ natToBytes 12 (pairBits b.logged) ++ nonce
  fields ++ Config.identitySign fields

/-- Requests that wait for the end of start-up are answered. -/
def answerNonces (s : State) : State :=
  if s.boot.state = .ready then
    { s with boot := { s.boot with nonces := [], reports := s.boot.reports ++ s.boot.nonces.map (reportOf s) } }
  else s

/-- POWER_ON_RESET, R445: the tray lets the package start. (Log entry 4: DESIGN CHOICE, unsafe.) -/
def execPowerOnReset (s : State) : Out := .next (answerNonces (bootSequence s))

/-- ATTESTATION_REQUEST, R448. -/
def execAttestationRequest (nonce : List (BitVec 8)) (s : State) : Out :=
  .next (if nonce.length = 32 then answerNonces { s with boot := { s.boot with nonces := s.boot.nonces ++ [nonce] } } else s)

/-- THERMTRIP, R451: the package holds itself in reset, and every thread is lost. (Log entry 132: DEDUCED, safe.) -/
def execThermtrip (temp : BitVec 8) (s : State) : Out :=
  .next (if 120 ≤ temp.toNat then { heldState s with tripped := true, temp := temp } else { s with temp := temp })

end Sys2Proof.Machine
end

