-- ==== Sys2Proof/Machine/Dispatch.lean ====
section
/-!
DEFINITION. One arm per constructor of Instr: a direct call of the instruction's meaning.
-/

namespace Sys2Proof.Machine

def exec (i : Instr) (s : State) : Host.Outcome State Fault Refusal :=
  match i with
  | .add g d a b => Sys2Proof.Machine.execAdd g d a b s
  | .sub g d a b => Sys2Proof.Machine.execSub g d a b s
  | .mul g d a b => Sys2Proof.Machine.execMul g d a b s
  | .mulh g d a b => Sys2Proof.Machine.execMulh g d a b s
  | .mulhz g d a b => Sys2Proof.Machine.execMulhz g d a b s
  | .div g d a b => Sys2Proof.Machine.execDiv g d a b s
  | .divz g d a b => Sys2Proof.Machine.execDivz g d a b s
  | .rem g d a b => Sys2Proof.Machine.execRem g d a b s
  | .remz g d a b => Sys2Proof.Machine.execRemz g d a b s
  | .and g d a b => Sys2Proof.Machine.execAnd g d a b s
  | .or g d a b => Sys2Proof.Machine.execOr g d a b s
  | .xor g d a b => Sys2Proof.Machine.execXor g d a b s
  | .andn g d a b => Sys2Proof.Machine.execAndn g d a b s
  | .shl g d a b => Sys2Proof.Machine.execShl g d a b s
  | .shr g d a b => Sys2Proof.Machine.execShr g d a b s
  | .sha g d a b => Sys2Proof.Machine.execSha g d a b s
  | .rol g d a b => Sys2Proof.Machine.execRol g d a b s
  | .min g d a b => Sys2Proof.Machine.execMin g d a b s
  | .max g d a b => Sys2Proof.Machine.execMax g d a b s
  | .minz g d a b => Sys2Proof.Machine.execMinz g d a b s
  | .maxz g d a b => Sys2Proof.Machine.execMaxz g d a b s
  | .clz g d a => Sys2Proof.Machine.execClz g d a s
  | .ctz g d a => Sys2Proof.Machine.execCtz g d a s
  | .popc g d a => Sys2Proof.Machine.execPopc g d a s
  | .bswap g d a => Sys2Proof.Machine.execBswap g d a s
  | .sext g d a w => Sys2Proof.Machine.execSext g d a w s
  | .zext g d a w => Sys2Proof.Machine.execZext g d a w s
  | .sel g d a b => Sys2Proof.Machine.execSel g d a b s
  | .addi g d a imm => Sys2Proof.Machine.execAddi g d a imm s
  | .andi g d a imm => Sys2Proof.Machine.execAndi g d a imm s
  | .ori g d a imm => Sys2Proof.Machine.execOri g d a imm s
  | .xori g d a imm => Sys2Proof.Machine.execXori g d a imm s
  | .shli g d a sel => Sys2Proof.Machine.execShli g d a sel s
  | .shri g d a sel => Sys2Proof.Machine.execShri g d a sel s
  | .shai g d a sel => Sys2Proof.Machine.execShai g d a sel s
  | .li g d imm => Sys2Proof.Machine.execLi g d imm s
  | .lih g d imm => Sys2Proof.Machine.execLih g d imm s
  | .bfx g d a e o => Sys2Proof.Machine.execBfx g d a e o s
  | .bfi g d a e o => Sys2Proof.Machine.execBfi g d a e o s
  | .cmp g d a b c => Sys2Proof.Machine.execCmp g d a b c s
  | .cmpi g d a c imm => Sys2Proof.Machine.execCmpi g d a c imm s
  | .pand g d a b => Sys2Proof.Machine.execPand g d a b s
  | .por g d a b => Sys2Proof.Machine.execPor g d a b s
  | .pxor g d a b => Sys2Proof.Machine.execPxor g d a b s
  | .pandn g d a b => Sys2Proof.Machine.execPandn g d a b s
  | .pnot g d a => Sys2Proof.Machine.execPnot g d a s
  | .pset g d => Sys2Proof.Machine.execPset g d s
  | .pclr g d => Sys2Proof.Machine.execPclr g d s
  | .padd g d a b => Sys2Proof.Machine.execPadd g d a b s
  | .paddi g d a imm => Sys2Proof.Machine.execPaddi g d a imm s
  | .ptag g d a f k => Sys2Proof.Machine.execPtag g d a f k s
  | .pgetf g d a => Sys2Proof.Machine.execPgetf g d a s
  | .pgetb g d a => Sys2Proof.Machine.execPgetb g d a s
  | .pstrip g d a => Sys2Proof.Machine.execPstrip g d a s
  | .br g o => Sys2Proof.Machine.execBr g o s
  | .brl g o => Sys2Proof.Machine.execBrl g o s
  | .jr g a => Sys2Proof.Machine.execJr g a s
  | .jrl g d a => Sys2Proof.Machine.execJrl g d a s
  | .loop g d l => Sys2Proof.Machine.execLoop g d l s
  | .lidx g d k => Sys2Proof.Machine.execLidx g d k s
  | .lbrk g k => Sys2Proof.Machine.execLbrk g k s
  | .lcnt g d k => Sys2Proof.Machine.execLcnt g d k s
  | .frame g a sel c => Sys2Proof.Machine.execFrame g a sel c s
  | .yield g => Sys2Proof.Machine.execYield g s
  | .exit g a => Sys2Proof.Machine.execExit g a s
  | .self g d sel => Sys2Proof.Machine.execSelf g d sel s
  | .spawn g d a b => Sys2Proof.Machine.execSpawn g d a b s
  | .spawnn g d a b => Sys2Proof.Machine.execSpawnn g d a b s
  | .join g d a => Sys2Proof.Machine.execJoin g d a s
  | .prio g d a => Sys2Proof.Machine.execPrio g d a s
  | .park g => Sys2Proof.Machine.execPark g s
  | .wake g a => Sys2Proof.Machine.execWake g a s
  | .forge g => Sys2Proof.Machine.execForge g s
  | .ld g d b z o => Sys2Proof.Machine.execLd g d b z o s
  | .ldz g d b z o => Sys2Proof.Machine.execLdz g d b z o s
  | .st g d b z o => Sys2Proof.Machine.execSt g d b z o s
  | .ldv g d b o => Sys2Proof.Machine.execLdv g d b o s
  | .stv g d b o => Sys2Proof.Machine.execStv g d b o s
  | .ldf g d b o => Sys2Proof.Machine.execLdf g d b o s
  | .stf g d b o => Sys2Proof.Machine.execStf g d b o s
  | .lda g d a c z => Sys2Proof.Machine.execLda g d a c z s
  | .strl g d a c z => Sys2Proof.Machine.execStrl g d a c z s
  | .ldx g d a b z => Sys2Proof.Machine.execLdx g d a b z s
  | .ldzx g d a b z => Sys2Proof.Machine.execLdzx g d a b z s
  | .stx g d a b z => Sys2Proof.Machine.execStx g d a b z s
  | .pref g a b => Sys2Proof.Machine.execPref g a b s
  | .aadd g d a b z => Sys2Proof.Machine.execAadd g d a b z s
  | .aand g d a b z => Sys2Proof.Machine.execAand g d a b z s
  | .aor g d a b z => Sys2Proof.Machine.execAor g d a b z s
  | .axor g d a b z => Sys2Proof.Machine.execAxor g d a b z s
  | .amin g d a b z => Sys2Proof.Machine.execAmin g d a b z s
  | .amax g d a b z => Sys2Proof.Machine.execAmax g d a b z s
  | .aminz g d a b z => Sys2Proof.Machine.execAminz g d a b z s
  | .amaxz g d a b z => Sys2Proof.Machine.execAmaxz g d a b z s
  | .aswap g d a b z => Sys2Proof.Machine.execAswap g d a b z s
  | .acas g d a b z => Sys2Proof.Machine.execAcas g d a b z s
  | .acas16 g d a b => Sys2Proof.Machine.execAcas16 g d a b s
  | .cadd g a b f => Sys2Proof.Machine.execCadd g a b f s
  | .cmax g a b f => Sys2Proof.Machine.execCmax g a b f s
  | .cmin g a b f => Sys2Proof.Machine.execCmin g a b f s
  | .cor g a b f => Sys2Proof.Machine.execCor g a b f s
  | .fence g sel => Sys2Proof.Machine.execFence g sel s
  | .fencee g sel => Sys2Proof.Machine.execFencee g sel s
  | .sync g d a l => Sys2Proof.Machine.execSync g d a l s
  | .domget g d l => Sys2Proof.Machine.execDomget g d l s
  | .phase g d => Sys2Proof.Machine.execPhase g d s
  | .xchg g d a l => Sys2Proof.Machine.execXchg g d a l s
  | .snap g d a => Sys2Proof.Machine.execSnap g d a s
  | .accept g d a => Sys2Proof.Machine.execAccept g d a s
  | .reject g d a => Sys2Proof.Machine.execReject g d a s
  | .snapq g d a => Sys2Proof.Machine.execSnapq g d a s
  | .torder g a l => Sys2Proof.Machine.execTorder g a l s
  | .tbegin g a => Sys2Proof.Machine.execTbegin g a s
  | .tcommit g => Sys2Proof.Machine.execTcommit g s
  | .tabort g => Sys2Proof.Machine.execTabort g s
  | .tstat g d => Sys2Proof.Machine.execTstat g d s
  | .tlwait g d a e => Sys2Proof.Machine.execTlwait g d a e s
  | .tlread g d l e => Sys2Proof.Machine.execTlread g d l e s
  | .msend g a b => Sys2Proof.Machine.execMsend g a b s
  | .msende g a b => Sys2Proof.Machine.execMsende g a b s
  | .deposit g d a r c => Sys2Proof.Machine.execDeposit g d a r c s
  | .nread g d a r n => Sys2Proof.Machine.execNread g d a r n s
  | .mrecv g d n k m => Sys2Proof.Machine.execMrecv g d n k m s
  | .rebind g d a b => Sys2Proof.Machine.execRebind g d a b s
  | .bindq g d a sel => Sys2Proof.Machine.execBindq g d a sel s
  | .rngx g d a b => Sys2Proof.Machine.execRngx g d a b s
  | .rngsDraw g d a h => Sys2Proof.Machine.execRngsDraw g d a h s
  | .rngsLoad g d a h => Sys2Proof.Machine.execRngsLoad g d a h s
  | .hinit g a k => Sys2Proof.Machine.execHinit g a k s
  | .hsift g d a b => Sys2Proof.Machine.execHsift g d a b s
  | .hpop g d a n => Sys2Proof.Machine.execHpop g d a n s
  | .vadd g d a b t => Sys2Proof.Machine.execVadd g d a b t s
  | .vsub g d a b t => Sys2Proof.Machine.execVsub g d a b t s
  | .vmul g d a b t => Sys2Proof.Machine.execVmul g d a b t s
  | .vfma g d a b t => Sys2Proof.Machine.execVfma g d a b t s
  | .vfms g d a b t => Sys2Proof.Machine.execVfms g d a b t s
  | .vmin g d a b t => Sys2Proof.Machine.execVmin g d a b t s
  | .vmax g d a b t => Sys2Proof.Machine.execVmax g d a b t s
  | .vdiv g d a b t => Sys2Proof.Machine.execVdiv g d a b t s
  | .vabs g d a t => Sys2Proof.Machine.execVabs g d a t s
  | .vneg g d a t => Sys2Proof.Machine.execVneg g d a t s
  | .vsqrt g d a t => Sys2Proof.Machine.execVsqrt g d a t s
  | .vrcp g d a t => Sys2Proof.Machine.execVrcp g d a t s
  | .vrsq g d a t => Sys2Proof.Machine.execVrsq g d a t s
  | .vexp g d a t => Sys2Proof.Machine.execVexp g d a t s
  | .vlog2 g d a t => Sys2Proof.Machine.execVlog2 g d a t s
  | .vsig g d a t => Sys2Proof.Machine.execVsig g d a t s
  | .viadd g d a b t => Sys2Proof.Machine.execViadd g d a b t s
  | .visub g d a b t => Sys2Proof.Machine.execVisub g d a b t s
  | .vimul g d a b t => Sys2Proof.Machine.execVimul g d a b t s
  | .vand g d a b t => Sys2Proof.Machine.execVand g d a b t s
  | .vor g d a b t => Sys2Proof.Machine.execVor g d a b t s
  | .vxor g d a b t => Sys2Proof.Machine.execVxor g d a b t s
  | .vshl g d a b t => Sys2Proof.Machine.execVshl g d a b t s
  | .vshr g d a b t => Sys2Proof.Machine.execVshr g d a b t s
  | .vcmp g d a b t c => Sys2Proof.Machine.execVcmp g d a b t c s
  | .vselm g d a b t => Sys2Proof.Machine.execVselm g d a b t s
  | .mand g d a b => Sys2Proof.Machine.execMand g d a b s
  | .mor g d a b => Sys2Proof.Machine.execMor g d a b s
  | .mxor g d a b => Sys2Proof.Machine.execMxor g d a b s
  | .mnot g d a => Sys2Proof.Machine.execMnot g d a s
  | .mpop g d a => Sys2Proof.Machine.execMpop g d a s
  | .mfirst g d a => Sys2Proof.Machine.execMfirst g d a s
  | .vcvt g d a r c t => Sys2Proof.Machine.execVcvt g d a r c t s
  | .vqnt g d a b t => Sys2Proof.Machine.execVqnt g d a b t s
  | .vdqnt g d a b t => Sys2Proof.Machine.execVdqnt g d a b t s
  | .vperm g d a b t => Sys2Proof.Machine.execVperm g d a b t s
  | .vbcast g d a t => Sys2Proof.Machine.execVbcast g d a t s
  | .vext g d a b t => Sys2Proof.Machine.execVext g d a b t s
  | .vins g d a b t => Sys2Proof.Machine.execVins g d a b t s
  | .vslide g d a b t => Sys2Proof.Machine.execVslide g d a b t s
  | .vredadd g d a b t => Sys2Proof.Machine.execVredadd g d a b t s
  | .vredmax g d a b t => Sys2Proof.Machine.execVredmax g d a b t s
  | .vredmin g d a b t => Sys2Proof.Machine.execVredmin g d a b t s
  | .vredx g d a b t => Sys2Proof.Machine.execVredx g d a b t s
  | .shset g d a => Sys2Proof.Machine.execShset g d a s
  | .shget g d a => Sys2Proof.Machine.execShget g d a s
  | .tsew g d a b o => Sys2Proof.Machine.execTsew g d a b o s
  | .tsred g d a o => Sys2Proof.Machine.execTsred g d a o s
  | .tscvt g d a r => Sys2Proof.Machine.execTscvt g d a r s
  | .mmj g a => Sys2Proof.Machine.execMmj g a s
  | .mcommit g d => Sys2Proof.Machine.execMcommit g d s
  | .mwait g d a b => Sys2Proof.Machine.execMwait g d a b s
  | .accrel g a => Sys2Proof.Machine.execAccrel g a s
  | .accrd g a b => Sys2Proof.Machine.execAccrd g a b s
  | .cpy g d a b => Sys2Proof.Machine.execCpy g d a b s
  | .gath g d a b => Sys2Proof.Machine.execGath g d a b s
  | .scat g d a b => Sys2Proof.Machine.execScat g d a b s
  | .xfer g d a => Sys2Proof.Machine.execXfer g d a s
  | .dspcnt g d a b => Sys2Proof.Machine.execDspcnt g d a b s
  | .dspgo g d a => Sys2Proof.Machine.execDspgo g d a s
  | .dspcmb g d a => Sys2Proof.Machine.execDspcmb g d a s
  | .gmm g d a => Sys2Proof.Machine.execGmm g d a s
  | .gmmq g d sel => Sys2Proof.Machine.execGmmq g d sel s
  | .wstream g d a => Sys2Proof.Machine.execWstream g d a s
  | .wpin g d a b => Sys2Proof.Machine.execWpin g d a b s
  | .wunpin g d a b => Sys2Proof.Machine.execWunpin g d a b s
  | .wpol g d a b => Sys2Proof.Machine.execWpol g d a b s
  | .launch g d a => Sys2Proof.Machine.execLaunch g d a s
  | .lstat g d a sel => Sys2Proof.Machine.execLstat g d a sel s
  | .srd g d m => Sys2Proof.Machine.execSrd g d m s
  | .swr g d m => Sys2Proof.Machine.execSwr g d m s
  | .tretResume g d c => Sys2Proof.Machine.execTretResume g d c s
  | .tretSkip g d c => Sys2Proof.Machine.execTretSkip g d c s
  | .tretKill g d c => Sys2Proof.Machine.execTretKill g d c s
  | .tlbw g d c => Sys2Proof.Machine.execTlbw g d c s
  | .tlbinv g d a n sel => Sys2Proof.Machine.execTlbinv g d a n sel s
  | .tlbq g d a sel => Sys2Proof.Machine.execTlbq g d a sel s
  | .ctxevict g d k => Sys2Proof.Machine.execCtxevict g d k s
  | .ctxfill g d k => Sys2Proof.Machine.execCtxfill g d k s
  | .haltcQuiesce g d => Sys2Proof.Machine.execHaltcQuiesce g d s
  | .haltcRelease g d => Sys2Proof.Machine.execHaltcRelease g d s
  | .trapi g a x => Sys2Proof.Machine.execTrapi g a x s
  | .brk g x => Sys2Proof.Machine.execBrk g x s
  | .bbr g off => Sys2Proof.Machine.execBbr g off s
  | .bloop g d len => Sys2Proof.Machine.execBloop g d len s
  | .bleave g => Sys2Proof.Machine.execBleave g s
  | .nop slot => Sys2Proof.Machine.execNop slot s
  | .sadd g d a b imm x => Sys2Proof.Machine.execSadd g d a b imm x s
  | .ssub g d a b imm x => Sys2Proof.Machine.execSsub g d a b imm x s
  | .smul g d a b imm x => Sys2Proof.Machine.execSmul g d a b imm x s
  | .sand g d a b imm x => Sys2Proof.Machine.execSand g d a b imm x s
  | .sor g d a b imm x => Sys2Proof.Machine.execSor g d a b imm x s
  | .sxor g d a b imm x => Sys2Proof.Machine.execSxor g d a b imm x s
  | .sshl g d a b imm x => Sys2Proof.Machine.execSshl g d a b imm x s
  | .sshr g d a b imm x => Sys2Proof.Machine.execSshr g d a b imm x s
  | .sli g d imm => Sys2Proof.Machine.execSli g d imm s
  | .scmp g d a b imm c => Sys2Proof.Machine.execScmp g d a b imm c s
  | .smovqPop g d q => Sys2Proof.Machine.execSmovqPop g d q s
  | .smovqAppend g q a => Sys2Proof.Machine.execSmovqAppend g q a s
  | .bvadd g sl d a b ty qa qb qd => Sys2Proof.Machine.execBvadd g sl d a b ty qa qb qd s
  | .bvmul g sl d a b ty qa qb qd => Sys2Proof.Machine.execBvmul g sl d a b ty qa qb qd s
  | .bvfma g sl d a b ty qa qb => Sys2Proof.Machine.execBvfma g sl d a b ty qa qb s
  | .bvmax g sl d a b ty qa qb qd => Sys2Proof.Machine.execBvmax g sl d a b ty qa qb qd s
  | .bvcvt g sl d a ty qa qd mode => Sys2Proof.Machine.execBvcvt g sl d a ty qa qd mode s
  | .bvqnt g sl d a b ty qa qd => Sys2Proof.Machine.execBvqnt g sl d a b ty qa qd s
  | .bvcmp g sl d a b ty mode c => Sys2Proof.Machine.execBvcmp g sl d a b ty mode c s
  | .bvmov g sl d a qa qd => Sys2Proof.Machine.execBvmov g sl d a qa qd s
  | .bwaittl g a e => Sys2Proof.Machine.execBwaittl g a e s
  | .bsync g d a l => Sys2Proof.Machine.execBsync g d a l s
  | .bvsel g sl d a b sel => Sys2Proof.Machine.execBvsel g sl d a b sel s
  | .awld g bank src a pw => Sys2Proof.Machine.execAwld g bank src a pw s
  | .aswapSlot g set bank => Sys2Proof.Machine.execAswapSlot g set bank s
  | .aiss g q rb two pa r => Sys2Proof.Machine.execAiss g q rb two pa r s
  | .azero g r n => Sys2Proof.Machine.execAzero g r n s
  | .ashout g q fmt clr r n => Sys2Proof.Machine.execAshout g q fmt clr r n s
  | .aprov g d st clr => Sys2Proof.Machine.execAprov g d st clr s
  | .tcopy g d a b => Sys2Proof.Machine.execTcopy g d a b s
  | .tgath g d a b => Sys2Proof.Machine.execTgath g d a b s
  | .tscat g d a b => Sys2Proof.Machine.execTscat g d a b s
  | .txfer g d a b => Sys2Proof.Machine.execTxfer g d a b s
  | .tsend g d a b q => Sys2Proof.Machine.execTsend g d a b q s
  | .xperm g d a b w => Sys2Proof.Machine.execXperm g d a b w s
  | .xbcast g d a w sel => Sys2Proof.Machine.execXbcast g d a w sel s
  | .xrot g d a w sel => Sys2Proof.Machine.execXrot g d a w sel s
  | .qbind g q kind unit sh a => Sys2Proof.Machine.execQbind g q kind unit sh a s
  | .qadv g q a => Sys2Proof.Machine.execQadv g q a s
  | .qwaitf g q n => Sys2Proof.Machine.execQwaitf g q n s
  | .qwaite g q => Sys2Proof.Machine.execQwaite g q s
  | .scexp g a => Sys2Proof.Machine.execScexp g a s
  | .resultLanding hearth => Sys2Proof.Machine.execResultLanding hearth s
  | .scalePortSums hearth => Sys2Proof.Machine.execScalePortSums hearth s
  | .ashoutRowDrain hearth => Sys2Proof.Machine.execAshoutRowDrain hearth s
  | .bankLoadComplete hearth bank => Sys2Proof.Machine.execBankLoadComplete hearth bank s
  | .bellowsTileDeliver t n => Sys2Proof.Machine.execBellowsTileDeliver t n s
  | .streamUnitArrive hearth q => Sys2Proof.Machine.execStreamUnitArrive hearth q s
  | .streamWritePerform hearth q => Sys2Proof.Machine.execStreamWritePerform hearth q s
  | .channelUnitReceive imm => Sys2Proof.Machine.execChannelUnitReceive imm s
  | .freezeWatchdog hearth => Sys2Proof.Machine.execFreezeWatchdog hearth s
  | .packetWatchdog t => Sys2Proof.Machine.execPacketWatchdog t s
  | .orderStallTimeout t => Sys2Proof.Machine.execOrderStallTimeout t s
  | .forgeSeatGrant hearth => Sys2Proof.Machine.execForgeSeatGrant hearth s
  | .forgePreempt hearth => Sys2Proof.Machine.execForgePreempt hearth s
  | .threadSeat hearth => Sys2Proof.Machine.execThreadSeat hearth s
  | .seatPreempt hearth => Sys2Proof.Machine.execSeatPreempt hearth s
  | .priorityAging t => Sys2Proof.Machine.execPriorityAging t s
  | .registerBlockArrive t block => Sys2Proof.Machine.execRegisterBlockArrive t block s
  | .blockWritebackFail t block => Sys2Proof.Machine.execBlockWritebackFail t block s
  | .depositArrive imm => Sys2Proof.Machine.execDepositArrive imm s
  | .nreadReply t => Sys2Proof.Machine.execNreadReply t s
  | .nreadTimeout t => Sys2Proof.Machine.execNreadTimeout t s
  | .packetDeliver imm => Sys2Proof.Machine.execPacketDeliver imm s
  | .trapPacketDeliver t => Sys2Proof.Machine.execTrapPacketDeliver t s
  | .barrierArrivalMessage domain node => Sys2Proof.Machine.execBarrierArrivalMessage domain node s
  | .barrierComplete domain => Sys2Proof.Machine.execBarrierComplete domain s
  | .routineEntryStart launch pos => Sys2Proof.Machine.execRoutineEntryStart launch pos s
  | .exchangePhase launch => Sys2Proof.Machine.execExchangePhase launch s
  | .superstepStart launch => Sys2Proof.Machine.execSuperstepStart launch s
  | .lockstepMismatch launch pos unit count => Sys2Proof.Machine.execLockstepMismatch launch pos unit count s
  | .launchAccept => Sys2Proof.Machine.execLaunchAccept s
  | .tileThreadStart launch => Sys2Proof.Machine.execTileThreadStart launch s
  | .launchComplete launch => Sys2Proof.Machine.execLaunchComplete launch s
  | .hostLaunchCompletion launch => Sys2Proof.Machine.execHostLaunchCompletion launch s
  | .matrixGroupComplete t n => Sys2Proof.Machine.execMatrixGroupComplete t n s
  | .tongsOpComplete t n => Sys2Proof.Machine.execTongsOpComplete t n s
  | .dspcntComplete t n => Sys2Proof.Machine.execDspcntComplete t n s
  | .dispatchPermitGrant t n rows => Sys2Proof.Machine.execDispatchPermitGrant t n rows s
  | .dspgoComplete t n => Sys2Proof.Machine.execDspgoComplete t n s
  | .dspcmbComplete t n => Sys2Proof.Machine.execDspcmbComplete t n s
  | .gmmComplete t n => Sys2Proof.Machine.execGmmComplete t n s
  | .bellowsOpComplete t n => Sys2Proof.Machine.execBellowsOpComplete t n s
  | .memoryReply t => Sys2Proof.Machine.execMemoryReply t s
  | .tlbBenchMiss bench t page kind => Sys2Proof.Machine.execTlbBenchMiss bench t page kind s
  | .missMessageSend bench index => Sys2Proof.Machine.execMissMessageSend bench index s
  | .shootdownComplete bench => Sys2Proof.Machine.execShootdownComplete bench s
  | .updateLineMerge imm => Sys2Proof.Machine.execUpdateLineMerge imm s
  | .refreshWindowEnd die bank => Sys2Proof.Machine.execRefreshWindowEnd die bank s
  | .eccUncorrectable source pa lasting => Sys2Proof.Machine.execEccUncorrectable source pa lasting s
  | .remoteRequestServe r => Sys2Proof.Machine.execRemoteRequestServe r s
  | .remoteResponse imm r => Sys2Proof.Machine.execRemoteResponse imm r s
  | .remoteTimeout imm => Sys2Proof.Machine.execRemoteTimeout imm s
  | .markedResponse node => Sys2Proof.Machine.execMarkedResponse node s
  | .rateIncrease node => Sys2Proof.Machine.execRateIncrease node s
  | .fabricStateUpdate => Sys2Proof.Machine.execFabricStateUpdate s
  | .cycSlewStep add => Sys2Proof.Machine.execCycSlewStep add s
  | .traceTimestamp u => Sys2Proof.Machine.execTraceTimestamp u s
  | .doorbellWrite q count => Sys2Proof.Machine.execDoorbellWrite q count s
  | .ringEntryFetch q entry => Sys2Proof.Machine.execRingEntryFetch q entry s
  | .queueNotReady q stamp => Sys2Proof.Machine.execQueueNotReady q stamp s
  | .fabEn reference => Sys2Proof.Machine.execFabEn reference s
  | .mgmtWindowWrite off val controller => Sys2Proof.Machine.execMgmtWindowWrite off val controller s
  | .poisclr die val => Sys2Proof.Machine.execPoisclr die val s
  | .mboxbind hearth val => Sys2Proof.Machine.execMboxbind hearth val s
  | .trapvec cls val => Sys2Proof.Machine.execTrapvec cls val s
  | .hworld hearth val => Sys2Proof.Machine.execHworld hearth val s
  | .vlgrp hearth val => Sys2Proof.Machine.execVlgrp hearth val s
  | .thrstat val => Sys2Proof.Machine.execThrstat val s
  | .dbgctlStop u => Sys2Proof.Machine.execDbgctlStop u s
  | .dbgctlRun u => Sys2Proof.Machine.execDbgctlRun u s
  | .pwrcap val => Sys2Proof.Machine.execPwrcap val s
  | .powerCapTakesEffect => Sys2Proof.Machine.execPowerCapTakesEffect s
  | .thermalLimitEnter temp => Sys2Proof.Machine.execThermalLimitEnter temp s
  | .thermalLimitExit temp => Sys2Proof.Machine.execThermalLimitExit temp s
  | .thermtrip temp => Sys2Proof.Machine.execThermtrip temp s
  | .powerOnReset => Sys2Proof.Machine.execPowerOnReset s
  | .attestationRequest nonce => Sys2Proof.Machine.execAttestationRequest nonce s
  | .hostMemoryAccess pa write len => Sys2Proof.Machine.execHostMemoryAccess pa write len s
  | .storeCompletion imm => Sys2Proof.Machine.execStoreCompletion imm s
  | .registerBlockWriteback t block => Sys2Proof.Machine.execRegisterBlockWriteback t block s
  | .matrixJobComplete hearth => Sys2Proof.Machine.execMatrixJobComplete hearth s
  | .vectorEntryComplete core => Sys2Proof.Machine.execVectorEntryComplete core s
  | .laneGroupBind hearth => Sys2Proof.Machine.execLaneGroupBind hearth s
  | .powerBudgetBinds power binds => Sys2Proof.Machine.execPowerBudgetBinds power binds s
  | .linkLost nodes => Sys2Proof.Machine.execLinkLost nodes s

end Sys2Proof.Machine
end

