-- ==== Sys2Proof/Machine/Issue.lean ====
section
/-!
DEFINITION. How a word or a bundle issues (R28, R139, R143, R175, R250 to R256, R376, R381): what stands before it at its boundary,
its fetch and decoding, its meaning, and what debug units make of it (R413 to R419).
-/

namespace Sys2Proof.Machine

open Sys2Proof

/-! ### Debug units around an issue (R414 to R419) -/

/-- The unit that a thread's place belongs to (R413). -/
def unitOf (t : Thread) : Option DebugUnit :=
  match t.place with
  | .strand c => some (.core c)
  | .forge h => some (.sequencer h)
  | .walker b => some (.core (768 + b))
  | .steward d => some (.core (792 + d))
  | .off => none

/-- The breakpoint that matches a word's address, of those that are not passed: its number, and whether it stops the unit (R415).
(Log entry 43: DEDUCED, safe.) -/
def breakHit (m : DebugModule) (asid : BitVec 10) (passed : BitVec 12) (a : Nat) : Option (Nat × Bool) :=
  ((List.range 8).filter fun n => !passed.getLsbD n).findSome? fun n =>
    let b := m.bp.toList.getD n 0
    if b.getLsbD 63 && (b.getLsbD 61 || decide (m.dbgasid = asid)) && decide (wfield b 2 54 * 4 = a) then some (n, b.getLsbD 62) else none

/-- The first breakpoint on one of some words: its address with it. (Log entry 19: DEDUCED, safe.) -/
def breakAmong (s : State) (as : List Nat) : Option (Nat × Nat × Bool) :=
  as.findSome? fun a => (breakHit (debugOf s s.th) s.th.id.asid s.th.passBreak a).map fun (n, act) => (a, n, act)

/-- A breakpoint traps the thread, or stops its unit before the word (R415). -/
def breakAt (a n : Nat) (act : Bool) (s : State) : State :=
  if act then
    let s := { s with th := { s.th with passBreak := s.th.passBreak ||| (1#12 <<< n) } }
    match unitOf s.th with
    | some u => stopUnit u 2 s
    | none => s
  else takeTrap .breakpoint (natWord (2 ^ 62 + n * 2 ^ 56 + a)) s

/-- A word or bundle that issued has completed: it does not wait to be executed again, and has not trapped. -/
def retired (s s' : State) : Bool :=
  match s'.th.st with
  | .stalledRegister => false
  | .stalledMemory => false
  | .frozen => false
  | .trapped => false
  | .parked => !s'.th.wait.again
  | _ => unitStopped s s.th || !unitStopped s' s.th

/-- What served one execution of a word is over once it has completed or trapped. -/
def Thread.spent (t : Thread) : Thread := { t with failed := none, waited := false, passBreak := 0 }

/-- STEPCTX names the thread that has issued, on its unit (R417). -/
def stepped (m : DebugModule) (t : ThreadId) : Bool :=
  m.stepctx.getLsbD 63 && decide (m.stepctx.extractLsb' 12 44 = t.ctx ∧ m.stepctx.extractLsb' 0 10 = t.asid)

/-- The STEP trap after a completed word; a thread that has parked or is gone takes it at its next boundary, or never.
(Log entry 25: DEDUCED, safe.) -/
def stepTrap (s s' : State) : State :=
  if retired s s' ∧ stepped (debugOf s s.th) s.th.id ∧ s'.th.place = s.th.place ∧ s'.th.st = .running then takeTrap .step 0 s'
  else if retired s s' ∧ stepped (debugOf s s.th) s.th.id ∧ s'.th.st = .parked then { s' with th := { s'.th with asyncTrap := some (.step, 0) } }
  else s'

/-- The end test sent the next issue to a loop's start (R170). -/
def wrapped (unit : Nat) (r r' : Regs) : Bool :=
  decide (0 < r'.depth ∧ r'.pc = (r'.lx (r'.depth - 1)).startPc ∧ r'.pc ≠ codeAdd r.pc (BitVec.ofNat 64 unit))

/-- The records that an issue gives (R418): a switch of threads, a taken transfer, a wrap; the unit keeps which thread issued.
(Log entry 131: DEDUCED, unsafe.) -/
def traceIssue (taken : Bool) (unit : Nat) (s s' : State) : State :=
  match unitOf s.th with
  | none => s'
  | some u =>
    let m := moduleOf s' u
    let record (type : Nat) (s' : State) : State :=
      traceRecord u (traceWords type (addr s.th.r.pc) 0 (addr s'.th.r.pc) s.cyc (some s.th.id)) s'
    let s' := if m.tracectl.getLsbD 60 ∧ m.last ≠ some s.th.id then record 4 s' else s'
    let s' := if !retired s s' then s'
      else if taken then record 1 s'
      else if m.tracectl.getLsbD 61 ∧ wrapped unit s.th.r s'.th.r then record 2 s'
      else s'
    if m.last = some s.th.id then s' else putModule u { moduleOf s' u with last := some s.th.id } s'

/-- What follows an issue: its trace, the STEP trap, and the end of what served one execution; a word that a breakpoint or watchpoint
traps still passes those before it. -/
def afterIssue (taken : Bool) (unit : Nat) (s s' : State) : State :=
  let s' := stepTrap s (traceIssue taken unit s s')
  if s'.th.st = .trapped ∧ wfield s'.th.record.head 0 8 = Cause.breakpoint.code then { s' with th := { s'.th.spent with passBreak := s'.th.passBreak } }
  else if retired s s' ∨ s'.th.st = .trapped then { s' with th := s'.th.spent }
  else s'

def mapOut (f : State → State) : Out → Out
  | .next s => .next (f s)
  | .fault r => .fault r
  | .refused r => .refused r

/-! ### Strand words -/

/-- A word's bytes read at the PC, decoded, and the blocks it names resident, unless its guard is false (R28, R125, R127, R167).
(Log entries 21: DEDUCED, unsafe; 23: DEDUCED, safe.) -/
def readyWord : M Instr := do
  let w ← fetchM (← getRegs).pc.toNat 4
  match decodeBytes (natToBytes 4 w) with
  | .error _ => trapN .illegalWord w
  | .ok (i, _) =>
    if (← getRegs).guard (guardOf (BitVec.ofNat 32 w)) then requireBlocks (namedBlocks i)
    return i

/-- A word that transfers control where its guard holds (R166, R171, R418). -/
def transfers (r : Regs) : Instr → Bool
  | .br g _ => r.guard g
  | .brl g _ => r.guard g
  | .jr g _ => r.guard g
  | .jrl g _ _ => r.guard g
  | .lbrk g _ => r.guard g
  | _ => false

/-- Addresses of the words that a FRAME captures (R173). -/
def capturedAt (pc : Word) (n : Nat) : List Nat := (List.range n).map fun k => (codeAdd pc (BitVec.ofNat 64 (4 * (k + 1)))).toNat

/-- A FRAME that is about to start: its state before replay 0 (R173). (Log entry 19: DEDUCED, safe.) -/
def frameStart (r : Regs) : Instr → Option FrameState
  | .frame g a st c =>
    let n := (r.rg a).toNat
    if r.frame.n = 0 ∧ r.guard g ∧ n ≠ 0 ∧ n ≤ 0xFFFFFF then some ⟨BitVec.ofNat 24 n, 0, st, BitVec.ofNat 5 (c.toNat + 1)⟩ else none
  | _ => none

/-- The word's meaning; a breakpoint on a word that a starting FRAME captures comes before replay 0 (R415).
(Log entry 19: DEDUCED, safe.) -/
def runWord (i : Instr) (s : State) : Out :=
  match frameStart s.th.r i with
  | none => exec i s
  | some f =>
    match exec i s, breakAmong s (capturedAt s.th.r.pc f.n.toNat) with
    | .next s', some (a, n, act) =>
      if s'.th.st = .trapped ∨ !retired s s' then .next s' else .next (breakAt a n act (setRegs { s.th.r with frame := f } s))
    | o, _ => o

/-- The addresses at which a breakpoint precedes the issue: the PC, or the words of the replay in progress (R415). -/
def breakPlaces (r : Regs) : List Nat := if r.frame.n = 0 then [addr r.pc] else capturedAt r.pc r.frame.n.toNat

/-- The word at the PC issues. -/
def issueWord (s : State) : Out :=
  match runResult readyWord s with
  | (.ok i, s') => mapOut (afterIssue (transfers s.th.r i) 4 s) (runWord i s')
  | (.error (.absent pa), _) => .fault (.noMemory pa)
  | (.error (.nowhere va), _) => .fault (.noHearth va)
  | (.error e, s') => .next (afterIssue false 4 s (settle (.error e) s'))

/-! ### Bundles -/

/-- The meaning of an operation of slots 4 to 7. (Log entry 13: DESIGN CHOICE, safe.) -/
def runEngine : EngineSlot → State → Out
  | .awld g bank src a pw => execAwld g bank src a pw
  | .aswapSlot g set bank => execAswapSlot g set bank
  | .aiss g q rb two pa r => execAiss g q rb two pa r
  | .azero g r n => execAzero g r n
  | .ashout g q fmt clr r n => execAshout g q fmt clr r n
  | .aprov g d st clr => execAprov g d st clr
  | .tcopy g d a b => execTcopy g d a b
  | .tgath g d a b => execTgath g d a b
  | .tscat g d a b => execTscat g d a b
  | .txfer g d a b => execTxfer g d a b
  | .tsend g d a b q => execTsend g d a b q
  | .xperm g d a b w => execXperm g d a b w
  | .xbcast g d a w i => execXbcast g d a w i
  | .xrot g d a w i => execXrot g d a w i
  | .qbind g q kind unit sh a => execQbind g q kind unit sh a
  | .qadv g q a => execQadv g q a
  | .qwaitf g q n => execQwaitf g q n
  | .qwaite g q => execQwaite g q
  | .scexp g a => execScexp g a

/-- The meaning of what a slot holds. -/
def runSlot : Slot → State → Out
  | .plain i => exec i
  | .engine e => runEngine e

/-- How a slot ended. -/
inductive SlotEnd where
  | passes
  | traps (c : Cause) (v : Word)
  | freezes (code : Nat)
  | stops (passed : BitVec 12)
  deriving DecidableEq, Repr

/-- The causes of R356. -/
def causes : List Cause :=
  [.illegalWord, .illegalBundle, .illegalSchedule, .privilege, .world, .misaligned, .format, .pageData, .pageFetch, .pageContext,
   .protection, .ingotReadonly, .shadowExhausted, .snapDepth, .orderStall, .accExhausted, .exchangeFull, .watchdog, .phaseViolation,
   .lockstepLasting, .poison, .fabric, .breakpoint, .trapi, .step]

/-- The cause with a code. -/
def causeOf (n : Nat) : Cause := (causes.find? fun c => decide (c.code = n)).getD .illegalBundle

/-- How a slot's meaning ended, by the thread's state after it; a wait for memory freezes the pipeline (R254, R382). -/
def slotEnd (s s' : State) : SlotEnd :=
  match s'.th.st with
  | .trapped => .traps (causeOf (wfield s'.th.record.head 0 8)) s'.th.record.value
  | .frozen => .freezes ((hearthOf s' s.th.hearth).frozen.getD 11)
  | .stalledMemory => .freezes 11
  | _ => if unitStopped s' s.th && !unitStopped s s.th then .stops s'.th.passBreak else .passes

/-- What a bundle that has no effect leaves of a trial of it: its translations and requests under way.
(Log entry 26: DEDUCED, safe.) -/
def keepDown (s s' : State) : State := { s with benches := s'.benches, remotes := s'.remotes, nodes := s'.nodes, freeCount := s'.freeCount }

/-- A trial of some slots in turn: the state after those that pass, and how the others ended. (Log entry 26: DEDUCED, safe.) -/
def trySlots : List (Nat × Slot) → State → Except Fault (State × List (Nat × SlotEnd))
  | [], s => .ok (s, [])
  | (k, x) :: xs, s =>
    match runSlot x s with
    | .fault r => .error r
    | .refused _ => trySlots xs s
    | .next s' =>
      match slotEnd s s' with
      | .passes => trySlots xs s'
      | e => (trySlots xs (keepDown s s')).map fun r => (r.1, (k, e) :: r.2)

/-- The trap of a bundle: ILLEGAL_SCHEDULE of the lowest slot, or else the trap of the lowest slot (R255, R256).
(Log entry 26: DEDUCED, safe.) -/
def bundleTrap (es : List (Nat × SlotEnd)) : Option (Cause × Word) :=
  let ts := es.filterMap fun (k, e) => match e with
    | .traps c v => some (k, c, v)
    | _ => none
  ((leastBy (·.1) (ts.filter fun t => decide (t.2.1 = .illegalSchedule))).orElse fun _ => leastBy (·.1) ts).map (·.2)

/-- The freeze of a bundle: that of its lowest slot. (Log entry 26: DEDUCED, safe.) -/
def bundleFreeze (es : List (Nat × SlotEnd)) : Option (Nat × Nat) :=
  leastBy (·.1) (es.filterMap fun (k, e) => match e with
    | .freezes c => some (k, c)
    | _ => none)

/-- The watchpoints that stop a bundle, beside those that its thread passes already. -/
def bundleStops (p : BitVec 12) (es : List (Nat × SlotEnd)) : BitVec 12 :=
  es.foldl (fun p e => match e.2 with
    | .stops q => p ||| q
    | _ => p) p

/-- A taken BBR (R418). -/
def bundleTransfers (r : Regs) : List Slot → Bool
  | .plain (.bbr g _) :: _ => r.slotGuard g
  | _ => false

/-- A bundle has issued: the cycle advances; an iteration boundary is where the end test of the innermost loop wraps, which a taken BBR
does not pass (R43, R258). -/
def advanced (taken : Bool) (s s' : State) : State :=
  let x := (hearthOf s' s.th.hearth).thawed
  putHearth { s' with th := { s'.th with st := .running } } s.th.hearth { x with boundary := !taken && wrapped 32 s.th.r s'.th.r }

/-- The pipeline freezes before the bundle, which has no effect (R254). -/
def frozenBefore (code : Nat) (s s' : State) : State := freezeFor code (keepDown s s')

/-- The bundle's operations issue in one cycle (R251 to R256): slots 1 to 7, slot 0, then the scale port and the landings.
(Log entries 26: DEDUCED, safe; 27: DEDUCED, safe.) -/
def runBundle (ops : List Slot) (s : State) : Out :=
  match runResult drainCycle s with
  | (.error _, _) => .next s
  | (.ok _, s0) =>
    match trySlots (ops.zipIdx.map (fun x => (x.2, x.1)) |>.rotateLeft 1) s0 with
    | .error r => .fault r
    | .ok (s', es) =>
      match bundleTrap es, bundleFreeze es with
      | some (c, v), _ => .next (takeTrap c v (keepDown s s'))
      | none, some (0, code) =>
        -- BSYNC arrives once, though its bundle waits (R260)
        match runSlot (ops.headD (.plain (.nop 0))) s with
        | .next s1 => .next { s1 with benches := s'.benches, remotes := s'.remotes, nodes := s'.nodes }
        | _ => .next (frozenBefore code s s')
      | none, some (_, code) => .next (frozenBefore code s s')
      | none, none =>
        if es.isEmpty then
          match runResult (do portCycle; landCycle) s' with
          | (.ok _, s1) => .next (advanced (bundleTransfers s.th.r ops) s s1)
          | (.error (.freeze code), s1) => .next (frozenBefore code s s1)
          | (.error e, s1) => .next (settle (.error e) s1)
        else
          -- a watchpoint stops the sequencer before the bundle (R416)
          match unitOf s.th with
          | some u => .next (stopUnit u 3 { keepDown s s' with th := { s.th with passBreak := bundleStops s.th.passBreak es } })
          | none => .next s

/-- The trap value of ILLEGAL_BUNDLE (R143): the bundle's address, the reason, the slot. -/
def bundleValue (pc : Word) (e : BundleFault) : Word := natWord (addr pc / 32 * 32 + e.code.toNat * 8 + e.slot.toNat)

/-- A code fetch that waits: for a refresh window, or for memory or translation (R382). -/
def fetchFreeze (s : State) : Nat :=
  match (reach (agentOf s.th) s.th.r.pc.toNat 32 .fetch s).1 with
  | .ok ps => if refreshHolds s ps then 3 else 11
  | _ => 11

/-- The bundle at the PC issues. (Log entry 23: DEDUCED, safe.) -/
def issueBundle (s : State) : Out :=
  match runResult (fetchM s.th.r.pc.toNat 32) s with
  | (.ok w, s') =>
    match decodeBundle (BitVec.ofNat 256 w) with
    | .error e => .next (takeTrap .illegalBundle (bundleValue s.th.r.pc e) s')
    | .ok ops => mapOut (afterIssue (bundleTransfers s.th.r ops) 32 s) (runBundle ops s')
  | (.error (.trap c v), s') => .next (takeTrap c v s')
  | (.error (.absent pa), _) => .fault (.noMemory pa)
  | (.error (.nowhere va), _) => .fault (.noHearth va)
  | (.error _, s') => .next (frozenBefore (fetchFreeze s) s s')

/-- A cycle of the drain after BLEAVE: one that advances ends a freeze (R250, R382). -/
def leaveBundle (s : State) : Out :=
  match runResult leaveCycle s with
  | (.error (.freeze code), s') => .next (frozenBefore code s s')
  | (.ok _, s') => .next (if s'.th.forge then modHearth s.th.hearth Hearth.thawed s' else s')
  | (r, s') => .next (settle r s')

/-- The power manager's lowered rate may hold the cycle, but never two in a row (R19, R254, R382); which cycles it holds is open.
(Log entry 36: DESIGN CHOICE, safe.) -/
def powerHolds (x : Hearth) (s : State) : Bool × State :=
  if s.limit ∧ x.frozen ≠ some powerCode then ((Config.freeValue s.freeCount).getLsbD 0, { s with freeCount := s.freeCount + 1 })
  else (false, s)

/-- A cycle that the power manager holds, counted with the frozen cycles around it (R382). -/
def holdCycle (s : State) : State :=
  freezeFor powerCode (modHearth s.th.hearth (fun x => { x with frozenFor := x.frozenFor + 1 }) s)

/-- A cycle of the forge sequencer of the current thread; the watchdog comes before a pre-emption (R381).
(Log entry 36: DESIGN CHOICE, safe.) -/
def forgeCycle (s : State) : Out :=
  let h := s.th.hearth
  let x := hearthOf s h
  if overdue x then execFreezeWatchdog h s
  else if x.preempt && preemptible x then execForgePreempt h s
  else if x.forge.leaving then leaveBundle s
  else
    let (held, s) := powerHolds x s
    if held then .next (holdCycle s)
    else if x.forge.stuck.isSome then .next (freezeFor 11 s)
    else issueBundle s

/-! ### One issue of the current thread -/

/-- The current thread issues: what awaits its boundary comes first (R101, R114, R122, R210, R381, R415).
(Log entries 18: DEDUCED, safe; 25: DEDUCED, safe.) -/
def issue (s : State) : Out :=
  let s := { s with th := { s.th with st := .running } }
  if s.th.redirect.isSome ∧ !s.th.waited then .next (applyRedirect s)
  else match s.th.asyncTrap with
    | some (c, v) => .next (takeTrap c v { s with th := { s.th with asyncTrap := none } })
    | none =>
      if packetOverdue s s.th then execPacketWatchdog s.th.id s
      else match breakAmong s (breakPlaces s.th.r) with
        | some (a, n, act) => .next (breakAt a n act s)
        | none => if s.th.forge then forgeCycle s else issueWord s

end Sys2Proof.Machine
end

