-- ==== Sys2Proof/Machine/Due.lean ====
section
/-!
DEFINITION. What the part's devices may do by themselves in a cycle (R98, R269, R314, R375, R388 and others), the clock (R15, R41,
R210, R251, R382, R419, R432), and which thread issues next (R41, R376).
-/

namespace Sys2Proof.Machine

open Sys2Proof

/-! ### Events that may come now -/

/-- An event, where its condition holds. -/
def ifDue (c : Bool) (f : State → Out) : List (State → Out) := if c then [f] else []

/-- A reply, blocks that it waits for or that the cache gives up, overdue waits, and complete matrix groups of a thread; a write-back that
failed comes again once the thread is no longer trapped (R397). (Log entry 22: DEDUCED, safe.) -/
def threadDue (s : State) (t : Thread) : List (State → Out) :=
  if !t.live then []
  else
    ifDue (decide (t.st = .stalledMemory) && !stillWaits s t.id) (execMemoryReply t.id)
    ++ (if t.wanted = 0 then [] else (List.range 16).flatMap fun b => ifDue (hasBlock t.wanted b) (execRegisterBlockArrive t.id (BitVec.ofNat 4 b)))
    ++ (if t.resident = 0 ∨ blocksResident s t.hearth < 1024 then []
        else (List.range 16).flatMap fun b =>
          ifDue (hasBlock t.resident b) (execRegisterBlockWriteback t.id (BitVec.ofNat 4 b))
          ++ ifDue (hasBlock t.dirty b) (execBlockWritebackFail t.id (BitVec.ofNat 4 b)))
    ++ (match t.stuckBlock with
        | some b => ifDue (decide (t.st ≠ .trapped)) (execRegisterBlockWriteback t.id (BitVec.ofNat 4 b))
        | none => [])
    ++ ifDue (packetOverdue s t) (execPacketWatchdog t.id)
    ++ ifDue (orderStallDue s t) (execOrderStallTimeout t.id)
    ++ t.groups.flatMap fun g => ifDue (decide (g.left = 0)) (execMatrixGroupComplete t.id g.n)

/-- Reads and writes of a hearth's streams. -/
def streamDue (h : Nat) (x : Hearth) : List (State → Out) :=
  (List.range 8).flatMap fun k =>
    let q := BitVec.ofNat 3 k
    match x.forge.stream q with
    | none => []
    | some y =>
      ifDue (decide (y.kind = readKind ∧ y.position < y.total ∧ y.units.length < y.capacity)) (execStreamUnitArrive h q)
      ++ ifDue (!y.appends.isEmpty) (execStreamWritePerform h q)

/-- Seats, the forge seat, streams, banks, matrix jobs and shaped vector entries of a hearth. -/
def hearthDue (s : State) (h : Nat) : List (State → Out) :=
  let x := hearthOf s h
  ifDue (x.seat.isNone && !x.forgeQueue.isEmpty) (execForgeSeatGrant h)
  ++ (match x.seat with
      | none => []
      | some _ =>
        (match (seatThread s h).bind (findThread s) with
         | some t => ifDue (x.preempt && preemptible x && !overdue x && t.asyncTrap.isNone) (execForgePreempt h)
         | none => [])
        ++ ifDue (overdue x) (execFreezeWatchdog h) ++ streamDue h x)
  ++ (List.range 2).flatMap (fun b => ifDue (decide ((x.bank (BitVec.ofNat 1 b)).loading = some 0)) (execBankLoadComplete h (BitVec.ofNat 1 b)))
  ++ (if x.jobs.isEmpty then [] else [execMatrixJobComplete h, jobEvent oneStep h])
  ++ ifDue (quiesceVictim s h).isSome (execSeatPreempt h)
  ++ (if (seatChoice s h).isNone then []
      else if (freeCore s h).isSome then [execThreadSeat h] else ifDue (quiesceVictim s h).isNone (execSeatPreempt h))
  ++ (List.range 4).flatMap fun c =>
      ifDue ((coreOf s (4 * h + c)).vqueue.any fun e => e.group.isSome && e.shaped) (execVectorEntryComplete (4 * h + c))

/-- An engine operation goes on, to its completion or by one access (R94, R279); a grant of permits, whose number of rows is open.
(Log entries 77: DEDUCED, safe; 91: DESIGN CHOICE, safe.) -/
def opDue (o : EngineOp) : List (State → Out) :=
  match o.kind with
  | .group => []
  | .cpy => [execTongsOpComplete o.t o.n, tongsEvent oneStep o.t o.n]
  | .gath => [execTongsOpComplete o.t o.n, tongsEvent oneStep o.t o.n]
  | .scat => [execTongsOpComplete o.t o.n, tongsEvent oneStep o.t o.n]
  | .xfer => [execTongsOpComplete o.t o.n, tongsEvent oneStep o.t o.n]
  | .send => [execTongsOpComplete o.t o.n, tongsEvent oneStep o.t o.n]
  | .dspcnt => [execDspcntComplete o.t o.n, dspcntEvent oneStep o.t o.n]
  | .dspgo =>
    ifDue o.request.isSome (fun s =>
      execDispatchPermitGrant o.t o.n (wfield (Config.freeValue s.freeCount) 0 16) { s with freeCount := s.freeCount + 1 })
    ++ [execDspgoComplete o.t o.n, dspgoEvent oneStep o.t o.n]
  | .dspcmb => [execDspcmbComplete o.t o.n, dspcmbEvent oneStep o.t o.n]
  | .gmm => [execGmmComplete o.t o.n, gmmEvent oneStep o.t o.n]
  | .wstream => [execBellowsTileDeliver o.t o.n, deliverEvent oneStep o.t o.n, execBellowsOpComplete o.t o.n, bellowsEvent oneStep o.t o.n]
  | .wpin => [execBellowsOpComplete o.t o.n]
  | .wunpin => [execBellowsOpComplete o.t o.n]
  | .wpol => [execBellowsOpComplete o.t o.n]
  | .launch => []

/-- The exchange phase of a launch: one deferred store, one access of a transfer list, or all that is left (R40, R102).
(Log entry 66: DEDUCED, safe.) -/
def exchangeDue (l : Launch) : List (State → Out) :=
  [execExchangePhase l.id]
  ++ (List.range l.deferred.length).map (fun k s => .next (exchangeOne l.id k s))
  ++ (List.range l.positions.length).flatMap fun k => ifDue ((l.positions[k]?).any fun p => decide (p.transfer ≠ 0)) (transferEvent oneStep l.id k)

/-- The course of a launch (R35, R36, R40, R314, R368). -/
def launchDue (l : Launch) : List (State → Out) :=
  match l.state with
  | .queued => [execLaunchAccept]
  | .waiting => [execLaunchAccept]
  | .running =>
    ifDue (!l.det && decide (l.tiles = 0 ∧ l.next < l.roots.2)) execLaunchAccept
    ++ ifDue (decide (l.tiles ≠ 0)) (execTileThreadStart l.id)
    ++ ifDue (l.det && !l.computing && decide (l.superstep < l.supersteps)) (execSuperstepStart l.id)
    ++ (if l.computing then
          (List.range l.positions.length).flatMap fun k => ifDue ((l.positions[k]?).any fun p => !p.ended) (execRoutineEntryStart l.id k)
        else [])
    ++ (if l.phaseOver then exchangeDue l else [])
    ++ ifDue (l.allStarted && decide (l.threads ≤ l.doneCount)) (execLaunchComplete l.id)
  | .complete => ifDue l.host.isSome (execHostLaunchCompletion l.id)

/-- Barrier messages and completions of a domain. -/
def domainDue (s : State) (i : Nat) (d : Domain) : List (State → Out) :=
  if d.arrivals.isEmpty then []
  else (List.range d.nodes.length).flatMap (fun k => ifDue (canSend s d k) (execBarrierArrivalMessage i k)) ++ ifDue (canComplete d) (execBarrierComplete i)

/-- Packets, stores, deposits, NREADs, channel units, miss messages, shootdowns and requests on their way. -/
def memoryDue (s : State) : List (State → Out) :=
  s.pending.zipIdx.map (fun (p, i) => if p.op.isUpdate then execUpdateLineMerge i else execStoreCompletion i)
  ++ s.packets.zipIdx.flatMap (fun (p, i) => match p.kind with
      | .plain => [execPacketDeliver i]
      | .trap t => [execTrapPacketDeliver t]
      | .miss _ _ => [])
  ++ (List.range s.deposits.length).map execDepositArrive
  ++ s.nreads.flatMap (fun q => if q.reply.isSome then [] else [execNreadReply q.reader, execNreadTimeout q.reader])
  ++ (List.range s.units.length).map execChannelUnitReceive
  ++ s.benches.flatMap (fun (b, x) => x.misses.flatMap fun m => ifDue (!m.sent) (execMissMessageSend b m.index))
  ++ s.shootdowns.map (fun d => execShootdownComplete d.issuer)
  ++ s.remotes.zipIdx.flatMap (fun (r, i) => ifDue (decide (fabricTimeout s ≤ (s.cyc - r.issued).toNat)) (execRemoteTimeout i))
  ++ s.nodes.flatMap (fun (n, x) => ifDue (decide (x.rate < 3200 ∧ 1024 ≤ (s.cyc - x.changedAt).toNat)) (execRateIncrease (BitVec.ofNat 11 n)))

/-- The hearths in which something may be due: those with state, those of threads, and those that serve a thread's pool (R374, R375). -/
def busyHearths (s : State) : List Nat :=
  (s.hearths.map (·.1) ++ (threads s).filterMap (fun t => if t.live then t.onHearth else none)
    ++ (threads s).flatMap fun t => if seatable s t then (List.range 192).filter fun h => serves s h t else []).eraseDups

/-- Everything that the part may do by itself in this cycle. (Log entry 11: DEDUCED, safe.) -/
def due (s : State) : List (State → Out) :=
  (threads s).flatMap (threadDue s) ++ (busyHearths s).flatMap (hearthDue s) ++ memoryDue s ++ s.ops.flatMap opDue
    ++ s.launches.flatMap launchDue ++ s.domains.zipIdx.flatMap (fun (d, i) => domainDue s i d)
    ++ ifDue (decide (s.capNow ≠ clampCap s.cap)) execPowerCapTakesEffect

/-! ### The clock -/

/-- One cycle of a thread's counters: its wait for a seat, with the priority it gives (R41, R375), and its open packet while it is seated
(R210). -/
def Thread.tick (t : Thread) : Thread :=
  match t.st, t.packet, t.place with
  | .ready, _, _ => { t with readyFor := t.readyFor + 1 }.aged
  | _, some p, .strand _ => { t with packet := some { p with seatedCycles := p.seatedCycles + 1 } }
  | _, _, _ => t

/-- One cycle of a hearth's counters: loads of its banks (R271), a freeze (R382). -/
def Hearth.tick (x : Hearth) : Hearth := countFrozen { x with banks := x.banks.map Bank.tick }

/-- CYC counts from the start of the reset sequence on, unless a count is withheld (R15). (Log entry 10: DESIGN CHOICE, unsafe.) -/
def countCycle (s : State) : State :=
  if s.boot.state = .held then s
  else if s.withhold then { s with withhold := false }
  else { s with cyc := s.cyc + 1 }

/-- Every debug unit that has a module in the state. -/
def debugUnits (s : State) : List DebugUnit := s.cores.map (fun c => .core c.1) ++ s.hearths.map fun h => .sequencer h.1

/-- A state that a total event leaves. -/
def afterEvent (o : Out) (s : State) : State :=
  match o with
  | .next s' => s'
  | _ => s

/-- What devices write by the clock: timestamps of units that trace (R419), the fabric state table (R432). -/
def periodic (s : State) : State :=
  let s := (debugUnits s).foldl (fun s u =>
    let m := moduleOf s u
    let n := wfield m.tracectl 54 6
    if (traceRoom m).isSome ∧ 10 ≤ n ∧ n ≤ 40 ∧ s.cyc.toNat % 2 ^ n = 0 then afterEvent (execTraceTimestamp u s) s else s) s
  if s.mgmt.fst.getLsbD 63 ∧ s.cyc.toNat % 4096 = 0 then afterEvent (execFabricStateUpdate s) s else s

/-- What every cycle brings by itself: lane groups (R379), probes of NREADs (R215), ends of killed threads (R363), the fabric's source
side (R424 to R429), host queues (R366, R435), requests to pre-empt (R380), the memory of checkers (R404) and a cap that has
waited its time (R450). -/
def perCycle (s : State) : State :=
  settleCap (mirrorCheckers (notePreempt (staleQueues (watchQueues (fabricCycle (finishKills (probeReads (vectorCycle s))))))))

/-- The end of a cycle. (Log entry 10: DESIGN CHOICE, unsafe.) -/
def tick (s : State) : State :=
  let s := mapThreads Thread.tick (perCycle s)
  periodic (countCycle (releaseHalts { s with hearths := s.hearths.map fun (h : Nat × Hearth) => (h.1, Hearth.tick h.2) }))

/-! ### Blocks that change (R27, R397) -/

/-- A thread after a cycle, against what it was before: a resident block whose words changed is dirty, and a block that changed while
it was not resident is owed to its frame. (Log entry 21: DEDUCED, unsafe.) -/
def Thread.noteBlocks (t t' : Thread) : Thread :=
  let changed := (List.range 16).filter fun b => decide (blockWords t b ≠ blockWords t' b)
  let both (b : Nat) : Bool := hasBlock t.resident b && hasBlock t'.resident b
  let neither (b : Nat) : Bool := !hasBlock t.resident b && !hasBlock t'.resident b
  { t' with
    dirty := (changed.filter both).foldl setBlock t'.dirty
    owed := (changed.filter neither).foldl setBlock t'.owed }

/-- The blocks of every thread that has lived through the cycle. -/
def noteDirty (s s' : State) : State :=
  mapThreads (fun t' => match liveThread s t'.id with
    | some t => if t'.live then t.noteBlocks t' else t'
    | none => t') s'

/-! ### Traps and stops as trace records (R418) -/

/-- The record of each thread that has trapped. -/
def traceTraps (s s' : State) : State :=
  (threads s).foldl (fun s' t =>
    match unitOf t, findThread s' t.id with
    | some u, some t' =>
      if t.live ∧ t.st ≠ .trapped ∧ t'.st = .trapped then
        traceRecord u (traceWords 3 (addr t'.record.pc) (wfield t'.record.head 0 8) (addr t'.r.pc) s.cyc (some t.id)) s'
      else s'
    | _, _ => s') s'

/-- The record of each unit that has stopped, at the next word of the thread that issued there last.
(Log entry 131: DEDUCED, unsafe.) -/
def traceStops (s s' : State) : State :=
  (debugUnits s').foldl (fun s' u =>
    let m := moduleOf s' u
    if m.stopped && !(moduleOf s u).stopped then
      let pc := (m.last.bind (findThread s')).elim 0 fun t => addr t.r.pc
      traceRecord u (traceWords 6 pc 0 0 s.cyc m.last) s'
    else s') s'

/-! ### Which thread issues next (R41, R376) -/

/-- The thread can issue: it has a seat on a unit that runs, and does not wait. (Log entry 3: DESIGN CHOICE, safe.) -/
def canIssue (s : State) (t : Thread) : Bool :=
  decide ((t.st = .seated ∨ t.st = .running ∨ t.st = .frozen) ∧ t.place ≠ .off) && !unitStopped s t

/-- The threads of a core in the order of their turns: the one after the last issued comes first (R376).
(Log entry 12: DESIGN CHOICE, safe.) -/
def Core.turns (x : Core) (seated : List ThreadId) : List ThreadId :=
  let o := x.order ++ seated.filter fun t => !x.order.contains t
  match x.lastIssued with
  | some id => if o.contains id then o.rotateLeft ((o.takeWhile fun t => decide (t ≠ id)).length + 1) else o
  | none => o

/-- The thread whose turn it is on its unit: among those that can issue, of the highest effective priority, the first in the core's
order after the last one that issued (R376). -/
def mayIssue (s : State) (t : Thread) : Bool :=
  canIssue s t &&
    let rivals := (threads s).filter fun u => decide (u.place = t.place) && canIssue s u
    let top := rivals.filter fun u => rivals.all fun v => decide (v.effPrio ≤ u.effPrio)
    match t.place with
    | .strand c => decide (((coreOf s c).turns (rivals.map (·.id))).find? (fun id => top.any fun u => decide (u.id = id)) = some t.id)
    | _ => top.any fun u => decide (u.id = t.id)

/-- The thread has issued: its core's next turn comes after it, or after the one before it where it is no more. -/
def noteIssue (t : Thread) (s s' : State) : State :=
  match t.place with
  | .strand c => putCore s' c { coreOf s' c with lastIssued := if (liveThread s' t.id).isSome then some t.id else (coreOf s c).before t.id }
  | _ => s'

/-- A thread that is not selected (R373). (Log entries 12: DESIGN CHOICE, safe; 133: DEDUCED, safe.) -/
def Thread.unselected (t : Thread) : Thread :=
  match t.st, t.place with
  | .running, .forge _ => t
  | .running, _ => { t with st := .seated }
  | _, _ => t

/-- One of the other threads whose turn it is comes next; which unit is open, where there is more than one.
(Log entries 12: DESIGN CHOICE, safe; 133: DEDUCED, safe.) -/
def nextThread (s : State) : State :=
  let is := (List.range s.others.length).filter fun i => (s.others[i]?).any (mayIssue s)
  let (k, s) := if is.length ≤ 1 then (0, s) else ((Config.freeValue s.freeCount).toNat % is.length, { s with freeCount := s.freeCount + 1 })
  match is[k]? with
  | none => s
  | some i =>
    { s with
      th := s.others.getD i {}
      others := s.others.eraseIdx i ++ (if s.th.st = .unborn then [] else [s.th.unselected]) }

/-- After an issue another unit's turn comes; otherwise the same thread stays, if it may issue.
(Log entry 12: DESIGN CHOICE, safe.) -/
def handOver (issued : Bool) (s : State) : State := if !issued && mayIssue s s.th then s else nextThread s

/-! ### One cycle -/

/-- The rest of a cycle in which something has been done. -/
def finish (issued : Bool) (s : State) : Out → Out := mapOut fun s' =>
  handOver issued (noteDirty s (tick (traceStops s (traceTraps s (if issued then noteIssue s.th s s' else s')))))

/-- A cycle in which the current thread issues, if it can. (Log entry 10: DESIGN CHOICE, unsafe.) -/
def issueCycle (s : State) : Out := if canIssue s s.th then finish true s (issue s) else finish false s (.next s)

/-- A cycle of the running package: what comes from outside first; else an event of the part or an issue, whichever a free value
says; the issue where no event may come. (Log entries 9: DESIGN CHOICE, safe; 10: DESIGN CHOICE, unsafe; 11: DEDUCED, safe.) -/
def readyCycle (s : State) : Out :=
  match s.agenda with
  | i :: is => let s := { s with agenda := is }; finish false s (exec i s)
  | [] =>
    match due s with
    | [] => issueCycle s
    | es =>
      let k := (Config.freeValue s.freeCount).toNat % (es.length + 1)
      let s := { s with freeCount := s.freeCount + 1 }
      match es[k]? with
      | some e => finish false s (e s)
      | none => issueCycle s

/-- What reaches a package that is not ready: a reset, and the security controller (R445, R447, R448, R451).
(Log entry 9: DESIGN CHOICE, safe.) -/
def reachesUnready : Instr → Bool
  | .powerOnReset => true
  | .attestationRequest _ => true
  | .thermtrip _ => true
  | .thermalLimitEnter _ => true
  | .thermalLimitExit _ => true
  | _ => false

/-- A package that is not ready: it starts up, or stays in recovery until a reset (R445, R447).
(Log entries 4: DESIGN CHOICE, unsafe; 9: DESIGN CHOICE, safe; 132: DEDUCED, safe.) -/
def unreadyCycle (s : State) : Out :=
  match s.agenda with
  | i :: is => let s := { s with agenda := is }; mapOut countCycle (if reachesUnready i then exec i s else .next s)
  | [] => mapOut countCycle (if s.boot.state = .held ∧ !s.tripped then execPowerOnReset s else .next s)

end Sys2Proof.Machine
end

