-- ==== Sys2Proof/Machine/Step.lean ====
section
/-!
DEFINITION. One step of the machine: one cycle, in which one event takes place or one word or bundle issues.
-/

namespace Sys2Proof.Machine

open Sys2Proof

/-- One step. (Log entry 10: DESIGN CHOICE, unsafe.) -/
def step (s : State) : Host.Outcome State Fault Refusal := if s.boot.state = .ready then readyCycle s else unreadyCycle s

/-- The state with a strand word placed where the next step fetches: start-up is over, and the current thread runs on core 0 of
hearth 0 with its blocks resident, at the first word of the self window, which is that hearth's local memory (R78).
(Log entry 4: DESIGN CHOICE, unsafe.) -/
def State.withFetchWord (s : State) (nbits w : Nat) : State :=
  let t := { s.th with
    st := .running, place := .strand 0, hearth := 0, home := 0, forge := false, resident := 0xFFFF, dirty := 0xFFFF, wanted := 0, wait := .none
    redirect := none, asyncTrap := none, r := { s.th.r with pc := BitVec.ofNat 64 selfWindow, frame := {} } }
  { s with
    th := t
    boot := { s.boot with state := .ready }
    agenda := []
    mem := Mem.write s.mem localBase 4 (w % 2 ^ nbits) }

end Sys2Proof.Machine
end

