-- ==== Sys2Proof/Safety.lean ====
section
/-!
DEFINITION. The terms in which claims are made: what a word leaves when it completes, what an instruction leaves unchanged, which
instructions are words of a thread, and the invariant that every step keeps.
-/

namespace Sys2Proof.Machine

open Sys2Proof

/-! ### Completion and frames -/

/-- The state after a strand word that only changes registers and completes without a transfer (R170). -/
def State.completed (s : State) (r : Regs) : State := setRegs r.advance s

/-- Every byte of memory reads as before. -/
def sameMemory (s t : State) : Prop := ∀ a, Mem.get t.mem a = Mem.get s.mem a

/-- Every byte of memory outside [pa, pa + n) reads as before. -/
def sameMemoryBut (pa n : Nat) (s t : State) : Prop := ∀ a, a < pa ∨ pa + n ≤ a → Mem.get t.mem a = Mem.get s.mem a

/-- Nothing but the current thread's registers differs. -/
def onlyRegisters (s t : State) : Prop := t = setRegs t.th.r s

/-- The registers agree but for the PC and the loop stack, g register d, predicate p, and the sticky flags. -/
def sameRegsBut (d : Option Reg) (p : Option PReg) (r r' : Regs) : Prop :=
  (∀ n, d ≠ some n → r'.rg n = r.rg n) ∧ (∀ n, p ≠ some n → r'.rp n = r.rp n) ∧ r'.v = r.v ∧ r'.m = r.m ∧ r'.sh = r.sh
    ∧ r'.frame = r.frame ∧ r'.rng = r.rng ∧ r'.rnd = r.rnd ∧ r'.ftz = r.ftz

/-! ### Accesses -/

/-- Delay accounting is off on the core that counts the thread's accesses (R421); while it is on, an access also writes the two
words of its accumulator (R420). -/
def delaysOff (s : State) : Prop := (coreOf s (accountCore s.th)).delaybase.getLsbD 63 = false

/-- Delay accounting is off on the core that counts another thread's transfers. -/
def accountsOff (s : State) (t : Thread) : Prop := (coreOf s (accountCore t)).delaybase.getLsbD 63 = false

/-- Nothing differs but the thread's registers, the lines that its open task has read, and the translation caches. -/
def onlyRead (s t : State) : Prop :=
  t = { s with
    th := { s.th with r := t.th.r, levels := t.th.levels }
    hearths := t.hearths
    benches := t.benches }

/-- Nothing differs but the thread's registers, the lines that its open task has read, memory, the stores on their way, the
translation caches, and the checkpoints of local memory. -/
def onlyMemory (s t : State) : Prop :=
  t = { s with
    th := { s.th with r := t.th.r, levels := t.th.levels }
    mem := t.mem
    pending := t.pending
    launches := t.launches
    hearths := t.hearths
    benches := t.benches }

/-- Every byte of an access lies in memory of this package. -/
def here (ps : List Spot) : Prop := ∀ p ∈ ps, p.node = none ∧ paExists p.pa = true

/-- The places of the bytes of an access of the current thread; none where a translation does not answer them. -/
def placesOf (s : State) (va n : Nat) (kind : AccessKind) : List Spot :=
  match (reach (agentOf s.th) va n kind s).1 with
  | .ok ps => ps
  | _ => []

/-- The state once an access of the current thread is translated: the translation caches may differ. -/
def translated (s : State) (va n : Nat) (kind : AccessKind) : State := (reach (agentOf s.th) va n kind s).2

/-- Every byte of an access of the current thread translates, to memory of this package. -/
def resolves (s : State) (va n : Nat) (kind : AccessKind) : Prop :=
  (reach (agentOf s.th) va n kind s).1 = .ok (placesOf s va n kind) ∧ here (placesOf s va n kind)

/-- Where the first byte of an access lies. -/
def landing (s : State) (va n : Nat) (kind : AccessKind) : Nat := ((placesOf s va n kind).head?).elim 0 (·.pa)

/-- Every byte of an access lies in the local memory of the thread's own hearth. -/
def landsOwn (s : State) (va n : Nat) (kind : AccessKind) : Prop := ∀ p ∈ placesOf s va n kind, ownLocal (translated s va n kind).th p = true

/-- No byte of an access lies in the local memory of the thread's own hearth. -/
def landsAway (s : State) (va n : Nat) (kind : AccessKind) : Prop := ∀ p ∈ placesOf s va n kind, ownLocal (translated s va n kind).th p = false

/-- The state in which a load reads its bytes: translated, and with the updates of them merged (R97). -/
def fetched (s : State) (va n : Nat) : State := mergeReads ((placesOf s va n .load).map (·.pa)) (translated s va n .load)

/-- The bytes of a load as the thread sees them, as a number (R89, R108). -/
def loaded (s : State) (va n : Nat) : Nat := viewNat (fetched s va n) (fetched s va n).th (placesOf s va n .load)

/-- The state after an open task has marked the lines of a read (R119). -/
def marked (ps : List Spot) (s : State) : State :=
  if s.th.inTask then
    let ls := ps.filterMap fun p => if unshadowed p.pa p.node then none else some (p.va / 128)
    { s with th := { s.th with levels := s.th.levels.map fun l =>
        if l.task then { l with reads := l.reads ++ (ls.filter fun x => !l.reads.contains x).eraseDups } else l } }
  else s

/-- The state after a load. -/
def afterLoad (s : State) (va n : Nat) : State := marked (placesOf s va n .load) (fetched s va n)

/-- The n words that a load of the thread reads at an address. -/
def wordsAt (s : State) (va n : Nat) : List Word :=
  (List.range n).map fun k => BitVec.ofNat 64 (loaded s va (8 * n) / 2 ^ (64 * k) % 2 ^ 64)

/-- What a load of n bytes at va meets: nothing that watches it, no queued store of the thread over it, a translation of every byte
to memory of this package outside a refresh window, and no poison. -/
structure Readable (s : State) (va n : Nat) : Prop where
  unwatched : watchHit (debugOf s s.th) s.th.id.asid true false va n s.th.passBreak = none
  unqueued : queueOverlaps s.th va n = false
  reached : resolves s va n .load
  open_ : refreshHolds (translated s va n .load) (placesOf s va n .load) = false
  clean : (placesOf s va n .load).any (poisonAt (fetched s va n) (fetched s va n).th) = false
  quiet : delaysOff s

/-- What a store of n bytes at va meets: nothing that watches it, no queued store to its page, a translation of every byte, in one
page of this package that the thread may write and that no open level covers. -/
structure Writable (s : State) (va n : Nat) : Prop where
  unwatched : watchHit (debugOf s s.th) s.th.id.asid false true va n s.th.passBreak = none
  unqueued : s.th.queue.any (sharePage va n) = false
  onePage : va % 4096 + n ≤ 4096
  reached : resolves s va n .store
  writable : ∀ q ∈ placesOf s va n .store, readOnly (translated s va n .store) s.th.id.asid q.va q.pa = false
  uncovered : ∀ q ∈ placesOf s va n .store, covered (translated s va n .store) s.th q = false
  quiet : delaysOff s

/-- What an atomic on n bytes at va meets, outside a compute phase. -/
structure Lockable (s : State) (va n : Nat) : Prop where
  unwatched : watchHit (debugOf s s.th) s.th.id.asid true true va n s.th.passBreak = none
  unqueued : queueOverlaps s.th va n = false
  free : computing s s.th = none
  reached : resolves s va n .atomic
  writable : ∀ q ∈ placesOf s va n .atomic, readOnly (translated s va n .atomic) s.th.id.asid q.va q.pa = false
  clean : (placesOf s va n .atomic).any (poisonAt (translated s va n .atomic) s.th) = false
  uncovered : ∀ q ∈ placesOf s va n .atomic, covered (translated s va n .atomic) s.th q = false
  quiet : delaysOff s

/-- The published memory that an atomic reads: its hearth's earlier stores are performed, and every update of its bytes is merged
(R94, R97). -/
def publishedFor (s : State) (va n : Nat) : State :=
  mergeReads ((placesOf s va n .atomic).map (·.pa)) (drainHearth s.th.view (translated s va n .atomic))

/-- The address and the bytes that a storing form of a thread names, computed as its meaning computes them; a release at another
scope than the thread's also performs the stores before it, and is not among them. -/
def storesTo (r : Regs) : Instr → Option (Nat × Nat)
  | .st _ _ b z o => some (effective (r.rg b) o (sizeBytes z), sizeBytes z)
  | .stx _ _ a b z => some (indexed (r.rg a) (r.rg b) (sizeBytes z), sizeBytes z)
  | .stv _ _ b o => some (effective (r.rg b) o 64, 64)
  | .stf _ _ b o => (groupOf (r.rg b)).map fun g => ((effective (r.rg b) o 64 + g.extent.1) % 2 ^ 56, g.extent.2.1)
  | .strl _ _ a c z => if c = 0 then some (addr (r.rg a), sizeBytes z) else none
  | _ => none

/-- Nothing that a release at system scope waits for is under way for the current thread (R91, R101, R213). -/
def settled (s : State) : Prop := awaitsRelease scopeSystem s s.th = false

/-- What a fetch of n bytes of code at va meets: a translation of every byte to memory of this package outside a refresh window, and
no poison (R167, R386). -/
structure Fetchable (s : State) (va n : Nat) : Prop where
  reached : resolves s va n .fetch
  open_ : refreshHolds (translated s va n .fetch) (placesOf s va n .fetch) = false
  clean : ((placesOf s va n .fetch).any fun p => poisoned (translated s va n .fetch) p.pa 1) = false

/-- The bytes of a fetch as the thread's hearth sees them, as a number. -/
def codeAt (s : State) (va n : Nat) : Nat :=
  bytesToNat ((placesOf s va n .fetch).map fun q => Mem.get (seen (translated s va n .fetch) s.th.view) q.pa)

/-- The n words from the k-th after a FRAME word can be fetched, and captured (R136, R173); the words; the state once they are
fetched. -/
def Capturable (pc : Word) : Nat → Nat → State → Prop
  | 0, _, _ => True
  | n + 1, k, s =>
    let va := (codeAdd pc (BitVec.ofNat 64 (4 * k))).toNat
    Fetchable s va 4 ∧ (∃ i, decodeWord (BitVec.ofNat 32 (codeAt s va 4)) = .ok i ∧ (captured 0 i).isSome = true)
      ∧ Capturable pc n (k + 1) (translated s va 4 .fetch)
def capturedWords (pc : Word) : Nat → Nat → State → List Instr
  | 0, _, _ => []
  | n + 1, k, s =>
    let va := (codeAdd pc (BitVec.ofNat 64 (4 * k))).toNat
    match decodeWord (BitVec.ofNat 32 (codeAt s va 4)) with
    | .ok i => i :: capturedWords pc n (k + 1) (translated s va 4 .fetch)
    | .error _ => []
def afterCapture (pc : Word) : Nat → Nat → State → State
  | 0, _, s => s
  | n + 1, k, s => afterCapture pc n (k + 1) (translated s (codeAdd pc (BitVec.ofNat 64 (4 * k))).toNat 4 .fetch)

/-- The pages of n frames from a first one resolve for a store that is allowed (R179); where they lie; the state once they are
translated. -/
def FramesOpen (asid : BitVec 10) : BitVec 44 → Nat → State → Prop
  | _, 0, _ => True
  | ctx, n + 1, s =>
    let va := frameVa ⟨asid, ctx⟩
    (reach (agentOf s.th) va 1 .store s).1 = .ok (placesOf s va 1 .store)
      ∧ (∀ p ∈ placesOf s va 1 .store, readOnly (translated s va 1 .store) asid p.va p.pa = false)
      ∧ FramesOpen asid (ctx + 1) n (translated s va 1 .store)
def framesAt (asid : BitVec 10) : BitVec 44 → Nat → State → List (ThreadId × List Spot)
  | _, 0, _ => []
  | ctx, n + 1, s =>
    let va := frameVa ⟨asid, ctx⟩
    (⟨asid, ctx⟩, placesOf s va 1 .store) :: framesAt asid (ctx + 1) n (translated s va 1 .store)
def afterFrames (asid : BitVec 10) : BitVec 44 → Nat → State → State
  | _, 0, s => s
  | ctx, n + 1, s => afterFrames asid (ctx + 1) n (translated s (frameVa ⟨asid, ctx⟩) 1 .store)

/-- The pages of a region resolve for reading, one after the other, outside refresh windows (R217). -/
def PagesRead (va stop : Nat) : Nat → State → Prop
  | 0, _ => True
  | n + 1, s =>
    stop ≤ va ∨ (resolves s va 1 .load ∧ refreshHolds (translated s va 1 .load) (placesOf s va 1 .load) = false
      ∧ PagesRead ((va / 4096 + 1) * 4096) stop n (translated s va 1 .load))

/-- Every block of a thread's frame page stands at its place from pa on, in this package, where context blocks may be written; the first
translation may move entries of the translation caches, a later one moves nothing. -/
def frameHere (t : Thread) (s : State) (pa : Nat) : Prop :=
  ∃ u, ∀ b < 16, let r : Reach := .ok (spotsFrom (frameVa t.id + 256 * b) (pa + 256 * b) none 256)
    placeBlock t b s = (r, u) ∧ placeBlock t b u = (r, u)

/-- The shape record that a pointer names, as a load of its 64 bytes reads it. -/
def recordAt (s : State) (p : Word) : Shape := ⟨addr p, wordsAt s (addr p) 8⟩

/-- The record that a shape register names, and the state after its load. -/
def shapeOf (s : State) (q : QReg) : Shape := recordAt s (s.th.r.rsh q)
def afterShape (s : State) (q : QReg) : State := fetched s (addr (s.th.r.rsh q)) 64

/-- A shaped operation finds a record through a shape register: readable, of an assigned format, valid and of memory (R235). -/
def ShapeRead (s : State) (q : QReg) : Prop :=
  addr (s.th.r.rsh q) % 64 = 0 ∧ Readable s (addr (s.th.r.rsh q)) 64 ∧ fmtAssigned (shapeOf s q).fmt = true ∧ (shapeOf s q).valid = true
    ∧ (shapeOf s q).chan = 0

/-- Where elements of a record stand: address and bytes each. -/
def Shape.elementPlaces (x : Shape) (is : List (List Nat)) : List (Nat × Nat) := is.map fun i => (x.address i, x.elemBytes)

/-- Loads, by address and length, can be made one after the other; what they give, and the state that they leave. -/
def Reads : List (Nat × Nat) → State → Prop
  | [], _ => True
  | (va, n) :: ps, s => Readable s va n ∧ Reads ps (fetched s va n)
def valuesOf : List (Nat × Nat) → State → List Nat
  | [], _ => []
  | (va, n) :: ps, s => loaded s va n :: valuesOf ps (fetched s va n)
def afterReads (ps : List (Nat × Nat)) (s : State) : State := ps.foldl (fun s p => fetched s p.1 p.2) s

/-- The bytes that such loads give. -/
def bytesOf (ps : List (Nat × Nat)) (s : State) : List Byte := (ps.zip (valuesOf ps s)).flatMap fun p => natToBytes p.1.2 p.2

/-- Loads of n bytes, cut where a page ends. -/
def pagePieces : Nat → Nat → Nat → List (Nat × Nat)
  | 0, _, _ => []
  | fuel + 1, va, n =>
    if n = 0 then []
    else
      let k := min n (4096 - va % 4096)
      (va, k) :: pagePieces fuel ((va + k) % 2 ^ 56) (n - k)

/-- Two records have the same rank and sizes (R237). -/
def sameSizes (x y : Shape) : Prop := x.rank = y.rank ∧ ∀ k < 4, x.size k = y.size k

/-- The index of the element that a shaped operation visits next (R238). -/
def nextElement (t : Thread) : Nat := if t.resume.getLsbD 63 then t.resume.toNat % 2 ^ 40 else 0

/-- The state with the resume word of an element set (R238). -/
def State.visiting (s : State) (k : Nat) : State := { s with th := { s.th with resume := BitVec.ofNat 64 (2 ^ 63 + k) } }

/-- The state in which an atomic form on n bytes at va reads them: translated, and with the updates of them merged (R97). -/
def lockedAt (s : State) (va n : Nat) : State := mergeReads ((placesOf s va n .atomic).map (·.pa)) (translated s va n .atomic)

/-- No byte of an atomic form's access is poisoned. -/
def cleanAt (s : State) (va n : Nat) : Prop := (placesOf s va n .atomic).any (poisonAt (lockedAt s va n) s.th) = false

/-- The words of a heap block in the thread's own local memory, in one page, that nothing watches and no queued store overlaps. -/
structure HeapAt (s : State) (va n : Nat) (kind : AccessKind) : Prop where
  unwatched : watchHit (debugOf s s.th) s.th.id.asid (decide (kind ≠ .store)) true va (8 * n) s.th.passBreak = none
  unqueued : queueOverlaps s.th va (8 * n) = false
  onePage : va % 4096 + 8 * n ≤ 4096
  reached : resolves s va (8 * n) kind
  own : landsOwn s va (8 * n) kind

/-! ### The exposed pipeline -/

/-- No result in flight lands in the same cycle at the same destination (R252); g0 is no destination. -/
def landsFree (s : State) (dst : ResultDst) (latency : Nat) : Prop :=
  dst = .g 0 ∨ ∀ e ∈ (hearthOf s s.th.hearth).inflight, collides dst latency e = false

/-- The state after a slot has put a result in flight (R251); a result for g0 is discarded. -/
def State.launched (s : State) (k : Nat) (dst : ResultDst) (v : StreamUnit) (latency : Nat) : State :=
  if dst = .g 0 then s
  else
    let x := hearthOf s s.th.hearth
    putHearth s s.th.hearth { x with inflight := x.inflight ++ [⟨k, dst, v, latency⟩] }

/-- The state with stream register q of the current thread's hearth replaced. -/
def State.restream (s : State) (q : QReg) (x : Stream) : State :=
  let y := hearthOf s s.th.hearth
  putHearth s s.th.hearth { y with forge := y.forge.setStream q (some x) }

/-- A stream that gives units of a kind, at whose head the unit u stands, with no fault (R253, R266). -/
def headUnit (s : State) (q : QReg) (unit : BitVec 2) (x : Stream) (u : StreamUnit) : Prop :=
  (hearthOf s s.th.hearth).forge.stream q = some x ∧ x.popsUnit unit = true ∧ x.held = false ∧ x.units.head? = some u
    ∧ (x.kind = readKind → x.used + 1 ≤ x.total) ∧ ∀ c va, u ≠ .faulty c va

/-- A stream that takes units of a kind, with room in its record for one more append (R255). -/
def takesMore (s : State) (q : QReg) (unit : BitVec 2) (x : Stream) : Prop :=
  (hearthOf s s.th.hearth).forge.stream q = some x ∧ x.takesUnit unit = true ∧ x.held = false ∧ x.used + 1 ≤ x.total

/-- A vector operand at issue: a v register, or the unit at the head of a stream, which is popped and converted (R253, R263, R266); the
operand and the state after it. -/
def operandOf (s : State) (q : BitVec 1) (a : Reg) : Option (Vec × State) :=
  if q = 0 then some (s.th.r.rv a, s)
  else match (hearthOf s s.th.hearth).forge.stream (qOf a) with
    | none => none
    | some x => match x.units with
      | [] => none
      | u :: us =>
        let t := s.restream (qOf a) { x with used := x.used + 1, units := us }
        if x.popsUnit vectorUnit = false ∨ x.held = true ∨ u.isFaulty = true then none
        else if x.kind = receiveKind then
          (if u.raw.length = 64 then some (BitVec.ofNat 512 (bytesToNat u.raw), t) else none)
        else if x.total < x.used + 1 then none
        else x.group.map fun g =>
          let z := g.lanes s.th.r.rounding (bytesToNat u.raw)
          (z.1, setRegs (t.th.r.raise z.2) t)

/-- A vector result has its place: no other result of its cycle there, or room for one more append (R252, R255). -/
def takesResult (s : State) (q : BitVec 1) (d : Reg) (latency : Nat) : Prop :=
  if q = 1 then ∃ x, takesMore s (qOf d) vectorUnit x else landsFree s (.v d) latency

/-- The state with a vector result in flight to its register or stream (R251, R263). -/
def State.resulted (s : State) (k : Nat) (q : BitVec 1) (d : Reg) (v : Vec) (latency : Nat) : State :=
  if q = 1 then
    (((hearthOf s s.th.hearth).forge.stream (qOf d)).elim s fun x => s.restream (qOf d) { x with used := x.used + 1 }).launched k (.q (qOf d))
      (.vector v) latency
  else s.launched k (.v d) (.vector v) latency

/-- The rows that an AISS broadcasts: of the row buffer, or at the head of a stream (R273). -/
def rowsAt (s : State) (q : QReg) (rb : BitVec 1) (n : Nat) : Option (List Row) :=
  let f := (hearthOf s s.th.hearth).forge
  if rb = 1 then (if f.rowBuf.length < n then none else some (f.rowBuf.take n))
  else (f.stream q).bind fun x =>
    if x.popsUnit rowUnit = false ∨ x.held = true ∨ (x.kind = readKind ∧ x.total < x.used + n) ∨ x.units.length < n
      ∨ (x.units.take n).any StreamUnit.isFaulty = true then none
    else some ((x.units.take n).map fun u => match u with
      | .bytes fmt blk bs => rowOf fmt blk bs
      | _ => { fmt := 0, len := 0, blocks := [] })

/-- The loads of pw planes of a tile: each block's exponent and planes, cut where a page ends (R61, R271). -/
def tilePieces (k len pw va : Nat) : List (Nat × Nat) :=
  (List.range (256 * (256 / len))).flatMap fun b => pagePieces 2 ((va + b * blockBytes k len) % 2 ^ 56) (1 + pw * (len / 8))

/-- The tile that those loads' bytes give: the planes above the pw loaded ones are zero. -/
def tileBytes (k len pw : Nat) (bs : List Byte) : List Byte :=
  let n := 1 + pw * (len / 8)
  (List.range (256 * (256 / len))).flatMap fun b => (bs.drop (b * n)).take n ++ List.replicate (blockBytes k len - n) 0

/-- The state once a piece of a stream's unit is read. -/
def State.tookPiece (s : State) (q : QReg) (va n : Nat) : State :=
  let t := fetched s va n
  ((hearthOf t t.th.hearth).forge.stream q).elim t fun x => t.restream q { x with piece := x.piece + 1, got := x.got ++ natToBytes n (loaded s va n) }

/-- The pieces of a stream's unit can be read one after the other (R265, R269); their bytes, and the state that their loads leave. -/
def ReadsPieces (q : QReg) : List (Nat × Nat) → State → Prop
  | [], _ => True
  | (va, n) :: ps, s => Readable s va n ∧ ReadsPieces q ps (s.tookPiece q va n)
def piecesOf (q : QReg) : List (Nat × Nat) → State → List Byte
  | [], _ => []
  | (va, n) :: ps, s => natToBytes n (loaded s va n) ++ piecesOf q ps (s.tookPiece q va n)
def afterPieces (q : QReg) (ps : List (Nat × Nat)) (s : State) : State := ps.foldl (fun s p => s.tookPiece q p.1 p.2) s

/-- The bundle at the PC is passed, by the end test in bundles (R260). -/
def State.passed (s : State) : State := setRegs (endTest 32 (codeAdd s.th.r.pc 32) s.th.r) s

/-! ### Engines -/

/-- The current thread's stores are all performed, and it is in no compute phase (R101, R279). -/
def released (s : State) : Prop := settled s ∧ computing s s.th = none

/-- What the issue of an operation leaves: the number, the operation, memory as another state has it. -/
structure Issued (s s1 t : State) (o : EngineOp) : Prop where
  number : o.n = (s.th.timeline o.e).last + 1
  counted : (t.th.timeline o.e).last = o.n
  named : o.t = s.th.id
  listed : t.ops = s.ops ++ [o]
  memory : sameMemory s1 t

/-- The state in which an operation's effects begin: nothing is counted yet. -/
def State.begun (o : EngineOp) (s : State) : State :=
  modOp o.t o.e o.n (fun x => { x.begins none with progress := 0, aux := 0, rows := 0, flags := 0, prov := {} }) s

/-- An operation that nothing has been performed of. -/
def EngineOp.fresh (o : EngineOp) : Prop := o.phase = 0 ∧ o.log = [] ∧ o.hand = [] ∧ o.base = 0 ∧ o.failed = none ∧ o.replies = []

/-- Where the bytes of an engine's access stand, where the first of them does, and the state once it is translated. -/
def enginePlaces (s : State) (o : EngineOp) (va n : Nat) (kind : AccessKind) : List Spot :=
  match (reach o.agent va n kind s).1 with
  | .ok ps => ps
  | _ => []
def engineLanding (s : State) (o : EngineOp) (va n : Nat) (kind : AccessKind) : Nat := ((enginePlaces s o va n kind).head?).elim 0 (·.pa)
def engineMoved (s : State) (o : EngineOp) (va n : Nat) (kind : AccessKind) : State := (reach o.agent va n kind s).2

/-- The state in which an engine reads: translated, and with the updates of its bytes merged (R97); the bytes. -/
def engineFetched (s : State) (o : EngineOp) (va n : Nat) : State :=
  mergeReads ((enginePlaces s o va n .load).map (·.pa)) (engineMoved s o va n .load)
def engineBytes (s : State) (o : EngineOp) (va n : Nat) : List Byte :=
  (enginePlaces s o va n .load).map fun q => Mem.get (engineFetched s o va n).mem q.pa

/-- An engine's access lies in one page, which translates to memory of this package. -/
structure EngineReaches (s : State) (o : EngineOp) (va n : Nat) (kind : AccessKind) : Prop where
  onePage : 0 < n ∧ va % 4096 + n ≤ 4096 ∧ va < 2 ^ 56
  reached : (reach o.agent va n kind s).1 = .ok (enginePlaces s o va n kind)
  local_ : here (enginePlaces s o va n kind)

/-- An engine reads n bytes: outside a refresh window, and with no poison (R84, R279, R403). -/
structure EngineReads (s : State) (o : EngineOp) (va n : Nat) : Prop extends EngineReaches s o va n .load where
  open_ : refreshHolds (engineMoved s o va n .load) (enginePlaces s o va n .load) = false
  clean : ((enginePlaces s o va n .load).any fun q => poisoned (engineMoved s o va n .load) q.pa 1) = false

/-- An engine writes n bytes: where it may write (R80, R279). -/
structure EngineWrites (s : State) (o : EngineOp) (m : WriteMode) (va n : Nat) : Prop extends EngineReaches s o va n .store where
  writable : m.ingot = true ∨ ∀ q ∈ enginePlaces s o va n .store, readOnly (engineMoved s o va n .store) o.t.asid q.va q.pa = false

/-- A transfer list can be read at an address: its header, then its entries, which keep the limits of R294; its words, and the state
that reading them leaves. -/
def listPieces (s : State) (va : Nat) : List (Nat × Nat) :=
  let n := 32 * ((wordsAt s va 4).getD 0 0).toNat
  pagePieces (n / 4096 + 2) ((va + 32) % 2 ^ 56) n
def listEntryWords (s : State) (va : Nat) : List Word := wordsOf (bytesOf (listPieces s va) (fetched s va 32))
def listWords (s : State) (va : Nat) : List Word := wordsAt s va 4 ++ listEntryWords s va
def afterList (s : State) (va : Nat) : State := afterReads (listPieces s va) (fetched s va 32)
structure ListAt (s : State) (va : Nat) : Prop where
  aligned : va % 32 = 0
  header : Readable s va 32
  count : 1 ≤ ((wordsAt s va 4).getD 0 0).toNat ∧ ((wordsAt s va 4).getD 0 0).toNat ≤ 65535 ∧ (wordsAt s va 4).getD 3 0 = 0
  entries : Reads (listPieces s va) (fetched s va 32)
  checked : (entriesOf ((wordsAt s va 4).getD 0 0).toNat (listEntryWords s va)).any badEntryWords = false

/-! ### Forms -/

/-- Strand words: the constructors before those of the slots. -/
def strandWord (i : Instr) : Bool := decide (i.ctorIdx < (Instr.bbr ⟨0, 0⟩ 0).ctorIdx)

/-- The slot that an operation stands in (R140); NOP stands in every slot. -/
def inSlot (k : BitVec 3) : Slot → Bool
  | .plain (.nop n) => decide (k = n)
  | .plain (.bbr _ _) | .plain (.bloop _ _ _) | .plain (.bleave _) | .plain (.bwaittl _ _ _) | .plain (.bsync _ _ _ _) => decide (k = 0)
  | .plain (.sadd _ _ _ _ _ _) | .plain (.ssub _ _ _ _ _ _) | .plain (.smul _ _ _ _ _ _) | .plain (.sand _ _ _ _ _ _)
  | .plain (.sor _ _ _ _ _ _) | .plain (.sxor _ _ _ _ _ _) | .plain (.sshl _ _ _ _ _ _) | .plain (.sshr _ _ _ _ _ _)
  | .plain (.sli _ _ _) | .plain (.scmp _ _ _ _ _ _) | .plain (.smovqPop _ _ _) | .plain (.smovqAppend _ _ _) => decide (k = 1)
  | .plain (.bvadd _ sl _ _ _ _ _ _ _) | .plain (.bvmul _ sl _ _ _ _ _ _ _) | .plain (.bvfma _ sl _ _ _ _ _ _)
  | .plain (.bvmax _ sl _ _ _ _ _ _ _) | .plain (.bvcvt _ sl _ _ _ _ _ _) | .plain (.bvqnt _ sl _ _ _ _ _ _)
  | .plain (.bvcmp _ sl _ _ _ _ _ _) | .plain (.bvmov _ sl _ _ _ _) | .plain (.bvsel _ sl _ _ _ _) => decide (k = 2 + sl.setWidth 3)
  | .plain _ => false
  | .engine (.awld ..) | .engine (.aswapSlot ..) | .engine (.aiss ..) | .engine (.azero ..) | .engine (.ashout ..)
  | .engine (.aprov ..) => decide (k = 4)
  | .engine (.tcopy ..) | .engine (.tgath ..) | .engine (.tscat ..) | .engine (.txfer ..) | .engine (.tsend ..) => decide (k = 5)
  | .engine (.xperm ..) | .engine (.xbcast ..) | .engine (.xrot ..) => decide (k = 6)
  | .engine (.qbind ..) | .engine (.qadv ..) | .engine (.qwaitf ..) | .engine (.qwaite ..) | .engine (.scexp ..) => decide (k = 7)

/-! ### Words -/

/-- The g register that a word of majors 0x01 to 0x0E and 0x10 to 0x13 writes; none for the other words. -/
def gResult : Instr → Option Reg
  | .add _ d _ _ | .sub _ d _ _ | .mul _ d _ _ | .mulh _ d _ _ | .mulhz _ d _ _ | .div _ d _ _ | .divz _ d _ _ | .rem _ d _ _
  | .remz _ d _ _ | .and _ d _ _ | .or _ d _ _ | .xor _ d _ _ | .andn _ d _ _ | .shl _ d _ _ | .shr _ d _ _ | .sha _ d _ _
  | .rol _ d _ _ | .min _ d _ _ | .max _ d _ _ | .minz _ d _ _ | .maxz _ d _ _ | .sel _ d _ _ | .padd _ d _ _ => some d
  | .clz _ d _ | .ctz _ d _ | .popc _ d _ | .bswap _ d _ | .pgetf _ d _ | .pgetb _ d _ | .pstrip _ d _ => some d
  | .sext _ d _ _ | .zext _ d _ _ | .addi _ d _ _ | .andi _ d _ _ | .ori _ d _ _ | .xori _ d _ _ | .paddi _ d _ _
  | .shli _ d _ _ | .shri _ d _ _ | .shai _ d _ _ => some d
  | .li _ d _ | .lih _ d _ => some d
  | .bfx _ d _ _ _ | .bfi _ d _ _ _ | .ptag _ d _ _ _ => some d
  | _ => none

/-- The predicate that a compare or predicate word writes. -/
def pResult : Instr → Option PReg
  | .cmp _ d _ _ _ => some d
  | .cmpi _ d _ _ _ => some d
  | .pand _ d _ _ | .por _ d _ _ | .pxor _ d _ _ | .pandn _ d _ _ => some d
  | .pnot _ d _ => some d
  | .pset _ d | .pclr _ d => some d
  | _ => none

/-- Words of majors 0x01 to 0x13. -/
def computes (i : Instr) : Bool := (gResult i).isSome || (pResult i).isSome

/-- What a vector word writes: g, v and mask registers; none for the other words. -/
def vectorResults : Instr → Option (List (Reg ⊕ Reg ⊕ QReg))
  | .vadd _ d _ _ _ | .vsub _ d _ _ _ | .vmul _ d _ _ _ | .vfma _ d _ _ _ | .vfms _ d _ _ _ | .vmin _ d _ _ _ | .vmax _ d _ _ _
  | .vdiv _ d _ _ _ | .viadd _ d _ _ _ | .visub _ d _ _ _ | .vimul _ d _ _ _ | .vand _ d _ _ _ | .vor _ d _ _ _ | .vxor _ d _ _ _
  | .vshl _ d _ _ _ | .vshr _ d _ _ _ | .vdqnt _ d _ _ _ | .vperm _ d _ _ _ | .vins _ d _ _ _ | .vslide _ d _ _ _ => some [.inr (.inl d)]
  | .vabs _ d _ _ | .vneg _ d _ _ | .vsqrt _ d _ _ | .vrcp _ d _ _ | .vrsq _ d _ _ | .vexp _ d _ _ | .vlog2 _ d _ _
  | .vsig _ d _ _ | .vbcast _ d _ _ => some [.inr (.inl d)]
  | .vselm _ d _ _ _ => some [.inr (.inl d)]
  | .vcvt _ d _ _ _ _ => some [.inr (.inl d)]
  | .vqnt _ d _ b _ => some [.inr (.inl d), .inl b]
  | .vcmp _ m _ _ _ _ => some [.inr (.inr m)]
  | .mand _ m _ _ | .mor _ m _ _ | .mxor _ m _ _ => some [.inr (.inr m)]
  | .mnot _ m _ => some [.inr (.inr m)]
  | .mpop _ d _ | .mfirst _ d _ => some [.inl d]
  | .vext _ d _ _ _ => some [.inl d]
  | .vredadd _ d _ _ _ | .vredmax _ d _ _ _ | .vredmin _ d _ _ _ | .vredx _ d _ _ _ => some [.inl d]
  | _ => none

/-! ### The invariant -/

/-- Memory stands in its canonical form: addresses strictly rising, no listed byte zero. -/
def State.memoryForm (s : State) : Prop := Mem.wf s.mem = true

end Sys2Proof.Machine
end

