-- ==== Sys2Proof/Certificates/Slice0/Obligations.lean ====
section
/-!
DEFINITION. The statements for the provers.
-/

open Sys2Proof Sys2Proof.Machine


/-! ### Decoding, the step, reset and the invariant -/

/-- R124, R126, R128 to R132, R140, R141: words written out from the encoding tables decode to the instruction they stand for: one of
several formats of strand words, the illegal words 0 and of major 0x3F, and slot words of every kind.
The model's reading that it rests on is log entry 52. -/
def Obligations.DecodeSpecWords : Prop :=
  decodeWord 0b000001_0_000_00011_00100_00101_0000000#32 = .ok (.add ⟨0, 0⟩ 3 4 5)
  ∧ decodeWord 0b000010_1_010_00001_00010_111111111111#32 = .ok (.addi ⟨1, 2⟩ 1 2 0xFFF)
  ∧ decodeWord 0b001110_0_000_00111_11110_101_100000001#32 = .ok (.cmpi ⟨0, 0⟩ 7 30 5 0x101)
  ∧ decodeWord 0b010100_0_001_1111111111111111111110#32 = .ok (.br ⟨0, 1⟩ 0x3FFFFE)
  ∧ decodeWord 0b010111_0_000_00101_00000_000000001000#32 = .ok (.loop ⟨0, 0⟩ 5 8)
  ∧ decodeWord 0b011001_0_000_00000_00110_00011_000_1111#32 = .ok (.frame ⟨0, 0⟩ 6 3 15)
  ∧ decodeWord 0b011011_0_000_01001_01010_10_0000000100#32 = .ok (.ld ⟨0, 0⟩ 9 10 2 4)
  ∧ decodeWord 0b100010_0_000_00001_00010_00011_010_11_00#32 = .ok (.ldx ⟨0, 0⟩ 1 2 3 3)
  ∧ decodeWord 0b100011_0_000_00001_00010_00011_01_00000#32 = .ok (.aadd ⟨0, 0⟩ 1 2 3 1)
  ∧ decodeWord 0b100100_0_000_00000_00010_00011_01010_01#32 = .ok (.cmax ⟨0, 0⟩ 2 3 10)
  ∧ decodeWord 0b101011_0_000_00001_00010_00011_0010_011#32 = .ok (.vfma ⟨0, 0⟩ 1 2 3 2)
  ∧ decodeWord 0b111001_0_000_00100_00000_000000010000#32 = .ok (.srd ⟨0, 0⟩ 4 0x010)
  ∧ decodeWord 0#32 = .error .unassigned ∧ (∀ x : BitVec 26, decodeWord (0b111111#6 ++ x) = .error .unassigned)
  ∧ decodeSlot 0 0b00001_0_0000_0000000000000000000011#32 = .ok (.plain (.bbr ⟨0, 0⟩ 3))
  ∧ decodeSlot 1 0b01010_0_0001_00011_00100_00101_0_000_010#32 = .ok (.plain (.scmp ⟨0, 1⟩ 3 4 5 0 2))
  ∧ decodeSlot 3 0b00010_0_0000_00001_00010_00011_10_00000#32 = .ok (.plain (.bvmul ⟨0, 0⟩ 1 1 2 3 2 0 0 0))
  ∧ decodeSlot 4 0b00100_1_1111_000000_0001000_0000010_00#32 = .ok (.engine (.azero ⟨1, 15⟩ 8 2))
  ∧ decodeSlot 5 0b00001_0_0000_00001_00010_00011_0000000#32 = .ok (.engine (.tcopy ⟨0, 0⟩ 1 2 3))
  ∧ decodeSlot 2 0b00111_0_0000_00001_00010_00011_00_00000#32 = .error .cluster

/-- R124 to R138: the decoder reads back the word of every well-formed strand word, with every operand. -/
def Obligations.DecodeEncodeWords : Prop :=
  ∀ i : Instr, strandWord i = true → wellFormed i = true → decodeWord (encode i) = .ok i

/-- R139 to R143: the decoder of a slot reads back every operation that stands in that slot, with every operand; whatever it reads
encodes to the word it was given. -/
def Obligations.DecodeEncodeSlots : Prop :=
  (∀ (k : BitVec 3) (x : Slot), inSlot k x = true → x.assigned = true → x.unusedZero = true → x.inCluster = true →
    decodeSlot k x.encode = .ok x)
  ∧ ∀ (k : BitVec 3) (w : BitVec 32) (x : Slot), decodeSlot k w = .ok x → x.encode = w ∧ inSlot k x = true

/-- A step takes the first event of the agenda; with an empty agenda and nothing due it is an issue; and an issue of a strand thread
is `exec` of the well-formed instruction that the four bytes at its PC decode to (R127, R373), followed by the trace and step records of
that issue and by the end of the cycle.
The model's readings that it rests on are log entries 9, 10, 11, 12, 19 and 21. -/
def Obligations.StepRunsWord : Prop :=
  ∀ (s : State), s.boot.state = .ready →
    (∀ i is, s.agenda = i :: is → step s = finish false { s with agenda := is } (exec i { s with agenda := is }))
    ∧ (s.agenda = [] → due s = [] → step s = issueCycle s)
    ∧ ∀ (i : Instr) (bs : List Byte) (w : Nat) (u s1 s2 : State),
        canIssue s s.th = true → u = { s with th := { s.th with st := .running } } → u.th.redirect = none → u.th.asyncTrap = none →
        packetOverdue u u.th = false → breakAmong u (breakPlaces u.th.r) = none → u.th.forge = false →
        fetchM u.th.r.pc.toNat 4 u = .ok w s1 → bs = natToBytes 4 w → decodeBytes bs = .ok (i, []) →
        (if s1.th.r.guard (guardOf (encode i)) then requireBlocks (namedBlocks i) s1 = .ok () s2 else s2 = s1) → frameStart s2.th.r i = none →
        wellFormed i = true ∧ wordBytes (encode i) = bs
          ∧ issueCycle s = finish true s (mapOut (afterIssue (transfers u.th.r i) 4 u) (exec i s2))

/-- R139, R143, R251: an issue of a forge thread that nothing holds is the eight operations that the 32 bytes at its PC decode to; a
bundle that does not decode traps with ILLEGAL_BUNDLE, its address and the reason and slot in the value.
The model's readings that it rests on are log entries 13, 23 and 26. -/
def Obligations.StepRunsBundle : Prop :=
  ∀ (s s1 : State) (w : Nat), s.th.r.pc.toNat % 32 = 0 → fetchM s.th.r.pc.toNat 32 s = .ok w s1 →
    (∀ ops, decodeBundle (BitVec.ofNat 256 w) = .ok ops →
      issueBundle s = mapOut (afterIssue (bundleTransfers s.th.r ops) 32 s) (runBundle ops s1)
      ∧ ops.length = 8 ∧ ∀ k < 8, ∃ x, ops[k]? = some x ∧ inSlot (BitVec.ofNat 3 k) x = true ∧ x.encode = (BitVec.ofNat 256 w).extractLsb' (32 * k) 32)
    ∧ ∀ c k, decodeBundle (BitVec.ofNat 256 w) = .error ⟨c, k⟩ →
      issueBundle s = .next (takeTrap .illegalBundle (BitVec.ofNat 64 (s.th.r.pc.toNat % 2 ^ 56 + 8 * c.toNat + k.toNat)) s1)

/-- R15, R354, R377, R378, R439, R445, R450: after reset the package is held, no thread exists, CYC and TLOCK are 0, and the registers
with a reset value hold it in every unit.
The model's readings that it rests on are log entries 2 and 3. -/
def Obligations.ResetState : Prop :=
  State.reset.boot.state = .held ∧ State.reset.th.st = .unborn ∧ State.reset.others = [] ∧ State.reset.memoryForm
  ∧ State.reset.cyc = 0 ∧ State.reset.tlock = false ∧ State.reset.cap = 0x960 ∧ State.reset.regiontbl = 0
  ∧ (∀ h, (hearthOf State.reset h).freezewd = 0x100000 ∧ (hearthOf State.reset h).nreadto = 256 ∧ (hearthOf State.reset h).vlgrp = 3
      ∧ (hearthOf State.reset h).forgespill = 0 ∧ (hearthOf State.reset h).mboxbind = 0)
  ∧ (∀ c, (coreOf State.reset c).vlshare = 0x8421 ∧ (coreOf State.reset c).delaybase = 0)
  ∧ (∀ a, (spaceOf State.reset a).trapvec = Vector.replicate 3 0 ∧ (spaceOf State.reset a).shpool = 0 ∧ (spaceOf State.reset a).exptbl = 0)
  ∧ State.reset.mgmt.fabEn = false ∧ State.reset.mgmt.fabtoLog = 24 ∧ State.reset.mgmt.rttTarget = 2000

/-- Every step keeps memory in its canonical form, from any state that has it (the model's invariant: a byte that no write has
reached reads as zero, R445).
The model's reading that it rests on is log entry 2. -/
def Obligations.MemoryFormKept : Prop :=
  ∀ s t : State, s.memoryForm → step s = .next t → t.memoryForm

/-- R125, R170: a strand word whose guard is false, read from bits [25:22] of its encoding, only completes: no register, flag, memory
or device changes, and it does not trap. -/
def Obligations.FalseGuard : Prop :=
  ∀ (i : Instr) (s : State), strandWord i = true → s.th.r.guard (guardOf (encode i)) = false → s.th.r.frame.n = 0 →
    exec i s = .next (s.completed s.th.r)

/-! ### Integer, immediate, compare, predicate and pointer words -/

/-- R158: ADD, SUB, MUL, MULH and MULHZ complete with the sum, the difference and the parts of the 128-bit products. -/
def Obligations.IntegerArithmetic : Prop :=
  ∀ (g : Guard) (d a b : Reg) (s : State), s.th.r.guard g = true →
    let x := s.th.r.rg a
    let y := s.th.r.rg b
    exec (.add g d a b) s = .next (s.completed (s.th.r.wg d (x + y)))
    ∧ exec (.sub g d a b) s = .next (s.completed (s.th.r.wg d (x - y)))
    ∧ exec (.mul g d a b) s = .next (s.completed (s.th.r.wg d (((x.setWidth 128) * (y.setWidth 128)).extractLsb' 0 64)))
    ∧ exec (.mulh g d a b) s = .next (s.completed (s.th.r.wg d (((x.signExtend 128) * (y.signExtend 128)).extractLsb' 64 64)))
    ∧ exec (.mulhz g d a b) s = .next (s.completed (s.th.r.wg d (((x.setWidth 128) * (y.setWidth 128)).extractLsb' 64 64)))

/-- R159: DIV, DIVZ, REM and REMZ truncate toward zero, the remainder takes the dividend's sign, and division by zero and the one
overflow give the values of the table. -/
def Obligations.Division : Prop :=
  ∀ (g : Guard) (d a b : Reg) (s : State), s.th.r.guard g = true →
    let x := s.th.r.rg a
    let y := s.th.r.rg b
    let ones : Word := 0xFFFFFFFFFFFFFFFF
    exec (.div g d a b) s = .next (s.completed (s.th.r.wg d (if y = 0 then ones else BitVec.ofInt 64 (Int.tdiv x.toInt y.toInt))))
    ∧ exec (.divz g d a b) s = .next (s.completed (s.th.r.wg d (if y = 0 then ones else BitVec.ofNat 64 (x.toNat / y.toNat))))
    ∧ exec (.rem g d a b) s = .next (s.completed (s.th.r.wg d (if y = 0 then x else BitVec.ofInt 64 (Int.tmod x.toInt y.toInt))))
    ∧ exec (.remz g d a b) s = .next (s.completed (s.th.r.wg d (if y = 0 then x else BitVec.ofNat 64 (x.toNat % y.toNat))))
    ∧ (x = BitVec.intMin 64 → y = -1 →
        exec (.div g d a b) s = .next (s.completed (s.th.r.wg d (BitVec.intMin 64)))
        ∧ exec (.rem g d a b) s = .next (s.completed (s.th.r.wg d 0)))

/-- R158, R160: the logical, shift, rotate, selecting, choosing, counting and extending words complete with the values of the table;
bits [63:6] of a shift amount take no part. -/
def Obligations.LogicShiftsAndCounts : Prop :=
  ∀ (g : Guard) (d a b : Reg) (s : State), s.th.r.guard g = true →
    let x := s.th.r.rg a
    let y := s.th.r.rg b
    let n := y.toNat % 64
    (∃ w, exec (.and g d a b) s = .next (s.completed (s.th.r.wg d w)) ∧ ∀ k < 64, w.getLsbD k = (x.getLsbD k && y.getLsbD k))
    ∧ (∃ w, exec (.or g d a b) s = .next (s.completed (s.th.r.wg d w)) ∧ ∀ k < 64, w.getLsbD k = (x.getLsbD k || y.getLsbD k))
    ∧ (∃ w, exec (.xor g d a b) s = .next (s.completed (s.th.r.wg d w)) ∧ ∀ k < 64, w.getLsbD k = xor (x.getLsbD k) (y.getLsbD k))
    ∧ (∃ w, exec (.andn g d a b) s = .next (s.completed (s.th.r.wg d w)) ∧ ∀ k < 64, w.getLsbD k = (x.getLsbD k && !y.getLsbD k))
    ∧ (∃ w, exec (.shl g d a b) s = .next (s.completed (s.th.r.wg d w)) ∧ ∀ k < 64, w.getLsbD k = (decide (n ≤ k) && x.getLsbD (k - n)))
    ∧ (∃ w, exec (.shr g d a b) s = .next (s.completed (s.th.r.wg d w)) ∧ ∀ k < 64, w.getLsbD k = x.getLsbD (k + n))
    ∧ (∃ w, exec (.sha g d a b) s = .next (s.completed (s.th.r.wg d w)) ∧
        ∀ k < 64, w.getLsbD k = if k + n < 64 then x.getLsbD (k + n) else x.getLsbD 63)
    ∧ (∃ w, exec (.rol g d a b) s = .next (s.completed (s.th.r.wg d w)) ∧ ∀ k < 64, w.getLsbD ((k + n) % 64) = x.getLsbD k)
    ∧ (∃ w, exec (.sel g d a b) s = .next (s.completed (s.th.r.wg d w)) ∧
        ∀ k < 64, w.getLsbD k = if (s.th.r.rg d).getLsbD k then x.getLsbD k else y.getLsbD k)
    ∧ (∃ w, exec (.bswap g d a) s = .next (s.completed (s.th.r.wg d w)) ∧ ∀ k < 8, w.extractLsb' (8 * k) 8 = x.extractLsb' (8 * (7 - k)) 8)
    ∧ exec (.min g d a b) s = .next (s.completed (s.th.r.wg d (if x.toInt ≤ y.toInt then x else y)))
    ∧ exec (.max g d a b) s = .next (s.completed (s.th.r.wg d (if x.toInt ≤ y.toInt then y else x)))
    ∧ exec (.minz g d a b) s = .next (s.completed (s.th.r.wg d (if x.toNat ≤ y.toNat then x else y)))
    ∧ exec (.maxz g d a b) s = .next (s.completed (s.th.r.wg d (if x.toNat ≤ y.toNat then y else x)))
    ∧ (∃ n, n ≤ 64 ∧ exec (.clz g d a) s = .next (s.completed (s.th.r.wg d (BitVec.ofNat 64 n))) ∧ x.toNat < 2 ^ (64 - n)
        ∧ (n < 64 → 2 ^ (63 - n) ≤ x.toNat))
    ∧ (∃ n, n ≤ 64 ∧ exec (.ctz g d a) s = .next (s.completed (s.th.r.wg d (BitVec.ofNat 64 n))) ∧ (∀ k < n, x.getLsbD k = false)
        ∧ (n < 64 → x.getLsbD n = true))
    ∧ exec (.popc g d a) s = .next (s.completed (s.th.r.wg d (BitVec.ofNat 64 ((List.range 64).filter fun k => x.getLsbD k).length)))
    ∧ exec (.sext g d a 0) s = .next (s.completed (s.th.r.wg d ((x.extractLsb' 0 8).signExtend 64)))
    ∧ exec (.sext g d a 1) s = .next (s.completed (s.th.r.wg d ((x.extractLsb' 0 16).signExtend 64)))
    ∧ exec (.sext g d a 2) s = .next (s.completed (s.th.r.wg d ((x.extractLsb' 0 32).signExtend 64)))
    ∧ exec (.zext g d a 0) s = .next (s.completed (s.th.r.wg d ((x.extractLsb' 0 8).setWidth 64)))
    ∧ exec (.zext g d a 1) s = .next (s.completed (s.th.r.wg d ((x.extractLsb' 0 16).setWidth 64)))
    ∧ exec (.zext g d a 2) s = .next (s.completed (s.th.r.wg d ((x.extractLsb' 0 32).setWidth 64)))

/-- R161, R164: the immediate words, LI and LIH, the bit-field words, and the words on fat pointers: the address moves modulo 2^56 and
the tag stays, or the tag is replaced, read or removed. -/
def Obligations.ImmediatesAndPointers : Prop :=
  ∀ (g : Guard) (d a b : Reg) (i : BitVec 12) (sh len pos : BitVec 6) (k : BitVec 17) (h : BitVec 16) (f : BitVec 5) (blk : BitVec 3) (s : State),
    s.th.r.guard g = true →
    let x := s.th.r.rg a
    let y := s.th.r.rg b
    let old := s.th.r.rg d
    let n := len.toNat + 1
    let imm : Word := i.signExtend 64
    exec (.addi g d a i) s = .next (s.completed (s.th.r.wg d (x + imm)))
    ∧ exec (.andi g d a i) s = .next (s.completed (s.th.r.wg d (x &&& imm)))
    ∧ exec (.ori g d a i) s = .next (s.completed (s.th.r.wg d (x ||| imm)))
    ∧ exec (.xori g d a i) s = .next (s.completed (s.th.r.wg d (x ^^^ imm)))
    ∧ exec (.shli g d a sh) s = .next (s.completed (s.th.r.wg d (x <<< sh.toNat)))
    ∧ exec (.shri g d a sh) s = .next (s.completed (s.th.r.wg d (x >>> sh.toNat)))
    ∧ exec (.shai g d a sh) s = .next (s.completed (s.th.r.wg d (x.sshiftRight sh.toNat)))
    ∧ exec (.li g d k) s = .next (s.completed (s.th.r.wg d (k.signExtend 64)))
    ∧ exec (.lih g d h) s = .next (s.completed (s.th.r.wg d (old.extractLsb' 0 48 ++ h)))
    ∧ (pos.toNat + n ≤ 64 →
        (∃ w, exec (.bfx g d a len pos) s = .next (s.completed (s.th.r.wg d w)) ∧
          ∀ j < 64, w.getLsbD j = (decide (j < n) && x.getLsbD (pos.toNat + j)))
        ∧ (∃ w, exec (.bfi g d a len pos) s = .next (s.completed (s.th.r.wg d w)) ∧
          ∀ j < 64, w.getLsbD j = if pos.toNat ≤ j ∧ j < pos.toNat + n then x.getLsbD (j - pos.toNat) else old.getLsbD j))
    ∧ exec (.padd g d a b) s = .next (s.completed (s.th.r.wg d (x.extractLsb' 56 8 ++ ((x + y).extractLsb' 0 56))))
    ∧ exec (.paddi g d a i) s = .next (s.completed (s.th.r.wg d (x.extractLsb' 56 8 ++ ((x + i.signExtend 64).extractLsb' 0 56))))
    ∧ exec (.ptag g d a f blk) s = .next (s.completed (s.th.r.wg d (f ++ blk ++ x.extractLsb' 0 56)))
    ∧ exec (.pgetf g d a) s = .next (s.completed (s.th.r.wg d ((x.extractLsb' 59 5).setWidth 64)))
    ∧ exec (.pgetb g d a) s = .next (s.completed (s.th.r.wg d ((x.extractLsb' 56 3).setWidth 64)))
    ∧ exec (.pstrip g d a) s = .next (s.completed (s.th.r.wg d ((x.extractLsb' 0 56).setWidth 64)))

/-- R162, R163: compares and predicate words complete with the condition or the logical value in P[d]; p0 stays 1 (R7). -/
def Obligations.ComparesAndPredicates : Prop :=
  ∀ (g : Guard) (d p q : PReg) (a b : Reg) (i : BitVec 9) (s : State), s.th.r.guard g = true →
    let x := s.th.r.rg a
    let y := s.th.r.rg b
    let z : Word := i.signExtend 64
    let u := s.th.r.rp p
    let v := s.th.r.rp q
    let after (c : Bool) : Out := .next (s.completed (s.th.r.wp d c))
    exec (.cmp g d a b 0) s = after (decide (x = y)) ∧ exec (.cmp g d a b 1) s = after (decide (x ≠ y))
    ∧ exec (.cmp g d a b 2) s = after (decide (x.toInt < y.toInt)) ∧ exec (.cmp g d a b 3) s = after (decide (x.toInt ≤ y.toInt))
    ∧ exec (.cmp g d a b 4) s = after (decide (x.toNat < y.toNat)) ∧ exec (.cmp g d a b 5) s = after (decide (x.toNat ≤ y.toNat))
    ∧ exec (.cmpi g d a 0 i) s = after (decide (x = z)) ∧ exec (.cmpi g d a 1 i) s = after (decide (x ≠ z))
    ∧ exec (.cmpi g d a 2 i) s = after (decide (x.toInt < z.toInt)) ∧ exec (.cmpi g d a 3 i) s = after (decide (x.toInt ≤ z.toInt))
    ∧ exec (.cmpi g d a 4 i) s = after (decide (x.toNat < z.toNat)) ∧ exec (.cmpi g d a 5 i) s = after (decide (x.toNat ≤ z.toNat))
    ∧ exec (.pand g d p q) s = after (u && v) ∧ exec (.por g d p q) s = after (u || v) ∧ exec (.pxor g d p q) s = after (u != v)
    ∧ exec (.pandn g d p q) s = after (u && !v) ∧ exec (.pnot g d p) s = after (!u)
    ∧ exec (.pset g d) s = after true ∧ exec (.pclr g d) s = after false
    ∧ (∀ c, ((s.th.r.wp d c).rp d = if d = 0 then true else c) ∧ ∀ n, n ≠ d → (s.th.r.wp d c).rp n = s.th.r.rp n)

/-- R157, R158, R161 to R164: what a word of majors 0x01 to 0x13 leaves unchanged: every register but its destination, the flags,
all of memory, and everything outside the thread's registers; g0 and p0 as destinations are discarded. -/
def Obligations.ComputeFrame : Prop :=
  ∀ (i : Instr) (s t : State), computes i = true → exec i s = .next t →
    sameRegsBut (gResult i) (pResult i) s.th.r t.th.r ∧ t.th.r.flags = s.th.r.flags ∧ t.th.r.rg 0 = 0 ∧ t.th.r.rp 0 = true
    ∧ onlyRegisters s t ∧ sameMemory s t

/-! ### Vector words -/

/-- R226, R233: the integer vector words complete with the wrapped result in every element, and an entry in the core's vector queue
(R29); VREDX adds the elements that its mask keeps, exactly. -/
def Obligations.VectorIntegers : Prop :=
  ∀ (g : Guard) (d a b : Reg) (q : QReg) (t : BitVec 4) (s : State), s.th.r.guard g = true → intType t = true →
    let w := typeBits t
    let x := lane w (s.th.r.rv a)
    let y := lane w (s.th.r.rv b)
    let num (n : Nat) : Int := if t.toNat < 9 ∧ 2 ^ (w - 1) ≤ n then (n : Int) - 2 ^ w else n
    let gives (i : Instr) (f : Nat → Int) : Prop :=
      ∃ v, exec i s = .next ((pushVector s).completed (s.th.r.wv d v)) ∧ ∀ k < 512 / w, (lane w v k : Int) = f k % 2 ^ w
    gives (.viadd g d a b t) (fun k => (x k : Int) + y k)
    ∧ gives (.visub g d a b t) (fun k => (x k : Int) - y k)
    ∧ gives (.vimul g d a b t) (fun k => (x k : Int) * y k)
    ∧ gives (.vand g d a b t) (fun k => ((x k &&& y k : Nat) : Int))
    ∧ gives (.vor g d a b t) (fun k => ((x k ||| y k : Nat) : Int))
    ∧ gives (.vxor g d a b t) (fun k => ((x k ^^^ y k : Nat) : Int))
    ∧ gives (.vshl g d a b t) (fun k => (x k : Int) * 2 ^ (y k % w))
    ∧ gives (.vshr g d a b t) (fun k => num (x k) / 2 ^ (y k % w))
    ∧ exec (.vredx g d a q t) s = .next ((pushVector s).completed (s.th.r.wg d
        (BitVec.ofInt 64 (((List.range (512 / w)).map fun k => if (s.th.r.rm q).getLsbD k then num (x k) else 0).sum))))

/-- R222 to R225: the float vector words complete with the operation of the format applied to every element, read with the
thread's flush bit and rounded in its mode, and OR the elements' flags into the sticky flags (R56).
The model's readings that it rests on are log entries 7, 55 and 144. -/
def Obligations.VectorFloats : Prop :=
  ∀ (g : Guard) (d a b : Reg) (t : BitVec 4) (s : State), s.th.r.guard g = true → t.toNat ≤ 2 →
    let f := typeFloat t
    let rd := s.th.r.rounding
    let raw (r : Reg) (k : Nat) : Nat := lane f.width (s.th.r.rv r) k
    let val (r : Reg) (k : Nat) : FVal := f.read s.th.r.ftz (raw r k)
    let gives (i : Instr) (h : Nat → Nat × BitVec 6) : Prop :=
      ∃ v, exec i s = .next ((pushVector s).completed ((s.th.r.wv d v).raise (orFlags ((List.range (512 / f.width)).map fun k => (h k).2))))
        ∧ ∀ k < 512 / f.width, lane f.width v k = (h k).1 % 2 ^ f.width
    gives (.vadd g d a b t) (fun k => f.add rd (val a k) (val b k))
    ∧ gives (.vsub g d a b t) (fun k => f.add rd (val a k) (val b k).negate)
    ∧ gives (.vmul g d a b t) (fun k => f.mul rd (val a k) (val b k))
    ∧ gives (.vfma g d a b t) (fun k => f.fma rd (val a k) (val b k) (val d k))
    ∧ gives (.vfms g d a b t) (fun k => f.fma rd (val a k) (val b k) (val d k).negate)
    ∧ gives (.vdiv g d a b t) (fun k => f.div rd (val a k) (val b k))
    ∧ gives (.vmin g d a b t) (fun k => f.pick s.th.r.ftz false (raw a k) (raw b k))
    ∧ gives (.vmax g d a b t) (fun k => f.pick s.th.r.ftz true (raw a k) (raw b k))
    ∧ gives (.vabs g d a t) (fun k => f.signOp (fun _ => false) (raw a k))
    ∧ gives (.vneg g d a t) (fun k => f.signOp (fun n => !n) (raw a k))
    ∧ gives (.vsqrt g d a t) (fun k => f.sqrt rd (val a k))
    ∧ gives (.vrcp g d a t) (fun k => f.rcp rd (val a k))
    ∧ gives (.vrsq g d a t) (fun k => f.rsq rd (val a k))
    ∧ gives (.vexp g d a t) (fun k => f.exp2 s.th.r.ftz (raw a k))
    ∧ gives (.vlog2 g d a t) (fun k => f.log2 s.th.r.ftz (raw a k))
    ∧ gives (.vsig g d a t) (fun k => f.sig s.th.r.ftz (raw a k))

/-- R221, R227, R228: compares give a mask with one bit for each element and zeros above; selection and logic on masks, the count
and the lowest set bit. -/
def Obligations.VectorMasks : Prop :=
  ∀ (g : Guard) (d a b : Reg) (m n p : QReg) (t : BitVec 4) (c : BitVec 3) (s : State), s.th.r.guard g = true →
    let w := typeBits t
    let x := s.th.r.rm n
    let y := s.th.r.rm p
    let after (r : Regs) : Out := .next ((pushVector s).completed r)
    (t.toNat ≤ 2 ∨ (intType t = true ∧ c.toNat ≤ 5) →
      ∃ k f, exec (.vcmp g m a b t c) s = after ((s.th.r.wm m k).raise f) ∧ (∀ i < 512 / w,
          k.getLsbD i = (laneCondition t c.toNat s.th.r.ftz (lane w (s.th.r.rv a) i) (lane w (s.th.r.rv b) i)).1)
        ∧ ∀ i, 512 / w ≤ i → k.getLsbD i = false)
    ∧ (t.toNat ≤ 12 → ∃ v, exec (.vselm g d a n t) s = after (s.th.r.wv d v) ∧ ∀ k < 512 / w,
        lane w v k = if x.getLsbD k then lane w (s.th.r.rv a) k else lane w (s.th.r.rv d) k)
    ∧ exec (.mand g m n p) s = after (s.th.r.wm m (x &&& y))
    ∧ exec (.mor g m n p) s = after (s.th.r.wm m (x ||| y))
    ∧ exec (.mxor g m n p) s = after (s.th.r.wm m (x ^^^ y))
    ∧ exec (.mnot g m n) s = after (s.th.r.wm m (~~~x))
    ∧ exec (.mpop g d n) s = after (s.th.r.wg d (BitVec.ofNat 64 ((List.range 64).filter fun k => x.getLsbD k).length))
    ∧ ∃ k, k ≤ 64 ∧ exec (.mfirst g d n) s = after (s.th.r.wg d (BitVec.ofNat 64 k)) ∧ (∀ j < k, x.getLsbD j = false)
        ∧ (k < 64 → x.getLsbD k = true)

/-- R229 to R231: conversions between formats, with the elements above the last converted one zero, and to and from the integers of a
nested block with its exponent.
The model's readings that it rests on are log entries 55 and 144. -/
def Obligations.VectorConversions : Prop :=
  ∀ (g : Guard) (d a b : Reg) (m : BitVec 3) (c : BitVec 2) (t : BitVec 4) (s : State), s.th.r.guard g = true →
    (∃ v f, exec (.vcvt g d a m c t) s = .next ((pushVector s).completed ((s.th.r.wv d v).raise f)) ∧
      let src := (vcvtFormats t).1
      let dst := (vcvtFormats t).2
      let n := 512 / max (fmtBits src) (fmtBits dst)
      let key := (spaceOf s s.th.id.asid).rngkey
      let ctr := (s.th.r.rv (BitVec.ofNat 5 (28 + c.toNat))).extractLsb' 0 128
      ∀ k < 512 / fmtBits dst, lane (fmtBits dst) v k = if k < n then
        (convert src dst ⟨m.toNat, s.th.r.ftz⟩ (if m = 4 then ((philox (ctr + BitVec.ofNat 128 k) key).extractLsb' 0 32).toNat else 0)
          (lane (fmtBits src) (s.th.r.rv a) k)).1 % 2 ^ fmtBits dst else 0)
    ∧ (let f := (quantSides t).1
       let K := (quantSides t).2
       let q := quantise K ((List.range (512 / f.width)).map fun k => f.decode (lane f.width (s.th.r.rv a) k))
       ∃ v, exec (.vqnt g d a b t) s = .next ((pushVector s).completed (((s.th.r.wv d v).wg b (BitVec.ofInt 64 q.1)).raise q.2.2)) ∧
         ∀ k < 512 / nestedBits K, lane (nestedBits K) v k = unsignedBits (nestedBits K) (q.2.1.getD k 0))
    ∧ (let f := (quantSides t).1
       let K := (quantSides t).2
       let E := ((s.th.r.rg b).extractLsb' 0 8).toInt
       ∃ v fl, exec (.vdqnt g d a b t) s = .next ((pushVector s).completed ((s.th.r.wv d v).raise fl)) ∧
         ∀ k < 512 / f.width, lane f.width v k =
           (f.roundInt s.th.r.rounding false
             (max (-(2 ^ (K - 1))) (min (2 ^ (K - 1) - 1) (signed (nestedBits K) (lane (nestedBits K) (s.th.r.rv a) k)))) E).1 % 2 ^ f.width)

/-- R232: elements moved, broadcast, read, replaced and slid; slid-in elements are zero. -/
def Obligations.VectorMoves : Prop :=
  ∀ (g : Guard) (d a b : Reg) (t : BitVec 4) (s : State), s.th.r.guard g = true → t.toNat ≤ 3 →
    let w := 8 * 2 ^ t.toNat
    let n := 512 / w
    let x := lane w (s.th.r.rv a)
    let gives (i : Instr) (f : Nat → Nat) : Prop :=
      ∃ v, exec i s = .next ((pushVector s).completed (s.th.r.wv d v)) ∧ ∀ k < n, lane w v k = f k
    gives (.vperm g d a b t) (fun k => x (lane w (s.th.r.rv b) k % n))
    ∧ gives (.vbcast g d a t) (fun _ => (s.th.r.rg a).toNat % 2 ^ w)
    ∧ gives (.vins g d a b t) (fun k => if k = (s.th.r.rg b).toNat % n then (s.th.r.rg a).toNat % 2 ^ w else lane w (s.th.r.rv d) k)
    ∧ gives (.vslide g d a b t) (fun k =>
        if 0 ≤ (k : Int) + (s.th.r.rg b).toInt ∧ (k : Int) + (s.th.r.rg b).toInt < n then x ((k : Int) + (s.th.r.rg b).toInt).toNat else 0)
    ∧ exec (.vext g d a b t) s = .next ((pushVector s).completed (s.th.r.wg d (BitVec.ofNat 64 (x ((s.th.r.rg b).toNat % n)))))

/-- R73, R233: a float reduction of 16 f32 elements combines neighbours at strides 1, 2, 4 and 8, an element that the mask excludes
counting as −0.0, −∞ or +∞.
The model's reading that it rests on is log entry 55. -/
def Obligations.VectorReductions : Prop :=
  ∀ (g : Guard) (d a : Reg) (q : QReg) (s : State), s.th.r.guard g = true →
    let rd := s.th.r.rounding
    let x (none : Nat) (k : Nat) : Nat :=
      if (s.th.r.rm q).getLsbD k then ((f32.read s.th.r.ftz (lane 32 (s.th.r.rv a) k)).toFloat f32 ⟨0, false⟩ 0).1 else none
    let fold (f : Nat → Nat → Nat) (x : Nat → Nat) : Nat :=
      let four (k : Nat) : Nat := f (f (x k) (x (k + 1))) (f (x (k + 2)) (x (k + 3)))
      f (f (four 0) (four 4)) (f (four 8) (four 12))
    let gives (i : Instr) (n : Nat) : Prop := ∃ fl, exec i s = .next ((pushVector s).completed ((s.th.r.wg d (BitVec.ofNat 64 n)).raise fl))
    gives (.vredadd g d a q 0) (fold (fun x y => (f32.add rd (f32.read rd.ftz x) (f32.read rd.ftz y)).1) (x 0x80000000))
    ∧ gives (.vredmax g d a q 0) (fold (fun x y => (f32.pick rd.ftz true x y).1) (x 0xFF800000))
    ∧ gives (.vredmin g d a q 0) (fold (fun x y => (f32.pick rd.ftz false x y).1) (x 0x7F800000))

/-- R244, and of R243 and R245: RNGX computes each lane quad by Philox4x32-10, makes no access, sets no flag and does not trap; a stream
draw counts its counters from the handle's base and G[a]; a stream load sets the handle's key and base. -/
def Obligations.RandomNumbers : Prop :=
  ∀ (g : Guard) (d a b : Reg) (h : BitVec 1) (s : State), s.th.r.guard g = true →
    (∃ v, exec (.rngx g d a b) s = .next (s.completed (s.th.r.wv d v)) ∧ ∀ q < 4,
      v.extractLsb' (128 * q) 128 = philox ((s.th.r.rv b).extractLsb' (128 * q) 128) (s.th.r.rg a))
    ∧ (∃ v, exec (.rngsDraw g d a h) s = .next (s.completed (s.th.r.wv d v)) ∧ ∀ q < 4,
      v.extractLsb' (128 * q) 128 =
        philox (BitVec.ofNat 128 ((s.th.r.handle h).base.toNat * 2 ^ 64 + (s.th.r.rg a).toNat + q)) (s.th.r.handle h).key)
    ∧ (∃ r, exec (.rngsLoad g d a h) s = .next (s.completed r) ∧ r.handle h = ⟨s.th.r.rg a, s.th.r.rg d⟩
      ∧ (∀ k, k ≠ h → r.handle k = s.th.r.handle k) ∧ r = { s.th.r with rng := r.rng })

/-- R7, R29, R219: what a vector word leaves unchanged: every g, v and mask register but its own destinations, the predicates, the
shape registers, all of memory, and everything but the thread's registers and its core's vector queue.
The model's reading that it rests on is log entry 53. -/
def Obligations.VectorFrame : Prop :=
  ∀ (i : Instr) (s t : State), (vectorResults i).isSome → exec i s = .next t →
    (∀ d ∈ vectorResults i, (∀ n, Sum.inl n ∉ d → t.th.r.rg n = s.th.r.rg n)
      ∧ (∀ n, Sum.inr (Sum.inl n) ∉ d → t.th.r.rv n = s.th.r.rv n) ∧ ∀ n, Sum.inr (Sum.inr n) ∉ d → t.th.r.rm n = s.th.r.rm n)
    ∧ t.th.r.p = s.th.r.p ∧ t.th.r.sh = s.th.r.sh ∧ t.th.r.frame = s.th.r.frame ∧ t.th.r.rng = s.th.r.rng ∧ t.th.r.rnd = s.th.r.rnd
    ∧ t.th.r.ftz = s.th.r.ftz ∧ t.th.r.flags &&& s.th.r.flags = s.th.r.flags
    ∧ sameMemory s t ∧ { t with th := { t.th with r := s.th.r }, cores := s.cores } = s

/-! ### Branches, loops and thread words -/

/-- R165, R166: branches and jumps go to their target, the link holding the next word's address; a jump to an address that is not
a multiple of 4 traps with MISALIGNED before any link.
The model's reading that it rests on is log entry 14. -/
def Obligations.Branches : Prop :=
  ∀ (g : Guard) (o : BitVec 22) (d a : Reg) (s : State), s.th.r.guard g = true →
    let pc := s.th.r.pc
    let target : Word := (pc + 4 * o.signExtend 64) &&& 0x00FFFFFFFFFFFFFF
    let w := s.th.r.rg a
    exec (.br g o) s = .next (setRegs (s.th.r.jump target) s)
    ∧ exec (.brl g o) s = .next (setRegs ((s.th.r.wg 31 (pc + 4)).jump target) s)
    ∧ (w.toNat % 4 = 0 →
        exec (.jr g a) s = .next (setRegs (s.th.r.jump (w &&& 0x00FFFFFFFFFFFFFF)) s)
        ∧ exec (.jrl g d a) s = .next (setRegs ((s.th.r.wg d (pc + 4)).jump (w &&& 0x00FFFFFFFFFFFFFF)) s))
    ∧ (w.toNat % 4 ≠ 0 → exec (.jr g a) s = .next (takeTrap .misaligned w s) ∧ exec (.jrl g d a) s = .next (takeTrap .misaligned w s))

/-- R170: the end test of the innermost open level: another iteration, the last one, or a word that does not end the body; a taken
transfer sets the PC, keeps every level whose body holds the target, closes the innermost ones that do not, and changes nothing else.
The model's reading that it rests on is log entry 14. -/
def Obligations.LoopLevels : Prop :=
  ∀ (r : Regs) (l : Loop) (t : Word),
    let next := codeAdd r.pc 4
    let inside (l : Loop) : Prop := l.startPc.toNat ≤ t.toNat ∧ t.toNat < (l.endPc 4).toNat
    (0 < r.depth → l = r.lx (r.depth - 1) →
    (next ≠ l.endPc 4 → r.advance = { r with pc := next })
    ∧ (next = l.endPc 4 → (l.index + 1).toNat < l.count.toNat →
        r.advance = { r.setLx (r.depth - 1) { l with index := l.index + 1 } with pc := l.startPc })
    ∧ (next = l.endPc 4 → l.count.toNat ≤ (l.index + 1).toNat → r.depth = 1 →
        r.advance = { r.setLx 0 { l with index := l.index + 1, valid := false } with pc := next }))
    ∧ (r.jump t).pc = t
    ∧ (∀ n, (r.jump t).rg n = r.rg n) ∧ (r.jump t).v = r.v ∧ (r.jump t).p = r.p ∧ (r.jump t).flags = r.flags
    ∧ (r.depth = 0 → r.jump t = { r with pc := t })
    ∧ (0 < r.depth → inside (r.lx (r.depth - 1)) → r.jump t = { r with pc := t })
    ∧ (r.depth = 1 → ¬ inside (r.lx 0) → r.jump t = { r.closeLx 0 with pc := t })

/-- R168, R171: LOOP opens a level over the body after it, or skips the body when the count is 0; LIDX and LCNT read a level, or all
ones where it is not open; LBRK leaves levels 0 to k at the end of level k.
The model's reading that it rests on is log entry 20. -/
def Obligations.HardwareLoops : Prop :=
  ∀ (g : Guard) (d : Reg) (l : BitVec 12) (k : BitVec 5) (s : State), s.th.r.guard g = true →
    let r := s.th.r
    let c := (r.rg d).toNat
    let start := codeAdd r.pc 4
    let stop := codeAdd start (BitVec.ofNat 64 (4 * l.toNat))
    (c = 0 → exec (.loop g d l) s = .next (setRegs (endTest 4 stop r) s))
    ∧ (c ≠ 0 → c ≤ 0x3FFFFFF → r.depth < 6 → (0 < r.depth → stop.toNat ≤ ((r.lx (r.depth - 1)).endPc 4).toNat) →
        exec (.loop g d l) s = .next (setRegs
          { r.setLx r.depth ⟨start.extractLsb' 2 54, true, 0, BitVec.ofNat 26 c, l⟩ with pc := start } s))
    ∧ (c ≠ 0 → c ≤ 0x3FFFFFF → r.depth = 6 → exec (.loop g d l) s = .next (takeTrap .illegalWord ((encode (.loop g d l)).setWidth 64) s))
    ∧ (0x3FFFFFF < c → exec (.loop g d l) s = .next (takeTrap .format (r.rg d) s))
    ∧ (k.toNat < r.depth →
        exec (.lidx g d k) s = .next (s.completed (r.wg d ((r.lx (r.depth - 1 - k.toNat)).index.setWidth 64)))
        ∧ exec (.lcnt g d k) s = .next (s.completed (r.wg d ((r.lx (r.depth - 1 - k.toNat)).count.setWidth 64)))
        ∧ exec (.lbrk g k) s = .next (setRegs (endTest 4 ((r.lx (r.depth - 1 - k.toNat)).endPc 4) (r.closeTop (k.toNat + 1))) s))
    ∧ (r.depth ≤ k.toNat →
        exec (.lidx g d k) s = .next (s.completed (r.wg d 0xFFFFFFFFFFFFFFFF))
        ∧ exec (.lcnt g d k) s = .next (s.completed (r.wg d 0xFFFFFFFFFFFFFFFF))
        ∧ exec (.lbrk g k) s = .next (takeTrap .illegalWord ((encode (.lbrk g k)).setWidth 64) s))

/-- R173 to R175: FRAME with a count of 0 passes its captured words. A FRAME in progress, and one that starts with a count from 1 to
0xFFFFFF, completes a replay where its words can be fetched and captured and all blocks are resident; a replay whose one captured word is
an ADD runs it with its staggered registers and goes on to the next replay. -/
def Obligations.FrameReplays : Prop :=
  ∀ (g : Guard) (a : Reg) (st : BitVec 5) (c : BitVec 4) (s : State) (gd : Guard) (d x y : Reg),
    let r := s.th.r
    let n := if r.frame.n = 0 then c.toNat + 1 else r.frame.n.toNat
    let count := (r.rg a).toNat
    Capturable r.pc n 1 s →
    (r.guard g = true → r.frame.n = 0 → r.depth = 0 → count = 0 → exec (.frame g a st c) s =
      .next (setRegs { r with frame := {}, pc := codeAdd r.pc (BitVec.ofNat 64 (4 * (n + 1))) } (afterCapture r.pc n 1 s)))
    ∧ (s.th.resident = 0xFFFF → (r.frame.n ≠ 0 ∨ (r.guard g = true ∧ r.depth = 0 ∧ 1 ≤ count ∧ count ≤ 0xFFFFFF)) →
        ∃ t, exec (.frame g a st c) s = .next t ∧ t.mem = s.mem)
    ∧ (s.th.resident = 0xFFFF → r.frame.n = 1 → capturedWords r.pc 1 1 s = [.add gd d x y] → r.frame.j.toNat + 1 < r.frame.count.toNat →
        ∃ t, exec (.frame g a st c) s = .next t ∧ t.th.r.pc = r.pc ∧ t.th.r.frame = { r.frame with j := r.frame.j + 1 }
          ∧ let k := r.frame.j.toNat * r.frame.stride.toNat
            ∀ m, t.th.r.rg m = if r.guard gd ∧ m = staggerReg k d ∧ m ≠ 0 then r.rg (staggerReg k x) + r.rg (staggerReg k y) else r.rg m)

/-- R177, R178, R182, R183: YIELD, SELF, PRIO and PARK.
The model's reading that it rests on is log entry 54. -/
def Obligations.ThreadWords : Prop :=
  ∀ (g : Guard) (d a : Reg) (sel : BitVec 8) (c : Nat) (s : State), s.th.r.guard g = true →
    let nb := (s.th.r.rg a).toNat
    let core := coreOf s (accountCore s.th)
    exec (.yield g) s = .next ((putCore s (accountCore s.th)
      { core with order := core.order.filter (fun t => decide (t ≠ s.th.id)) ++ [s.th.id] }).completed s.th.r)
    ∧ exec (.self g d 0) s = .next (s.completed (s.th.r.wg d (BitVec.ofNat 64 (s.th.id.ctx.toNat * 4096))))
    ∧ (s.th.place = .strand c → exec (.self g d 1) s = .next (s.completed (s.th.r.wg d (BitVec.ofNat 64 (c / 4))))
        ∧ exec (.self g d 2) s = .next (s.completed (s.th.r.wg d (BitVec.ofNat 64 c))))
    ∧ (sel.toNat = 3 → exec (.self g d sel) s = .next (s.completed (s.th.r.wg d (BitVec.ofNat 64 s.th.basePrio))))
    ∧ (63 < nb → exec (.prio g d a) s = .next (takeTrap .format (s.th.r.rg a) s))
    ∧ (nb ≤ 63 → exec (.prio g d a) s = .next { s with th := { s.th with
        r := (s.th.r.wg d (BitVec.ofNat 64 s.th.basePrio)).advance, basePrio := min nb s.th.launchPrio, effPrio := min nb s.th.launchPrio } })
    ∧ (s.th.wake = true → exec (.park g) s = .next { s with th := { s.th with r := s.th.r.advance, wake := false } })
    ∧ (s.th.wake = false → s.th.place = .strand c → exec (.park g) s = .next { s with th := { s.th with
        r := s.th.r.advance, st := .parked, wait := .park, parkedAt := s.cyc, place := .off } })

/-- R179 to R181, R183, R184: SPAWN, SPAWNN, WAKE, JOIN, EXIT and FORGE complete: once the thread's stores are performed and the frames
they name resolve, the new threads stand with their frames written; a done thread's exit value is read, another is waited for; an exit
value stands in the frame's first word of a thread that is done; a thread stands last in its hearth's forge queue.
The model's readings that it rests on are log entries 24, 45, 57, 86, 143, 152 and 153. -/
def Obligations.ThreadCreationAndEnd : Prop :=
  ∀ (g : Guard) (d a b : Reg) (s : State) (t : Thread) (pa : Nat), s.th.r.guard g = true →
    let quiet := drainHearth s.th.view s
    let frame (r : Reg) : ThreadId := ⟨s.th.id.asid, (s.th.r.rg r).extractLsb' 12 44⟩
    let entry := s.th.r.rg b
    let n := (s.th.r.rg d).toNat
    let forward (s : State) : State := setRegs s.th.r.advance s
    let created (n : Nat) (arg : Word) : State :=
      let s' := afterFrames s.th.id.asid (frame a).ctx n quiet
      forward ((framesAt s.th.id.asid (frame a).ctx n quiet).zipIdx.foldl (fun x p =>
        createThread (newThread p.1.1 s'.th entry (BitVec.ofNat 64 p.2) arg) s'.th.id p.1.2 x) s')
    let aligned := (s.th.r.rg a).toNat % 4096 = 0
    (settled s → aligned → entry.toNat % 4 = 0 → FramesOpen s.th.id.asid (frame a).ctx 1 quiet →
      exec (.spawn g d a b) s = .next (created 1 (s.th.r.rg d)))
    ∧ (n = 0 → entry.toNat % 4 = 0 → exec (.spawnn g d a b) s = .next (s.completed s.th.r))
    ∧ (settled s → aligned → entry.toNat % 4 = 0 → 0 < n → n ≤ 65536 → FramesOpen s.th.id.asid (frame a).ctx n quiet →
      exec (.spawnn g d a b) s = .next (created n (s.th.r.rg 2)))
    ∧ (settled s → aligned → exec (.wake g a) s = .next (forward (wakeThread (frame a) quiet)))
    ∧ (aligned → frame a ≠ s.th.id → findThread s (frame a) = some t →
        (t.st = .done → exec (.join g d a) s = .next (s.completed (s.th.r.wg d (t.r.g.get 0))))
        ∧ (t.st ≠ .done → t.joiner = none → exec (.join g d a) s = .next (
            let s := putThread s { t with joiner := some s.th.id.ctx }
            { s with th := { s.th with st := .parked, wait := .join (frame a), parkedAt := s.cyc, place := s.th.place.vacated } })))
    ∧ (settled s → s.th.st ≠ .unborn → s.th.packet = none → s.th.enginesIdle = true → s.th.jobsDone = true → frameHere s.th s pa →
        ∃ u x, exec (.exit g a) s = .next u ∧ findThread u s.th.id = some x ∧ x.st = .done ∧ x.place = .off ∧ (s.th.levels.length ≤ 8 → x.levels = [])
          ∧ x.r.g.get 0 = s.th.r.rg a ∧ Mem.read u.mem pa 8 = (s.th.r.rg a).toNat)
    ∧ (s.th.packet = none → s.th.r.depth = 0 → (∀ c ∈ s.cores, ∀ e ∈ c.2.vqueue, e.t ≠ s.th.id) → (hearthOf s s.th.hearth).forgeQueue.length < 64 →
        exec (.forge g) s = .next (
          let x := hearthOf s s.th.hearth
          let s := putHearth s s.th.hearth { x with forgeQueue := x.forgeQueue ++ [s.th.id] }
          { s with th := { s.th with st := .parked, wait := .forgeSeat, parkedAt := s.cyc, place := s.th.place.vacated } }))

/-! ### Memory words -/

/-- R97, R160, R185 to R190: loads complete with the bytes that the thread sees at their address, extended to 64 bits, as a vector, or as
the sixteen or more lanes of a format; registers other than the destination, memory and every device stay, but for the updates of the
bytes that wait, which are merged first. A misaligned address and a page that may not be read trap, the address in the value.
The model's readings that it rests on are log entries 41, 42, 138 and 139. -/
def Obligations.Loads : Prop :=
  ∀ (g : Guard) (d a b : Reg) (o : BitVec 10) (c : BitVec 3) (z : BitVec 2) (s : State) (gr : Group16),
    s.th.r.guard g = true →
    let r := s.th.r
    let n := 2 ^ z.toNat
    let base := (r.rg b + o.signExtend 64 * BitVec.ofNat 64 n).toNat % 2 ^ 56
    let line := (r.rg b + o.signExtend 64 * 64).toNat % 2 ^ 56
    let index := (r.rg a + r.rg b * BitVec.ofNat 64 n).toNat % 2 ^ 56
    let sext (x : Nat) : Word := BitVec.ofInt 64 (if x < 2 ^ (8 * n - 1) then (x : Int) else (x : Int) - 2 ^ (8 * n))
    let gives (i : Instr) (va n : Nat) (f : Nat → Regs) : Prop :=
      Readable s va n → ∃ t, exec i s = .next t ∧ t.th.r = (f (loaded s va n)).advance ∧ onlyRead (fetched s va n) t
        ∧ ((s.pending.any fun p => p.op.isUpdate) = false → onlyRead s t)
    let traps (i : Instr) (va n : Nat) : Prop :=
      (va % n ≠ 0 → exec i s = .next (takeTrap .misaligned (BitVec.ofNat 64 va) s))
      ∧ ∀ x, va % n = 0 → watchHit (debugOf s s.th) s.th.id.asid true false va n s.th.passBreak = none → queueOverlaps s.th va n = false →
        (reach (agentOf s.th) va n .load s).1 = .fault x → exec i s = .next (takeTrap x (BitVec.ofNat 64 va) (translated s va n .load))
    (base % n = 0 → gives (.ld g d b z o) base n (fun x => r.wg d (sext x)) ∧ gives (.ldz g d b z o) base n (fun x => r.wg d (BitVec.ofNat 64 x)))
    ∧ (index % n = 0 → gives (.ldx g d a b z) index n (fun x => r.wg d (sext x)) ∧ gives (.ldzx g d a b z) index n (fun x => r.wg d (BitVec.ofNat 64 x)))
    ∧ (addr (r.rg a) % n = 0 → gives (.lda g d a c z) (addr (r.rg a)) n (fun x => r.wg d (BitVec.ofNat 64 x)))
    ∧ (line % 64 = 0 → gives (.ldv g d b o) line 64 (fun x => r.wv d (BitVec.ofNat 512 x)))
    ∧ (groupOf (r.rg b) = some gr → line % gr.extent.2.2 = 0 →
        gives (.ldf g d b o) ((line + gr.extent.1) % 2 ^ 56) gr.extent.2.1 (fun x => (r.wv d (gr.lanes r.rounding x).1).raise (gr.lanes r.rounding x).2))
    ∧ (groupOf (r.rg b) = none → exec (.ldf g d b o) s = .next (takeTrap .format (r.rg b) s))
    ∧ traps (.ld g d b z o) base n ∧ traps (.ldz g d b z o) base n ∧ traps (.ldx g d a b z) index n ∧ traps (.ldzx g d a b z) index n
    ∧ traps (.lda g d a c z) (addr (r.rg a)) n ∧ traps (.ldv g d b o) line 64

/-- R87, R101, R186 to R190: stores complete; a store to the thread's own local memory stands in memory at once, and every byte outside
it stays; another store outside a compute phase waits among its hearth's stores, a wider one in its aligned 8-byte pieces, and memory
stays. STRL at a scope beyond the hearth's performs the hearth's stores first.
The model's readings that it rests on are log entries 16, 41, 42 and 139. -/
def Obligations.Stores : Prop :=
  ∀ (g : Guard) (d a b : Reg) (o : BitVec 10) (c : BitVec 3) (z : BitVec 2) (s : State) (gr : Group16),
    s.th.r.guard g = true →
    let r := s.th.r
    let n := 2 ^ z.toNat
    let base := (r.rg b + o.signExtend 64 * BitVec.ofNat 64 n).toNat % 2 ^ 56
    let line := (r.rg b + o.signExtend 64 * 64).toNat % 2 ^ 56
    let index := (r.rg a + r.rg b * BitVec.ofNat 64 n).toNat % 2 ^ 56
    let low := (r.rg d).toNat % 2 ^ (8 * n)
    let puts (i : Instr) (u : State) (va n x : Nat) (f : Regs) : Prop := Writable u va n →
      let pa := landing u va n .store
      (landsOwn u va n .store → ∃ t, exec i s = .next t ∧ t.th.r = f.advance ∧ Mem.read t.mem pa n = x ∧ sameMemoryBut pa n u t
        ∧ t.pending = u.pending ∧ onlyMemory s t)
      ∧ (landsAway u va n .store → computing s s.th = none → ∃ t, exec i s = .next t ∧ t.th.r = f.advance
        ∧ t.pending = u.pending ++ pieces s.th.view pa (.whole n x) ∧ t.mem = u.mem ∧ onlyMemory s t)
    let released := if 1 < c.toNat then drainHearth s.th.view s else s
    (base % n = 0 → puts (.st g d b z o) s base n low r)
    ∧ (index % n = 0 → puts (.stx g d a b z) s index n low r)
    ∧ (line % 64 = 0 → puts (.stv g d b o) s line 64 (r.rv d).toNat r)
    ∧ (groupOf (r.rg b) = some gr → line % gr.extent.2.2 = 0 →
        puts (.stf g d b o) s ((line + gr.extent.1) % 2 ^ 56) gr.extent.2.1 (gr.stored r.rounding (r.rv d)).1 (r.raise (gr.stored r.rounding (r.rv d)).2))
    ∧ (addr (r.rg a) % n = 0 → (c ≠ 0 → awaitsRelease c.toNat s s.th = false) →
        puts (.strl g d a c z) released (addr (r.rg a)) n low r)

/-- R187 to R190, R357: where a storing form stores: whatever it does, store, trap or wait, every byte of memory outside the bytes
that its address translates to reads as before, delay accounting (R420) and records of a full exchange buffer (R39) apart.
The model's readings that it rests on are log entries 41 and 140. -/
def Obligations.StoreFrame : Prop :=
  ∀ (i : Instr) (s t : State) (va n : Nat), storesTo s.th.r i = some (va, n) → delaysOff s →
    (∀ l, computing s s.th = some l → exchangeUsed l s.th.hearth + n ≤ 4096) → exec i s = .next t →
    ∀ a, (∀ ps s', reach (agentOf s.th) va n .store s = (.ok ps, s') → ∀ p ∈ ps, p.pa ≠ a) → Mem.get t.mem a = Mem.get s.mem a

/-- R94, R97, R192, R193: an atomic outside a compute phase reads the published value after its hearth's own stores and the updates of it,
writes the new value in its place, changes no other byte, and leaves the old value, zero-extended, in its destination.
The model's reading that it rests on is log entry 16. -/
def Obligations.Atomics : Prop :=
  ∀ (g : Guard) (d a b : Reg) (z : BitVec 2) (s : State), s.th.r.guard g = true →
    let r := s.th.r
    let va := addr (r.rg a)
    let swaps (i : Instr) (n : Nat) (f : Nat → Nat) : Prop := va % n = 0 → Lockable s va n →
      let m := (publishedFor s va n).mem
      let pa := landing s va n .atomic
      ∃ t, exec i s = .next t ∧ onlyMemory s t ∧ Mem.read t.mem pa n = f (Mem.read m pa n)
        ∧ (∀ x, x < pa ∨ pa + n ≤ x → Mem.get t.mem x = Mem.get m x)
        ∧ t.th.r = (if n = 16 then (r.wg d (BitVec.ofNat 64 (Mem.read m pa 8))).wg (d + 1) (BitVec.ofNat 64 (Mem.read m (pa + 8) 8))
            else r.wg d (BitVec.ofNat 64 (Mem.read m pa n))).advance
    let n := 4 * 2 ^ z.toNat
    let w := 8 * n
    let x (q : Reg) : Nat := if n = 16 then (r.rg (q + 1)).toNat * 2 ^ 64 + (r.rg q).toNat else (r.rg q).toNat % 2 ^ w
    let num (k : Nat) : Int := if k < 2 ^ (w - 1) then k else (k : Int) - 2 ^ w
    (z.toNat ≤ 2 → swaps (.aadd g d a b z) n (fun y => (y + x b) % 2 ^ w) ∧ swaps (.aand g d a b z) n (fun y => y &&& x b)
      ∧ swaps (.aor g d a b z) n (fun y => y ||| x b) ∧ swaps (.axor g d a b z) n (fun y => y ^^^ x b) ∧ swaps (.aswap g d a b z) n (fun _ => x b))
    ∧ (z.toNat ≤ 1 → swaps (.amin g d a b z) n (fun y => if num (x b) < num y then x b else y)
      ∧ swaps (.amax g d a b z) n (fun y => if num y < num (x b) then x b else y)
      ∧ swaps (.aminz g d a b z) n (fun y => min y (x b)) ∧ swaps (.amaxz g d a b z) n (fun y => max y (x b))
      ∧ swaps (.acas g d a b z) n (fun y => if y = x d then x b else y))
    ∧ (z.toNat = 2 → swaps (.acas16 g d a b) 16 (fun y => if y = x d then x b else y))

/-- R34, R97, R191, R194 to R196, R198: commutative updates join their hearth's stores, and their merge is the sum modulo the width, the
larger, the smaller or the OR; FENCE and FENCEE, once nothing that their scope waits for is under way (and the engines are idle), perform
the hearth's stores at a scope above the hearth's; PREF only completes; DOMGET and PHASE read the domain word and the superstep.
The model's readings that it rests on are log entries 16, 45 and 56. -/
def Obligations.UpdatesAndOrdering : Prop :=
  ∀ (g : Guard) (d a b : Reg) (f : BitVec 5) (c : BitVec 3) (l : BitVec 8) (s : State), s.th.r.guard g = true →
    let r := s.th.r
    let va := addr (r.rg a)
    let k := f.toNat - 6
    let n := 2 ^ (k % 4)
    let joins (i : Instr) (op : BitVec 2) : Prop :=
      ∃ t, exec i s = .next t ∧ t.th.r = r.advance ∧ t.mem = s.mem ∧ t.pending = s.pending ++ [⟨s.th.view, landing s va n .store, .update op f (r.rg b)⟩]
        ∧ onlyMemory s t
    let num (x : Nat) : Int := if k < 4 ∧ 2 ^ (8 * n - 1) ≤ x % 2 ^ (8 * n) then (x % 2 ^ (8 * n) : Nat) - (2 : Int) ^ (8 * n) else (x % 2 ^ (8 * n) : Nat)
    (6 ≤ f.toNat → f.toNat ≤ 13 → va % n = 0 → Writable s va n → landsAway s va n .store → computing s s.th = none →
      joins (.cadd g a b f) 0 ∧ joins (.cmax g a b f) 1 ∧ joins (.cmin g a b f) 2 ∧ joins (.cor g a b f) 3)
    ∧ (6 ≤ f.toNat → f.toNat ≤ 13 → ∀ x w, x < 2 ^ (8 * n) →
      updateBytes f = n ∧ (updated 0 f x w : Int) = (x + w.toNat) % 2 ^ (8 * n)
      ∧ num (updated 1 f x w) = max (num x) (num w.toNat) ∧ num (updated 2 f x w) = min (num x) (num w.toNat)
      ∧ updated 3 f x w = x ||| (w.toNat % 2 ^ (8 * n)))
    ∧ (awaitsRelease c.toNat s s.th = false →
      let after := if 1 < c.toNat then drainHearth s.th.view s else s
      exec (.fence g c) s = .next (after.completed r)
      ∧ (s.th.enginesIdle = true → exec (.fencee g c) s = .next (after.completed r))
      ∧ (1 < c.toNat → ∀ q ∈ after.pending, q.hearth ≠ s.th.view))
    ∧ exec (.pref g a b) s = .next (s.completed r)
    ∧ (∃ w, exec (.domget g d l) s = .next (s.completed (r.wg d w)) ∧ (l = 0 → w = s.th.domset)
      ∧ ∀ e ∈ [(1, 35, 8), (2, 27, 8), (3, 19, 8), (4, 8, 11), (5, 0, 8)], l.toNat = e.1 →
          w.toNat = if s.th.domset.getLsbD (42 + e.1) then s.th.domset.toNat / 2 ^ e.2.1 % 2 ^ e.2.2 else 2 ^ 64 - 1)
    ∧ ∃ w, exec (.phase g d) s = .next (s.completed (r.wg d w)) ∧ ((∀ x ∈ s.launches, x.id ≠ s.th.launch) → w = 0)
      ∧ ∀ x, s.launches.find? (fun y => decide (y.id = s.th.launch)) = some x →
          w = if x.field 2 38 1 = 1 then 0x8000000000000000 + BitVec.ofNat 64 x.superstep else 0

/-! ### Shapes and heaps -/

/-- R235 to R241: SHSET loads a shape register with the pointer to a valid record and SHGET reads it; TSEW, TSRED and TSCVT, at the last
element of their visit and with D in the thread's own local memory, write the element (for a nested D, the block) that the operation
gives, change no other byte, clear the resume word, add the sticky flags and complete.
The model's readings that it rests on are log entries 62, 63 and 64. -/
def Obligations.ShapedOperations : Prop :=
  ∀ (g : Guard) (d : Reg) (a : Reg) (p q n : QReg) (o : BitVec 4) (m : BitVec 2) (s : State), s.th.r.guard g = true →
    let r := s.th.r
    let k := nextElement s.th
    let ends (ins : Instr) (va n v : Nat) (f : BitVec 6) (u : State) : Prop :=
      Writable u va n → landsOwn u va n .store → ∃ t, exec ins s = .next t ∧ Mem.read t.mem (landing u va n .store) n = v % 2 ^ (8 * n)
        ∧ sameMemoryBut (landing u va n .store) n u t ∧ t.th.resume = 0 ∧ t.th.r = (r.raise f).advance
    let given := recordAt s (r.rg a)
    let s1 := afterShape s n
    let s2 := afterShape s1 p
    let s3 := afterShape s2 q
    let x := shapeOf s n
    let y := shapeOf s1 p
    let z := shapeOf s2 q
    let i := x.index k
    let bytes := x.elemBytes
    (addr (r.rg a) % 64 = 0 → Readable s (addr (r.rg a)) 64 → fmtAssigned given.fmt = true →
      (given.valid = true → ∃ t, exec (.shset g n a) s = .next t ∧ t.th.r = (r.wsh n (r.rg a)).advance ∧ onlyRead (fetched s (addr (r.rg a)) 64) t)
      ∧ (given.valid = false → ∃ u, onlyRead (fetched s (addr (r.rg a)) 64) u ∧ u.th.r = r
          ∧ exec (.shset g n a) s = .next (takeTrap .format (BitVec.ofNat 64 (addr (r.rg a))) u)))
    ∧ exec (.shget g d n) s = .next (s.completed (r.wg d (r.rsh n)))
    ∧ (ownedLevels s s.th = [] → ShapeRead s n → ShapeRead s1 p → sameSizes x y → k + 1 = x.total →
        (ShapeRead s2 q → sameSizes x z → o.toNat ≤ 4 → tsewAccepts o.toNat x.fmt = true → y.fmt = x.fmt → z.fmt = x.fmt →
          let u := s3.visiting k
          let u' := fetched u (y.address i) bytes
          Readable u (y.address i) bytes → Readable u' (z.address i) bytes →
          let v := tsewElement o.toNat x.fmt x.sat r.rounding (loaded u (y.address i) bytes) (loaded u' (z.address i) bytes) 0
          ends (.tsew g n p q o) (x.address i) bytes v.1 v.2 (fetched u' (z.address i) bytes))
        ∧ (ShapeRead s2 q → sameSizes x z → tsewAccepts 6 x.fmt = true → y.fmt = x.fmt → z.fmt = x.fmt →
          let u := s3.visiting k
          let u' := fetched u (y.address i) bytes
          let w := fetched u' (z.address i) bytes
          Readable u (y.address i) bytes → Readable u' (z.address i) bytes → Readable w (x.address i) bytes →
          let v := tsewElement 6 x.fmt x.sat r.rounding (loaded u (y.address i) bytes) (loaded u' (z.address i) bytes) (loaded w (x.address i) bytes)
          ends (.tsew g n p q 6) (x.address i) bytes v.1 v.2 (fetched w (x.address i) bytes))
        ∧ let u := s2.visiting k
          let w := fetched u (y.address i) y.elemBytes
          let raw := loaded u (y.address i) y.elemBytes
          (tsewAccepts 5 x.fmt = true → y.fmt = x.fmt → Readable u (y.address i) bytes →
            ends (.tsew g n p q 5) (x.address i) bytes raw 0 w)
          ∧ (x.nested = false → 1 ≤ x.fmt → (floatFmt y.fmt).isSome = true → Readable u (y.address i) y.elemBytes →
            let f := (floatFmt y.fmt).getD f32
            let v := valueTo x.fmt ⟨m.toNat, r.ftz⟩ (f.read r.ftz raw)
            ends (.tscvt g n p m) (x.address i) bytes v.1 v.2 w)
          ∧ (x.nested = false → (intFmt x.fmt).isSome = true → (intFmt y.fmt).isSome = true → Readable u (y.address i) y.elemBytes →
            let v := convert y.fmt x.fmt ⟨m.toNat, r.ftz⟩ 0 raw
            ends (.tscvt g n p m) (x.address i) bytes v.1 v.2 w)
          ∧ (x.nested = false → 1 ≤ x.fmt → y.nested = true → Readable u (y.blockOf i).1 y.blockSize →
            let byte (j : Nat) : Byte := BitVec.ofNat 8 (loaded u (y.blockOf i).1 y.blockSize / 2 ^ (8 * j))
            let e := readPlanes byte ((nestedPlanes y.fmt).getD 0) y.blockLen ((nestedPlanes y.fmt).getD 0) (y.blockOf i).2
            let v := valueTo x.fmt ⟨m.toNat, r.ftz⟩ (.fin (decide (e < 0)) e.natAbs (blockExp byte))
            ends (.tscvt g n p m) (x.address i) bytes v.1 v.2 (fetched u (y.blockOf i).1 y.blockSize)))
    ∧ (ownedLevels s s.th = [] → ShapeRead s n → ShapeRead s1 p → sameSizes x y → x.nested = true → x.rank = 1 →
        (floatFmt y.fmt).isSome = true → k + x.blockLen = x.total → (x.blockOf i).2 = 0 →
        let is := (List.range x.blockLen).map fun e => (k + e) :: [0, 0, 0]
        Reads (y.elementPlaces is) (s2.visiting k) →
        let planes := (nestedPlanes x.fmt).getD 0
        let e := quantise planes ((valuesOf (y.elementPlaces is) (s2.visiting k)).map (((floatFmt y.fmt).getD f32).read false))
        ends (.tscvt g n p 0) (x.blockOf i).1 x.blockSize (bytesToNat ((writeBlock planes x.blockLen e.1 e.2.1).map fun b => BitVec.ofNat 8 b)) e.2.2
          (afterReads (y.elementPlaces is) (s2.visiting k)))
    ∧ (ownedLevels s s.th = [] → ShapeRead s n → ShapeRead s1 p → k + 1 = x.total → x.size 0 = 1 → x.rank = y.rank →
        (∀ e ∈ [1, 2, 3], x.size e = y.size e) → 1 ≤ x.fmt → x.fmt ≤ 13 → 1 ≤ y.fmt → y.fmt ≤ 13 → (floatFmt x.fmt).isSome = (floatFmt y.fmt).isSome →
        let is := (List.range (y.size 0)).map fun e => e :: i.drop 1
        Reads (y.elementPlaces is) (s2.visiting k) →
        let v := tsredFibre o.toNat y.fmt x.fmt r.rounding (valuesOf (y.elementPlaces is) (s2.visiting k))
        ends (.tsred g n p o) (x.address i) bytes v.1 v.2 (afterReads (y.elementPlaces is) (s2.visiting k)))

/-- R97, R247, R248: HINIT writes an empty heap of k + 1 places; HSIFT into a heap with room inserts its entry in rank order and answers
1, and into a full one replaces the entry of the lowest rank or answers 0 and writes nothing; HPOP takes the last entry, or clears its
predicate when there is none. Only the block's bytes change, but for updates of them that wait, which are merged first. -/
def Obligations.HeapWords : Prop :=
  ∀ (g : Guard) (d a b : Reg) (h : BitVec 3) (n : BitVec 4) (s : State), s.th.r.guard g = true →
    let r := s.th.r
    let va := addr (r.rg a)
    let pa := landing s va 8 .atomic
    let s1 := lockedAt s va 8
    let head := Mem.read s1.mem pa 8
    let k := head % 16
    let count := head / 16 % 16
    let s2 := lockedAt s1 va (8 * (k + 1))
    let entries := (List.range count).map fun j => BitVec.ofNat 64 (Mem.read s2.mem (pa + 8 + 8 * j) 8)
    let e := r.rg b
    let writes (i : Instr) (u : State) (pa n : Nat) (new : List Word) (f : Regs) : Prop :=
      ∃ t, exec i s = .next t ∧ t.th.r = f.advance ∧ (∀ j < new.length, Mem.read t.mem (pa + 8 * j) 8 = (new.getD j 0).toNat)
        ∧ sameMemoryBut pa (8 * n) u t
    let headed (m : Nat) : Word := BitVec.ofNat 64 (head / 256 * 256 + 16 * m + k)
    va % 8 = 0 →
    (HeapAt s va (h.toNat + 2) .store →
      writes (.hinit g a h) s (landing s va (8 * (h.toNat + 2)) .store) (h.toNat + 2) (BitVec.ofNat 64 (h.toNat + 1) :: List.replicate (h.toNat + 1) 0) r)
    ∧ (HeapAt s va 1 .atomic → cleanAt s va 8 → 1 ≤ k → k ≤ 8 → count ≤ k →
        HeapAt s1 va (k + 1) .atomic → (placesOf s1 va (8 * (k + 1)) .atomic).any (poisonAt s1 s1.th) = false →
        (count < k → writes (.hsift g d a b) s2 pa (count + 2) (headed (count + 1) :: heapInsert e entries) (r.wg d 1))
        ∧ (count = k → heapAbove e (entries.headD 0) = true →
            writes (.hsift g d a b) s2 pa (count + 1) (headed count :: heapInsert e (entries.drop 1)) (r.wg d 1))
        ∧ (count = k → heapAbove e (entries.headD 0) = false → writes (.hsift g d a b) s2 pa 0 [] (r.wg d 0))
        ∧ (0 < count → writes (.hpop g d a n) s2 pa 1 [headed (count - 1)] ((r.wg d (entries.getLastD 0)).wp n true))
        ∧ (count = 0 → writes (.hpop g d a n) s2 pa 0 [] (r.wp n false)))

/-! ### Collectives, snapshots, tasks and timelines -/

/-- R33, R197, R201, R203, R204, R372: SYNC at level 0 only copies its operand; at a level of the thread's it arrives and parks; a tree node
sends its word upward, and the root's completion gives every member the OR of the upper halves and the saturated sum of the lower
halves of all operands, with which the waiting SYNC, SNAP, ACCEPT or REJECT completes; a member that has trapped in its wait has the
result, and its word behind it, before it resumes. TLWAIT completes once the timeline has reached
its operand, waits before, and traps on a number never issued; TLREAD reads either end.
The model's reading that it rests on is log entry 45. -/
def Obligations.CollectivesAndTimelines : Prop :=
  ∀ (g : Guard) (d a : Reg) (l : BitVec 8) (e : BitVec 3) (i node : Nat) (x y : Word) (D : Domain) (s : State), s.th.r.guard g = true →
    let r := s.th.r
    let tl := s.th.timeline e.toNat
    let n := (r.rg a).toNat
    exec (.sync g d a 0) s = .next (s.completed (r.wg d (r.rg a)))
    ∧ (1 ≤ l.toNat → l.toNat ≤ 5 → s.th.domset.getLsbD (42 + l.toNat) = true → s.th.inTask = false → computing s s.th = none →
        openCollective s s.th.id = none → domainAt s s.th l.toNat = some i → domainGet s i = some D →
        awaitsRelease l.toNat s s.th = false →
        ∃ t, exec (.sync g d a l) s = .next t ∧ t.th.st = .parked ∧ t.th.wait = .collective i ∧ t.th.r = r
          ∧ domainGet t i = some { D with arrivals := D.arrivals ++ [{ t := s.th.id, kind := .sync, operand := r.rg a, dst := d }] })
    ∧ (s.th.rejoins = true → openCollective s s.th.id = some i → domainGet s i = some D → D.resultOf s.th.id = some (.value x) →
        let took := modDomain i (fun d => { d with results := d.results.filter fun q => decide (q.1 ≠ s.th.id) }) s
        let after : Out := .next (State.completed { took with th := { s.th with wait := .none } } (r.wg d x))
        (l ≠ 0 → exec (.sync g d a l) s = after) ∧ exec (.snap g d a) s = after
        ∧ (computing s s.th = none → exec (.accept g d a) s = after ∧ exec (.reject g d a) s = after))
    ∧ (domainGet s i = some D → canSend s D node = true →
        ∃ t, exec (.barrierArrivalMessage i node) s = .next t ∧ domainGet t i = some { D with sent := D.sent ++ [node] } ∧ t.th = s.th ∧ sameMemory s t)
    ∧ (domainGet s i = some D → canComplete D = true → D.results = [] → (∀ q ∈ D.arrivals, q.kind = .sync) → D.outside = false →
        let w := D.arrivals.foldl (fun w q => combine w q.operand) 0
        ∃ t D', exec (.barrierComplete i) s = .next t ∧ domainGet t i = some D' ∧ D'.generation = D.generation + 1 ∧ D'.arrivals = []
          ∧ (s.th.id ∈ D.members → s.th.st = .parked → s.th.wait = .collective i →
              D'.resultOf s.th.id = some (.value w) ∧ t.th.wait = .none ∧ t.th.st ≠ .parked ∧ t.th.r = r)
          ∧ (s.th.id ∈ D.members → s.th.st = .trapped → s.th.wait = .collective i → s.th.forge = false →
              (∀ q ∈ D.arrivals, q.t = s.th.id → q.dst = d) → t.th.r = (r.wg d w).advance)
          ∧ (s.th.id ∉ D.members → (∀ q ∈ D.arrivals, q.t ∈ D.members) → t.th = s.th) ∧ sameMemory s t)
    ∧ (combine x y).toNat = (x.toNat ||| y.toNat) / 2 ^ 32 * 2 ^ 32 + min (x.toNat % 2 ^ 32 + y.toNat % 2 ^ 32) (2 ^ 32 - 1)
    ∧ (tl.last < n → exec (.tlwait g d a e) s = .next (takeTrap .format (r.rg a) s))
    ∧ (n ≤ tl.last → n ≤ tl.completed → exec (.tlwait g d a e) s = .next (s.completed (r.wg d (BitVec.ofNat 64 tl.completed))))
    ∧ (n ≤ tl.last → tl.completed < n → ∃ t, exec (.tlwait g d a e) s = .next t ∧ t.th.st = .parked ∧ t.th.wait = .timeline e.toNat n ∧ t.th.r = r)
    ∧ exec (.tlread g d 0 e) s = .next (s.completed (r.wg d (BitVec.ofNat 64 tl.completed)))
    ∧ exec (.tlread g d 1 e) s = .next (s.completed (r.wg d (BitVec.ofNat 64 tl.last)))

/-- R103, R104, R106, R107, R110 to R112, R117: SNAP opens a thread level over the descriptor's range and writes a new tag; a store that
an open level covers goes to its shadow, and memory stays; ACCEPT closes the levels from the tag's inwards and publishes the masked
bytes of the only level's line; REJECT closes them and publishes nothing; both answer 1 for a tag that is not open; SNAPQ reports.
The model's readings that it rests on are log entries 47, 58 and 61. -/
def Obligations.SnapshotWords : Prop :=
  ∀ (g : Guard) (d a b : Reg) (z : BitVec 2) (o : BitVec 10) (k : Nat) (s : State) (p : Spot) (L : Level) (x : ShadowLine),
    s.th.r.guard g = true → computing s s.th = none → s.th.st = .running →
    let r := s.th.r
    let tag := r.rg a
    (openCollective s s.th.id = none → addr tag % 32 = 0 → Readable s (addr tag) 32 → settled s → s.th.levels.length < 8 →
      let w (j : Nat) : Word := BitVec.ofNat 64 (loaded s (addr tag) 32 / 2 ^ (64 * j) % 2 ^ 64)
      let base := (w 0).toNat % 2 ^ 56
      let serial := (spaceOf s s.th.id.asid).serial + 1
      base % 128 = 0 → w 1 ≠ 0 → (w 1).toNat % 128 = 0 → base + (w 1).toNat ≤ 0xFFFFFFFFD00000 → (w 2).toNat % 4 = 0 →
      (w 3).extractLsb' 4 60 = 0 → (w 3).getLsbD 0 = false →
      let new := BitVec.ofNat 64 (serial % 2 ^ 56 * 256 + (s.th.levels.length + 1))
      ∃ t, exec (.snap g d a) s = .next t ∧ t.th.r = (r.wg d new).advance ∧ (spaceOf t s.th.id.asid).serial = serial
        ∧ t.th.levels.length = s.th.levels.length + 1
        ∧ t.th.levels.head? = some { tag := new, base := base, len := (w 1).toNat, fallback := w 2 })
    ∧ (let va := (r.rg b + o.signExtend 64 * BitVec.ofNat 64 (2 ^ z.toNat)).toNat % 2 ^ 56
      let n := 2 ^ z.toNat
      let u := translated s va n .store
      let die := shadowDie (landing s va n .store) none
      va % n = 0 → watchHit (debugOf s s.th) s.th.id.asid false true va n s.th.passBreak = none → s.th.queue = [] → resolves s va n .store →
      (∀ q ∈ placesOf s va n .store, readOnly u s.th.id.asid q.va q.pa = false ∧ localHearth q.pa = none) → delaysOff s → s.domains = [] →
      s.th.levels = [L] → L.base ≤ va → va + n ≤ L.base + L.len → L.lines = [] →
      poolUsed u s.th.id.asid < poolLines u s.th.id.asid s.th.secure → entriesUsed u die < entryLimit u die →
      ∃ t l, exec (.st g d b z o) s = .next t ∧ t.mem = s.mem ∧ t.pending = s.pending ∧ t.th.r = r.advance ∧ t.th.levels = [l]
        ∧ ∀ j < n, ((l.lineOf (va + j)).bind fun y => y.byteAt (va + j)) = some ((r.rg d).extractLsb' (8 * j) 8))
    ∧ (openCollective s s.th.id = none → threadLevelOf s.th tag = some k →
        let found := placeLines (agentOf s.th) (linesOf (s.th.levels.take (k + 1))) (drainHearth s.th.view s)
        (settled s → (∃ pl, found.1 = .ok pl) →
          ∃ t, exec (.accept g d a) s = .next t ∧ t.th.r = (r.wg d 0).advance ∧ t.th.levels.length = s.th.levels.length - (k + 1))
        ∧ (settled s → s.th.levels = [L] → s.domains = [] → L.lines = [x] → here [p] → found.1 = .ok [(x.line, p)] →
          ∃ t, exec (.accept g d a) s = .next t ∧ sameMemoryBut p.pa 128 found.2 t ∧ ∀ j < 128, Mem.get t.mem (p.pa + j) =
            if x.mask.getLsbD j then x.data.extractLsb' (8 * j) 8 else Mem.get found.2.mem (p.pa + j))
        ∧ ∃ t, exec (.reject g d a) s = .next t ∧ t.th.r = (r.wg d 0).advance ∧ t.th.levels = s.th.levels.drop (k + 1) ∧ sameMemory s t)
    ∧ (openCollective s s.th.id = none → threadLevelOf s.th tag = none → domainLevelOf s s.th tag = none →
        exec (.accept g d a) s = .next (s.completed (r.wg d 1)) ∧ exec (.reject g d a) s = .next (s.completed (r.wg d 1)))
    ∧ ∃ w, exec (.snapq g d a) s = .next (s.completed (r.wg d w))
      ∧ (s.th.levels.length ≤ 8 → (w.extractLsb' 52 4).toNat = s.th.levels.length)
      ∧ (threadLevelOf s.th tag = some k → s.th.levels[k]? = some L → w.getLsbD 63 = true ∧ (w.extractLsb' 0 32).toNat = min L.lines.length 0xFFFFFFFF)
      ∧ (threadLevelOf s.th tag = none → domainLevelOf s s.th tag = none → w.getLsbD 63 = false ∧ w.extractLsb' 0 32 = 0)

/-- R118 to R120, R123: TORDER binds the thread to its domain's group, which starts at the operand; TBEGIN opens a task level over all
addresses and saves the registers; TCOMMIT of the cursor's holder closes it and moves the cursor on, and another waits; TABORT closes
it with nothing published; TSTAT reports; a task that has waited its limit traps with ORDER_STALL.
The model's readings that it rests on are log entries 65, 146, 147, 149 and 150. -/
def Obligations.OrderedTasks : Prop :=
  ∀ (g : Guard) (d a : Reg) (l : BitVec 8) (i : Nat) (D : Domain) (G : Group) (t : ThreadId) (x : Thread) (s : State),
    s.th.r.guard g = true → s.th.st = .running →
    let r := s.th.r
    let w := r.rg a
    (1 ≤ l.toNat → l.toNat ≤ 5 → s.th.domset.getLsbD (42 + l.toNat) = true → domainAt s s.th l.toNat = some i → domainGet s i = some D →
      (D.group = none ∨ D.group.map (·.base) = some w) →
      ∃ u D', exec (.torder g a l) s = .next u ∧ u.th.bound = true ∧ u.th.tlevel.toNat = l.toNat ∧ u.th.r = r.advance ∧ domainGet u i = some D'
        ∧ D'.group = some (D.group.getD { base := w, cursor := w }))
    ∧ (s.th.inTask = false → groupOfThread s = some (i, G) → G.cursor.toNat ≤ w.toNat → w ∉ G.taken → s.th.levels.length < 8 →
      ∃ u, exec (.tbegin g a) s = .next u ∧ u.th.saved = some r ∧ u.th.stamp = w ∧ u.th.r = r.advance ∧ u.th.inTask = true
        ∧ u.th.levels = { tag := 0, task := true, base := 0, len := 2 ^ 56, fallback := 0 } :: s.th.levels
        ∧ (groupOfThread u).map (·.2) = some { G with taken := w :: G.taken } ∧ sameMemory s u)
    ∧ (s.th.inTask = true → groupOfThread s = some (i, G) →
      let k := s.th.levels.findIdx (·.task)
      (G.cursor = s.th.stamp → settled s → computing s s.th = none →
        (∀ y ∈ s.others, y.inTask = false) → G.abandoned.contains (G.cursor + 1) = false →
        (∃ pl, (placeLines (agentOf s.th) (linesOf (s.th.levels.take (k + 1))) (drainHearth s.th.view s)).1 = .ok pl) →
        ∃ u, exec (.tcommit g) s = .next u ∧ u.th.r = r.advance ∧ u.th.saved = none ∧ u.th.levels.length = s.th.levels.length - (k + 1)
          ∧ ((domainGet u i).bind (·.group)).map (·.cursor) = some (G.cursor + 1))
      ∧ (G.cursor ≠ s.th.stamp → ∃ u, exec (.tcommit g) s = .next u ∧ u.th.st = .parked ∧ u.th.wait = .commit i s.th.stamp ∧ u.th.r = r ∧ u.th.levels = s.th.levels)
      ∧ ∃ u, exec (.tabort g) s = .next u ∧ u.th.r = r.advance ∧ u.th.saved = none ∧ u.th.levels = s.th.levels.drop (k + 1) ∧ sameMemory s u)
    ∧ (s.th.inTask = false → exec (.tabort g) s = .next (s.completed r)
      ∧ (s.th.redirect = none → exec (.tcommit g) s = .next (takeTrap .orderStall 0xFFFFFFFFFFFFFFFF s)))
    ∧ (∃ v, exec (.tstat g d) s = .next (s.completed (r.wg d v)) ∧ v.getLsbD 63 = s.th.inTask ∧ (v.extractLsb' 32 16).toNat = min s.th.aborts 0xFFFF
      ∧ ((groupOfThread s = some (i, G)) → v.extractLsb' 0 32 = G.cursor.extractLsb' 0 32 ∧ v.getLsbD 62 = (s.th.inTask && decide (G.cursor = s.th.stamp))))
    ∧ (findThread s t = some x → orderStallDue s x = true →
      ∃ u y, exec (.orderStallTimeout t) s = .next u ∧ findThread u t = some y ∧ y.st = .trapped ∧ y.record.value = x.stamp
        ∧ y.record.head.extractLsb' 0 8 = 0x1A ∧ y.r = x.r ∧ sameMemory s u)

/-! ### Messages -/

/-- R206 to R212: MSEND opens a packet in one of its hearth's eight buffers, or adds a word to it; MSENDE closes it after a release, and the
packet is on its way with its header; PACKET_DELIVER enters it into the queue of a live thread with room; MRECV pops a word, answers
no word when it may not wait, and parks when it may.
The model's readings that it rests on are log entries 68 and 69. -/
def Obligations.MessageWords : Prop :=
  ∀ (g : Guard) (d a b : Reg) (n : BitVec 3) (nb : BitVec 1) (i : Nat) (p : OpenPacket) (q : Packet) (id : ThreadId) (y : Thread) (s : State),
    s.th.r.guard g = true → s.th.st = .running →
    let r := s.th.r
    let dst := r.rg a
    let header (k : Nat) : Word := BitVec.ofNat 64 (k * 2 ^ 57 + s.th.id.ctx.toNat * 2 ^ 12 + s.node.toNat * 2)
    let sent (ws : List Word) : Packet :=
      { kind := .plain, dst := .thread ⟨s.th.id.asid, dst.extractLsb' 12 44⟩, src := s.th.id, srcHearth := s.th.hearth, secure := s.th.secure,
        words := header ws.length :: ws }
    (s.th.packet = none → dst.getLsbD 63 = false → dst.extractLsb' 56 7 = 0 → dst.extractLsb' 0 12 = 0 → computing s s.th = none →
      openPackets s s.th.hearth < 8 →
      exec (.msend g a b) s = .next { s with th := { s.th with r := r.advance, packet := some ⟨dst, [r.rg b], s.th.hearth, 0⟩ } }
      ∧ (settled s → ∃ t, exec (.msende g a b) s = .next t ∧ t.packets = s.packets ++ [sent [r.rg b]] ∧ t.th.packet = none ∧ t.th.r = r.advance
          ∧ ∀ k ∈ t.pending, k.hearth ≠ s.th.view))
    ∧ (s.th.packet = some p → p.dst = dst →
      (p.words.length < 63 → exec (.msend g a b) s = .next { s with th := { s.th with r := r.advance, packet := some { p with words := p.words ++ [r.rg b] } } })
      ∧ (63 ≤ p.words.length → exec (.msend g a b) s = .next (takeTrap .format dst s))
      ∧ (dst.getLsbD 63 = false → computing s s.th = none → settled s →
          ∃ t, exec (.msende g a b) s = .next t ∧ t.packets = s.packets ++ [sent (p.words ++ [r.rg b])] ∧ t.th.packet = none ∧ t.th.r = r.advance))
    ∧ (s.th.packet = some p → p.dst ≠ dst →
      exec (.msend g a b) s = .next (takeTrap .format dst s) ∧ exec (.msende g a b) s = .next (takeTrap .format dst s))
    ∧ (s.packets[i]? = some q → q.kind = .plain → q.dst = .thread id → firstOfPair s.packets i = true → liveThread s id = some y →
      poolChunks s id.asid ≠ 0 → queueRoom s y q.words.length false = true → y.wait ≠ .recv →
      ∃ t z, exec (.packetDeliver i) s = .next t ∧ t.packets = s.packets.eraseIdx i ∧ liveThread t id = some z ∧ z.recv = y.recv ++ q.words
        ∧ z.r = y.r ∧ sameMemory s t)
    ∧ (∀ w ws, s.th.recv = w :: ws → ∃ t, exec (.mrecv g d n nb 0) s = .next t ∧ t.th.recv = ws
        ∧ t.th.r = ((r.wg d w).wp (n.setWidth 4) true).advance ∧ t.mem = s.mem ∧ t.hearths = s.hearths)
    ∧ (s.th.recv = [] → exec (.mrecv g d n 1 0) s = .next (s.completed (r.wp (n.setWidth 4) false)))
    ∧ (s.th.recv = [] → computing s s.th = none →
      ∃ t, exec (.mrecv g d n 0 0) s = .next t ∧ t.th.st = .parked ∧ t.th.wait = .recv ∧ t.th.r = r ∧ t.mem = s.mem)
    ∧ (∀ h w ws, s.th.onHearth = some h → s.th.hearth = h → mailboxBound (hearthOf s h) s.th.id.asid s.th.secure = true →
        (hearthOf s h).mailbox = w :: ws →
        ∃ t, exec (.mrecv g d n nb 1) s = .next t ∧ (hearthOf t h).mailbox = ws ∧ t.th.r = ((r.wg d w).wp (n.setWidth 4) true).advance ∧ t.mem = s.mem)
    ∧ (∀ h, s.th.onHearth = some h → mailboxBound (hearthOf s h) s.th.id.asid s.th.secure = false →
        exec (.mrecv g d n nb 1) s = .next (takeTrap .protection (BitVec.ofNat 64 h) s))

/-- R213 to R215: DEPOSIT sends the value to a live thread after a release, and DEPOSIT_ARRIVE writes it into the register named by its
class, and into the frame image where the register's block is not resident; NREAD sends its request and waits, NREAD_REPLY answers with
the register of a thread of the bench that was ready within the limit and NREAD_TIMEOUT with none, and the word then completes, its
predicate saying which.
The model's readings that it rests on are log entries 70 and 134. -/
def Obligations.DepositsAndRemoteReads : Prop :=
  ∀ (g : Guard) (d a : Reg) (c : BitVec 3) (k : BitVec 5) (n : BitVec 3) (i : Nat) (dep : Deposit) (id : ThreadId) (y : Thread) (q : NRead)
    (s : State), s.th.r.guard g = true →
    let r := s.th.r
    let f := (r.rg a).toNat % 2 ^ 56
    let target : ThreadId := ⟨s.th.id.asid, BitVec.ofNat 44 (f / 4096)⟩
    (computing s s.th = none → f % 4096 = 0 → resolves s f 1 .store →
      (∀ p ∈ placesOf s f 1 .store, readOnly (translated s f 1 .store) s.th.id.asid p.va p.pa = false) → settled s →
      ∃ t, exec (.deposit g d a k c) s = .next t ∧ t.th.r = r.advance ∧ (∀ x ∈ t.pending, x.hearth ≠ s.th.view)
        ∧ t.deposits = if (liveThread s target).isSome
            then s.deposits ++ [{ src := s.th.id, pa := landing s f 1 .store, node := none, target := target, cls := c, reg := k, value := r.rg d }]
            else s.deposits)
    ∧ (s.deposits[i]? = some dep → firstDeposit s.deposits i = true → liveThread s dep.target = some y →
      ∃ t z, exec (.depositArrive i) s = .next t ∧ t.deposits = s.deposits.eraseIdx i ∧ liveThread t dep.target = some z
        ∧ (dep.cls = 0 → ∀ m, z.r.rg m = if m = dep.reg ∧ m ≠ 0 then dep.value else y.r.rg m)
        ∧ (dep.cls = 1 → ∀ m, z.r.rp m = if m = dep.reg.setWidth 4 ∧ m ≠ 0 then dep.value.getLsbD 0 else y.r.rp m)
        ∧ (dep.cls = 2 → ∀ m, z.r.rm m = if m = dep.reg.setWidth 3 then dep.value else y.r.rm m)
        ∧ (y.resident = 0xFFFF → sameMemory s t)
        ∧ (dep.cls = 0 → dep.reg ≠ 0 → hasBlock y.resident 0 = false → hasBlock y.owed 0 = false → dep.node = none →
            Mem.read t.mem (dep.pa + 8 * dep.reg.toNat) 8 = dep.value.toNat ∧ sameMemoryBut (dep.pa + 8 * dep.reg.toNat) 8 s t))
    ∧ ((∀ x ∈ s.nreads, x.reader ≠ s.th.id) → f % 4096 ≠ 0 → exec (.nread g d a k n) s = .next (takeTrap .misaligned (BitVec.ofNat 64 f) s))
    ∧ ((∀ x ∈ s.nreads, x.reader ≠ s.th.id) → f % 4096 = 0 → computing s s.th = none → s.th.st = .running →
      let found := (liveThread s target).bind fun x => if nreadReady s s.th.bench x then some (x.r.rg k) else none
      exec (.nread g d a k n) s = .next { s with
        nreads := s.nreads ++ [{ reader := s.th.id, target := target, reg := k, issued := s.cyc, found := found }]
        th := { s.th with st := .stalledMemory } })
    ∧ (s.nreads.find? (fun x => decide (x.reader = id ∧ x.reply = none)) = some q → findThread s id = some y → s.th.id = id →
      s.nreads.filter (fun x => decide (x.reader = id)) = [q] →
      (∀ v, q.found = some v →
        ∃ t, exec (.nreadReply id) s = .next t ∧ sameMemory s t ∧ t.th.r = r ∧ t.nreads.find? (fun x => decide (x.reader = id)) =
          some { q with reply := some (some (match liveThread s q.target with
            | some x => if nreadReady s y.bench x then x.r.rg q.reg else v
            | none => v)) })
      ∧ (q.found = none → (hearthOf s y.hearth).nreadto.toNat < (s.cyc - q.issued).toNat →
        ∃ t, exec (.nreadTimeout id) s = .next t ∧ sameMemory s t ∧ t.th.r = r
          ∧ t.nreads.find? (fun x => decide (x.reader = id)) = some { q with reply := some none }))
    ∧ ∀ v, s.nreads.find? (fun x => decide (x.reader = s.th.id)) = some q → q.reply = some v →
      ∃ t, exec (.nread g d a k n) s = .next t ∧ (∀ x ∈ t.nreads, x.reader ≠ s.th.id) ∧ t.mem = s.mem
        ∧ t.th.r = ((match v with | some x => r.wg d x | none => r).wp (n.setWidth 4) v.isSome).advance

/-- R210, R358, R359, R389: the trap of a thread enters its handler's queue and the record then names the handler; a bench's miss message
enters its walker's queue once; a packet held open too long traps its thread with WATCHDOG.
The model's readings that it rests on are log entries 68, 69 and 142. -/
def Obligations.DevicePackets : Prop :=
  ∀ (t h : ThreadId) (x y : Thread) (p : Packet) (b k : Nat) (m : Miss) (o : OpenPacket) (s : State), s.th.st = .running →
    (s.packets = [p] → p.kind = .trap t → p.dst = .thread h → liveThread s h = some y → y.wait ≠ .recv → findThread s t = some x → t ≠ h →
      0 < poolChunks s h.asid → queueRoom s y p.words.length true = true →
      ∃ u z w, exec (.trapPacketDeliver t) s = .next u ∧ u.packets = [] ∧ liveThread u h = some z ∧ z.recv = y.recv ++ p.words
        ∧ findThread u t = some w ∧ w.record = { x.record with handler := BitVec.ofNat 64 (2 ^ 63 + h.ctx.toNat * 2 ^ 12 + h.asid.toNat) } ∧ sameMemory s u)
    ∧ ((benchOf s b).misses = [m] → m.index = k → m.sent = false → (benchOf s b).walkctx.getLsbD 63 = true → m.secure = false → m.hearth < 256 →
      h = ⟨(benchOf s b).walkctx.extractLsb' 0 10, (benchOf s b).walkctx.extractLsb' 12 44⟩ → liveThread s h = some y → y.wait ≠ .recv →
      0 < poolChunks s h.asid → queueRoom s y 4 true = true →
      ∃ u z, exec (.missMessageSend b k) s = .next u ∧ (benchOf u b).misses = [{ m with sent := true }] ∧ liveThread u h = some z ∧ sameMemory s u
        ∧ z.recv = y.recv ++ [BitVec.ofNat 64 (3 * 2 ^ 57 + 2 ^ 56 + m.ctx.toNat * 2 ^ 12 + s.node.toNat * 2),
            BitVec.ofNat 64 (m.page.toNat * 2 ^ 12 + m.asid.toNat),
            BitVec.ofNat 64 (m.priv.toNat * 2 ^ 61 + m.kinds.toNat * 2 ^ 16 + m.index * 2 ^ 8 + m.hearth), m.cyc])
    ∧ (findThread s t = some x → x.packet = some o → (x.st = .running ∨ x.st = .seated) →
      max 1024 (hearthOf s x.hearth).freezewd.toNat ≤ o.seatedCycles →
      ∃ u z, exec (.packetWatchdog t) s = .next u ∧ findThread u t = some z ∧ z.st = .trapped ∧ z.record.value = o.dst
        ∧ z.record.head.extractLsb' 0 8 = 0x20 ∧ z.r = x.r ∧ sameMemory s u)

/-- R216 to R218: REBIND replaces the entry of its handle with the base and length it reads, the generation one up, and answers the
generation; BINDQ answers base, length, generation, or the live blocks of earlier generations. A handle above 255 traps. -/
def Obligations.WeightBindings : Prop :=
  ∀ (g : Guard) (d a b : Reg) (l : BitVec 8) (s : State), s.th.r.guard g = true →
    let r := s.th.r
    let h := (r.rg a).toNat
    let p := addr (r.rg b)
    let w (k : Nat) : Nat := loaded s p 16 / 2 ^ (64 * k) % 2 ^ 64
    let base := w 0 % 2 ^ 56
    let e := bindingOf s s.th.id.asid h
    (h ≤ 255 → p % 16 = 0 → Readable s p 16 → s.th.inTask = false → computing s s.th = none → w 0 % 64 = 0 → w 1 % 64 = 0 →
      w 1 < 2 ^ 48 → base + w 1 ≤ 2 ^ 56 → PagesRead base (base + w 1) (w 1 / 4096 + 2) (fetched s p 16) → settled s →
      ∃ t, exec (.rebind g d a b) s = .next t ∧ t.th.r = (r.wg d ((e.gen + 1).setWidth 64)).advance
        ∧ bindingOf t s.th.id.asid h = ⟨BitVec.ofNat 64 (w 0), w 1, e.gen + 1⟩ ∧ ∀ k, k ≠ h → bindingOf t s.th.id.asid k = bindingOf s s.th.id.asid k)
    ∧ (h ≤ 255 → exec (.bindq g d a 0) s = .next (s.completed (r.wg d e.base))
      ∧ exec (.bindq g d a 1) s = .next (s.completed (r.wg d (BitVec.ofNat 64 e.length)))
      ∧ exec (.bindq g d a 2) s = .next (s.completed (r.wg d (e.gen.setWidth 64)))
      ∧ ∃ n, exec (.bindq g d a 3) s = .next (s.completed (r.wg d n)) ∧ (s.launches = [] → n = 0))
    ∧ (255 < h → exec (.bindq g d a l) s = .next (takeTrap .format (r.rg a) s) ∧ exec (.rebind g d a b) s = .next (takeTrap .format (r.rg a) s))

/-! ### Privileged state, traps and returns -/

/-- R350, R353, R354, R362: SRD completes with the register of its number in the scope of the executing thread.
The model's reading that it rests on is log entry 151. -/
def Obligations.ReadRegisters : Prop :=
  ∀ (g : Guard) (d : Reg) (m : BitVec 12) (c : Nat) (s : State), s.th.r.guard g = true → s.th.place = .strand c → c < 768 →
    let t := s.th
    let a := spaceOf s t.id.asid
    let h := hearthOf s (c / 4)
    let b := benchOf s (c / 32)
    let die := dieOf s (c / 192)
    let gives (n : BitVec 12) (w : Word) : Prop := exec (.srd g d n) s = .next (s.completed (t.r.wg d w))
    (gives 0x000 s.cyc ∧ gives 0x001 0x0000824000804000 ∧ gives 0x003 t.domset ∧ gives 0x004 (t.id.asid.setWidth 64)
      ∧ gives 0x005 (if t.secure then 1 else 0) ∧ gives 0x006 t.record.head ∧ gives 0x007 t.record.pc ∧ gives 0x008 t.record.value
      ∧ gives 0x009 (if s.tlock then 1 else 0) ∧ gives 0x010 (a.trapvec.get 0) ∧ gives 0x011 (a.trapvec.get 1) ∧ gives 0x012 (a.trapvec.get 2)
      ∧ gives 0x013 a.shpool ∧ gives 0x014 a.msgpool ∧ gives 0x015 a.rngkey ∧ gives 0x016 a.exptbl
      ∧ gives 0x018 t.unitsel)
    ∧ (∃ w, gives 0x002 w ∧ (w.extractLsb' 44 4).toNat = t.st.code ∧ w.getLsbD 43 = t.wake ∧ w.getLsbD 42 = t.forge ∧ w.extractLsb' 40 2 = t.priv
      ∧ w.getLsbD 11 = t.r.ftz ∧ w.extractLsb' 8 3 = t.r.rnd ∧ w.extractLsb' 0 6 = t.r.flags)
    ∧ (1 ≤ t.priv.toNat → gives 0x100 (h.freezewd.setWidth 64) ∧ gives 0x101 (h.nreadto.setWidth 64) ∧ gives 0x102 (h.vlgrp.setWidth 64)
      ∧ gives 0x103 ((coreOf s c).vlshare.setWidth 64) ∧ gives 0x104 h.forgespill ∧ gives 0x105 h.mboxbind ∧ gives 0x106 (if h.secure then 1 else 0)
      ∧ gives 0x107 (coreOf s c).delaybase)
    ∧ (t.priv.toNat = 2 → gives 0x200 b.walkctx ∧ gives 0x201 (b.splits ++ b.missCount)
      ∧ (∃ u, exec (.srd g d 0x300) s = .next u ∧ u.mem = s.mem ∧ ∃ n : BitVec 24, die.corrected.toNat ≤ n.toNat
          ∧ u.th = (s.completed (t.r.wg d (die.poisoned ++ die.transient ++ n))).th)
      ∧ gives 0x301 die.ecclog ∧ gives 0x311 die.ckptbase
      ∧ gives 0x320 die.provctl ∧ gives 0x321 (die.provLost ++ die.provWritten) ∧ gives 0x400 s.regiontbl ∧ gives 0x8FF t.dbgsel)
    ∧ (t.priv.toNat < readLevel m.toNat → exec (.srd g d m) s = .next (takeTrap .privilege (m.setWidth 64) s))

/-- R4, R351, R354 to R359, R362, R377, R403, R413, R450: SWR leaves the writable bits of the register at those of its operand, changes no
register of the thread and, but for POISCLR, no memory, and traps with PRIVILEGE or WORLD; THRSTAT, TRAPVEC, VLGRP, MBOXBIND, HWORLD,
POISCLR and PWRCAP have the rules of their tables, also where another agent of the model writes them.
The model's reading that it rests on is log entry 75. -/
def Obligations.WriteRegisters : Prop :=
  ∀ (g : Guard) (d : Reg) (m : BitVec 12) (c die : Nat) (k : BitVec 2) (u : DebugUnit) (v : Word) (s : State), s.th.r.guard g = true →
    s.th.place = .strand c → c < 768 → v = s.th.r.rg d →
    let t := s.th
    let h := c / 4
    let keeps (n : BitVec 12) (mask : Word) : Prop := ∃ w, exec (.swr g d n) s = .next w ∧ readReg w n.toNat = v &&& mask ∧ w.th.r = t.r.advance ∧ w.mem = s.mem
    let writes (i : Instr) (f : State → Prop) : Prop := ∃ w, exec i s = .next w ∧ f w
    (t.priv.toNat < writeLevel m.toNat → exec (.swr g d m) s = .next (takeTrap .privilege (m.setWidth 64) s))
    ∧ (t.priv = 2 → t.secure = false → exec (.swr g d 0x400) s = .next (takeTrap .world 0x400 s) ∧ exec (.swr g d 0x106) s = .next (takeTrap .world 0x106 s))
    ∧ (1 ≤ t.priv.toNat → t.priv ≠ 3 → keeps 0x015 0xFFFFFFFFFFFFFFFF ∧ keeps 0x016 0x00FFFFFFFFFFFFFF)
    ∧ (t.priv = 2 → keeps 0x013 0x000FFFFFFFFF003F ∧ keeps 0x014 0x00FFFFFFFFFF001F ∧ keeps 0x018 0x80000000000000FF
      ∧ keeps 0x100 0xFFFFFFFF ∧ keeps 0x101 0xFFFF ∧ keeps 0x103 0xFFFF ∧ keeps 0x104 0xF00FFFFFFFF00000 ∧ keeps 0x107 0x800FFFFFFFFFFC00
      ∧ keeps 0x200 0x80FFFFFFFFFFF3FF ∧ keeps 0x201 0xFFFFFFFFFFFFFFFF ∧ keeps 0x300 0xFFFFFFFFFFFFFFFF ∧ keeps 0x311 0x000FFFFFFFF00000
      ∧ keeps 0x312 0xFFFF ∧ keeps 0x320 0x800FFFFFFFFFF01F ∧ keeps 0x8FF 0x80000000000003FF ∧ (t.secure = true → keeps 0x400 0x800FFFFFFFFFF0FF)
      ∧ (selectedUnit t = some u → keeps 0x800 0xFFCFFFFFFFFFF01F ∧ keeps 0x802 0x80FFFFFFFFFFF3FF ∧ keeps 0x803 0xFFFFFFFFFFFFFFFF
        ∧ keeps 0x810 0xE0FFFFFFFFFFFFFC ∧ keeps 0x818 0x3FF ∧ keeps 0x820 0x00FFFFFFFFFFFFFF ∧ keeps 0x824 0xF80000000000003F))
    ∧ (1 ≤ t.priv.toNat → writes (.thrstat v) fun w => w.th.r = { t.r with ftz := v.getLsbD 11, rnd := v.extractLsb' 8 3, flags := t.r.flags &&& ~~~(v.extractLsb' 0 6) }
      ∧ w.th.priv = (if t.priv = 2 ∧ v.extractLsb' 40 2 ≠ 3 then v.extractLsb' 40 2 else t.priv) ∧ w.mem = s.mem)
    ∧ (t.priv = 2 → k ≠ 3 → writes (.trapvec k v) fun w => (spaceOf w t.id.asid).trapvec.toList[k.toNat]? =
        some (v &&& (if t.secure then 0xC0FFFFFFFFFFF3FF else 0x80FFFFFFFFFFF3FF)) ∧ w.th = t)
    ∧ (t.priv = 2 → h < 192 →
      (writes (.mboxbind h v) fun w => (hearthOf w h).mboxbind = v &&& 0xC00003FF00000000)
      ∧ (writes (.vlgrp h v) fun w => (hearthOf w h).vlgrp =
          let n := ((List.range 8).filter fun j => v.getLsbD j).length
          if 2 ≤ n ∧ n ≤ 6 then v.extractLsb' 0 8 else (hearthOf s h).vlgrp)
      ∧ (t.secure = true → writes (.hworld h v) fun w => (hearthOf w h).secure = if (hearthOf s h).quiesced then v.getLsbD 0 else (hearthOf s h).secure)
      ∧ (die < 4 → writes (.poisclr die v) fun w => v.toNat % 2 ^ 52 / 128 ∉ w.poison ∧ w.th = t
          ∧ (v.toNat % 2 ^ 52 / 128 ∈ s.poison → ∀ a, Mem.get w.mem a = if a / 128 = v.toNat % 2 ^ 52 / 128 then 0 else Mem.get s.mem a))
      ∧ (writes (.pwrcap v) fun w => w.cap = v.extractLsb' 40 12 ∧ w.th = t ∧ w.mem = s.mem))

/-- R27, R356 to R358: a trap leaves the thread trapped with its registers and PC as they were, the record of cause, class, flags, ASID, world,
PC, value and time, and a packet of the record to the handler of the class; where a class has none usable, the next class serves for
class 0 and for a secure thread. Blocks 9 and 15 are fetched where they are not resident (R27), unless it is the frame page that
does not serve. No other thread, no register and no memory changes. -/
def Obligations.TrapEntry : Prop :=
  ∀ (c : Cause) (v : Word) (n : Nat) (s : State), s.th.st ≠ .unborn → s.th.place = .strand n →
    let t := takeTrap c v s
    let x := t.th.record
    let vs := (spaceOf s s.th.id.asid).trapvec
    t.th = { s.th with st := .trapped, place := .off, record := x, wanted := if c = .pageContext then 0 else 0x8200 &&& ~~~s.th.resident } ∧ x.pc = s.th.r.pc ∧ x.value = v ∧ x.handler = 0 ∧ x.cyc = s.cyc
    ∧ (x.head.extractLsb' 0 8).toNat = c.code ∧ (x.head.extractLsb' 8 3).toNat = c.cls ∧ x.head.extractLsb' 32 10 = s.th.id.asid
    ∧ x.head.getLsbD 42 = s.th.secure ∧ x.head.getLsbD 11 = s.th.forge ∧ x.head.getLsbD 13 = s.th.packet.isSome ∧ x.head.getLsbD 15 = s.th.inTask
    ∧ t = { s with th := t.th, packets := t.packets }
    ∧ (∀ h, (handlerOf s.th.secure vs c.cls = some h) → t.packets = s.packets ++ [
        { kind := .trap s.th.id, dst := .thread ⟨h.extractLsb' 0 10, h.extractLsb' 12 44⟩, src := s.th.id, srcHearth := s.th.hearth, secure := s.th.secure,
          words := [BitVec.ofNat 64 (4 * 2 ^ 57 + 2 ^ 56 + s.th.id.ctx.toNat * 2 ^ 12 + s.node.toNat * 2), x.head, x.pc, v, s.cyc] }])
    ∧ (handlerOf s.th.secure vs c.cls = none → t.packets = s.packets)
    ∧ (∀ j < 3, ∀ w, vs.toList[j]? = some w → w.getLsbD 63 = true → (s.th.secure = false ∨ w.getLsbD 62 = true) → handlerOf s.th.secure vs j = some w)
    ∧ (s.th.secure = false → ∀ w, vs.toList[1]? = some w → w.getLsbD 63 = false → handlerOf false vs 1 = none)
    ∧ (s.th.secure = false → ∀ w, vs.toList[0]? = some w → w.getLsbD 63 = false → handlerOf false vs 0 = handlerOf false vs 1)

/-- R101, R350, R360, R363 to R365, R414: TRAPI completes and then traps with its operand, BRK traps at itself; TRET resumes a trapped thread at
its PC or after the record's word, or ends it, its exit value the cause, at once or once its operations and jobs are complete; HALTC quiesces a hearth and waits for it to empty, or
releases it; a debug unit stops and runs. At level 0 the privileged ones trap with PRIVILEGE. -/
def Obligations.TrapsAndReturns : Prop :=
  ∀ (g : Guard) (d a : Reg) (x : BitVec 8) (c : BitVec 1) (n : Nat) (t : Thread) (u : DebugUnit) (s : State), s.th.r.guard g = true →
    s.th.st = .running → s.th.place = .strand n →
    let r := s.th.r
    let w := r.rg d
    let cleared : Regs := if c = 1 then { t.r with flags := 0 } else t.r
    let traps (i : Instr) (code pc value : Word) (after : Regs) : Prop := ∃ z, exec i s = .next z ∧ z.th.st = .trapped ∧ z.th.r = after
      ∧ z.th.record.head.extractLsb' 0 8 = code.setWidth 8 ∧ z.th.record.head.extractLsb' 48 8 = x ∧ z.th.record.pc = pc ∧ z.th.record.value = value
      ∧ z.mem = s.mem
    traps (.trapi g a x) 0x31 r.advance.pc (r.rg a) r.advance
    ∧ traps (.brk g x) 0x30 r.pc 0 r
    ∧ (1 ≤ s.th.priv.toNat → (s.th.priv = 1 → w.extractLsb' 0 10 = s.th.id.asid) → w.extractLsb' 56 8 = 0 → w.extractLsb' 10 2 = 0 →
      t.id = ⟨w.extractLsb' 0 10, w.extractLsb' 12 44⟩ → liveThread s t.id = some t → t.id ≠ s.th.id → t.st = .trapped → t.place = .off →
      (t.secure = true → s.th.secure = true) → settled s → t.killed = none → t.queue = [] →
      let value := 0x8000000000000000 ||| (t.record.head &&& 0xFF)
      let kills (f : Thread → Prop) : Prop := ∃ z y, exec (.tretKill g d c) s = .next z ∧ z.th.r = r.advance ∧ findThread z t.id = some y
        ∧ y.packet = none ∧ y.queue = [] ∧ f y
      (t.forge = false → ∃ z y, exec (.tretResume g d c) s = .next z ∧ z.th.r = r.advance ∧ findThread z t.id = some y ∧ y.st = .ready ∧ y.r = cleared)
      ∧ (t.forge = false → t.r.frame.n = 0 →
          ∃ z y, exec (.tretSkip g d c) s = .next z ∧ z.th.r = r.advance ∧ findThread z t.id = some y ∧ y.st = .ready ∧ y.resume = 0
            ∧ y.r = if t.r.pc = t.record.pc then endTest 4 (codeAdd t.record.pc 4) cleared else cleared)
      ∧ ((t.enginesIdle && t.jobsDone) = false → kills fun y => y.st = .parked ∧ y.wait = .engines ∧ y.killed = some value ∧ y.r = t.r)
      ∧ (∀ pa, t.enginesIdle = true → t.jobsDone = true → awaitsRelease scopeSystem s t = false → frameHere t s pa →
          kills fun y => y.st = .done ∧ y.r.g.get 0 = value))
    ∧ (s.th.priv = 0 → ∀ i ∈ [Instr.tretResume g d c, .tretSkip g d c, .tretKill g d c, .haltcQuiesce g d, .haltcRelease g d],
        exec i s = .next (takeTrap .privilege ((encode i).setWidth 64) s))
    ∧ (s.th.priv = 2 → 191 < w.toNat → exec (.haltcQuiesce g d) s = .next (takeTrap .format w s) ∧ exec (.haltcRelease g d) s = .next (takeTrap .format w s))
    ∧ (s.th.priv = 2 → w.toNat ≤ 191 →
      (∃ z, exec (.haltcRelease g d) s = .next z ∧ (hearthOf z w.toNat).quiesced = false ∧ z.th.r = r.advance ∧ z.mem = s.mem)
      ∧ ((hearthOf s w.toNat).quiesced = true → exec (.haltcQuiesce g d) s = .next (s.completed r))
      ∧ ((hearthOf s w.toNat).quiesced = false → ∃ z, exec (.haltcQuiesce g d) s = .next z ∧ (hearthOf z w.toNat).quiesced = true ∧ z.mem = s.mem
          ∧ (drained s w.toNat = true → z.th.r = r.advance ∧ z.th.st = .running)
          ∧ (drained s w.toNat = false → z.th.r = r ∧ z.th.st = .parked ∧ z.th.wait = .halted w.toNat)))
    ∧ (partnerUnit s u = none → (moduleOf s u).stopped = false →
      ∃ z, exec (.dbgctlStop u) s = .next z ∧ moduleOf z u = { moduleOf s u with stop := true, stopped := true, reason := 1 } ∧ z.th = s.th ∧ z.mem = s.mem)
    ∧ (partnerUnit s u = none →
      ∃ z, exec (.dbgctlRun u) s = .next z ∧ moduleOf z u = { moduleOf s u with stop := false, stopped := false, reason := 0 } ∧ z.th = s.th ∧ z.mem = s.mem)

/-! ### Translation -/

/-- R349, R350, R391 to R394, R396: TLBW installs an entry in its bench's TLB, or fails a miss; TLBINV removes every matching entry of the TLBs
of its scope, answers its number and waits unless n is 1; TLBQ answers an entry, the misses in use, or the numbers of shootdowns;
CTXEVICT gives a block's place up, a dirty one written back first, CTXFILL fetches one into a place that is free or that an unpinned
block gives up; below level 2 they trap with PRIVILEGE.
The model's readings that it rests on are log entries 72 and 73. -/
def Obligations.WalkerWords : Prop :=
  ∀ (g : Guard) (d a : Reg) (k : BitVec 5) (n : BitVec 1) (sc : BitVec 3) (sel : BitVec 2) (bench j : Nat) (e : TlbEntry) (t : Thread) (b : Nat)
    (s s1 s2 : State) (p : Spot) (ps : List Spot), s.th.r.guard g = true → s.th.st = .running → s.th.place = .walker bench → bench < 24 →
    let r := s.th.r
    let w := r.rg k
    let word := r.rg (a + 1)
    let B := benchOf s bench
    (s.th.priv.toNat < 2 → ∀ i ∈ [Instr.tlbw g d k, .tlbinv g d a n sc, .tlbq g d a sel, .ctxevict g d k, .ctxfill g d k],
      exec i s = .next (takeTrap .privilege ((encode i).setWidth 64) s))
    ∧ (s.th.priv = 2 → w = BitVec.ofNat 64 bench → e = ⟨r.rg d, r.rg (d + 1)⟩ → badEntry e = false → (∀ x ∈ s.shootdowns, bench ∉ x.benches) →
      (∀ x ∈ threads s, x.queue = []) →
      ∃ u, exec (.tlbw g d k) s = .next u ∧ u.th.r = r.advance ∧ (benchOf u bench).tlb.head? = some (worldEntry s e)
        ∧ (benchOf u bench).misses = B.misses.filter (fun m => !(worldEntry s e).coversMiss m) ∧ u.mem = s.mem)
    ∧ (s.th.priv = 2 → badEntry ⟨r.rg d, r.rg (d + 1)⟩ = true → w = BitVec.ofNat 64 bench → exec (.tlbw g d k) s = .next (takeTrap .format (r.rg d) s))
    ∧ (s.th.priv = 2 → j < 256 → (∀ x ∈ threads s, x.queue = []) → w = BitVec.ofNat 64 (2 ^ 32 + 0x10 * 2 ^ 24 + j * 2 ^ 16 + bench) →
      ∃ u, exec (.tlbw g d k) s = .next u ∧ u.th.r = r.advance ∧ ∀ m ∈ (benchOf u bench).misses, m.index ≠ j ∧ m ∈ B.misses)
    ∧ (s.th.priv = 2 → badRange (r.rg a) word = false → settled s →
      ∃ u x, exec (.tlbinv g d a n sc) s = .next u ∧ u.th.r = (r.wg d (BitVec.ofNat 64 (B.shoot.last + 1))).advance ∧ x ∈ u.shootdowns
        ∧ x = { issuer := bench, n := B.shoot.last + 1, base := (r.rg a).toNat, word := word, benches := scopeBenches s.th sc.toNat, cyc := s.cyc, phases := x.phases }
        ∧ (∀ y ∈ x.benches, ∀ f ∈ (benchOf u y).tlb, x.matchesEntry f = false)
        ∧ (∀ y ∈ x.benches, ∀ h, h / 8 = y → ∀ f ∈ (hearthOf u h).l1, x.matchesEntry f = false)
        ∧ (n = 0 → u.th.st = .parked ∧ u.th.wait = .shootdown bench (B.shoot.last + 1)) ∧ (n ≠ 0 → u.th.st = .running))
    ∧ (s.th.priv = 2 → (r.rg a).extractLsb' 21 43 = 0 → (r.rg a).extractLsb' 10 6 = 0 → ((r.rg a).extractLsb' 16 5).toNat = bench →
      let f := (lookupTlb ((r.rg a).extractLsb' 0 10) (addr word) B.tlb).getD ⟨0, 0⟩
      (exec (.tlbq g d a 0) s = .next (s.completed ((r.wg d f.w0).wg (d + 1) f.w1)))
      ∧ exec (.tlbq g d a 1) s = .next (s.completed (r.wg d (BitVec.ofNat 64 B.misses.length)))
      ∧ exec (.tlbq g d a 2) s = .next (s.completed (r.wg d (BitVec.ofNat 64 B.shoot.completed)))
      ∧ exec (.tlbq g d a 3) s = .next (s.completed (r.wg d (BitVec.ofNat 64 B.shoot.last))))
    ∧ (s.th.priv = 2 → (r.rg d).extractLsb' 56 8 = 0 → (r.rg d).extractLsb' 10 2 = 0 → b < 16 → w = BitVec.ofNat 64 (2 ^ b) →
      t.id = ⟨(r.rg d).extractLsb' 0 10, (r.rg d).extractLsb' 12 44⟩ →
      (liveThread s t.id = none → exec (.ctxevict g d k) s = .next (s.completed (r.wg k 0)) ∧ exec (.ctxfill g d k) s = .next (s.completed (r.wg k 0)))
      ∧ (liveThread s t.id = some t → t.id ≠ s.th.id → (t.secure = true → s.th.secure = true) → (hasBlock t.resident b = true → pinned t b = false → hasBlock t.dirty b = false →
          ∃ u y, exec (.ctxevict g d k) s = .next u ∧ u.th.r = (r.wg k 0).advance ∧ liveThread u t.id = some y ∧ y.resident = clearBlock t.resident b
            ∧ y.r = t.r ∧ sameMemory s u)
        ∧ (placeBlockFor { blockAgent t with failed := s.th.failed } t b s = (.ok (p :: ps), s1) → p.node = none →
          (hasBlock t.resident b = true → pinned t b = false → hasBlock t.dirty b = true → accountsOff s t →
            ∃ u y, exec (.ctxevict g d k) s = .next u ∧ u.th.r = (r.wg k 0).advance ∧ liveThread u t.id = some y ∧ y.resident = clearBlock t.resident b
              ∧ readWords u.mem p.pa 32 = blockWords t b ∧ sameMemoryBut p.pa 256 s u)
          ∧ (hasBlock t.resident b = false → poisoned s1 p.pa 256 = false → cacheRoom t.hearth s1 = some s2 → liveThread s2 t.id = some t → accountsOff s2 t →
            ∃ u y, exec (.ctxfill g d k) s = .next u ∧ u.th.r = (r.wg k 0).advance ∧ liveThread u t.id = some y ∧ y.resident = setBlock t.resident b
              ∧ (hasBlock t.owed b = false → y.r = t.r.loadBlock b (readWords s1.mem p.pa 32)) ∧ u.mem = s2.mem))))

/-- R22, R27, R28, R388, R393, R397, R398: a miss that no entry covers takes an entry of its bench's table with its waiter; the oldest
shootdown of a bench completes once nothing waits for a removed translation, and its waiter goes on; a stalled thread whose reply or
translation has come goes on; a register block that a thread waits for arrives from its frame, an unpinned one leaves, written back if it is dirty, and
one whose page is refused stays and is noted.
The model's readings that it rests on are log entries 21, 22, 24, 39, 67 and 74. -/
def Obligations.TranslationEvents : Prop :=
  ∀ (bench i : Nat) (page : BitVec 44) (kind : BitVec 2) (d : Shootdown) (x : Thread) (blk : BitVec 4) (c : Cause) (s s1 : State) (p : Spot) (ps : List Spot),
    let B := benchOf s bench
    let b := blk.toNat
    liveThread s x.id = some x →
    (x.st = .stalledMemory → x.bench = bench → page.toNat * 4096 < 0xFFFFFFFFD00000 → lookupTlb x.id.asid (page.toNat * 4096) B.tlb = none →
      (∀ m ∈ B.misses, m.page ≠ page) → freeIndex B.misses = some i →
      ∃ u m, exec (.tlbBenchMiss bench x.id page kind) s = .next u ∧ (benchOf u bench).misses = B.misses ++ [m] ∧ m.index = i ∧ m.asid = x.id.asid
        ∧ m.page = page ∧ m.sent = false ∧ m.ctx = x.id.ctx ∧ m.waiters = [⟨.access x.id, page.toNat * 4096, kindOf kind⟩] ∧ u.th = s.th ∧ u.mem = s.mem)
    ∧ (s.shootdowns = [d] → d.issuer = bench → shootdownDone s d = true → B.shoot.ahead = [] → d.n = B.shoot.completed + 1 →
      ∃ u y, exec (.shootdownComplete bench) s = .next u ∧ u.shootdowns = [] ∧ (benchOf u bench).shoot.completed = d.n ∧ u.mem = s.mem
        ∧ liveThread u x.id = some y ∧ y.r = x.r ∧ (x.st = .parked → x.killed = none → x.wait = .shootdown bench d.n → y.wait = .none ∧ y.st ≠ .parked))
    ∧ (x.st = .stalledMemory → stillWaits s x.id = false →
      ∃ u y, exec (.memoryReply x.id) s = .next u ∧ liveThread u x.id = some y ∧ y = { x with st := .seated } ∧ u.mem = s.mem)
    ∧ (placeBlock x b s = (.ok (p :: ps), s1) → p.node = none →
      (hasBlock x.wanted b = true → hasBlock x.resident b = false → hasBlock x.owed b = false → blocksResident s x.hearth < 1024 →
        poisoned s1 p.pa 256 = false → accountsOff s x →
        ∃ u y, exec (.registerBlockArrive x.id blk) s = .next u ∧ liveThread u x.id = some y ∧ y.resident = setBlock x.resident b
          ∧ y.wanted = clearBlock x.wanted b ∧ y.r = x.r.loadBlock b (readWords s.mem p.pa 32) ∧ u.mem = s.mem
          ∧ (y.wanted = 0 → x.st = .stalledRegister → y.st = .seated))
      ∧ (hasBlock x.resident b = true → pinned x b = false → hasBlock x.dirty b = true → accountsOff s x →
        ∃ u y, exec (.registerBlockWriteback x.id blk) s = .next u ∧ liveThread u x.id = some y ∧ y.resident = clearBlock x.resident b ∧ y.r = x.r
          ∧ readWords u.mem p.pa 32 = blockWords x b ∧ sameMemoryBut p.pa 256 s u))
    ∧ (hasBlock x.resident b = true → pinned x b = false → hasBlock x.dirty b = false →
      ∃ u y, exec (.registerBlockWriteback x.id blk) s = .next u ∧ liveThread u x.id = some y ∧ y.resident = clearBlock x.resident b ∧ y.r = x.r ∧ u.mem = s.mem)
    ∧ (placeBlock x b s = (.fault c, s1) → hasBlock x.resident b = true → pinned x b = false → hasBlock x.dirty b = true → x.stuckBlock ≠ some b →
      x.st = .parked → ∃ u y, exec (.blockWritebackFail x.id blk) s = .next u ∧ liveThread u x.id = some y ∧ y = { x with stuckBlock := some b } ∧ u.mem = s.mem)

/-! ### Forge bundles: control and scalar slots -/

/-- R139, R250, R260: the operations of slot 0. BBR branches in bundles and closes the levels its target leaves; BLOOP opens a level over
the bundles after it, or skips them when the count is 0; BLEAVE starts the drain; BWAITTL goes on once the timeline has reached its
operand and freezes before; BSYNC at level 0 copies its operand, and at a level of the thread's arrives and freezes until the barrier
completes; under a false guard each of them, and an empty slot 0 always, only lets the next bundle follow.
The model's reading that it rests on is log entry 26. -/
def Obligations.ForgeControl : Prop :=
  ∀ (gd : SlotGuard) (o : BitVec 22) (d a : Reg) (len : BitVec 12) (e l k : BitVec 3) (i : Nat) (x : Word) (D : Domain) (s : State),
    let r := s.th.r
    let c := (r.rg d).toNat
    let start := codeAdd r.pc 32
    let stop := codeAdd start (BitVec.ofNat 64 (32 * len.toNat))
    let tl := s.th.timeline e.toNat
    let n := (r.rg a).toNat
    let value (reason : Nat) : Word := BitVec.ofNat 64 (reason * 2 ^ 56 + r.pc.toNat % 2 ^ 56 / 32 * 32)
    (r.slotGuard gd = false → exec (.bbr gd o) s = .next s.passed ∧ exec (.bloop gd d len) s = .next s.passed
      ∧ exec (.bleave gd) s = .next s.passed ∧ exec (.bwaittl gd a e) s = .next s.passed ∧ exec (.bsync gd d a l) s = .next s.passed)
    ∧ exec (.nop k) s = .next (if k = 0 then s.passed else s)
    ∧ (r.slotGuard gd = true →
      exec (.bbr gd o) s = .next (setRegs (jumpFrom 32 r.depth ((r.pc + 32 * o.signExtend 64) &&& 0x00FFFFFFFFFFFFFF) r) s)
      ∧ (c = 0 → exec (.bloop gd d len) s = .next (setRegs (endTest 32 stop r) s))
      ∧ (c ≠ 0 → c ≤ 0x3FFFFFF → r.depth < 6 → (0 < r.depth → stop.toNat ≤ ((r.lx (r.depth - 1)).endPc 32).toNat) →
          exec (.bloop gd d len) s = .next (setRegs
            { r.setLx r.depth ⟨start.extractLsb' 2 54, true, 0, BitVec.ofNat 26 c, len⟩ with pc := start } s))
      ∧ (c ≠ 0 → r.depth = 6 → exec (.bloop gd d len) s = .next (takeTrap .illegalSchedule (value 8) s))
      ∧ (0x3FFFFFF < c → r.depth = 0 → exec (.bloop gd d len) s = .next (takeTrap .format (r.rg d) s))
      ∧ (∃ t, exec (.bleave gd) s = .next t ∧ (hearthOf t s.th.hearth).forge.leaving = true ∧ t.th.r = { r with pc := start }
          ∧ (hearthOf t s.th.hearth).inflight = (hearthOf s s.th.hearth).inflight ∧ sameMemory s t)
      ∧ (tl.last < n → exec (.bwaittl gd a e) s = .next (takeTrap .format (r.rg a) s))
      ∧ (n ≤ tl.last → n ≤ tl.completed → exec (.bwaittl gd a e) s = .next s.passed)
      ∧ (n ≤ tl.last → tl.completed < n → exec (.bwaittl gd a e) s = .next (freezeFor 6 s))
      ∧ (landsFree s (.g d) 1 → exec (.bsync gd d a 0) s = .next (s.launched 0 (.g d) (.scalar (r.rg a)) 1).passed)
      ∧ (1 ≤ l.toNat → l.toNat ≤ 5 → s.th.domset.getLsbD (42 + l.toNat) = true → s.th.inTask = false → computing s s.th = none →
          openCollective s s.th.id = none → domainAt s s.th l.toNat = some i → domainGet s i = some D →
          awaitsRelease l.toNat s s.th = false →
          ∃ t, exec (.bsync gd d a l) s = .next t ∧ t.th.st = .frozen ∧ (hearthOf t s.th.hearth).frozen = some 7 ∧ t.th.r = r
            ∧ domainGet t i = some { D with arrivals := D.arrivals ++ [{ t := s.th.id, kind := .sync, operand := r.rg a, dst := d }] })
      ∧ (l ≠ 0 → openCollective s s.th.id = some i → domainGet s i = some D → D.resultOf s.th.id = some (.value x) → landsFree s (.g d) 1 →
          exec (.bsync gd d a l) s = .next
            ((modDomain i (fun d => { d with results := d.results.filter fun q => decide (q.1 ≠ s.th.id) }) s).launched 0 (.g d) (.scalar x) 1).passed))

/-- R58, R139, R251, R252, R255, R261, R262: a scalar slot reads its operands at issue and its result lands one advancing cycle later, the
operand being a register or the sign-extended immediate; SMOVQ pops or appends one unit of a scalar stream; a false guard leaves
everything as it is; two results for one destination in one cycle, and a stream that is not bound, raise ILLEGAL_SCHEDULE. -/
def Obligations.ForgeScalars : Prop :=
  ∀ (gd : SlotGuard) (d a b : Reg) (p : PReg) (i : BitVec 1) (x : BitVec 6) (c : BitVec 3) (w : BitVec 17) (q : QReg) (S : Stream)
    (u : StreamUnit) (s : State),
    let r := s.th.r
    let y := if i = 1 then (b ++ x).signExtend 64 else r.rg b
    let m := (y.extractLsb' 0 6).toNat
    let forms : List (Instr × Word) :=
      [(.sadd gd d a b i x, r.rg a + y), (.ssub gd d a b i x, r.rg a - y), (.smul gd d a b i x, r.rg a * y),
       (.sand gd d a b i x, r.rg a &&& y), (.sor gd d a b i x, r.rg a ||| y), (.sxor gd d a b i x, r.rg a ^^^ y),
       (.sshl gd d a b i x, r.rg a <<< m), (.sshr gd d a b i x, r.rg a >>> m), (.sli gd d w, w.signExtend 64)]
    let z : Word := if i = 1 then b.signExtend 64 else r.rg b
    (r.slotGuard gd = false → (∀ f ∈ forms, exec f.1 s = .next s) ∧ exec (.scmp gd p a b i c) s = .next s
      ∧ exec (.smovqPop gd d q) s = .next s ∧ exec (.smovqAppend gd q a) s = .next s)
    ∧ (r.slotGuard gd = true →
      (landsFree s (.g d) 1 → ∀ f ∈ forms, exec f.1 s = .next (s.launched 1 (.g d) (.scalar f.2) 1))
      ∧ (¬ landsFree s (.g d) 1 → ∀ f ∈ forms,
          exec f.1 s = .next (takeTrap .illegalSchedule (BitVec.ofNat 64 (2 ^ 56 + r.pc.toNat % 2 ^ 56 / 32 * 32 + 1)) s))
      ∧ (c.toNat ≤ 5 → landsFree s (.p p) 1 → ∃ t, exec (.scmp gd p a b i c) s = .next (s.launched 1 (.p p) (.scalar (if t then 1 else 0)) 1)
          ∧ (t = true ↔ match c.toNat with
            | 0 => r.rg a = z
            | 1 => r.rg a ≠ z
            | 2 => (r.rg a).toInt < z.toInt
            | 3 => (r.rg a).toInt ≤ z.toInt
            | 4 => (r.rg a).toNat < z.toNat
            | _ => (r.rg a).toNat ≤ z.toNat))
      ∧ (headUnit s q scalarUnit S u → landsFree s (.g d) 1 → ∃ v, exec (.smovqPop gd d q) s = .next
            ((s.restream q { S with used := S.used + 1, units := S.units.drop 1 }).launched 1 (.g d) (.scalar v) 1)
          ∧ (∀ f k bs, u = .bytes f k bs → S.shape.fmt < 5 → v = BitVec.ofNat 64 (bytesToNat bs)))
      ∧ (takesMore s q scalarUnit S → exec (.smovqAppend gd q a) s = .next
            ((s.restream q { S with used := S.used + 1 }).launched 1 (.q q) (.scalar (r.rg a)) 1))
      ∧ ((hearthOf s s.th.hearth).forge.stream q = none →
          let t := takeTrap .illegalSchedule (BitVec.ofNat 64 (5 * 2 ^ 56 + r.pc.toNat % 2 ^ 56 / 32 * 32 + 1)) s
          exec (.smovqPop gd d q) s = .next t ∧ exec (.smovqAppend gd q a) s = .next t))

/-! ### Forge bundles: vector slots, the crossbar and streams -/

/-- R222, R226, R227, R229, R230, R251, R253, R263, R266: a vector slot takes each operand from a v register or from the head of a stream, and its
result lands in a v register or on a stream: BVADD, BVMUL, BVMAX and BVFMA element by element in the type's arithmetic, BVCMP as one
predicate over the elements' conditions, BVCVT, BVQNT with the block exponent in a g register, BVMOV and BVSEL; the flags are ORed in
at issue.
The model's reading that it rests on is log entry 29. -/
def Obligations.ForgeVectors : Prop :=
  ∀ (gd : SlotGuard) (sl : BitVec 1) (d a b : Reg) (p : PReg) (ty : BitVec 2) (qa qb qd : BitVec 1) (mode : BitVec 3) (red : BitVec 2)
    (c : BitVec 3) (x y : Vec) (s s1 s2 : State), s.th.r.slotGuard gd = true →
    let k := 2 + sl.toNat
    let ints := 2 ≤ ty.toNat
    let w := if ty = 0 ∨ ty = 2 then 32 else if ty = 1 then 16 else 8
    let f := if ty = 0 then f32 else bf16
    let num (n : Nat) : Int := if 2 ^ (w - 1) ≤ n then (n : Int) - 2 ^ w else n
    let val (v : Vec) (r : Regs) (j : Nat) : FVal := f.read r.ftz (lane w v j)
    let lands (t : State) (i : Instr) (v : Vec) (latency : Nat) : Prop :=
      takesResult t qd d latency → exec i s = .next (t.resulted k qd d v latency)
    let raised (h : Nat → Nat × BitVec 6) (t : State) : State :=
      setRegs (t.th.r.raise (orFlags ((List.range (512 / w)).map fun j => (h j).2))) t
    let floats (i : Instr) (h : Nat → Nat × BitVec 6) : Prop :=
      ¬ ints → ∃ v, (∀ j < 512 / w, lane w v j = (h j).1 % 2 ^ w) ∧ lands (raised h s2) i v 3
    let wraps (i : Instr) (h : Nat → Int) : Prop :=
      ints → ∃ v, (∀ j < 512 / w, (lane w v j : Int) = h j % 2 ^ w) ∧ lands s2 i v 3
    (operandOf s qa a = some (x, s1) → operandOf s1 qb b = some (y, s2) →
      let r := s2.th.r
      floats (.bvadd gd sl d a b ty qa qb qd) (fun j => f.add r.rounding (val x r j) (val y r j))
      ∧ floats (.bvmul gd sl d a b ty qa qb qd) (fun j => f.mul r.rounding (val x r j) (val y r j))
      ∧ floats (.bvmax gd sl d a b ty qa qb qd) (fun j => f.pick r.ftz true (lane w x j) (lane w y j))
      ∧ wraps (.bvadd gd sl d a b ty qa qb qd) (fun j => (lane w x j : Int) + lane w y j)
      ∧ wraps (.bvmul gd sl d a b ty qa qb qd) (fun j => (lane w x j : Int) * lane w y j)
      ∧ wraps (.bvmax gd sl d a b ty qa qb qd) (fun j => max (num (lane w x j)) (num (lane w y j)))
      ∧ (¬ ints → let h j := f.fma r.rounding (val x r j) (val y r j) (val (r.rv d) r j)
          landsFree s (.v d) 4 → ∃ v, (∀ j < 512 / w, lane w v j = (h j).1 % 2 ^ w)
            ∧ exec (.bvfma gd sl d a b ty qa qb) s = .next ((raised h s2).launched k (.v d) (.vector v) 4)))
    ∧ (operandOf s qa a = some (x, s1) →
      lands s1 (.bvmov gd sl d a qa qd) x 1
      ∧ (let src := (vcvtFormats (slotConversion ty)).1
         let dst := (vcvtFormats (slotConversion ty)).2
         let n := 512 / max (fmtBits src) (fmtBits dst)
         mode.toNat ≤ 3 → ∃ v fl, lands (setRegs (s1.th.r.raise fl) s1) (.bvcvt gd sl d a ty qa qd mode) v 4 ∧ ∀ j < 512 / fmtBits dst,
           lane (fmtBits dst) v j = if j < n then (convert src dst ⟨mode.toNat, s1.th.r.ftz⟩ 0 (lane (fmtBits src) x j)).1 % 2 ^ fmtBits dst else 0)
      ∧ (let g := if ty.getLsbD 0 then bf16 else f32
         let K := if ty.getLsbD 1 then 8 else 16
         let z := quantise K ((List.range (512 / g.width)).map fun j => g.decode (lane g.width x j))
         ∃ v, (∀ j < 512 / nestedBits K, lane (nestedBits K) v j = unsignedBits (nestedBits K) (z.2.1.getD j 0))
           ∧ let t := setRegs (s1.th.r.raise z.2.2) s1
             let o := t.resulted k qd d v 4
             takesResult t qd d 4 → landsFree o (.g b) 4 → exec (.bvqnt gd sl d a b ty qa qd) s = .next (o.launched k (.g b) (.scalar (BitVec.ofInt 64 z.1)) 4)))
    ∧ (landsFree s (.v d) 1 → exec (.bvsel gd sl d a b p) s = .next
        (s.launched k (.v d) (.vector (if s.th.r.rp p then s.th.r.rv a else s.th.r.rv b)) 1))
    ∧ (red.toNat ≤ 2 → c.toNat ≤ 5 → landsFree s (.p p) 2 →
        let h j := laneCondition (slotType ty) c.toNat s.th.r.ftz (lane w (s.th.r.rv a) j) (lane w (s.th.r.rv b) j)
        ∃ t, exec (.bvcmp gd sl p a b ty red c) s = .next
            ((setRegs (s.th.r.raise (orFlags ((List.range (512 / w)).map fun j => (h j).2))) s).launched k (.p p) (.scalar (if t then 1 else 0)) 2)
          ∧ (t = true ↔ if red = 0 then ∃ j < 512 / w, (h j).1 = true else if red = 1 then ∀ j < 512 / w, (h j).1 = true else (h 0).1 = true))

/-- R84, R251, R253, R254, R264 to R270, R427: the crossbar moves elements with latency 2; QBIND binds a generator over a shape record or a
receive buffer to a channel; QADV passes units, and QWAITF and QWAITE wait for units and for performed writes; results land, units
are read ahead, written units are performed, and channel units enter their buffer.
The model's readings that it rests on are log entries 27, 28 and 33. -/
def Obligations.CrossbarAndStreams : Prop :=
  ∀ (gd : SlotGuard) (d a b : Reg) (w : BitVec 2) (i : BitVec 6) (q : QReg) (kind unit : BitVec 2) (sh : BitVec 3) (m : BitVec 8)
    (S : Stream) (n h : Nat) (u : StreamUnit) (s : State), s.th.st ≠ .unborn →
    let r := s.th.r
    let k := 8 * 2 ^ w.toNat
    let N := 512 / k
    let home := s.th.hearth
    let x := shapeOf s sh
    let value (reason : Nat) : Word := BitVec.ofNat 64 (reason * 2 ^ 56 + r.pc.toNat % 2 ^ 56 / 32 * 32 + 7)
    let bound : Prop := (hearthOf s home).forge.stream q = some S ∧ S.held = false
    let place (j : Nat) : Nat := lane k (r.rv b) j % N
    let v' (f : Nat → Nat → Prop) (ins : Instr) : Prop :=
      landsFree s (.v d) 2 → ∃ v, exec ins s = .next (s.launched 6 (.v d) (.vector v) 2) ∧ ∀ j < N, f j (lane k v j)
    (r.slotGuard gd = false → ∀ ins ∈ [.xperm gd d a b w, .xbcast gd d a w i, .xrot gd d a w i, .qbind gd q kind unit sh a, .qadv gd q a,
        .qwaitf gd q m, .qwaite gd q], exec ins s = .next s)
    ∧ (r.slotGuard gd = true →
      (v' (fun _ e => e = if i.toNat < N then lane k (r.rv a) i.toNat else e) (.xbcast gd d a w i))
      ∧ v' (fun j e => ∀ o < N, (o + i.toNat) % N = j → e = lane k (r.rv a) o) (.xrot gd d a w i)
      ∧ ((∀ j < N, ∀ o < N, place j = place o → j = o) →
          v' (fun j e => (∀ o < N, place o = j → e = lane k (r.rv a) o) ∧ ((∀ o < N, place o ≠ j) → e = 0)) (.xperm gd d a b w))
      ∧ (∀ j < N, ∀ o < N, place j = place o → j ≠ o → exec (.xperm gd d a b w) s = .next
          (takeTrap .illegalSchedule (BitVec.ofNat 64 (2 * 2 ^ 56 + r.pc.toNat % 2 ^ 56 / 32 * 32 + 6)) s))
      ∧ ((hearthOf s home).forge.stream q = none → kind ≠ receiveKind → ShapeRead s sh → unitAccepts kind unit x = true →
          ∃ t, exec (.qbind gd q kind unit sh a) s = .next t ∧ t.th.r = r ∧ sameMemory (afterShape s sh) t
            ∧ (hearthOf t home).forge.stream q = some { kind := kind, unit := unit, shape := x }
            ∧ ∀ p, p ≠ q → (hearthOf t home).forge.stream p = (hearthOf s home).forge.stream p)
      ∧ ((hearthOf s home).forge.stream q = none → ShapeRead s sh → kind ≠ receiveKind → unitAccepts kind unit x = false →
          ∃ t, exec (.qbind gd q kind unit sh a) s = .next t ∧ t.th.st = .trapped ∧ t.th.record.value = BitVec.ofNat 64 x.place
            ∧ t.th.record.head.extractLsb' 0 8 = 0x07 ∧ (hearthOf t home).forge.stream q = none)
      ∧ ((hearthOf s home).forge.stream q = none → addr (r.rg a) % 16 = 0 →
          let va := addr (r.rg a)
          let w := loaded s va 16
          let base := w % 2 ^ 56
          let size := w / 2 ^ 64 % 2 ^ 32
          let channel := BitVec.ofNat 16 (w / 2 ^ 96)
          let s1 := fetched s va 16
          let s2 := translated s1 va 16 .load
          let s3 := translated s2 base 1 .load
          let s4 := translated s3 (base + size - 1) 1 .load
          Readable s va 16 → w / 2 ^ 56 % 2 ^ 8 = 0 → w / 2 ^ 112 = 0 → (∃ e, 12 ≤ e ∧ e ≤ 20 ∧ size = 2 ^ e) → base % size = 0 →
          resolves s1 va 16 .load → landsOwn s1 va 16 .load → resolves s2 base 1 .load → landsOwn s2 base 1 .load →
          resolves s3 (base + size - 1) 1 .load → landsOwn s3 (base + size - 1) 1 .load → receiver (hearthOf s4 home) channel = none →
          ∃ t, exec (.qbind gd q receiveKind unit sh a) s = .next t ∧ t.th.r = r ∧ sameMemory s1 t ∧ (hearthOf t home).forge.stream q =
            some { kind := receiveKind, unit := unit, shape := ⟨va, []⟩, channel := channel, base := base, size := size })
      ∧ (bound → let c := (r.rg a).toNat
          (S.kind = receiveKind → c ≤ S.units.length →
            exec (.qadv gd q a) s = .next (s.restream q { S with used := S.used + c, units := S.units.drop c }))
          ∧ (S.kind = writeKind → S.used + c ≤ S.total →
            exec (.qadv gd q a) s = .next (s.restream q { S with used := S.used + c, position := S.position + c }))
          ∧ (S.kind = readKind → S.used + c ≤ S.total → exec (.qadv gd q a) s = .next (s.restream q
              { S with
                used := S.used + c
                units := S.units.drop c
                position := max S.position (S.used + c)
                piece := if S.position < S.used + c then 0 else S.piece
                got := if S.position < S.used + c then [] else S.got }))
          ∧ (S.kind ≠ receiveKind → m.toNat + 1 ≤ S.capacity → exec (.qwaitf gd q m) s =
              .next (if m.toNat + 1 ≤ S.units.length then s else freezeFor 8 s))
          ∧ (S.kind ≠ receiveKind → S.capacity ≤ m.toNat → exec (.qwaitf gd q m) s = .next
              (takeTrap .illegalSchedule (value 10) s))
          ∧ (S.kind = writeKind → exec (.qwaite gd q) s =
              .next (if appendsPending s home q = false ∧ s.th.queue = [] then s else freezeFor 9 s))
          ∧ (S.kind ≠ writeKind → exec (.qwaite gd q) s = .next (takeTrap .illegalSchedule (value 10) s)))
      ∧ ((hearthOf s home).forge.stream q = none → exec (.qwaite gd q) s = .next (takeTrap .illegalSchedule (value 10) s)
          ∧ exec (.qadv gd q a) s = .next (takeTrap .illegalSchedule (value 5) s)
          ∧ exec (.qwaitf gd q m) s = .next (takeTrap .illegalSchedule (value 5) s)))
    ∧ (seatThread s home = some s.th.id → let H := hearthOf s home
      ((∀ p, appendBlocked H p = false) → ∃ t, exec (.resultLanding home) s = .next t
          ∧ (hearthOf t home).inflight = (H.inflight.filter fun e => decide (1 < e.remain)).map (fun e => { e with remain := e.remain - 1 })
          ∧ (∀ g e, g ≠ 0 → (∃ z ∈ H.inflight, z.slot < 8 ∧ z.remain = 1 ∧ z.dst = .g g) →
              (∀ z ∈ H.inflight, z.dst = .g g → z.remain ≤ 1 → z.value = .scalar e) → t.th.r.rg g = e)
          ∧ (∀ g, (∀ z ∈ H.inflight, z.dst = .g g → 1 < z.remain) → t.th.r.rg g = r.rg g) ∧ sameMemory s t)
      ∧ ((∃ p, appendBlocked H p = true) → exec (.resultLanding home) s = .next (freezeFor 2 s))
      ∧ (H.forge.stream q = some S → S.kind = readKind → S.position < S.total → S.units.length < S.capacity → S.piece = 0 → S.got = [] →
          s.th.inTask = false → ReadsPieces q (S.pieces S.position) s →
          ∃ t, exec (.streamUnitArrive home q) s = .next t ∧ t.th.r = r ∧ sameMemory (afterPieces q (S.pieces S.position) s) t
            ∧ (hearthOf t home).forge.stream q = some { S with
                units := S.units ++ [.bytes S.shape.fmt (ptrBlk S.shape.base) (piecesOf q (S.pieces S.position) s)]
                position := S.position + 1 })
      ∧ (∀ va z, H.forge.stream q = some S → S.appends.head? = some (n, u) → S.shape.chan = 0 → S.piece = 0 → S.sent = false → S.failed = none →
          s.th.failed = none → streamStoresOut s home q = false → S.pieces n = [(va, z)] → u.raw.length = z → Writable s va z → landsOwn s va z .store →
          ∃ t, exec (.streamWritePerform home q) s = .next t ∧ (hearthOf t home).forge.stream q = some { S with appends := S.appends.drop 1 }
            ∧ Mem.read t.mem (landing s va z .store) z = bytesToNat u.raw ∧ sameMemoryBut (landing s va z .store) z s t)
      ∧ (∀ s1, H.forge.stream q = some S → S.appends.head? = some (n, u) → S.shape.chan = 0 → S.sent = false → streamStoresOut s home q = false →
          storeUnit home q S n u.raw s = .ok true s1 → s1.th.st = s.th.st → s1.remotes = s.remotes →
          ∃ t, exec (.streamWritePerform home q) s = .next t ∧ sameMemory s1 t
            ∧ (hearthOf t home).forge.stream q = (hearthOf (putHearth s1 home (dropAppend q (hearthOf s1 home))) home).forge.stream q)
      ∧ (H.forge.stream q = some S → S.appends.head? = some (n, u) → S.shape.chan ≠ 0 → S.node = s.node →
          ∃ t, exec (.streamWritePerform home q) s = .next t
            ∧ (hearthOf t home).forge.stream q = some { S with appends := S.appends.drop 1, piece := 0, sent := false, failed := none }
            ∧ t.units = s.units ++ [{ hearth := S.peer, channel := S.channel, item := u, src := some (.stream home q.toNat) }] ∧ sameMemory s t))
    ∧ (∀ U, s.units[n]? = some U → U.hearth = h → receiver (hearthOf s h) U.channel = some q → (hearthOf s h).forge.stream q = some S →
        ((s.units.take n).any fun V => decide (V.hearth = U.hearth ∧ V.channel = U.channel ∧ V.src = U.src)) = false →
        S.units.foldl (fun z V => z + unitSize S V) 0 + unitSize S U.item ≤ S.size →
        ∃ t, exec (.channelUnitReceive n) s = .next t ∧ t.units = s.units.eraseIdx n
          ∧ (hearthOf t h).forge.stream q = some { S with units := S.units ++ [U.item], position := S.position + 1, piece := 0, got := [] } ∧ t.th = s.th ∧ sameMemory s t)

/-! ### The Anvil -/

/-- R64 to R67, R271 to R276: AWLD loads a tile from memory or from the bank queue, or freezes while the bank loads; ASWAP selects a bank;
AISS puts the exact partial sums of its rows on their way to the scale port, and waits or is refused when it may not; the sums come
nearer every cycle, and SCEXP adds those that stand on the port into their cells, each at eA + eB + bias; AZERO clears rows; ASHOUT
starts a drain, which reads, and with clr clears, one row a cycle; APROV reads the record or the status word.
The model's readings that it rests on are log entries 30, 31 and 32. -/
def Obligations.AnvilOperations : Prop :=
  ∀ (gd : SlotGuard) (bank set rb two clr : BitVec 1) (src fmt : BitVec 2) (a d : Reg) (pw : BitVec 3) (q : QReg) (pa : BitVec 4)
    (r n : BitVec 7) (rows : List Row) (data : List Host.Cell) (tag : Word) (planes k len : Nat) (D : Drain)
    (rest : List (List Host.Cell × Word × Nat)) (S : Stream) (P : PortSums) (E : ExpEntry) (es : List ExpEntry) (s : State), s.th.st ≠ .unborn →
    let home := s.th.hearth
    let T := s.th
    let H := hearthOf s home
    let F := H.forge
    let B := H.bank bank
    let Q := H.bankQueue.toList.getD bank.toNat []
    let withForge (f : ForgeState) : State := putHearth s home { H with forge := f }
    let illegally (reason slot : Nat) : Out :=
      .next (takeTrap .illegalSchedule (BitVec.ofNat 64 (reason * 2 ^ 56 + T.r.pc.toNat % 2 ^ 56 / 32 * 32 + slot)) s)
    (T.r.slotGuard gd = false → ∀ i ∈ [.awld gd bank src a pw, .aswapSlot gd set bank, .aiss gd q rb two pa r, .azero gd r n,
        .ashout gd q fmt clr r n, .aprov gd d set clr, .scexp gd a], exec i s = .next s)
    ∧ (T.r.slotGuard gd = true →
      (B.pinned = none → B.loading = none → Q = (data, tag, planes) :: rest → (tileTag tag (pw.toNat + 1)).isSome →
          exec (.awld gd bank 1 a pw) s = .next (putHearth s home
            { H.setBank bank (B.load T.id.asid T.secure .awld 0 tag (min (pw.toNat + 1) planes) data none) with
              bankQueue := H.bankQueue.setIfInBounds bank.toNat rest }))
      ∧ (B.pinned = none → B.loading.isSome ∨ Q = [] → exec (.awld gd bank 1 a pw) s = .next (freezeFor 5 s))
      ∧ (let va := addr (T.r.rg a)
        (tileTag (T.r.rg a) (pw.toNat + 1) = none → exec (.awld gd bank 0 a pw) s = .next (takeTrap .format (T.r.rg a) s))
        ∧ (tileTag (T.r.rg a) (pw.toNat + 1) = some (k, len) → va % 64 ≠ 0 →
            exec (.awld gd bank 0 a pw) s = .next (takeTrap .misaligned (BitVec.ofNat 64 va) s))
        ∧ (tileTag (T.r.rg a) (pw.toNat + 1) = some (k, len) → va % 64 = 0 → resolves s va 1 .load → B.pinned = none → B.loading = none →
            let s1 := translated s va 1 .load
            let pa := landing s va 1 .load
            let pieces := tilePieces k len (pw.toNat + 1) va
            refreshHolds s1 (placesOf s va 1 .load) = false → ((localHearth pa).isSome ∨ (ingotDie pa).isSome) → Reads pieces s1 →
            ∃ t x, exec (.awld gd bank 0 a pw) s = .next t ∧ x = (hearthOf t home).bank bank ∧ t.th.r = T.r ∧ sameMemory (afterReads pieces s1) t
              ∧ x.valid = true ∧ x.fmt = ptrFmt (T.r.rg a) ∧ x.blk = ptrBlk (T.r.rg a) ∧ x.planes = pw.toNat + 1 ∧ x.asid = T.id.asid
              ∧ x.secure = T.secure ∧ x.va = va ∧ x.data = cellsOf (tileBytes k len (pw.toNat + 1) (bytesOf pieces s1))
              ∧ x.loading = some (loadCycles pa (pw.toNat + 1)) ∧ x.defer = (if F.busyBank = bank then F.busy else 0)
              ∧ (hearthOf t home).bank (~~~bank) = H.bank (~~~bank)))
      ∧ exec (.aswapSlot gd set bank) s = .next (withForge { F with sel := if set = 1 then bank else ~~~F.sel })
      ∧ (let x := H.bank F.sel
        let m := 1 + two.toNat
        let ready := x.usable T.id.asid T.secure = true ∧ F.busy = 0 ∧ F.expQueue.length < 16 ∧ r.toNat + two.toNat ≤ 127
        (x.usable T.id.asid T.secure = false → exec (.aiss gd q rb two pa r) s = illegally 11 4)
        ∧ (x.usable T.id.asid T.secure = true → F.busy ≠ 0 → exec (.aiss gd q rb two pa r) s = illegally 3 4)
        ∧ (ready → F.rowBuf.length < m → exec (.aiss gd q 1 two pa r) s = illegally 12 4)
        ∧ (ready → m ≤ F.rowBuf.length → ((F.rowBuf.take m).all fun y => suits y (pa.toNat + 1) x) = false →
            exec (.aiss gd q 1 two pa r) s = .next (takeTrap .format 0 s))
        ∧ (ready → m ≤ F.rowBuf.length → ((F.rowBuf.take m).all fun y => suits y (pa.toNat + 1) x) = true → x.loading.isSome →
            exec (.aiss gd q 1 two pa r) s = .next (freezeFor 4 s))
        ∧ (ready → rowsAt s q rb m = some rows → (rows.all fun y => suits y (pa.toNat + 1) x) = true → x.loading = none →
            (rb = 0 → F.stream q = some S) →
            ∃ t, exec (.aiss gd q rb two pa r) s = .next t ∧ t.th = T ∧ sameMemory s t ∧
              let G := (hearthOf t home).forge
              G.busy = pa.toNat + 1 ∧ G.busyBank = F.sel ∧ G.issued = F.issued + 1 ∧ G.rowBuf = (if rb = 0 then rows else F.rowBuf) ∧ G.cells = F.cells
              ∧ (rb = 0 → G.stream q = some { S with used := S.used + m, units := S.units.drop m })
              ∧ G.expQueue = F.expQueue ++ [⟨rows.map fun y => y.blocks.map (·.1),
                  (List.range 256).map fun j => (x.column x.planes j).map (·.1), r.toNat, decide (two = 1)⟩]
              ∧ ∃ y, G.port = F.port ++ [y] ∧ y.remain = pa.toNat + 1 + 8 ∧ y.rows = rows.map fun z => (List.range 256).map fun j =>
                  ((z.read (pa.toNat + 1)).zip (x.column x.planes j)).map fun c => ((c.1.zip c.2.2).map fun e => e.1 * e.2).sum))
      ∧ (F.port.find? (fun x => decide (x.remain = 0)) = some P → F.expQueue = E :: es →
          let bias := ((T.r.rg a).extractLsb' 0 16).toInt
          ∃ t, exec (.scexp gd a) s = .next t ∧ t.th = T ∧ sameMemory s t ∧ (hearthOf t home).forge.expQueue = es
            ∧ (hearthOf t home).forge.port = F.port.filter (fun x => decide (x.remain ≠ 0))
            ∧ ∀ i j sums ea xs eb, i < 2 → j < 256 → P.rows[i]? = some sums → E.exps[i]? = some ea → sums[j]? = some xs → E.tile.getD j [] = eb →
                xs.length ≤ ea.length → xs.length ≤ eb.length → (∀ v ∈ P.rows, v.length ≤ 256) →
                cellAt (hearthOf t home).forge.cells ((E.r + i) * 256 + j) = Cell.addAll (cellAt F.cells ((E.r + i) * 256 + j))
                  ((xs.zip (ea.zip eb)).map fun v => (v.1, v.2.1 + v.2.2 + bias)))
      ∧ ((∀ x ∈ F.port, x.remain ≠ 0) → exec (.scexp gd a) s = .next (withForge { F with scexpIdle := true }))
      ∧ (r.toNat + n.toNat ≤ 127 → ∃ t, exec (.azero gd r n) s = .next t ∧ t.th = T ∧ sameMemory s t ∧ ∀ c,
          cellAt (hearthOf t home).forge.cells c = if r.toNat * 256 ≤ c ∧ c < (r.toNat + n.toNat + 1) * 256 then {} else cellAt F.cells c)
      ∧ (127 < r.toNat + n.toNat → exec (.azero gd r n) s = illegally 9 4)
      ∧ (F.drain = none → F.stream q = some S → S.drain = true → S.shape.fmt = [1, 2, 8, 0].getD fmt.toNat 0 → S.held = false →
          r.toNat + n.toNat ≤ 127 → S.used + (n.toNat + 1) ≤ S.total → ∃ t, exec (.ashout gd q fmt clr r n) s = .next t ∧ t.th = T
            ∧ (hearthOf t home).forge.stream q = some { S with used := S.used + (n.toNat + 1) } ∧ (hearthOf t home).forge.drain =
              some { q := q, fmt := S.shape.fmt, clr := decide (clr = 1), r := r.toNat, n := n.toNat + 1, wait := 3 })
      ∧ (landsFree s (.g d) 2 → ∃ w, exec (.aprov gd d 1 0) s = .next (s.launched 4 (.g d) (.scalar w) 2)
          ∧ w.getLsbD 6 = F.sel.getLsbD 0 ∧ w.getLsbD 5 = (H.bank 1).loading.isSome ∧ w.getLsbD 4 = (H.bank 0).loading.isSome
          ∧ w.getLsbD 3 = (H.bank 1).usable T.id.asid T.secure ∧ w.getLsbD 2 = (H.bank 0).usable T.id.asid T.secure
          ∧ w.getLsbD 1 = F.scexpMiss ∧ w.getLsbD 0 = F.scexpIdle ∧ w.toNat < 128)
      ∧ (d.getLsbD 0 = false → landsFree s (.g d) 2 → landsFree s (.g (d + 1)) 2 → exec (.aprov gd d 0 0) s =
          .next ((s.launched 4 (.g d) (.scalar F.prov.w0) 2).launched 4 (.g (d + 1)) (.scalar F.prov.w1) 2)))
    ∧ (seatThread s home = some T.id →
      (let missed := F.scexpMiss || F.port.any (fun x => decide (x.remain = 0))
       let nearer := (F.port.filter fun x => decide (x.remain ≠ 0)).map fun x => { x with remain := x.remain - 1 }
       exec (.scalePortSums home) s = .next (withForge { F with scexpMiss := missed, port := nearer }))
      ∧ (F.drain = some D → D.k < D.n → D.wait ≤ 1 → ∃ t, exec (.ashoutRowDrain home) s = .next t ∧ sameMemory s t
          ∧ t.th = { T with r := { T.r with flags := t.th.r.flags } } ∧ t.th.r.flags &&& T.r.flags = T.r.flags ∧
          let row := D.r + D.k
          let G := (hearthOf t home).forge
          G.drain = some { D with k := D.k + 1, wait := 1 }
          ∧ G.drained = F.drained ++ [(D.q, 3, .bytes D.fmt 0
              ((List.range 256).flatMap fun j => (drainCell D.fmt T.r.ftz (cellAt F.cells (row * 256 + j))).1))]
          ∧ ∀ c, cellAt G.cells c = if D.clr = true ∧ row * 256 ≤ c ∧ c < (row + 1) * 256 then {} else cellAt F.cells c))
    ∧ (B.loading = some 0 → exec (.bankLoadComplete home bank) s = .next (putHearth s home (H.setBank bank { B with loading := none })))

/-! ### Engine operations: Tongs and matrix jobs -/

/-- R80, R98, R270, R277 to R279, R291 to R295: CPY, GATH, SCAT, XFER and XCHG, and their forge forms, read their record as a load, take the next
number of context 1 and go on; a record that breaks its limits traps with FORMAT and its address. An engine reads and writes the
bytes of a page of this package, and a write to a read-only page ends the operation; CPY copies, a GATH row and a SCAT row move
between an indexed row and a packed one, a list's entry copies; and an operation whose effects are performed writes its status with
the done bit and completes its number.
The model's readings that it rests on are log entries 35, 37, 52, 77, 78, 81 and 87. -/
def Obligations.TongsOperations : Prop :=
  ∀ (g : Guard) (gd : SlotGuard) (d a b : Reg) (q : QReg) (l : BitVec 8) (p : Spot) (ps : List Spot) (t : ThreadId) (n va k : Nat)
    (o z : EngineOp) (m : WriteMode) (e : Entry) (bs : List Byte) (S : Stream) (D : Domain) (x : Thread) (s s1 s2 : State),
    s.th.st ≠ .unborn →
    let r := s.th.r
    let s0 := drainHearth s.th.view s
    let home := s.th.hearth
    let next := (s.th.timeline 1).last + 1
    let number : Word := BitVec.ofNat 64 next
    let rec_ := addr (r.rg a)
    let op (kind : EngineKind) (ws : List Word) : EngineOp := s.th.operation kind 1 next rec_ ws
    let word (i : Instr) (u : State) (o : EngineOp) : Prop := ∃ t, exec i s = .next t ∧ t.th.r = (r.wg d number).advance ∧ Issued s u t o
    let bundle (i : Instr) (u : State) (o : EngineOp) : Prop := ∃ t, exec i s = .next t ∧ t.th.r = r ∧ Issued s u t o
      ∧ (d ≠ 0 → (hearthOf t home).inflight = (hearthOf s0 home).inflight ++ [⟨5, .g d, .scalar number, 1⟩])
    (released s → rec_ % 64 = 0 → Readable s0 rec_ 64 →
      let ws := wordsAt s0 rec_ 8
      let counted (kind : EngineKind) : EngineOp := { op kind ws with arg := r.rg b }
      ∀ kind ∈ [EngineKind.cpy, .gath, .scat],
        let i : Instr := match kind with | .cpy => .cpy g d a b | .gath => .gath g d a b | _ => .scat g d a b
        let j : Instr := match kind with | .cpy => .tcopy gd d a b | .gath => .tgath gd d a b | _ => .tscat gd d a b
        (r.guard g = true → badCommand kind ws (r.rg b).toNat = false → word i (fetched s0 rec_ 64) (counted kind))
        ∧ (r.guard g = true → badCommand kind ws (r.rg b).toNat = true →
            ∃ t, exec i s = .next t ∧ t.th.st = .trapped ∧ t.th.record.value = BitVec.ofNat 64 rec_ ∧ t.th.record.head.extractLsb' 0 8 = 0x07
              ∧ t.ops = s.ops ∧ (t.th.timeline 1).last + 1 = next)
        ∧ (r.slotGuard gd = true → writesDone s home = true → landsFree s (.g d) 1 → badCommand kind ws (r.rg b).toNat = false →
            bundle j (fetched s0 rec_ 64) (counted kind)))
    ∧ (rec_ % 64 ≠ 0 → r.guard g = true → ∀ i ∈ [Instr.cpy g d a b, .gath g d a b, .scat g d a b],
        exec i s = .next (takeTrap .misaligned (BitVec.ofNat 64 rec_) s))
    ∧ (released s → ListAt s0 rec_ →
        let ws := listWords s0 rec_
        let u := afterList s0 rec_
        (r.guard g = true → word (.xfer g d a) u (op .xfer ws) ∧ (payload ws < 2 ^ 32 → word (.xchg g d a 0) u (op .xfer ws)))
        ∧ (r.slotGuard gd = true → writesDone s home = true → landsFree s (.g d) 1 → bundle (.txfer gd d a b) u (op .xfer ws))
        ∧ (r.guard g = true → l ≠ 0 → levelValid s.th.domset l.toNat = true → domainAt s s.th l.toNat = some k → domainGet s k = some D →
            D.pendingBytes + payload ws < 2 ^ 32 →
            ∃ t, exec (.xchg g d a l) s = .next t ∧ t.th.r = (r.wg d number).advance
              ∧ Issued s u t { op .xfer ws with domain := some k, counted := payload ws }
              ∧ domainGet t k = some { D with pendingBytes := D.pendingBytes + payload ws }))
    ∧ (computing s s.th = none → r.slotGuard gd = true → writesDone s home = true → (hearthOf s home).forge.stream q = some S → S.kind ≠ writeKind → S.held = false →
        badChannel (r.rg a) = false → (S.kind = readKind → S.used + (r.rg b).toNat ≤ S.total) → r.rg b ≠ 0 → landsFree s (.g d) 1 →
        ∃ t, exec (.tsend gd d a b q) s = .next t ∧ t.th.r = r
          ∧ t.ops = s.ops ++ [{ s.th.operation .send 1 next q.toNat [r.rg a] with arg := r.rg b }]
          ∧ (hearthOf t home).forge.stream q = some { S with held := true } ∧ (t.th.timeline 1).last = next)
    ∧ (o.failed = none → 0 < n → va % 4096 + n ≤ 4096 → va < 2 ^ 56 →
        findOp s o.t o.e o.n = some z → z.todo = [] → z.steps = none → z.hand = [] →
        (reach o.agent va n .load s = (.ok (p :: ps), s1) → here (p :: ps) → refreshHolds s1 (p :: ps) = false →
          ((p :: ps).any fun z => poisoned s1 z.pa 1) = false →
          let s1' := mergeReads ((p :: ps).map (·.pa)) s1
          ∃ u, engineRead o va n s = .ok ((p :: ps).map fun z => Mem.get s1'.mem z.pa) u ∧ sameMemory s1' u ∧ u.th = s1.th)
        ∧ (reach o.agent va n .store s = (.ok (p :: ps), s1) → here (p :: ps) → bs.length = n → o.domain = none →
          ((m.ingot = true ∨ ∀ z ∈ p :: ps, readOnly s1 o.t.asid z.va z.pa = false) → ∃ s2, engineWrite o m va bs s = .ok () s2
            ∧ sameMemoryBut p.pa n s1 s2 ∧ (∀ j < n, Mem.get s2.mem (p.pa + j) = bs.getD j 0) ∧ s2.th = s1.th)
          ∧ (m.ingot = false → readOnly s1 o.t.asid p.va p.pa = true →
            ∃ u, engineWrite o m va bs s = .error (.trap .ingotReadonly (BitVec.ofNat 64 p.va)) u ∧ sameMemory s1 u)))
    ∧ (o.kind = .cpy → 0 < o.arg.toNat → addr (o.word 0) % 4096 + o.arg.toNat ≤ 4096 →
        engineRead o (addr (o.word 1)) o.arg.toNat s = .ok bs s1 → bs.length = o.arg.toNat → engineWrite o { heals := true } (addr (o.word 0)) bs s1 = .ok () s2 →
        tongsEffects o s = .ok () (modOp o.t o.e o.n (fun x => { x with progress := x.progress + 1 }) s2))
    ∧ (let row := o.field 3 0 32
       engineWord o (addr (o.word 2) + 4 * n) 4 s = .ok k s1 → (o.field 3 32 1 = 0 ∨ k ≠ 0xFFFFFFFF) →
       let packed (w : Word) := rowAddr w n (o.word 4).toInt
       let indexed (w : Word) := rowAddr w k (o.word 5).toInt
       (∀ u, engineRead o (indexed (o.word 1)) row s1 = .ok bs s2 → engineWrite o {} (packed (o.word 0)) bs s2 = .ok () u → gathRow o n s = .ok () u)
       ∧ ∀ u, engineRead o (packed (o.word 1)) row s1 = .ok bs s2 → engineWrite o {} (indexed (o.word 0)) bs s2 = .ok () u → scatRow o n s = .ok () u)
    ∧ (listEntries o.desc = [e] → o.kind = .xfer → engineRead o e.src e.len s = .ok bs s1 →
        engineWrite o { heals := true } e.dst bs (modOp o.t o.e o.n (fun x => { x with aux := 0 }) s1) = .ok () s2 →
        tongsEffects o s = .ok () (modOp o.t o.e o.n (fun x => { x with aux := 0 }) (modOp o.t o.e o.n (fun x => { x with progress := x.progress + 1 }) s2)))
    ∧ (findOp s t 1 n = some o → o.phase = 0 → o.kind ≠ .send → o.domain = none → tongsEffects o (s.begun o) = .ok () s1 → opWaits o s1 = false →
        let place := if o.kind = .xfer then o.addr + 8 else o.addr + 0x30
        place % 4096 + 8 ≤ 4096 → place < 2 ^ 56 → (∀ f, reach o.agent place 8 .store (modOp t 1 n f s1) = (.ok (p :: ps), modOp t 1 n f s2)) →
        here (p :: ps) → (∀ z ∈ p :: ps, readOnly s2 o.t.asid z.va z.pa = false) → findThread s2 t = some x →
        ∃ u y w z, exec (.tongsOpComplete t n) s = .next u ∧ findOp u t 1 n = none ∧ findThread u t = some y ∧ y.timeline 1 = (x.timeline 1).complete n
          ∧ Mem.read u.mem p.pa 8 = w ∧ w / 2 ^ 62 = 2 ∧ findOp s1 t 1 n = some z ∧ w % 2 ^ 32 = min z.progress 0xFFFFFFFF
          ∧ sameMemoryBut p.pa 8 s2 u)
    ∧ (findOp s t 1 n = some o → o.fresh → o.kind = .cpy → o.domain = none → opWaits o s = false → findThread s t = some x →
        let dst := addr (o.word 0)
        let src := addr (o.word 1)
        let c := o.arg.toNat
        let s1 := engineFetched s o src c
        let s2 := engineMoved s1 o dst c .store
        let s3 := engineMoved s2 o (o.addr + 0x30) 8 .store
        let into := engineLanding s1 o dst c .store
        let status := engineLanding s2 o (o.addr + 0x30) 8 .store
        EngineReads s o src c → EngineWrites s1 o {} dst c → EngineWrites s2 o {} (o.addr + 0x30) 8 →
        ∃ u y, exec (.tongsOpComplete t n) s = .next u ∧ findOp u t 1 n = none ∧ findThread u t = some y ∧ y.timeline 1 = (x.timeline 1).complete n
          ∧ Mem.read u.mem status 8 = 2 ^ 63 + 1
          ∧ (∀ j < c, (into + j < status ∨ status + 8 ≤ into + j) → Mem.get u.mem (into + j) = (engineBytes s o src c).getD j 0)
          ∧ ∀ a, (a < into ∨ into + c ≤ a) → (a < status ∨ status + 8 ≤ a) → Mem.get u.mem a = Mem.get s3.mem a)

/-- R64, R65, R67, R75, R280 to R290: MMJ queues a checked job with slots reserved for its new names, or traps with the number of slots it
lacks; MCOMMIT closes the open group and answers its number; MWAIT answers the status and record of a completed group, waits for one
that runs, and traps on one never issued; a job's run adds its rows into the mapped tiles cell by cell, exactly; its completion counts
down its group, and the group's completion its timeline; ACCREL unmaps a tile, and ACCRD stores its rows.
The model's readings that it rests on are log entries 77, 82, 83, 84, 85 and 145. -/
def Obligations.MatrixJobs : Prop :=
  ∀ (g : Guard) (d a b : Reg) (t : ThreadId) (n h i : Nat) (o : EngineOp) (j : MatrixJob) (js : List MatrixJob) (G : MatrixGroup)
    (row : Row) (B : Bank) (X : Hearth) (x : Thread) (fl : BitVec 6) (s s1 s2 : State), s.th.r.guard g = true → s.th.st ≠ .unborn →
    let r := s.th.r
    let w := r.rg a
    let s0 := drainHearth s.th.view s
    let home := s.th.hearth
    let H := hearthOf s home
    let tl := s.th.timeline 0
    let open_ := tl.last + 1
    (addr w % 64 ≠ 0 → settled s → exec (.mmj g a) s = .next (takeTrap .misaligned (BitVec.ofNat 64 (addr w)) s0))
    ∧ (settled s →
      (addr w % 64 = 0 → Readable s0 (addr w) 64 → o = s.th.operation .group 5 0 (addr w) (wordsAt s0 (addr w) 8) → reservedFmt o = none →
        (badJob o = true → ∃ u, exec (.mmj g a) s = .next u ∧ u.th.st = .trapped ∧ u.th.record.value = BitVec.ofNat 64 (addr w)
            ∧ u.th.record.head.extractLsb' 0 8 = 0x07 ∧ u.ops = s.ops ∧ (hearthOf u home).jobs = H.jobs)
        ∧ (badJob o = false → jobPlaces o (afterLoad s0 (addr w) 64) = .ok () s1 → o.word 4 = 0 →
          let new := newNames (hearthOf s1 home) s.th.id (jobNames o)
          (new.length ≤ freeSlots (hearthOf s1 home) → ∃ u k, exec (.mmj g a) s = .next u ∧ u.th.r = r.advance
              ∧ u.ops = s.ops ++ [{ o with n := open_ * 2 ^ 32 + k }]
              ∧ (hearthOf u home).jobs = (hearthOf s1 home).jobs ++ [⟨s.th.id, open_ * 2 ^ 32 + k, open_, k⟩]
              ∧ (hearthOf u home).accReserved = (hearthOf s1 home).accReserved ++ new.map (fun m => (s.th.id, m))
              ∧ (groupOf? u.th open_).map (·.left) = some ((groupOf? s.th open_).elim 0 (·.left) + 1)
              ∧ k = (groupOf? s.th open_).elim 0 (·.jobs) ∧ sameMemory (fetched s0 (addr w) 64) u)
          ∧ (freeSlots (hearthOf s1 home) < new.length → exec (.mmj g a) s = .next (takeTrap .accExhausted (BitVec.ofNat 64 new.length) s1))))
      ∧ (∀ p, addr w % 64 = 0 → Readable s0 (addr w) 64 → o = s.th.operation .group 5 0 (addr w) (wordsAt s0 (addr w) 8) → reservedFmt o = some p →
          exec (.mmj g a) s = .next (takeTrap .format p (afterLoad s0 (addr w) 64)))
      ∧ (∃ u, exec (.mcommit g d) s = .next u ∧ u.th.r = (r.wg d (BitVec.ofNat 64 open_)).advance ∧ (u.th.timeline 0).last = open_
          ∧ (groupOf? s.th open_ = none → u.th.timeline 0 = ({ tl with last := open_ } : Timeline).complete open_)
          ∧ ((groupOf? s.th open_).isSome → (u.th.timeline 0).completed = tl.completed ∧ u.th.groups = s.th.groups) ∧ sameMemory s0 u))
    ∧ (w = 0 ∨ tl.last < w.toNat → exec (.mwait g d a b) s = .next (takeTrap .format w s))
    ∧ (w ≠ 0 → w.toNat ≤ tl.last → tl.completed < w.toNat → ∃ u, exec (.mwait g d a b) s = .next u ∧ u.th.st = .parked
        ∧ u.th.wait = .timeline 0 w.toNat ∧ u.th.r = r ∧ sameMemory s u)
    ∧ (w ≠ 0 → w.toNat ≤ tl.completed → w.toNat ≤ tl.last → tl.last < w.toNat + 16 → groupOf? s.th w.toNat = some G →
        let status := statusWord G.fault G.faultJob G.rows
        exec (.mwait g d a b) s = .next (s.completed
          (if b = 0 then r.wg d status else ((r.wg d status).wg b G.prov.w0).wg (b + 1) G.prov.w1)))
    ∧ (w ≠ 0 → w.toNat ≤ tl.completed → w.toNat + 16 ≤ tl.last → exec (.mwait g d a b) s = .next (s.completed (r.wg d 0x8000000000000000)))
    ∧ (findThread s t = some x → groupOf? x n = some G → G.left = 0 → n ≤ (x.timeline 0).last → (x.timeline 0).completed < n →
        (x.timeline 0).ahead.contains n = false →
        ∃ u y, exec (.matrixGroupComplete t n) s = .next u ∧ findThread u t = some y ∧ y.timeline 0 = (x.timeline 0).complete n
          ∧ groupOf? y n = some G ∧ y.r = x.r ∧ sameMemory (collectProv x.hearth 1 x G.prov s) u)
    ∧ (∀ kind < 3, let D := dieOf s (h / 48)
      let u := collectProv h kind x G.prov s
      (provRoom D = none ∨ G.prov.w0.getLsbD 63 = false → u = s)
      ∧ ∀ room, provRoom D = some room → G.prov.w0.getLsbD 63 = true →
        let at_ := (D.provctl.extractLsb' 12 40).toNat * 4096 + 32 * (D.provWritten.toNat % room)
        room = 2 ^ (D.provctl.extractLsb' 0 5).toNat / 32 ∧ Mem.read u.mem at_ 8 = G.prov.w0.toNat ∧ Mem.read u.mem (at_ + 8) 8 = G.prov.w1.toNat
        ∧ Mem.read u.mem (at_ + 16) 8 = (x.domset.extractLsb' 48 16).toNat * 2 ^ 48 + kind
        ∧ Mem.read u.mem (at_ + 24) 8 = x.id.ctx.toNat * 4096 + x.id.asid.toNat ∧ sameMemoryBut at_ 32 s u
        ∧ (dieOf u (h / 48)).provWritten = (if D.provWritten = 0xFFFFFFFF then D.provWritten else D.provWritten + 1) ∧ u.th = s.th)
    ∧ (H.jobs = j :: js → findOp s j.t 5 j.n = some o → o.phase = 0 → anvilFree o s = some s1 →
        runJob o j (s1.begun o) = .ok () s2 → opWaits o s2 = false → o.word 5 = 0 → o.hearth = home →
        findThread s2 j.t = some x → x.live = true → groupOf? x j.group = some G → (∃ z, findOp s2 j.t 5 j.n = some z ∧ z.progress = i) →
        ∃ u y G', exec (.matrixJobComplete home) s = .next u ∧ findOp u j.t 5 j.n = none ∧ findThread u j.t = some y
          ∧ (hearthOf u home).jobs = (hearthOf s2 home).jobs.filter (fun k => decide (k ≠ j))
          ∧ groupOf? y j.group = some G' ∧ G'.left = G.left - 1 ∧ G'.rows = G.rows + i ∧ G'.fault = G.fault ∧ sameMemory s2 u)
    ∧ (jobCol0 o + jobNcol o ≤ 8 → i < 128 →
        let Y := (addJobRow o j row B i X).1
        ∀ c, 32 * jobCol0 o ≤ c → c < 32 * (jobCol0 o + jobNcol o) →
          let name := tileName o (i / 32) (c / 32 - jobCol0 o)
          let xs := (((row.read (jobPa o)).zip (B.column (jobPw o) c)).map fun k => ((k.1.zip k.2.2).map fun e => e.1 * e.2).sum)
          let ea := row.blocks.map (·.1)
          let eb := (B.column B.planes c).map (·.1)
          xs.length ≤ ea.length → xs.length ≤ eb.length →
          tileCell Y o.t name (i % 32 * 32 + c % 32) =
            Cell.addAll (tileCell X o.t name (i % 32 * 32 + c % 32)) ((xs.zip (ea.zip eb)).map fun v => (v.1, v.2.1 + v.2.2)))
    ∧ (w.toNat < 2 ^ 16 → jobNaming s s.th.id (w.extractLsb' 0 16) = false →
        ∃ u, exec (.accrel g a) s = .next u ∧ u.th = { s.th with r := r.advance } ∧ mappedTile (hearthOf u home) s.th.id (w.extractLsb' 0 16) = none
          ∧ (∀ nm k, nm ≠ w.extractLsb' 0 16 → tileCell (hearthOf u home) s.th.id nm k = tileCell H s.th.id nm k) ∧ sameMemory s u)
    ∧ (w.toNat < 2 ^ 16 → jobNaming s s.th.id (w.extractLsb' 0 16) = true →
        ∃ u, exec (.accrel g a) s = .next u ∧ u.th.st = .parked ∧ u.th.wait = .matrix ∧ u.th.r = r)
    ∧ (let k := r.rg b
       let name := k.extractLsb' 0 16
       let bytes := [4, 2, 4, 16].getD (k.extractLsb' 16 2).toNat 4
       let stride := (k.extractLsb' 32 32).toNat
       k.extractLsb' 19 13 = 0 → stride % 64 = 0 → addr w % bytes = 0 → jobNaming s s.th.id name = false →
       storeRows H s.th.id name (k.extractLsb' 16 2) (addr w) (if stride = 0 then 32 * bytes else stride) 0 32 s = .ok fl s1 → s1.th.hearth = home →
       ∃ u, exec (.accrd g a b) s = .next u ∧ u.th.r = (s1.th.r.raise fl).advance ∧ u.mem = s1.mem ∧ u.pending = s1.pending
         ∧ (hearthOf u home).accMap = if k.getLsbD 18 then (hearthOf s1 home).accMap.filter (fun z => !decide (z.t = s.th.id ∧ z.name = name))
             else (hearthOf s1 home).accMap)
    ∧ (∀ nm fmt va stride, storeRows X t nm fmt va stride h 1 s =
        (let z := rowImage fmt r.ftz (fun c => tileCell X t nm (32 * h + c)) 32
         (do
           storeM ((va + h * stride) % 2 ^ 56) (.whole z.1.length (bytesToNat z.1))
           return z.2) s))

/-! ### Dispatch, grouped matrices and Bellows -/

/-- R56, R75, R98, R277, R278, R296 to R310, R316 to R319, R455: DSPCNT, DSPGO, DSPCMB, GMM, WSTREAM, WPIN, WUNPIN and WPOL read their record and take
the next number of their context; GMMQ reads the record of the last GMM; permits let rows go, a row goes to its expert's slot with its
index, a token's sum takes each valid entry by one fused multiply-add, counts are summed and saturated; a GMM's cells are exact sums; a
weight tile is delivered to its bank queue; and an operation whose effects are performed completes its number, with its status in its
record where it has one.
The model's readings that it rests on are log entries 15, 77, 88, 89, 90, 91, 92, 93, 97 and 98. -/
def Obligations.ExpertOperations : Prop :=
  ∀ (g : Guard) (d a b : Reg) (sel : BitVec 8) (t : ThreadId) (n k r' w base i : Nat) (o : EngineOp) (os : List EngineOp) (seen : List (Nat × Nat))
    (qs : List Spot) (p : Spot) (bs : List Byte) (accs : List Nat) (row : Row) (B : Bank) (x : Thread) (run : GmmRun) (E : Expert) (to_ : MapEntry)
    (s s0 s1 s2 s3 s4 s5 s6 s7 : State), s.th.r.guard g = true → s.th.st ≠ .unborn → s0 = drainHearth s.th.view s →
    let r := s.th.r
    let rec_ := addr (r.rg a)
    let number (e : Nat) : Nat := (s.th.timeline e).last + 1
    let gives (i : Instr) (v : State) (o : EngineOp) : Prop :=
      ∃ u, exec i s = .next u ∧ u.th.r = (r.wg d (BitVec.ofNat 64 (number o.e))).advance ∧ Issued s v u o
    let refused (i : Instr) : Prop := ∃ u, exec i s = .next u ∧ u.th.st = .trapped ∧ u.th.record.value = BitVec.ofNat 64 rec_
      ∧ u.th.record.head.extractLsb' 0 8 = 0x07 ∧ u.ops = s.ops
    (released s → rec_ % 64 = 0 → Readable s0 rec_ 64 →
      let v := fetched s0 rec_ 64
      let op (kind : EngineKind) (e : Nat) : EngineOp := s.th.operation kind e (number e) rec_ (wordsAt s0 rec_ 8)
      let bad (kind : EngineKind) (o : EngineOp) : Bool := match kind with
        | .dspgo => decide (goRow o % 64 ≠ 0 ∨ goRow o = 0 ∨ 65536 < goRow o ∨ goBinStride o < goRow o ∨ goBinStride o % 64 ≠ 0 ∨ o.word 7 ≠ 0)
        | .dspcmb => decide (o.field 3 38 26 ≠ 0 ∨ 1 < cmbFmt o ∨ cmbK o = 0 ∨ 8 < cmbK o ∨ cmbWidth o % 16 ≠ 0 ∨ 16384 < cmbWidth o ∨ o.word 6 ≠ 0 ∨ o.word 7 ≠ 0)
        | .gmm => decide (o.field 0 0 5 ≠ 0 ∨ o.field 1 28 36 ≠ 0 ∨ o.field 1 16 3 ≠ 0 ∨ o.field 2 0 6 ≠ 0 ∨ o.word 6 ≠ 0 ∨ o.word 7 ≠ 0)
        | _ => badStream o
      (∀ z ∈ [(EngineKind.dspgo, 2, Instr.dspgo g d a), (.gmm, 2, .gmm g d a), (.wstream, 3, .wstream g d a)],
        (z.1 = .wstream → streamReserved (op .wstream 3) = none) →
        (bad z.1 (op z.1 z.2.1) = false → gives z.2.2 v (op z.1 z.2.1)) ∧ (bad z.1 (op z.1 z.2.1) = true → refused z.2.2))
      ∧ (∀ q, streamReserved (op .wstream 3) = some q → exec (.wstream g d a) s = .next (takeTrap .format q (afterLoad s0 rec_ 64)))
      ∧ (bad .dspcmb (op .dspcmb 2) = false → ∃ m, gives (.dspcmb g d a) v
          { op .dspcmb 2 with arg := BitVec.ofNat 64 (64 * ((cmbWidth (op .dspcmb 2) * cmbBytes (op .dspcmb 2) + 63) / 64 + m)) })
      ∧ (bad .dspcmb (op .dspcmb 2) = true → refused (.dspcmb g d a))
      ∧ (bad .gmm (op .gmm 2) = false → ∃ u, exec (.gmm g d a) s = .next u ∧ u.th.gmm = { n := number 2 }))
    ∧ (released s → rec_ % 32 = 0 → Readable s0 rec_ 32 →
      let o : EngineOp := s.th.operation .dspcnt 2 (number 2) rec_ (wordsAt s0 rec_ 4)
      let l := o.field 3 21 3
      (o.field 3 24 40 = 0 → o.field 3 16 5 = 0 → levelValid s.th.domset l = true → o.field 0 0 3 = 0 → domainAt s s.th l = some k →
          gives (.dspcnt g d a b) (fetched s0 rec_ 32) { o with arg := r.rg b, domain := some k })
      ∧ (levelValid s.th.domset l = false → refused (.dspcnt g d a b)))
    ∧ (rec_ % 32 ≠ 0 → ∀ i ∈ [Instr.dspcnt g d a b, .dspgo g d a, .dspcmb g d a, .gmm g d a, .wstream g d a],
        exec i s = .next (takeTrap .misaligned (BitVec.ofNat 64 rec_) s))
    ∧ (released s → let e (kind : EngineKind) : EngineOp := s.th.operation kind 3 (number 3) 0 [r.rg a, r.rg b]
      (badPlace (r.rg b) = false → gives (.wpin g d a b) s0 (e .wpin) ∧ gives (.wunpin g d a b) s0 (e .wunpin))
      ∧ ((r.rg b).toNat ≤ 3 → gives (.wpol g d a b) s0 (e .wpol)))
    ∧ (computing s s.th = none → let v : Word := if sel = 0 then s.th.gmm.progress else if sel = 1 then s.th.gmm.prov.w0
        else if sel = 2 then s.th.gmm.prov.w1 else s.th.gmm.status
      exec (.gmmq g d sel) s = .next (s.completed (r.wg d v)))
    ∧ (findOp s t 2 n = some o →
      (o.request = none → exec (.dispatchPermitGrant t n k) s = .next s)
      ∧ ∀ e slot cap engine, o.request = some (e, slot, cap, engine) →
        let room := min (cap - slot) ((receivingBench s engine).elim (cap - slot) fun b => (benchOf s b).credits)
        let rows := min k room
        (rows = 0 → exec (.dispatchPermitGrant t n k) s = .next s)
        ∧ (rows ≠ 0 → ∃ u, exec (.dispatchPermitGrant t n k) s = .next u ∧ u.th = s.th ∧ u.mem = s.mem
          ∧ findOp u t 2 n = some { o with permits := o.permits + rows, runs := o.runs ++ [(e, slot, rows)], request := none, rows := 0 }
          ∧ ∀ b, receivingBench s engine = some b → (benchOf u b).credits = (benchOf s b).credits - rows))
    ∧ (engineWord o (offAddr (o.word 1) (8 * r')) 8 s = .ok w s1 →
      (w.testBit 16 = false → goFrom o r' 1 seen s = goFrom o (r' + 1) 0 seen s1)
      ∧ (w.testBit 16 = true → let e := w % 2 ^ 16
        let slot := base + lookup 0 seen e
        engineWord o (offAddr (o.word 2) (4 * e)) 4 s1 = .ok base s2 → mapEntry o (o.word 3) e s2 = .ok to_ s3 →
        (to_.cap ≤ slot → goFrom o r' 1 seen s = .ok () (modOp o.t o.e o.n (fun x => { x with aux := min 0xFFFF (x.aux + 1) }) s3))
        ∧ (∀ z, slot < to_.cap → findOp s3 o.t o.e o.n = some z → granted z e slot = false → ∃ u, goFrom o r' 1 seen s = .error .stopped u
            ∧ findOp u o.t o.e o.n = some { z with rows := 1, request := some (e, slot, to_.cap, to_.engine) })
        ∧ (slot < to_.cap → (∃ z, findOp s3 o.t o.e o.n = some z ∧ granted z e slot = true) →
          engineRead o (offAddr (o.word 0) (r' * goSrcStride o)) (goRow o) s3 = .ok bs s4 →
          engineWrite o {} ((to_.bin + slot * goBinStride o) % 2 ^ 56) bs s4 = .ok () s5 →
          engineStore o ((to_.bidx + 4 * slot) % 2 ^ 56) 4 (w / 2 ^ 32 % 2 ^ 32) s5 = .ok () s6 → once o (modify (usePermit o to_.engine)) s6 = .ok () s7 →
          goFrom o r' 1 seen s = .ok () (modOp o.t o.e o.n (fun x => { x with progress := x.progress + 1 }) s7))))
    ∧ (findOp s o.t o.e o.n = some o → (findOp (usePermit o k s) o.t o.e o.n).map (·.permits) = some (o.permits - 1)
        ∧ ∀ b, receivingBench s k = some b → (benchOf (usePermit o k s) b).credits = (benchOf s b).credits + 1)
    ∧ ((w.testBit 16 = false → cmbEntry o w accs s = .ok accs s)
      ∧ (w.testBit 16 = true → mapEntry o (o.word 1) (w % 2 ^ 16) s = .ok to_ s1 →
        engineRead o ((to_.bin + w / 2 ^ 32 % 2 ^ 32 * o.arg.toNat) % 2 ^ 56) (cmbWidth o * cmbBytes o) s1 = .ok bs s2 →
        ∃ u, cmbEntry o w accs s = .ok (accs.zipIdx.map fun (acc, i) =>
          (f32.fma ⟨0, o.ftz⟩ (f32.read o.ftz (w / 2 ^ 64 % 2 ^ 32)) (f32.read o.ftz (cmbElement o bs i)) (f32.read o.ftz acc)).1) u ∧ sameMemory s2 u))
    ∧ (let c := cntExperts o
      let limit (j : Nat) : List Byte := (List.range c).flatMap fun e => natToBytes 4 (min (o.word (4 + j * c + e)).toNat 0xFFFFFFFF)
      engineWrite o {} (addr (o.word 1)) (limit 0) s = .ok () s1 → engineWrite o {} (addr (o.word 2)) (limit 1) s1 = .ok () s2 →
      ∃ u, writeCounts o s = .ok () u ∧ sameMemory s2 u)
    ∧ (∀ j, j < 256 → let xs := (((row.read k).zip (B.column w j)).map fun z => ((z.1.zip z.2.2).map fun e => e.1 * e.2).sum)
      let ea := row.blocks.map (·.1)
      let eb := (B.column B.planes j).map (·.1)
      xs.length ≤ ea.length → xs.length ≤ eb.length →
      ((gmmCells row k B w i r')[j]?).map (·.1) = some (Cell.addAll {} ((xs.zip (ea.zip eb)).map fun v => (v.1, v.2.1 + v.2.2))))
    ∧ (accepted E k n ≤ n ∧ (E.cost = 0 → accepted E k n = n) ∧ (E.cost ≠ 0 → k ≤ E.budget * 256 → k + accepted E k n * E.cost ≤ E.budget * 256))
    ∧ (engineWord o (offAddr (o.word 0) (32 * i)) 24 s = .ok w s1 → w / 2 ^ 16 % 2 ^ 16 = 0 → w / 2 ^ 32 % 2 ^ 32 = 0 → gmmBin o i run s = .ok (2 ^ 60, run) s1)
    ∧ (findOp s t 3 n = some o → o.kind = .wstream → strKind o = 1 → o.phase = 0 → o.progress < strCount o → makeTile o o.progress (modOp t 3 n (·.begins none) s) = .ok bs s1 →
      let q := (hearthOf s (strHearth o)).bankQueue.toList.getD (strBank o).toNat []
      q.length < 2 → tileTag (o.word 1) 1 = some (k, i) → (findOp s1 t 3 n).isSome →
      ∃ u z, exec (.bellowsTileDeliver t n) s = .next u ∧ u.mem = s1.mem ∧ findOp u t 3 n = some z ∧ (findOp s1 t 3 n).map (fun y => y.progress + 1) = some z.progress
        ∧ (hearthOf u (strHearth o)).bankQueue.toList.getD (strBank o).toNat [] = q ++ [(cellsOf (firstPlanes k i (strPw o) bs), o.word 1, strPw o)])
    ∧ (let ends (i : Instr) (e : Nat) (o : EngineOp) (s1 : State) (effects : EngineOp → M Unit) (after : EngineOp → State) : Prop :=
        ∀ z, findOp s t e n = some o → o.phase = 0 → effects o (s.begun o) = .ok () s1 → opWaits o s1 = false → findThread s1 t = some x → findOp s1 t e n = some z →
        ∃ u y, exec i s = .next u ∧ findOp u t e n = none ∧ findThread u t = some y ∧ y.timeline e = (x.timeline e).complete n ∧ sameMemory (after z) u
      o.domain = none →
        (o.kind = .wpin → ends (.bellowsOpComplete t n) 3 o s1 pinTile fun _ => s1)
        ∧ (o.kind = .wunpin → ends (.bellowsOpComplete t n) 3 o s1 unpinTile fun _ => s1)
        ∧ (o.kind = .wpol → earlierBellows s o = false → ends (.bellowsOpComplete t n) 3 o s1 setResidency fun _ => s1)
        ∧ (o.kind = .gmm → (hearthOf s o.hearth).seat = none → (hearthOf s o.hearth).owner = none → anvilTaken o s = false → ends (.gmmComplete t n) 2 o s1 gmmAll fun z => collectProv z.hearth 2 x z.prov s1))
    ∧ (∃ y, unpinTile o s = .ok () y ∧ (((hearthOf s (placeHearth o)).bank (placeBank o)).pinned = some (o.word 0).toNat →
        ((hearthOf y (placeHearth o)).bank (placeBank o)).pinned = none))
    ∧ (let place := if o.kind = .dspgo then o.addr + 0x30 else if o.kind = .dspcnt then offAddr (o.word 0) (2 ^ 56 - 8) else o.addr + 0x28
      let written (i : Instr) (e : Nat) (s1 : State) : Prop :=
        opWaits o s1 = false → place % 4096 + 8 ≤ 4096 → place < 2 ^ 56 →
        (∀ f, reach o.agent place 8 .store (modOp t e n f s1) = (.ok (p :: qs), modOp t e n f s2)) → here (p :: qs) →
        (∀ z ∈ p :: qs, readOnly s2 o.t.asid z.va z.pa = false) → findThread s2 t = some x →
        ∀ z, findOp s1 t e n = some z → z.agent = o.agent → z.kind = o.kind → z.addr = o.addr → z.word 0 = o.word 0 → z.domain = o.domain →
        (z.domain = none ∨ z.kind = .dspcnt) →
        ∃ u y v, exec i s = .next u ∧ findOp u t e n = none ∧ findThread u t = some y ∧ y.timeline e = (x.timeline e).complete n
          ∧ Mem.read u.mem p.pa 8 = v ∧ v / 2 ^ 62 = 2 ∧ v % 2 ^ 32 = min z.progress 0xFFFFFFFF
          ∧ sameMemoryBut p.pa 8 s2 u ∧ y.r.flags = (if o.kind = .dspcmb then x.r.flags ||| z.flags else x.r.flags)
      let performs (i : Instr) (e : Nat) (effects : EngineOp → M Unit) : Prop :=
        findOp s t e n = some o → o.phase = 0 → effects o (s.begun o) = .ok () s1 → written i e s1
      (o.kind = .dspgo → performs (.dspgoComplete t n) 2 (fun o => goFrom o 0 (goEntries o) []))
      ∧ (o.kind = .dspcmb → performs (.dspcmbComplete t n) 2 (fun o => unitsFrom o (cmbToken o) 0 (cmbTokens o)))
      ∧ (o.kind = .wstream → strKind o = 0 → performs (.bellowsOpComplete t n) 3 streamEffects)
      ∧ (∀ D z, o.kind = .dspcnt → o.phase = 0 → o.desc.length = 4 → findOp s t 2 n = some o → o.domain = some D → countGroup s D = some os →
          let sorted := os.foldr (insertCount s) []
          countAll sorted s (sorted.foldl (fun s o => modOp o.t o.e o.n (·.begins none) s) s) = .ok () s3 → findOp s3 t 2 n = some z → z.phase = 0 →
          z.kind = .dspcnt → z.desc.length ≠ 4 → z.agent = o.agent → writeCounts z (s3.begun z) = .ok () s1 → written (.dspcntComplete t n) 2 s1))

/-! ### Launches and supersteps -/

/-- R35 to R40, R98, R311 to R315, R338, R343, R344, R366 to R372, R404 to R407: LAUNCH queues the record of its address space and world
and takes the next number of context 4, or traps with WORLD; LSTAT reports a launch, and traps on a number never issued; a checked head
of the queues is accepted on the hearths chosen for it, and its root threads start; tile records start threads or are skipped; a
launch completes when everything it starts is done; a superstep opens over memory as it stands, starts its routines' threads, and its
exchange phase performs the deferred stores in their order; a mismatch of a lock-step pair rolls the superstep back, local memory and
all, or is lasting.
The model's readings that it rests on are log entries 15, 66, 100, 101, 102, 103, 105, 106, 109, 110, 130 and 143. -/
def Obligations.LaunchesAndSupersteps : Prop :=
  ∀ (g : Guard) (d a : Reg) (sel : BitVec 8) (t : ThreadId) (n pos unit count list transfer width : Nat) (L : Launch) (P : Position) (R : Routine)
    (cells : List Host.Cell) (hs : List Nat) (x : Thread) (s s1 : State), s.th.st ≠ .unborn →
    let r := s.th.r
    let s0 := drainHearth s.th.view s
    let va := addr (r.rg a)
    let tl := s.th.timeline 4
    let o := opOfLaunch s L
    let sb := modOp o.t o.e o.n (·.begins none) s
    let ps0 := pagePieces 2 va 128
    (r.guard g = true → released s → va % 64 = 0 → Reads ps0 s0 →
      let v := afterReads ps0 s0
      let ws := wordsOf (bytesOf ps0 s0)
      let w := ws.getD 2 0
      let new : Launch := { id := s.launchCount + 1, issuer := some (s.th.id, tl.last + 1), asid := s.th.id.asid, secure := s.th.secure, priv := s.th.priv, prio := s.th.launchPrio, addr := va, record := ws }
      (w.extractLsb' 42 10 = s.th.id.asid → w.getLsbD 40 = s.th.secure → ∃ u, exec (.launch g d a) s = .next u
          ∧ u.th.r = (r.wg d (BitVec.ofNat 64 (tl.last + 1))).advance ∧ (u.th.timeline 4).last = tl.last + 1
          ∧ u.launches = v.launches ++ [new])
      ∧ ((w.extractLsb' 42 10 ≠ s.th.id.asid ∨ w.getLsbD 40 ≠ s.th.secure) → ∃ u, exec (.launch g d a) s = .next u ∧ u.th.st = .trapped
          ∧ u.th.record.head.extractLsb' 0 8 = 0x05 ∧ u.launches = v.launches ∧ (u.th.timeline 4).last = tl.last))
    ∧ (r.guard g = true → computing s s.th = none → let n := r.rg a
      (n = 0 ∨ tl.last < n.toNat → exec (.lstat g d a sel) s = .next (takeTrap .format n s))
      ∧ (n ≠ 0 → n.toNat ≤ tl.last → tl.last < n.toNat + 64 →
          (s.launches.find? fun l => decide (l.issuer = some (s.th.id, n.toNat))) = some L → findLaunch s L.id = some L → sel.toNat ≤ 3 →
          ∃ v m, exec (.lstat g d a sel) s = .next ((noteOutside L.id s).completed (r.wg d v)) ∧ L.outside ≤ m ∧ (L.packages = 1 ∨ L.state ≠ .running → m = L.outside)
            ∧ (sel = 0 → v.getLsbD 63 = decide (L.state = .complete) ∧ (v.extractLsb' 0 32).toNat = min (L.doneCount + m) 0xFFFFFFFF
                ∧ v.extractLsb' 32 16 = (match L.state with | .queued => 0#16 | .waiting => 1#16 | .running => 2#16 | .complete => 3#16)
                ∧ (L.state = .complete → v.getLsbD 62 = L.fault.isSome))
            ∧ (sel = 1 → v = BitVec.ofNat 64 (L.fault.elim 0 (·.2))) ∧ (sel = 2 → v = BitVec.ofNat 64 L.skipped) ∧ (sel = 3 → v = BitVec.ofNat 64 L.tag))
      ∧ (n ≠ 0 → n.toNat + 64 ≤ tl.last → ∃ u, exec (.lstat g d a 0) s = .next u ∧ u.th.r = (r.wg d 0x8000000000000000).advance ∧ sameMemory s u))
    ∧ (s.launches = [L] → L.state = .queued → L.checked = true → L.deps = [] →
      (L.packages = 1 → placeLaunch s L = some hs → L.tiles ≠ 0 → L.field 11 0 32 ≠ 0 → ∃ u M, exec .launchAccept s = .next u ∧ u.launches = [M] ∧ M.id = L.id
          ∧ M.state = .running ∧ M.hearths = hs ∧ M.rank = 0 ∧ M.binding = (spaceOf s L.asid).bind ∧ 1 ≤ M.tag ∧ M.tag ≤ 65535 ∧ tagUsed s M.tag = false
          ∧ u.domains.length = s.domains.length + (newDomains L L.levels (if L.lockstep then hs.filter fun h => decide (h % 2 = 0) else hs) (0, 0)).length
          ∧ u.th = s.th ∧ sameMemory s u)
      ∧ (L.packages = 1 → placeLaunch s L = none → asksTooMuch s L = false → ∃ u M, exec .launchAccept s = .next u ∧ u.launches = [M] ∧ M.held = true ∧ M.state = .queued)
      ∧ (L.packages = 1 → placeLaunch s L = none → asksTooMuch s L = true → ∃ u M, exec .launchAccept s = .next u ∧ u.launches = [M] ∧ M.state = .complete
          ∧ (L.fault = none → M.fault = some (.format, L.addr)))
      ∧ (L.packages ≠ 1 → L.tiles ≠ 0 → L.field 11 0 32 ≠ 0 → ∃ u M, exec .launchAccept s = .next u ∧ u.launches = [M] ∧ M.id = L.id
          ∧ (M.held = true ∧ M.state = .queued ∨ M.state = .complete ∧ (L.fault = none → M.fault = some (.format, L.addr))
            ∨ M.state = .running ∧ M.rank < L.packages ∧ M.hearths ∈ [(placeLaunch s L).getD [], []])))
    ∧ (s.launches = [L] → L.state = .running → L.fault = none → L.det = false → L.tiles = 0 → L.roots.1 ≤ L.next → L.next + 1 = L.roots.2 →
      let h := L.hearths.getD ((L.next - L.roots.1) / L.field 3 8 7) 0
      let id : ThreadId := ⟨L.asid, L.frame L.next⟩
      (hearthOf s h).quiesced = false → findThread s id = none → o.failed = none → EngineWrites sb { o with hearth := h } {} (frameVa id) 1 →
      ∃ u y, exec .launchAccept s = .next u ∧ findThread u id = some y ∧ y.st = .ready ∧ y.hearth = h ∧ y.r.rg 1 = BitVec.ofNat 64 L.next ∧ y.r.rg 2 = L.record.getD 1 0
        ∧ y.r.pc = (L.record.getD 0 0) &&& 0x00FFFFFFFFFFFFFF ∧ y.priv = L.priv ∧ y.launchPrio = L.prio ∧ y.domset = lookup 0 L.domsets h)
    ∧ (findLaunch s n = some L → L.state = .running → L.fault = none → L.tiles ≠ 0 → L.next < L.field 11 0 32 →
      let at_ := (addr (L.record.getD 10 0) + 32 * L.next) % 2 ^ 56
      let id : ThreadId := ⟨L.asid, L.frame L.next⟩
      let pos := L.next % max 1 L.hearthCount
      ((pos < L.firstPosition ∨ L.hearths.length ≤ pos - L.firstPosition) → ∃ u M, exec (.tileThreadStart n) s = .next u ∧ findLaunch u n = some M
        ∧ M.next = L.next + 1 ∧ M.skipped ≤ L.skipped + 1 ∧ M.threads = L.threads ∧ u.th = s.th)
      ∧ ∀ h, L.firstPosition ≤ pos → L.hearths[pos - L.firstPosition]? = some h →
      (hearthOf s h).quiesced = false → ((threads s).filter fun y => decide (y.launch = n ∧ y.home = h) && y.started && y.live).length < L.field 3 8 7 →
      (findOp s o.t o.e o.n).isSome → o.fresh → EngineReads sb o at_ 32 →
      let bs := engineBytes sb o at_ 32
      (badTile (wordsOf bs) = true → ∃ u M, exec (.tileThreadStart n) s = .next u ∧ findLaunch u n = some M ∧ M.next = L.next + 1 ∧ M.skipped = L.skipped + 1
          ∧ M.threads = L.threads)
      ∧ (badTile (wordsOf bs) = false → (∀ s2, engineRead o at_ 32 sb = .ok bs s2 → EngineWrites s2 { o with hearth := h } {} (frameVa id) 1) →
          findThread s id = none → ∃ u y M, exec (.tileThreadStart n) s = .next u ∧ findThread u id = some y ∧ findLaunch u n = some M
            ∧ M.next = L.next + 1 ∧ M.threads = L.threads + 1 ∧ y.st = .ready ∧ y.hearth = h ∧ y.r.rg 1 = BitVec.ofNat 64 L.next ∧ y.r.rg 2 = BitVec.ofNat 64 at_
            ∧ y.r.rg 3 = L.record.getD 1 0 ∧ y.r.rm 0 = BitVec.ofNat 64 (2 ^ wfield ((wordsOf bs).getD 1 0) 0 6 - 1)))
    ∧ (findLaunch s n = some L → L.state = .running → L.allStarted = true → L.threads ≤ L.doneCount → opWaits o s = false → L.host = none →
      L.issuer = some (t, count) → findThread s t = some x → ∃ u y M, exec (.launchComplete n) s = .next u ∧ findLaunch u n = some M ∧ M.state = .complete
        ∧ M.binding = [] ∧ findThread u t = some y ∧ y.timeline 4 = (x.timeline 4).complete count ∧ sameMemory s u)
    ∧ (findLaunch s n = some L → (L.state ≠ .running ∨ L.allStarted = false ∨ L.doneCount < L.threads) → exec (.launchComplete n) s = .next s)
    ∧ (findLaunch s n = some L → L.state = .running → L.det = true → L.fault = none →
      (L.computing = false → L.superstep < L.supersteps → L.positions = [P] → L.width = some width → controllersIdle L s = true →
          tableEntry { o with hearth := P.hearth } L P.index L.superstep (drainHearth P.hearth sb) = .ok (list, transfer) s1 →
          (findLaunch s1 n).isSome → ∃ u M Q, exec (.superstepStart n) s = .next u ∧ findLaunch u n = some M ∧ M.computing = true ∧ M.startMem = s1.mem ∧ u.mem = s1.mem
            ∧ M.deferred = [] ∧ M.positions = [Q] ∧ Q.next = list ∧ Q.transfer = transfer ∧ Q.started = 0 ∧ Q.done = 0 ∧ Q.ended = decide (list = 0)
            ∧ Q.hearth = P.hearth ∧ (L.lockstep = true → Q.checkpoint = some (Mem.slice s1.mem (localBase + P.hearth * 2 ^ 22) localBytes)))
      ∧ (L.computing = true → L.positions[pos]? = some P → P.ended = false → P.lasting = false → (hearthOf s P.hearth).quiesced = false →
          let o := opOfPosition s L P
          let sb := modOp o.t o.e o.n (·.begins none) s
          (readRoutine o P.next sb = .ok none s1 → (findLaunch s1 n) = some L → ∃ u M, exec (.routineEntryStart n pos) s = .next u ∧ findLaunch u n = some M
              ∧ M.fault = some (.format, P.next % 2 ^ 64))
          ∧ (readRoutine o P.next sb = .ok (some R) s1 → R.join = true → P.sub = 0 → P.done < P.started → s1.launches = s.launches →
              ∃ u M, exec (.routineEntryStart n pos) s = .next u ∧ findLaunch u n = some M ∧ M.positions = L.positions)
          ∧ (readRoutine o P.next sb = .ok (some R) s1 → (R.join = false ∨ P.started ≤ P.done) → R.threads = 1 → P.sub = 0 → R.last = true →
              let id : ThreadId := (L.routine P R).id
              s1.th = s.th → s1.others = s.others → s1.launches = s.launches → findThread s id = none → o.failed = none →
              EngineWrites s1 { o with hearth := P.hearth } {} (frameVa id) 1 →
              ∃ u M y, exec (.routineEntryStart n pos) s = .next u ∧ findLaunch u n = some M ∧ M.threads = L.threads + 1
                ∧ (M.positions[pos]?).map (fun Q => (Q.started, Q.ended, Q.entry)) = some (P.started + 1, true, P.entry + 1)
                ∧ findThread u id = some y ∧ y.r.rg 1 = 0 ∧ y.r.rg 2 = R.arg ∧ y.r.pc = R.entry &&& 0x00FFFFFFFFFFFFFF ∧ y.st = .ready ∧ y.detList = P.entry ∧ y.effPrio = L.field 2 32 6))
      ∧ (L.phaseOver = true → controllersIdle L s = true → exchangeFault L s = none → (∀ Q ∈ L.positions, Q.transfer = 0) →
          (∀ e ∈ L.deferred, e.node = none ∧ e.op.isUpdate = false) →
          let s0 := L.positions.foldl (fun s Q => drainHearth Q.hearth s) s
          ∃ (u : State) (M : Launch) (ds : List Deferred), exec (.exchangePhase n) s = .next u ∧ findLaunch u n = some M ∧ M.computing = false ∧ M.superstep = L.superstep + 1 ∧ M.deferred = []
            ∧ ds.Perm L.deferred ∧ ds.Pairwise (fun e f => laterKey e.key f.key = true)
            ∧ (∀ p ∈ u.packets, p ∈ s.packets ∨ ∃ m ∈ L.mail, p = { m.packet with inTurn := true })
            ∧ (L.mail = [] → (∀ p ∈ s.packets, p.inTurn = false) → u.packets = s.packets ∧ u.th = s.th
              ∧ u.mem = ds.foldl (fun m e => (pieces e.hearth e.pa e.op).foldl (fun m q => q.op.apply q.pa m) m) s0.mem))
      ∧ (L.phaseOver = false → exec (.exchangePhase n) s = .next s)
      ∧ (L.computing = true → L.lockstep = true → L.positions[pos]? = some P → P.lasting = false → unit ≤ 4 →
          (P.unprotected = false → P.firstPoint ≠ some (unit, count) → P.rollbacks < 3 → P.checkpoint = some cells →
            ∃ u M, exec (.lockstepMismatch n pos unit count) s = .next u ∧ findLaunch u n = some M
              ∧ (M.positions[pos]?).map (fun Q => (Q.next, Q.started, Q.done, Q.rollbacks)) = some (P.list, 0, 0, P.rollbacks + 1)
              ∧ (∀ e ∈ M.deferred, e.hearth ≠ P.hearth) ∧ (∀ y ∈ routineThreads s n P.hearth, findThread u y.id = none)
              ∧ ∀ k < 0x300000, Mem.get u.mem (0xFF00000000000 + P.hearth * 2 ^ 22 + k) = Mem.get cells k)
          ∧ (P.unprotected = true ∨ P.firstPoint = some (unit, count) ∨ 3 ≤ P.rollbacks →
            ∃ u M, exec (.lockstepMismatch n pos unit count) s = .next u ∧ findLaunch u n = some M ∧ M.fault = some (.lockstepLasting, 0)
              ∧ (M.positions[pos]?).map (·.lasting) = some true ∧ (benchOf u (P.hearth / 8)).lasting.getLsbD (P.hearth % 8 / 2) = true)))

/-! ### Seats, lanes, memory by itself -/

/-- R29, R41 to R43, R84, R87, R97, R249, R254, R258, R373 to R382, R402, R403, R412, R418, R419: the forge seat goes to the head of the
queue, which starts at its first bundle, or goes on where it was; a wanted seat is given up at a permitted point; a freeze past its limit
traps with WATCHDOG and the cause's code; a free strand seat, on the core with the fewest, takes the ready thread that comes first, and a
higher priority takes the victim's, and a quiesced hearth's threads give theirs up; a waiting thread ages; lane groups bind and free queue entries; stores and updates are performed
everywhere; a refresh window's end lets reads go on; an uncorrectable error is counted or poisons its line; a time stamp is traced.
The model's readings that it rests on are log entries 16, 24, 36, 112, 113, 114, 115, 116 and 141. -/
def Obligations.SeatsAndReliability : Prop :=
  ∀ (h c code g i room : Nat) (t : ThreadId) (x v : Thread) (k o : Nat) (w : ThreadId) (X : Hearth) (p : Pending) (source : BitVec 2) (pa : BitVec 52) (m : DebugUnit) (s : State),
    s.th.st ≠ .unborn →
    let H := hearthOf s h
    (seatThread s h = some s.th.id → H.frozen = some code →
      exec (.freezeWatchdog h) s = .next (if max 1024 H.freezewd.toNat < H.frozenFor then takeTrap .watchdog (BitVec.ofNat 64 code) s else s))
    ∧ (H.seat = none → H.quiesced = false → seatCandidate (ownWorld s h) H = some t → findThread s t = some x → x.redirect = none →
      (x.preempted = true → awaitsRelease scopeSystem s x = false) →
      (0x87FF &&& ~~~x.resident = 0 → ∃ u z, exec (.forgeSeatGrant h) s = .next u ∧ findThread u t = some z ∧ z.st = .running ∧ z.place = .forge h ∧ z.forge = true
          ∧ (hearthOf u h).seat = some t ∧ (hearthOf u h).owner = some t 
          ∧ (∃ more, (hearthOf u h).forgeQueue = H.forgeQueue.filter (fun k => decide (k ≠ t)) ++ more ∧ ((∀ y ∈ threads s, y.wait ≠ .forgeQueue h) → more = []))
          ∧ (x.forge = false → z.r = { x.r with pc := BitVec.ofNat 64 ((x.r.pc.toNat % 2 ^ 56 / 32 + 1) * 32) &&& 0x00FFFFFFFFFFFFFF }
              ∧ (hearthOf u h).forge = {} ∧ (hearthOf u h).inflight = [])
          ∧ (x.forge = true → z.r = x.r ∧ (hearthOf u h).inflight = x.replay.elim [] (·.entries))
          ∧ (x.preempted = false → (H.owner = none ∨ H.owner = some t) → sameMemory s u)
          ∧ (x.preempted = false → H.owner = some w → w ≠ t → freeSpill H = some o → (o, w, H.forge, H.banks) ∈ (hearthOf u h).spill
            ∧ let slot := (H.forgespill.extractLsb' 20 32).toNat * 2 ^ 20 + o * 2 ^ 20
              ∀ a, a < slot ∨ slot + 2 ^ 20 ≤ a → Mem.get u.mem a = Mem.get s.mem a))
      ∧ (0x87FF &&& ~~~x.resident ≠ 0 → ∃ u z, exec (.forgeSeatGrant h) s = .next u ∧ findThread u t = some z
          ∧ z.wanted = x.wanted ||| (0x87FF &&& ~~~x.resident) ∧ hearthOf u h = H))
    ∧ (H.forgeQueue = t :: H.forgeQueue.drop 1 → H.owner = none → ownWorld s h t = true → seatCandidate (ownWorld s h) H = some t)
    ∧ (seatThread s h = some t → findThread s t = some x → (H.preempt = true ∨ preemptWanted s H x = true) →
      (preemptible H = true → overdue H = false → x.asyncTrap = none → x.hearth = h → ∃ u z, exec (.forgePreempt h) s = .next u ∧ findThread u t = some z
          ∧ z.st = .parked ∧ z.r = x.r ∧ z.preempted = true ∧ (hearthOf u h).seat = none
          ∧ (H.forgeQueue.length < 64 → z.wait = .forgeSeat ∧ (hearthOf u h).forgeQueue = H.forgeQueue ++ [x.id])
          ∧ (64 ≤ H.forgeQueue.length → z.wait = .forgeQueue h ∧ (hearthOf u h).forgeQueue = H.forgeQueue)
          ∧ (H.quiesced = false → (hearthOf u h).forge = H.forge ∧ (hearthOf u h).owner = H.owner ∧ sameMemory s u)
          ∧ (H.quiesced = true → H.owner = some w → freeSpill H = some o → (hearthOf u h).owner = none ∧ (hearthOf u h).spill = H.spill ++ [(o, w, H.forge, H.banks)]))
      ∧ (preemptible H = false ∨ overdue H = true ∨ x.asyncTrap.isSome = true → exec (.forgePreempt h) s = .next (putHearth s h { H with preempt := true })))
    ∧ ((H.boundary = false ∨ H.inflight ≠ [] ∨ H.forge.drained ≠ [] ∨ H.forge.expQueue ≠ []) → preemptible H = false)
    ∧ (freeCore s h = some c → (4 * h ≤ c ∧ c < 4 * h + 4 ∧ coreSeats s c < 16 ∧ (∀ d, 4 * h ≤ d → d < 4 * h + 4 → coreSeats s c ≤ coreSeats s d))
      ∧ (seatChoice s h = some x → x.st = .ready ∧ x.queue = [] ∧ serves s h x = true
          ∧ (∀ z ∈ threads s, seatable s z = true → serves s h z = true → z.effPrio ≤ x.effPrio)
          ∧ (findThread s x.id = some x → x.hearth = h → 0x8200 &&& ~~~x.resident = 0 → ∃ u, exec (.threadSeat h) s = .next u
              ∧ findThread u x.id = some { x with place := .strand c, st := .seated, effPrio := x.basePrio, readyFor := 0, seatedAt := s.cyc.toNat, seatedOnce := true, wanted := 0, preempted := false }
              ∧ (x.preempted = false → sameMemory s u))))
    ∧ (freeCore s h = none → seatChoice s h = some x → seatVictim s h = some (v, c) → findThread s x.id = some x → findThread s v.id = some v → v.id ≠ x.id →
      (x.effPrio ≤ v.effPrio → exec (.seatPreempt h) s = .next s)
      ∧ (v.effPrio < x.effPrio → x.hearth = h → 0x8200 &&& ~~~x.resident = 0 → strandPreemptible s v = true → ∃ u z w, exec (.seatPreempt h) s = .next u
          ∧ findThread u x.id = some z ∧ z.place = .strand c ∧ z.st = .seated ∧ z.r = x.r ∧ findThread u v.id = some w ∧ w.st = .ready ∧ w.place = .off ∧ w.r = v.r))
    ∧ (H.quiesced = true → (seatedOn s h).find? (strandPreemptible s) = some v → findThread s v.id = some v → ∃ u z, exec (.seatPreempt h) s = .next u
        ∧ findThread u v.id = some z ∧ z.st = .ready ∧ z.place = .off ∧ z.r = v.r)
    ∧ (findThread s t = some x → ∃ u z, exec (.priorityAging t) s = .next u ∧ findThread u t = some z
        ∧ z = if x.st = .ready then { x with effPrio := min 63 (x.basePrio + x.readyFor / 65536) } else x)
    ∧ (freeGroups s h = [g] → chooseCore s h [] H = (some k, X) → ∃ u, exec (.laneGroupBind h) s = .next u ∧ (hearthOf u h).lastCore = k
        ∧ (coreOf u (4 * h + k)).vqueue = bindHead g (coreOf s (4 * h + k)).vqueue ∧ u.th = s.th ∧ sameMemory s u)
    ∧ (freeGroups s h = [] → exec (.laneGroupBind h) s = .next s)
    ∧ ((∃ e ∈ (coreOf s c).vqueue, e.group.isSome) → ∃ u, exec (.vectorEntryComplete c) s = .next u ∧ (coreOf u c).vqueue = dropBound (coreOf s c).vqueue
        ∧ deficitOf (hearthOf u (c / 4)) (c % 4) = max (-255) (deficitOf (hearthOf s (c / 4)) (c % 4) - 1) ∧ sameMemory s u)
    ∧ (s.pending[i]? = some p → storeBlocked s.pending i p = false →
      (p.op.isUpdate = false → ∃ u, exec (.storeCompletion i) s = .next u ∧ u.mem = p.op.apply p.pa s.mem ∧ u.pending = s.pending.eraseIdx i ∧ u.th = s.th)
      ∧ (p.op.isUpdate = true → poisoned s p.pa p.op.size = false →
          ∃ u, exec (.updateLineMerge i) s = .next u ∧ u.mem = p.op.apply p.pa s.mem ∧ u.pending = s.pending.eraseIdx i ∧ u.th = s.th)
      ∧ (p.op.isUpdate = true → poisoned s p.pa p.op.size = true → ∃ u, exec (.updateLineMerge i) s = .next u ∧ u.mem = s.mem ∧ u.pending = s.pending.eraseIdx i))
    ∧ (s.pending[i]? = some p → storeBlocked s.pending i p = true → exec (.storeCompletion i) s = .next s ∧ exec (.updateLineMerge i) s = .next s)
    ∧ (s.cyc.toNat % 16384 / 128 ≠ 2 * k → ∃ u, exec (.refreshWindowEnd c k) s = .next u ∧ u.th.r = s.th.r
        ∧ u.th.st = (if s.th.st = .stalledMemory then .seated else s.th.st) ∧ sameMemory s u)
    ∧ (s.cyc.toNat % 16384 / 128 = 2 * k → exec (.refreshWindowEnd c k) s = .next s)
    ∧ (paExists pa.toNat = false → ∀ lasting, exec (.eccUncorrectable source pa lasting) s = .fault (.noMemory pa.toNat))
    ∧ (paExists pa.toNat = true → let D := dieOf s (homeDie pa.toNat)
      (∃ u, exec (.eccUncorrectable source pa false) s = .next u ∧ u.poison = s.poison ∧ sameMemory s u
        ∧ (dieOf u (homeDie pa.toNat)).transient = if D.transient = 0xFFFFFF then 0xFFFFFF else D.transient + 1)
      ∧ (source = 3 → localHearth pa.toNat = none → (cachedBlock pa.toNat s = none → exec (.eccUncorrectable source pa true) s = .next s)
          ∧ ∀ y b, cachedBlock pa.toNat s = some (y, b) → hasBlock y.dirty b = false → ∃ u, exec (.eccUncorrectable source pa true) s = .next u
            ∧ u.poison = s.poison ∧ sameMemory s u
            ∧ (dieOf u (homeDie pa.toNat)).transient = if D.transient = 0xFFFFFF then 0xFFFFFF else D.transient + 1)
      ∧ (∀ y b, source = 3 → localHearth pa.toNat = none → cachedBlock pa.toNat s = some (y, b) → hasBlock y.dirty b = true →
          ∃ u, exec (.eccUncorrectable source pa true) s = .next u ∧ pa.toNat / 128 ∈ u.poison)
      ∧ (source ≠ 3 ∨ (localHearth pa.toNat).isSome → ∃ u, exec (.eccUncorrectable source pa true) s = .next u ∧ pa.toNat / 128 ∈ u.poison ∧ (∀ l ∈ s.poison, l ∈ u.poison) ∧ sameMemory s u
        ∧ (D.ecclog.getLsbD 63 = true → (dieOf u (homeDie pa.toNat)).ecclog = D.ecclog)
        ∧ (D.ecclog.getLsbD 63 = false → (dieOf u (homeDie pa.toNat)).ecclog.getLsbD 63 = true ∧ (dieOf u (homeDie pa.toNat)).ecclog.extractLsb' 61 2 = source
            ∧ (dieOf u (homeDie pa.toNat)).ecclog.extractLsb' 7 45 = pa.extractLsb' 7 45)))
    ∧ (let M := moduleOf s m
      let period := (M.tracectl.extractLsb' 54 6).toNat
      (10 ≤ period → period ≤ 40 → traceRoom M = some room → M.nextRecord.toNat < room → ∃ u, exec (.traceTimestamp m) s = .next u
          ∧ (moduleOf u m).nextRecord = M.nextRecord + 1 ∧ u.th = s.th ∧
          let at_ := (M.tracectl.extractLsb' 12 40).toNat * 4096 + 32 * M.nextRecord.toNat
          Mem.read u.mem at_ 8 = 5 * 2 ^ 60 ∧ Mem.read u.mem (at_ + 16) 8 = s.cyc.toNat ∧ ∀ a, a < at_ ∨ at_ + 32 ≤ a → Mem.get u.mem a = Mem.get s.mem a)
      ∧ (10 ≤ period → period ≤ 40 → traceRoom M = none → exec (.traceTimestamp m) s = .next s)
      ∧ ((period < 10 ∨ 40 < period) → exec (.traceTimestamp m) s = .next s))

/-! ### The fabric, the host and start-up -/

/-- R15, R80, R206, R372, R403, R423 to R432: a request from another package is performed on this one's memory, or refused for memory that is not
there, another world or poison; a response reaches the thread or operation that waits, and a request that is answered leaves the list;
a time-out and a lost link fail a request as memory that is not there; a mark halves the rate, and 1,024 quiet cycles raise it; the
state table is written while it is enabled; and CYC follows the fabric's time.
The model's readings that it rests on are log entries 117, 118, 119, 120 and 121. -/
def Obligations.FabricWords : Prop :=
  ∀ (pa : BitVec 52) (secure add : Bool) (op : BitVec 5) (op2 : BitVec 2) (fmt : BitVec 5) (n operand expect i e k h : Nat) (bs : List Byte) (ch : BitVec 16)
    (node : BitVec 11) (t : ThreadId) (ws : List Word) (r : Remote) (x : RemoteResult) (y : Thread) (o : EngineOp) (reference : Word) (s : State), s.th.st ≠ .unborn →
    let a := pa.toNat
    let N := nodeOf s node
    let serves (req : RemoteRequest) (n : Nat) (write : Bool) (result : State → RemoteResult) (m : State → List Host.Cell) : Prop :=
      refuseRemote s secure a n = none → (write = true → ingotDie a = none) → let v := mergeReads ((List.range n).map (a + ·)) s
      ∃ u, exec (.remoteRequestServe req) s = .next u ∧ u.responses = s.responses ++ [result v] ∧ u.mem = m v ∧ u.th = s.th
    (refuseRemote s secure a n = if (∃ j < n, paExists (a + j) = false) then some .noMemory else if secure = false ∧ touchesSecure s a n = true then some .wrongWorld else none)
    ∧ (poisoned s a n = false → serves (.load secure pa n) n false (fun v => .data ((List.range n).map fun j => Mem.get v.mem (a + j))) (·.mem))
    ∧ (poisoned s a n = true → serves (.load secure pa n) n false (fun _ => .poisoned) (·.mem))
    ∧ serves (.store secure pa bs) bs.length true (fun _ => .data []) (fun v => (StoreOp.whole bs.length (bytesToNat bs)).apply a v.mem)
    ∧ serves (.masked secure pa n operand expect) n true (fun _ => .data []) (fun v => (StoreOp.bytes n operand expect).apply a v.mem)
    ∧ (poisoned s a n = false → serves (.atomic secure op pa n operand expect) n true (fun v => .data (natToBytes n (Mem.read v.mem a n)))
        (fun v => match atomicValue op.toNat n (Mem.read v.mem a n) operand expect with
          | some x => (StoreOp.whole n x).apply a v.mem
          | none => v.mem))
    ∧ (poisoned s a (updateBytes fmt) = false → serves (.update secure op2 fmt pa operand) (updateBytes fmt) true (fun _ => .data [])
        (fun v => (StoreOp.update op2 fmt (BitVec.ofNat 64 operand)).apply a v.mem))
    ∧ (∀ z, refuseRemote s secure a n = some z → ∃ u, exec (.remoteRequestServe (.load secure pa n)) s = .next u ∧ u.responses = s.responses ++ [z] ∧ sameMemory s u)
    ∧ (refuseRemote s secure a bs.length = none → (ingotDie a).isSome → ∃ u, exec (.remoteRequestServe (.store secure pa bs)) s = .next u
        ∧ u.responses = s.responses ++ [.noMemory] ∧ sameMemory s u)
    ∧ (∃ u p, exec (.remoteRequestServe (.packet t ws)) s = .next u ∧ u.packets = s.packets ++ [p] ∧ p.dst = .thread t ∧ p.words = ws ∧ u.th = s.th)
    ∧ (∃ u p, exec (.remoteRequestServe (.mailbox t.asid secure h ws)) s = .next u ∧ u.packets = s.packets ++ [p] ∧ p.dst = .mailbox s.node h ∧ p.secure = secure)
    ∧ exec (.remoteRequestServe (.unit h ch bs)) s = .next { s with units := s.units ++ [{ hearth := h, channel := ch, item := .bytes 0 0 bs }] }
    ∧ (∀ D, domainGet s k = some D → t ∈ D.members → (D.arrivals.any fun z => decide (z.t = t)) = false → ∃ u, exec (.remoteRequestServe (.arrival k reference t)) s = .next u
        ∧ domainGet u k = some { D with arrivals := D.arrivals ++ [{ t := t, kind := .sync, operand := reference }] } ∧ u.th = s.th)
    ∧ (s.remotes[i]? = some r → heldBehind s.remotes i r = false → r.sent.isSome = true →
      (r.who = .access t → findThread s t = some y → valueReturning r.req = true → ∃ u z q, exec (.remoteResponse i x) s = .next u ∧ findThread u t = some z
          ∧ z.replies = y.replies ++ [q] ∧ q.result = x ∧ q.node = r.node ∧ u.remotes = s.remotes.eraseIdx i ∧ sameMemory s u
          ∧ (nodeOf u r.node).out = (nodeOf s r.node).out - r.bytes)
      ∧ (r.who = .operation t e n → findOp s t e n = some o → ∃ u z, exec (.remoteResponse i x) s = .next u ∧ findOp u t e n = some z
          ∧ (∀ pa' k', requestSpan r.req = some (pa', k') → z = { o with replies := o.replies ++ [⟨pa', r.node, k', x⟩] })
          ∧ (requestSpan r.req = none → z.fault = match o.fault, RemoteResult.cause x with
            | some f, _ => some f
            | none, some c => some (c, r.va)
            | none, none => none))
      ∧ (r.who = .queued s.th.id → x = .wrongWorld → s.th.st = .running → ∃ u, exec (.remoteResponse i x) s = .next u ∧ u.th.st = .trapped
          ∧ u.th.record.value = BitVec.ofNat 64 r.va ∧ sameMemory s u))
    ∧ (s.remotes[i]? = some r → (let limit := 2 ^ (if 16 ≤ s.mgmt.fabtoLog ∧ s.mgmt.fabtoLog ≤ 30 then s.mgmt.fabtoLog else 24)
      ((s.cyc - r.issued).toNat < limit → exec (.remoteTimeout i) s = .next s)
      ∧ (limit ≤ (s.cyc - r.issued).toNat → r.who = .access t → findThread s t = some y → valueReturning r.req = true → ∃ u z q,
          exec (.remoteTimeout i) s = .next u ∧ findThread u t = some z ∧ z.replies = y.replies ++ [q] ∧ q.result = .noMemory ∧ q.node = r.node
          ∧ u.remotes = s.remotes.eraseIdx i ∧ sameMemory s u)))
    ∧ (s.remotes[i]? = some r → heldBehind s.remotes i r = true ∨ r.sent = none → exec (.remoteResponse i x) s = .next s)
    ∧ (mayLeave s i r = decide (r.sent = none ∧ heldBehind s.remotes i r = false
        ∧ (r.bytes = 0 ∨ ((nodeOf s r.node).out = 0 ∨ (nodeOf s r.node).out + r.bytes ≤ (nodeOf s r.node).cap) ∧ (nodeOf s r.node).free.toNat ≤ s.cyc.toNat)))
    ∧ (s.remotes[i]? = some r → (tryLeave s i = if mayLeave s i r then leaveSource i r s else s)
      ∧ (leaveSource i r s).remotes[i]? = some { r with sent := some s.cyc } ∧ (nodeOf (leaveSource i r s) r.node).out = (nodeOf s r.node).out + r.bytes)
    ∧ (s.remotes = [r] → r.who = .access t → findThread s t = some y → valueReturning r.req = true → ∀ nodes, r.node ∈ nodes → ∃ u z q, exec (.linkLost nodes) s = .next u
        ∧ u.remotes = [] ∧ findThread u t = some z ∧ z.replies = y.replies ++ [q] ∧ q.result = .noMemory ∧ u.lostNodes = nodes.map (·.toNat))
    ∧ (∃ u, exec (.markedResponse node) s = .next u ∧ (nodeOf u node).marks = min 0xFFFFFFFF (N.marks + 1)
        ∧ (nodeOf u node).rate = (if elapsed s.cyc N.halvedAt 512 then max 16 (N.rate / 2) else N.rate) ∧ u.th = s.th ∧ sameMemory s u)
    ∧ (1024 ≤ (s.cyc - N.changedAt).toNat → elapsed s.cyc N.markedAt 1024 = true → N.rate < 3200 → ∃ u, exec (.rateIncrease node) s = .next u ∧ (nodeOf u node).rate = min 3200 (N.rate + 32)
        ∧ (nodeOf u node).changedAt = s.cyc)
    ∧ ((s.cyc - N.changedAt).toNat < 1024 ∨ elapsed s.cyc N.markedAt 1024 = false ∨ 3200 ≤ N.rate → exec (.rateIncrease node) s = .next s)
    ∧ (s.mgmt.fst.getLsbD 63 = true → let base := (s.mgmt.fst.extractLsb' 16 36).toNat * 65536
      ∃ u, exec .fabricStateUpdate s = .next u ∧ u.th = s.th ∧ (∀ c, c < base ∨ base + 0x8300 ≤ c → Mem.get u.mem c = Mem.get s.mem c)
        ∧ ∀ p < 2048, let Z : NodeState := lookup {} s.nodes p
          Mem.read u.mem (base + 16 * p + 8) 8 = (Z.marks * 2 ^ 32 + min 0xFFFF Z.srtt) % 2 ^ 64
          ∧ Mem.read u.mem (base + 16 * p) 8 = Z.rate % 4096 * 2 ^ 36 + Z.cap / 4096 % 512 * 2 ^ 24 + Z.out % 2 ^ 21
        ∧ ∀ b < 24, Mem.read u.mem (base + 0x8000 + 32 * b + 16) 8 = (benchOf s b).credits % 2 ^ 32)
    ∧ (s.mgmt.fst.getLsbD 63 = false → exec .fabricStateUpdate s = .next s)
    ∧ (∃ u, exec (.fabEn reference) s = .next u ∧ u.mgmt.fabEn = true ∧ u.tlock = true ∧ u.cyc = (if s.tlock then s.cyc else reference) ∧ u.th = s.th ∧ sameMemory s u)
    ∧ (let due := s.tlock = true ∧ s.cyc.toNat % 16384 / 128 % 2 = 1 ∧ ¬ (add = true ∧ s.cyc.toNat % 128 = 127) ∧ elapsed s.cyc s.slewAt 1024 = true
      (due → exec (.cycSlewStep add) s = .next (if add then { s with slewAt := some s.cyc, cyc := s.cyc + 1 } else { s with slewAt := some s.cyc, withhold := true }))
      ∧ (¬ due → exec (.cycSlewStep add) s = .next s))

/-- R19, R81, R366 to R368, R383, R434 to R436, R439, R440, R445 to R451: a doorbell gives a host queue its target or overruns the ring; an enabled queue counts from zero; an entry
is fetched, checked by its stamp and consumed, and a queue stops on what cannot be read or does not come; the management window is
written after start-up; a host access reads or writes memory that is there and not secure; a host launch's completion is written and
counted; the power cap, the budget and the thermal limits take effect; reset runs the start-up; a nonce is answered by a report.
The model's readings that it rests on are log entries 121, 122, 123, 124, 125, 126, 127, 128, 132 and 154. -/
def Obligations.HostAndStartUp : Prop :=
  ∀ (q : BitVec 14) (count : BitVec 32) (stamp : BitVec 16) (off : BitVec 20) (val : Word) (controller binds : Bool) (temp : BitVec 8) (power : BitVec 12)
    (pa : BitVec 52) (bs nonce : List Byte) (entry : Option (List Byte)) (len k launch n done : Nat) (c : Word) (check : ImageCheck) (image : List Byte)
    (L : Launch) (o : EngineOp) (tag cpl : Word) (s s1 s2 : State),
    let Q := q.toNat
    let fetched := (queueWord s Q 2).toNat
    let d := (count.toNat + 2 ^ 32 - fetched % 2 ^ 32) % 2 ^ 32
    let stops (i : Instr) (code stamp : Nat) : Prop := ∃ u, exec i s = .next u ∧ (hostQueue u Q).target = (hostQueue s Q).target
      ∧ queueWord u Q 4 = BitVec.ofNat 64 (2 ^ 63 + code * 2 ^ 48 + stamp * 2 ^ 32 + fetched % 2 ^ 32)
      ∧ (∀ r, r ≠ Q → hostQueue u r = hostQueue s r) ∧ sameMemoryBut (queueDescriptor s Q + 32) 8 s u ∧ u.th = s.th
    (ringLog s Q = none → exec (.doorbellWrite q count) s = .next s)
    ∧ (ringLog s Q = some n → 2 ^ n < d → stops (.doorbellWrite q count) 2 0)
    ∧ (ringLog s Q = some n → d ≤ 2 ^ n → ∃ u, exec (.doorbellWrite q count) s = .next u ∧ pendingEntries u Q = max (pendingEntries s Q) d
        ∧ ((queueWord s Q 4).getLsbD 63 = true → queueWord u Q 4 = 0) ∧ ((queueWord s Q 4).getLsbD 63 = false → u.mem = s.mem)
        ∧ sameMemoryBut (queueDescriptor s Q + 32) 8 s u ∧ u.th = s.th)
    ∧ ((ringLog s Q = none ∨ (queueWord s Q 4).getLsbD 63 = true ∨ pendingEntries s Q = 0) → exec (.ringEntryFetch q entry) s = .next s)
    ∧ ((ringLog s Q).isSome → (queueWord s Q 4).getLsbD 63 = false → 0 < pendingEntries s Q →
      stops (.ringEntryFetch q none) 3 0
      ∧ (bs.length = 64 → let ws := wordsOf bs
          let L := entryLaunch s Q fetched ws
          (((ws.getD 1 0).extractLsb' 0 16).toNat = (fetched + 1) % 2 ^ 16 → (∀ M ∈ s.launches, M.id ≠ s.launchCount + 1) →
            ∃ u M, exec (.ringEntryFetch q (some bs)) s = .next u ∧ queueWord u Q 2 = BitVec.ofNat 64 (fetched + 1) ∧ u.launches = s.launches ++ [M]
              ∧ M.id = L.id ∧ M.host = some (Q, fetched + 1, (ws.getD 1 0 >>> 32), ws.getD 2 0) ∧ M.addr = addr (ws.getD 0 0) ∧ M.asid = (queueWord s Q 1).extractLsb' 32 10
              ∧ M.secure = (queueWord s Q 1).getLsbD 62 ∧ M.priv = (queueWord s Q 1).extractLsb' 60 2 ∧ u.launchCount = s.launchCount + 1
              ∧ (badRingEntry ws = false → M.state = .queued ∧ M.fault = none) ∧ (badRingEntry ws = true → M.state = .complete ∧ M.fault = some (.format, L.addr))
              ∧ sameMemoryBut (queueDescriptor s Q + 16) 8 s u)
          ∧ (((ws.getD 1 0).extractLsb' 0 16).toNat ≠ (fetched + 1) % 2 ^ 16 → ∃ u, exec (.ringEntryFetch q (some bs)) s = .next u ∧ u.mem = s.mem
              ∧ u.launches = s.launches ∧ (hostQueue u Q).firstRead = ((hostQueue s Q).firstRead.orElse fun _ => some s.cyc)
              ∧ (hostQueue u Q).stamp = ((ws.getD 1 0).extractLsb' 0 16).toNat)))
    ∧ ((hostQueue s Q).firstRead = some c →
      (4096 ≤ (s.cyc - c).toNat → stops (.queueNotReady q stamp) 1 stamp.toNat) ∧ ((s.cyc - c).toNat < 4096 → exec (.queueNotReady q stamp) s = .next s))
    ∧ ((hostQueue s Q).firstRead = none → exec (.queueNotReady q stamp) s = .next s)
    ∧ ((s.boot.state ≠ .ready ∨ off.toNat % 8 ≠ 0) → exec (.mgmtWindowWrite off val controller) s = .next s)
    ∧ (s.boot.state = .ready →
      exec (.mgmtWindowWrite 0x8 val controller) s = .next (if controller then { s with mgmt := { s.mgmt with qtbase := val &&& 0x000FFFFFFFF00000 } } else s)
      ∧ exec (.mgmtWindowWrite 0x10 val controller) s = .next { s with mgmt := { s.mgmt with fst := val &&& 0x800FFFFFFFFF0000 } }
      ∧ (∃ u, exec (.mgmtWindowWrite 0x18 val controller) s = .next u ∧ u.mgmt.fabEn = val.getLsbD 63 ∧ u.mgmt.fabtoLog = (val.extractLsb' 16 5).toNat
          ∧ u.mgmt.rttTarget = (val.extractLsb' 0 16).toNat ∧ u.node = (if controller then val.extractLsb' 32 11 else s.node)
          ∧ u.tlock = (s.tlock || (val.getLsbD 63 && !s.mgmt.fabEn)) ∧ (u.tlock = s.tlock → u.cyc = s.cyc) ∧ u.mem = s.mem)
      ∧ (k < 256 → off = BitVec.ofNat 20 (0x1000 + 8 * k) → ∃ u, exec (.mgmtWindowWrite off val controller) s = .next u ∧ lookup 0 u.mgmt.intena k = val
          ∧ (∀ j, j ≠ k → lookup 0 u.mgmt.intena j = lookup 0 s.mgmt.intena j) ∧ u.interrupts = s.interrupts)
      ∧ (k < 4096 → off = BitVec.ofNat 20 (0x2000 + 8 * k) → ∃ u, exec (.mgmtWindowWrite off val controller) s = .next u ∧ lookup 0 u.mgmt.msix k = val
          ∧ (∀ v ∈ s.mgmt.pba, vectorMasked u v = false → v ∈ u.interrupts) ∧ ∀ v ∈ u.mgmt.pba, vectorMasked u v = true))
    ∧ (∀ write, let size := (match write with | some bs => bs.length | none => len)
      (∀ j, j < size → paExists (pa.toNat + j) = false → (∀ i < j, paExists (pa.toNat + i) = true) →
          exec (.hostMemoryAccess pa write len) s = .fault (.noMemory (pa.toNat + j)))
      ∧ ((∀ j < size, paExists (pa.toNat + j) = true) → touchesSecure s pa.toNat size = true → exec (.hostMemoryAccess pa write len) s = .next s)
      ∧ ((∀ j < size, paExists (pa.toNat + j) = true) → touchesSecure s pa.toNat size = false →
          (write = none → exec (.hostMemoryAccess pa write len) s
              = let v := mergeReads ((List.range len).map (pa.toNat + ·)) s
                .next { v with hostReads := v.hostReads ++ [(List.range len).map fun j => Mem.get v.mem (pa.toNat + j)] })
          ∧ (write = some bs → ∃ u, exec (.hostMemoryAccess pa write len) s = .next u ∧ u.mem = (StoreOp.whole bs.length (bytesToNat bs)).apply pa.toNat s.mem ∧ u.th = s.th)))
    ∧ (findLaunch s launch = some L → L.host = some (Q, n, tag, cpl) → L.state = .complete → findOp s ⟨L.asid, 0⟩ 6 L.id = some o → opWaits o s = false →
      let sb := modOp o.t o.e o.n (·.begins none) s
      let ends (v : State) : Prop := ∃ u, exec (.hostLaunchCompletion launch) s = .next u ∧ sameMemory (advanceDone Q n L.epoch v) u
        ∧ u.interrupts = (advanceDone Q n L.epoch v).interrupts ∧ u.queues = (advanceDone Q n L.epoch v).queues ∧ (o.kind = .launch → findOp u o.t o.e o.n = none)
      (cpl = 0 → ends sb)
      ∧ (cpl ≠ 0 → engineStore o (addr cpl) 8 L.status.toNat sb = .ok () s1 → engineStore o ((addr cpl + 8) % 2 ^ 56) 8 tag.toNat s1 = .ok () s2 → ends s2))
    ∧ (findLaunch s launch = some L → (L.host = none ∨ L.state ≠ .complete) → exec (.hostLaunchCompletion launch) s = .next s)
    ∧ (let E := (hostQueue s Q).epoch
      (hostQueue s Q).served = true → (hostQueue s Q).completedAhead = [] → done = (queueWord s Q 3).toNat →
      (done + 1 < 2 ^ 64 → let u := advanceDone Q (done + 1) E s
        queueWord u Q 3 = BitVec.ofNat 64 (done + 1) ∧ sameMemoryBut (queueDescriptor s Q + 24) 8 s u
        ∧ u.interrupts = (if (lookup 0 s.mgmt.intena (Q / 64)).getLsbD (Q % 64) = true ∧ vectorMasked s (Q % 2048) = false then s.interrupts ++ [Q % 2048] else s.interrupts))
      ∧ (n ≠ done + 1 → (advanceDone Q n E s).mem = s.mem ∧ (advanceDone Q n E s).interrupts = s.interrupts)
      ∧ ∀ e, e ≠ E → advanceDone Q n e s = s)
    ∧ (let u := startQueue Q s
      queueWord u Q 2 = 0 ∧ queueWord u Q 3 = 0 ∧ (hostQueue u Q).served = true ∧ (hostQueue u Q).epoch = (hostQueue s Q).epoch + 1
        ∧ (hostQueue u Q).target = none ∧ sameMemoryBut (queueDescriptor s Q + 16) 16 s u)
    ∧ exec .powerCapTakesEffect s = .next { s with capNow := if s.cap.toNat < 1600 then 1600 else if 2400 < s.cap.toNat then 2400 else s.cap }
    ∧ exec (.powerBudgetBinds power binds) s = .next 
        { s with power := power, limit := binds && (s.limit || decide ((if s.therm then min 1600 s.capNow.toNat else s.capNow.toNat) ≤ power.toNat)) }
    ∧ exec (.thermalLimitEnter temp) s = .next (if 105 ≤ temp.toNat then { s with temp := temp, therm := true } else { s with temp := temp })
    ∧ exec (.thermalLimitExit temp) s = .next (if temp.toNat < 100 then { s with temp := temp, therm := false } else { s with temp := temp })
    ∧ (temp.toNat < 120 → exec (.thermtrip temp) s = .next { s with temp := temp })
    ∧ (120 ≤ temp.toNat → ∃ u, exec (.thermtrip temp) s = .next u ∧ u.boot.state = .held ∧ u.th.st = .unborn ∧ u.others = [] ∧ u.mem = [] ∧ u.tripped = true ∧ u.temp = temp)
    ∧ (monitorImage s.boot = .error check → ∃ u, exec .powerOnReset s = .next u ∧ u.boot.state = .recovery 2 check ∧ u.boot.measurements = [] ∧ u.others = [])
    ∧ (monitorImage s.boot = .ok image →
      let steward := s.boot.slots.getD 2 []
      let walker := s.boot.slots.getD 3 []
      ((checkImage s.boot steward).orElse (fun _ => checkImage s.boot walker) = some check → ∃ u, exec .powerOnReset s = .next u ∧ u.boot.state = .recovery 4 check
          ∧ u.boot.measurements = [imageDigest image] ∧ u.others = [])
      ∧ (checkImage s.boot steward = none → checkImage s.boot walker = none → ∃ u, exec .powerOnReset s = .next u ∧ u.boot.state = .ready
          ∧ u.boot.measurements = [imageDigest image, imageDigest steward, imageDigest walker] ∧ u.node = s.boot.firmware.node ∧ u.regiontbl = s.boot.firmware.regiontbl
          ∧ (∀ t ∈ u.others, t.st = .seated ∧ t.priv = 2 ∧ t.place.service = true) ∧ u.boot.logged = s.boot.withdrawn
          ∧ (∀ r ∈ s.boot.withdrawn, (benchOf u (r / 4)).withdrawn.getLsbD (r % 4) = true) ∧ u.boot.nonces = []
          ∧ u.boot.reports.length = s.boot.reports.length + s.boot.nonces.length))
    ∧ (nonce.length ≠ 32 → exec (.attestationRequest nonce) s = .next s)
    ∧ (nonce.length = 32 →
      (s.boot.state ≠ .ready → exec (.attestationRequest nonce) s = .next { s with boot := { s.boot with nonces := s.boot.nonces ++ [nonce] } })
      ∧ (s.boot.state = .ready → s.boot.nonces = [] → ∃ u report, exec (.attestationRequest nonce) s = .next u ∧ u.boot.reports = s.boot.reports ++ [report]
          ∧ u.boot.nonces = [] ∧ ∃ signature, report = natToBytes 8 Config.ident.toNat ++ natToBytes 4 s.boot.minVersion.toNat ++ s.boot.measurements.flatten
              ++ natToBytes 12 (pairBits s.boot.logged) ++ nonce ++ signature))
end

