-- ==== Sys2Proof/Laws/Memory.lean ====
section
/-!
SUPPORT. Physical memory: reading one byte after writing one, wider reads and writes, and that every write keeps the canonical form.
-/

namespace Sys2Proof.Machine

open Sys2Proof

/-! ### One byte -/

theorem Mem.get_cons (k : Nat) (b : Byte) (t : List Host.Cell) (a : Nat) : Mem.get ((k, b) :: t) a = if k = a then b else Mem.get t a := rfl

theorem Mem.get_filter_ne (m : List Host.Cell) (a x : Nat) :
    Mem.get (m.filter fun c => decide (c.1 ≠ a)) x = if x = a then 0 else Mem.get m x := by
  induction m with
  | nil => simp [Mem.get]
  | cons c t ih =>
    obtain ⟨k, b⟩ := c
    by_cases h : k = a
    · subst h
      simp only [List.filter_cons, ne_eq, not_true_eq_false, decide_false, Bool.false_eq_true, if_false, ih, Mem.get_cons]
      by_cases e : k = x
      · simp [e]
      · simp [e, Ne.symm e]
    · simp only [List.filter_cons, ne_eq, h, not_false_eq_true, decide_true, if_true, Mem.get_cons, ih]
      by_cases e : k = x
      · subst e; simp [h]
      · simp [e]

theorem Mem.get_insert (m : List Host.Cell) (a x : Nat) (b : Byte) : Mem.get (insert m a b) x = if a = x then b else Mem.get m x := by
  induction m with
  | nil => simp [insert, Mem.get]
  | cons c t ih =>
    obtain ⟨k, y⟩ := c
    simp only [insert]
    split
    · rfl
    · split
      · next e => subst e; simp only [Mem.get_cons]; split <;> simp_all
      · next e =>
        simp only [Mem.get_cons, ih]
        by_cases h : k = x
        · subst h; simp [e]
        · simp [h]

/-- Read after write of one byte, in any memory. -/
theorem Mem.get_set (m : List Host.Cell) (a x : Nat) (b : Byte) : Mem.get (Mem.set m a b) x = if x = a then b else Mem.get m x := by
  unfold Mem.set
  split
  · next h => rw [Mem.get_filter_ne, h]
  · rw [Mem.get_insert]; simp [eq_comm]

@[simp] theorem Mem.get_set_same (m : List Host.Cell) (a : Nat) (b : Byte) : Mem.get (Mem.set m a b) a = b := by simp [Mem.get_set]

theorem Mem.get_set_other (m : List Host.Cell) {a x : Nat} (b : Byte) (h : x ≠ a) : Mem.get (Mem.set m a b) x = Mem.get m x := by
  simp [Mem.get_set, h]

/-! ### Several bytes -/

/-- A write leaves every byte outside it as it was. -/
theorem Mem.get_write_other (m : List Host.Cell) (a n x : Nat) {y : Nat} (h : y < a ∨ a + n ≤ y) :
    Mem.get (Mem.write m a n x) y = Mem.get m y := by
  induction n generalizing m a x with
  | zero => rfl
  | succ n ih => rw [Mem.write, ih _ _ _ (by omega), Mem.get_set_other _ _ (by omega)]

/-- Byte j of what was written. -/
theorem Mem.get_write (m : List Host.Cell) (a n x : Nat) {j : Nat} (h : j < n) :
    Mem.get (Mem.write m a n x) (a + j) = BitVec.ofNat 8 (x / 256 ^ j) := by
  induction n generalizing m a x j with
  | zero => omega
  | succ n ih =>
    rw [Mem.write]
    cases j with
    | zero => rw [Mem.get_write_other _ _ _ _ (by omega)]; simp
    | succ j =>
      rw [show a + (j + 1) = a + 1 + j by omega, ih _ _ _ (by omega), Nat.div_div_eq_div_mul, Nat.pow_succ, Nat.mul_comm]

/-- A read of bytes that agree agrees. -/
theorem Mem.read_congr (m m' : List Host.Cell) (a n : Nat) (h : ∀ j < n, Mem.get m (a + j) = Mem.get m' (a + j)) :
    Mem.read m a n = Mem.read m' a n := by
  induction n generalizing a with
  | zero => rfl
  | succ n ih =>
    rw [Mem.read, Mem.read, ih (a + 1) (fun j hj => by have := h (j + 1) (by omega); rwa [show a + (j + 1) = a + 1 + j by omega] at this)]
    rw [show Mem.get m a = Mem.get m' a from h 0 (by omega)]

/-- A read of n bytes is less than 256 to the n. -/
theorem Mem.read_lt (m : List Host.Cell) (a n : Nat) : Mem.read m a n < 256 ^ n := by
  induction n generalizing a with
  | zero => simp [Mem.read]
  | succ n ih =>
    have h := ih (a + 1)
    have b := (Mem.get m a).isLt
    rw [Mem.read, Nat.pow_succ]
    omega

/-- Read after write of the same bytes. -/
theorem Mem.read_write (m : List Host.Cell) (a n x : Nat) : Mem.read (Mem.write m a n x) a n = x % 256 ^ n := by
  induction n generalizing m a x with
  | zero => simp [Mem.read, Nat.mod_one]
  | succ n ih =>
    rw [Mem.read, Mem.write, Mem.get_write_other _ _ _ _ (by omega), Mem.get_set_same, ih, Nat.pow_succ, Nat.mul_comm (256 ^ n) 256,
      Nat.mod_mul]
    simp

/-- A write of n bytes leaves a read of bytes outside it as it was. -/
theorem Mem.read_write_other (m : List Host.Cell) (a n x b k : Nat) (h : b + k ≤ a ∨ a + n ≤ b) :
    Mem.read (Mem.write m a n x) b k = Mem.read m b k :=
  Mem.read_congr _ _ _ _ fun j hj => Mem.get_write_other _ _ _ _ (by omega)

/-- A masked write leaves every byte outside it as it was. -/
theorem Mem.get_writeMasked_other (m : List Host.Cell) (a n x k : Nat) {y : Nat} (h : y < a ∨ a + n ≤ y) :
    Mem.get (Mem.writeMasked m a n x k) y = Mem.get m y := by
  induction n generalizing m a x k with
  | zero => rfl
  | succ n ih => rw [Mem.writeMasked, ih _ _ _ _ (by omega), Mem.get_set_other _ _ (by omega)]

/-! ### The canonical form -/

theorem Mem.wfFrom_mono {lo lo' : Nat} (h : lo' ≤ lo) : ∀ {m : List Host.Cell}, Mem.wfFrom lo m = true → Mem.wfFrom lo' m = true
  | [], _ => rfl
  | (k, b) :: t, hm => by
    simp only [Mem.wfFrom, Bool.and_eq_true, decide_eq_true_eq] at hm ⊢
    exact ⟨⟨Nat.le_trans h hm.1.1, hm.1.2⟩, hm.2⟩

theorem Mem.wfFrom_filter (p : Host.Cell → Bool) : ∀ {lo : Nat} {m : List Host.Cell}, Mem.wfFrom lo m = true → Mem.wfFrom lo (m.filter p) = true
  | _, [], _ => rfl
  | lo, (k, b) :: t, hm => by
    simp only [Mem.wfFrom, Bool.and_eq_true, decide_eq_true_eq] at hm
    rw [List.filter_cons]
    split
    · simp only [Mem.wfFrom, Bool.and_eq_true, decide_eq_true_eq]
      exact ⟨hm.1, Mem.wfFrom_filter p hm.2⟩
    · exact Mem.wfFrom_mono (by omega) (Mem.wfFrom_filter p hm.2)

theorem Mem.wfFrom_insert {a : Nat} {b : Byte} (hb : b ≠ 0) :
    ∀ {lo : Nat} {m : List Host.Cell}, lo ≤ a → Mem.wfFrom lo m = true → Mem.wfFrom lo (insert m a b) = true
  | _, [], ha, _ => by simp only [insert, Mem.wfFrom, decide_eq_true ha, decide_eq_true hb, Bool.and_self]
  | lo, (k, y) :: t, ha, hm => by
    simp only [Mem.wfFrom, Bool.and_eq_true, decide_eq_true_eq] at hm
    simp only [insert]
    split
    · next h =>
      simp only [Mem.wfFrom, Bool.and_eq_true, decide_eq_true_eq]
      exact ⟨⟨ha, hb⟩, ⟨by omega, hm.1.2⟩, hm.2⟩
    · split
      · next h =>
        subst h
        simp only [Mem.wfFrom, Bool.and_eq_true, decide_eq_true_eq]
        exact ⟨⟨ha, hb⟩, hm.2⟩
      · next h1 h2 =>
        simp only [Mem.wfFrom, Bool.and_eq_true, decide_eq_true_eq]
        exact ⟨hm.1, Mem.wfFrom_insert hb (by omega) hm.2⟩

/-- Writing a byte keeps the canonical form. -/
theorem Mem.wf_set {m : List Host.Cell} (a : Nat) (b : Byte) (h : Mem.wf m = true) : Mem.wf (Mem.set m a b) = true := by
  unfold Mem.set Mem.wf
  split
  · exact Mem.wfFrom_filter _ h
  · next hb => exact Mem.wfFrom_insert hb (Nat.zero_le _) h

theorem Mem.wf_write {m : List Host.Cell} (a n x : Nat) (h : Mem.wf m = true) : Mem.wf (Mem.write m a n x) = true := by
  induction n generalizing m a x with
  | zero => exact h
  | succ n ih => exact ih _ _ (Mem.wf_set _ _ h)

theorem Mem.wf_writeMasked {m : List Host.Cell} (a n x k : Nat) (h : Mem.wf m = true) : Mem.wf (Mem.writeMasked m a n x k) = true := by
  induction n generalizing m a x k with
  | zero => exact h
  | succ n ih => exact ih _ _ _ (Mem.wf_set _ _ h)

/-- The canonical form holds of the memory after reset. -/
theorem Mem.wf_reset : Mem.wf State.reset.mem = true := rfl

end Sys2Proof.Machine
end

