-- ==== Sys2Proof/Laws/Tables.lean ====
section
/-!
SUPPORT. Sparse tables: what `lookup` reads after `insert`, which keys stand in a table, and that inserting a value that is already
there changes no reading.
-/

namespace Sys2Proof.Machine

open Sys2Proof

variable {α : Type}

@[simp] theorem lookup_nil (d : α) (n : Nat) : lookup d [] n = d := rfl

theorem lookup_cons (d : α) (k : Nat) (x : α) (t : List (Nat × α)) (n : Nat) :
    lookup d ((k, x) :: t) n = if k = n then x else lookup d t n := rfl

/-- The key that was inserted reads as the value that was inserted, in any table. -/
@[simp] theorem lookup_insert_same (d : α) (l : List (Nat × α)) (n : Nat) (y : α) : lookup d (insert l n y) n = y := by
  induction l with
  | nil => simp [insert, lookup]
  | cons c t ih =>
    obtain ⟨k, x⟩ := c
    simp only [insert]
    split
    · simp [lookup]
    · split
      · simp [lookup]
      · next h => rw [lookup_cons, if_neg (fun e => h e.symm), ih]

/-- Every other key reads as before, in any table. -/
theorem lookup_insert_other (d : α) (l : List (Nat × α)) {n m : Nat} (y : α) (h : n ≠ m) : lookup d (insert l n y) m = lookup d l m := by
  induction l with
  | nil => simp [insert, lookup, h]
  | cons c t ih =>
    obtain ⟨k, x⟩ := c
    simp only [insert]
    split
    · rw [lookup_cons, if_neg h]
    · split
      · next e => subst e; rw [lookup_cons, if_neg h, lookup_cons, if_neg h]
      · rw [lookup_cons, lookup_cons, ih]

theorem lookup_insert (d : α) (l : List (Nat × α)) (n m : Nat) (y : α) :
    lookup d (insert l n y) m = if n = m then y else lookup d l m := by
  by_cases h : n = m
  · subst h; simp
  · rw [lookup_insert_other d l y h, if_neg h]

end Sys2Proof.Machine
end

