-- ==== Sys2Proof/Laws/State.lean ====
section
/-!
SUPPORT. The state under its updates: what each named update changes and, field by field, what it leaves, so that no later proof
unfolds a record update; and reading a unit's registers after writing them.
-/

namespace Sys2Proof.Machine

open Sys2Proof

/-- Every field but the current thread is as before. -/
@[simp] theorem setRegs_fields (r : Regs) (s : State) :
    (setRegs r s).others = s.others ∧ (setRegs r s).hearths = s.hearths ∧ (setRegs r s).cores = s.cores
      ∧ (setRegs r s).benches = s.benches ∧ (setRegs r s).dies = s.dies ∧ (setRegs r s).spaces = s.spaces
      ∧ (setRegs r s).domains = s.domains ∧ (setRegs r s).mem = s.mem ∧ (setRegs r s).poison = s.poison
      ∧ (setRegs r s).pending = s.pending ∧ (setRegs r s).packets = s.packets ∧ (setRegs r s).deposits = s.deposits
      ∧ (setRegs r s).nreads = s.nreads ∧ (setRegs r s).units = s.units ∧ (setRegs r s).shootdowns = s.shootdowns
      ∧ (setRegs r s).cyc = s.cyc ∧ (setRegs r s).tlock = s.tlock ∧ (setRegs r s).slewAt = s.slewAt
      ∧ (setRegs r s).withhold = s.withhold ∧ (setRegs r s).node = s.node ∧ (setRegs r s).regiontbl = s.regiontbl
      ∧ (setRegs r s).ops = s.ops ∧ (setRegs r s).launches = s.launches ∧ (setRegs r s).launchCount = s.launchCount
      ∧ (setRegs r s).lastQueue = s.lastQueue ∧ (setRegs r s).remotes = s.remotes ∧ (setRegs r s).nodes = s.nodes
      ∧ (setRegs r s).lostNodes = s.lostNodes ∧ (setRegs r s).mgmt = s.mgmt ∧ (setRegs r s).queues = s.queues
      ∧ (setRegs r s).interrupts = s.interrupts ∧ (setRegs r s).hostReads = s.hostReads
      ∧ (setRegs r s).responses = s.responses ∧ (setRegs r s).cap = s.cap ∧ (setRegs r s).capNow = s.capNow ∧ (setRegs r s).capAt = s.capAt
      ∧ (setRegs r s).power = s.power ∧ (setRegs r s).temp = s.temp ∧ (setRegs r s).therm = s.therm
      ∧ (setRegs r s).limit = s.limit ∧ (setRegs r s).tripped = s.tripped ∧ (setRegs r s).boot = s.boot
      ∧ (setRegs r s).agenda = s.agenda ∧ (setRegs r s).freeCount = s.freeCount :=
  ⟨rfl, rfl, rfl, rfl, rfl, rfl, rfl, rfl, rfl, rfl, rfl, rfl, rfl, rfl, rfl, rfl, rfl, rfl, rfl, rfl, rfl, rfl, rfl, rfl, rfl, rfl,
  rfl, rfl, rfl, rfl, rfl, rfl, rfl, rfl, rfl, rfl, rfl, rfl, rfl, rfl, rfl, rfl, rfl, rfl⟩

@[simp] theorem setRegs_th (r : Regs) (s : State) : (setRegs r s).th = { s.th with r := r } := rfl

/-- Every field but the table of hearths is as before. -/
@[simp] theorem putHearth_fields (s : State) (n : Nat) (x : Hearth) :
    (putHearth s n x).th = s.th ∧ (putHearth s n x).others = s.others ∧ (putHearth s n x).cores = s.cores
      ∧ (putHearth s n x).benches = s.benches ∧ (putHearth s n x).dies = s.dies ∧ (putHearth s n x).spaces = s.spaces
      ∧ (putHearth s n x).domains = s.domains ∧ (putHearth s n x).mem = s.mem ∧ (putHearth s n x).poison = s.poison
      ∧ (putHearth s n x).pending = s.pending ∧ (putHearth s n x).packets = s.packets
      ∧ (putHearth s n x).deposits = s.deposits ∧ (putHearth s n x).nreads = s.nreads ∧ (putHearth s n x).units = s.units
      ∧ (putHearth s n x).shootdowns = s.shootdowns ∧ (putHearth s n x).cyc = s.cyc ∧ (putHearth s n x).tlock = s.tlock
      ∧ (putHearth s n x).slewAt = s.slewAt ∧ (putHearth s n x).withhold = s.withhold ∧ (putHearth s n x).node = s.node
      ∧ (putHearth s n x).regiontbl = s.regiontbl ∧ (putHearth s n x).ops = s.ops ∧ (putHearth s n x).launches = s.launches
      ∧ (putHearth s n x).launchCount = s.launchCount ∧ (putHearth s n x).lastQueue = s.lastQueue
      ∧ (putHearth s n x).remotes = s.remotes ∧ (putHearth s n x).nodes = s.nodes ∧ (putHearth s n x).lostNodes = s.lostNodes
      ∧ (putHearth s n x).mgmt = s.mgmt ∧ (putHearth s n x).queues = s.queues ∧ (putHearth s n x).interrupts = s.interrupts
      ∧ (putHearth s n x).hostReads = s.hostReads ∧ (putHearth s n x).responses = s.responses ∧ (putHearth s n x).cap = s.cap
      ∧ (putHearth s n x).capNow = s.capNow ∧ (putHearth s n x).capAt = s.capAt ∧ (putHearth s n x).power = s.power ∧ (putHearth s n x).temp = s.temp
      ∧ (putHearth s n x).therm = s.therm ∧ (putHearth s n x).limit = s.limit ∧ (putHearth s n x).tripped = s.tripped
      ∧ (putHearth s n x).boot = s.boot ∧ (putHearth s n x).agenda = s.agenda ∧ (putHearth s n x).freeCount = s.freeCount :=
  ⟨rfl, rfl, rfl, rfl, rfl, rfl, rfl, rfl, rfl, rfl, rfl, rfl, rfl, rfl, rfl, rfl, rfl, rfl, rfl, rfl, rfl, rfl, rfl, rfl, rfl, rfl,
  rfl, rfl, rfl, rfl, rfl, rfl, rfl, rfl, rfl, rfl, rfl, rfl, rfl, rfl, rfl, rfl, rfl, rfl⟩

@[simp] theorem putHearth_hearths (s : State) (n : Nat) (x : Hearth) : (putHearth s n x).hearths = insert s.hearths n x := rfl

/-- Every field but the table of cores is as before. -/
@[simp] theorem putCore_fields (s : State) (n : Nat) (x : Core) :
    (putCore s n x).th = s.th ∧ (putCore s n x).others = s.others ∧ (putCore s n x).hearths = s.hearths
      ∧ (putCore s n x).benches = s.benches ∧ (putCore s n x).dies = s.dies ∧ (putCore s n x).spaces = s.spaces
      ∧ (putCore s n x).domains = s.domains ∧ (putCore s n x).mem = s.mem ∧ (putCore s n x).poison = s.poison
      ∧ (putCore s n x).pending = s.pending ∧ (putCore s n x).packets = s.packets ∧ (putCore s n x).deposits = s.deposits
      ∧ (putCore s n x).nreads = s.nreads ∧ (putCore s n x).units = s.units ∧ (putCore s n x).shootdowns = s.shootdowns
      ∧ (putCore s n x).cyc = s.cyc ∧ (putCore s n x).tlock = s.tlock ∧ (putCore s n x).slewAt = s.slewAt
      ∧ (putCore s n x).withhold = s.withhold ∧ (putCore s n x).node = s.node ∧ (putCore s n x).regiontbl = s.regiontbl
      ∧ (putCore s n x).ops = s.ops ∧ (putCore s n x).launches = s.launches ∧ (putCore s n x).launchCount = s.launchCount
      ∧ (putCore s n x).lastQueue = s.lastQueue ∧ (putCore s n x).remotes = s.remotes ∧ (putCore s n x).nodes = s.nodes
      ∧ (putCore s n x).lostNodes = s.lostNodes ∧ (putCore s n x).mgmt = s.mgmt ∧ (putCore s n x).queues = s.queues
      ∧ (putCore s n x).interrupts = s.interrupts ∧ (putCore s n x).hostReads = s.hostReads
      ∧ (putCore s n x).responses = s.responses ∧ (putCore s n x).cap = s.cap ∧ (putCore s n x).capNow = s.capNow ∧ (putCore s n x).capAt = s.capAt
      ∧ (putCore s n x).power = s.power ∧ (putCore s n x).temp = s.temp ∧ (putCore s n x).therm = s.therm
      ∧ (putCore s n x).limit = s.limit ∧ (putCore s n x).tripped = s.tripped ∧ (putCore s n x).boot = s.boot
      ∧ (putCore s n x).agenda = s.agenda ∧ (putCore s n x).freeCount = s.freeCount :=
  ⟨rfl, rfl, rfl, rfl, rfl, rfl, rfl, rfl, rfl, rfl, rfl, rfl, rfl, rfl, rfl, rfl, rfl, rfl, rfl, rfl, rfl, rfl, rfl, rfl, rfl, rfl,
  rfl, rfl, rfl, rfl, rfl, rfl, rfl, rfl, rfl, rfl, rfl, rfl, rfl, rfl, rfl, rfl, rfl, rfl⟩

@[simp] theorem putCore_cores (s : State) (n : Nat) (x : Core) : (putCore s n x).cores = insert s.cores n x := rfl

/-- Every field but the table of benches is as before. -/
@[simp] theorem putBench_fields (s : State) (n : Nat) (x : Bench) :
    (putBench s n x).th = s.th ∧ (putBench s n x).others = s.others ∧ (putBench s n x).hearths = s.hearths
      ∧ (putBench s n x).cores = s.cores ∧ (putBench s n x).dies = s.dies ∧ (putBench s n x).spaces = s.spaces
      ∧ (putBench s n x).domains = s.domains ∧ (putBench s n x).mem = s.mem ∧ (putBench s n x).poison = s.poison
      ∧ (putBench s n x).pending = s.pending ∧ (putBench s n x).packets = s.packets ∧ (putBench s n x).deposits = s.deposits
      ∧ (putBench s n x).nreads = s.nreads ∧ (putBench s n x).units = s.units ∧ (putBench s n x).shootdowns = s.shootdowns
      ∧ (putBench s n x).cyc = s.cyc ∧ (putBench s n x).tlock = s.tlock ∧ (putBench s n x).slewAt = s.slewAt
      ∧ (putBench s n x).withhold = s.withhold ∧ (putBench s n x).node = s.node ∧ (putBench s n x).regiontbl = s.regiontbl
      ∧ (putBench s n x).ops = s.ops ∧ (putBench s n x).launches = s.launches ∧ (putBench s n x).launchCount = s.launchCount
      ∧ (putBench s n x).lastQueue = s.lastQueue ∧ (putBench s n x).remotes = s.remotes ∧ (putBench s n x).nodes = s.nodes
      ∧ (putBench s n x).lostNodes = s.lostNodes ∧ (putBench s n x).mgmt = s.mgmt ∧ (putBench s n x).queues = s.queues
      ∧ (putBench s n x).interrupts = s.interrupts ∧ (putBench s n x).hostReads = s.hostReads
      ∧ (putBench s n x).responses = s.responses ∧ (putBench s n x).cap = s.cap ∧ (putBench s n x).capNow = s.capNow ∧ (putBench s n x).capAt = s.capAt
      ∧ (putBench s n x).power = s.power ∧ (putBench s n x).temp = s.temp ∧ (putBench s n x).therm = s.therm
      ∧ (putBench s n x).limit = s.limit ∧ (putBench s n x).tripped = s.tripped ∧ (putBench s n x).boot = s.boot
      ∧ (putBench s n x).agenda = s.agenda ∧ (putBench s n x).freeCount = s.freeCount :=
  ⟨rfl, rfl, rfl, rfl, rfl, rfl, rfl, rfl, rfl, rfl, rfl, rfl, rfl, rfl, rfl, rfl, rfl, rfl, rfl, rfl, rfl, rfl, rfl, rfl, rfl, rfl,
  rfl, rfl, rfl, rfl, rfl, rfl, rfl, rfl, rfl, rfl, rfl, rfl, rfl, rfl, rfl, rfl, rfl, rfl⟩

@[simp] theorem putBench_benches (s : State) (n : Nat) (x : Bench) : (putBench s n x).benches = insert s.benches n x := rfl

/-- Every field but the table of dies is as before. -/
@[simp] theorem putDie_fields (s : State) (n : Nat) (x : Die) :
    (putDie s n x).th = s.th ∧ (putDie s n x).others = s.others ∧ (putDie s n x).hearths = s.hearths
      ∧ (putDie s n x).cores = s.cores ∧ (putDie s n x).benches = s.benches ∧ (putDie s n x).spaces = s.spaces
      ∧ (putDie s n x).domains = s.domains ∧ (putDie s n x).mem = s.mem ∧ (putDie s n x).poison = s.poison
      ∧ (putDie s n x).pending = s.pending ∧ (putDie s n x).packets = s.packets ∧ (putDie s n x).deposits = s.deposits
      ∧ (putDie s n x).nreads = s.nreads ∧ (putDie s n x).units = s.units ∧ (putDie s n x).shootdowns = s.shootdowns
      ∧ (putDie s n x).cyc = s.cyc ∧ (putDie s n x).tlock = s.tlock ∧ (putDie s n x).slewAt = s.slewAt
      ∧ (putDie s n x).withhold = s.withhold ∧ (putDie s n x).node = s.node ∧ (putDie s n x).regiontbl = s.regiontbl
      ∧ (putDie s n x).ops = s.ops ∧ (putDie s n x).launches = s.launches ∧ (putDie s n x).launchCount = s.launchCount
      ∧ (putDie s n x).lastQueue = s.lastQueue ∧ (putDie s n x).remotes = s.remotes ∧ (putDie s n x).nodes = s.nodes
      ∧ (putDie s n x).lostNodes = s.lostNodes ∧ (putDie s n x).mgmt = s.mgmt ∧ (putDie s n x).queues = s.queues
      ∧ (putDie s n x).interrupts = s.interrupts ∧ (putDie s n x).hostReads = s.hostReads
      ∧ (putDie s n x).responses = s.responses ∧ (putDie s n x).cap = s.cap ∧ (putDie s n x).capNow = s.capNow ∧ (putDie s n x).capAt = s.capAt
      ∧ (putDie s n x).power = s.power ∧ (putDie s n x).temp = s.temp ∧ (putDie s n x).therm = s.therm
      ∧ (putDie s n x).limit = s.limit ∧ (putDie s n x).tripped = s.tripped ∧ (putDie s n x).boot = s.boot
      ∧ (putDie s n x).agenda = s.agenda ∧ (putDie s n x).freeCount = s.freeCount :=
  ⟨rfl, rfl, rfl, rfl, rfl, rfl, rfl, rfl, rfl, rfl, rfl, rfl, rfl, rfl, rfl, rfl, rfl, rfl, rfl, rfl, rfl, rfl, rfl, rfl, rfl, rfl,
  rfl, rfl, rfl, rfl, rfl, rfl, rfl, rfl, rfl, rfl, rfl, rfl, rfl, rfl, rfl, rfl, rfl, rfl⟩

@[simp] theorem putDie_dies (s : State) (n : Nat) (x : Die) : (putDie s n x).dies = insert s.dies n x := rfl

/-- Every field but the table of address spaces is as before. -/
@[simp] theorem putSpace_fields (s : State) (a : BitVec 10) (x : Space) :
    (putSpace s a x).th = s.th ∧ (putSpace s a x).others = s.others ∧ (putSpace s a x).hearths = s.hearths
      ∧ (putSpace s a x).cores = s.cores ∧ (putSpace s a x).benches = s.benches ∧ (putSpace s a x).dies = s.dies
      ∧ (putSpace s a x).domains = s.domains ∧ (putSpace s a x).mem = s.mem ∧ (putSpace s a x).poison = s.poison
      ∧ (putSpace s a x).pending = s.pending ∧ (putSpace s a x).packets = s.packets ∧ (putSpace s a x).deposits = s.deposits
      ∧ (putSpace s a x).nreads = s.nreads ∧ (putSpace s a x).units = s.units ∧ (putSpace s a x).shootdowns = s.shootdowns
      ∧ (putSpace s a x).cyc = s.cyc ∧ (putSpace s a x).tlock = s.tlock ∧ (putSpace s a x).slewAt = s.slewAt
      ∧ (putSpace s a x).withhold = s.withhold ∧ (putSpace s a x).node = s.node ∧ (putSpace s a x).regiontbl = s.regiontbl
      ∧ (putSpace s a x).ops = s.ops ∧ (putSpace s a x).launches = s.launches ∧ (putSpace s a x).launchCount = s.launchCount
      ∧ (putSpace s a x).lastQueue = s.lastQueue ∧ (putSpace s a x).remotes = s.remotes ∧ (putSpace s a x).nodes = s.nodes
      ∧ (putSpace s a x).lostNodes = s.lostNodes ∧ (putSpace s a x).mgmt = s.mgmt ∧ (putSpace s a x).queues = s.queues
      ∧ (putSpace s a x).interrupts = s.interrupts ∧ (putSpace s a x).hostReads = s.hostReads
      ∧ (putSpace s a x).responses = s.responses ∧ (putSpace s a x).cap = s.cap ∧ (putSpace s a x).capNow = s.capNow ∧ (putSpace s a x).capAt = s.capAt
      ∧ (putSpace s a x).power = s.power ∧ (putSpace s a x).temp = s.temp ∧ (putSpace s a x).therm = s.therm
      ∧ (putSpace s a x).limit = s.limit ∧ (putSpace s a x).tripped = s.tripped ∧ (putSpace s a x).boot = s.boot
      ∧ (putSpace s a x).agenda = s.agenda ∧ (putSpace s a x).freeCount = s.freeCount :=
  ⟨rfl, rfl, rfl, rfl, rfl, rfl, rfl, rfl, rfl, rfl, rfl, rfl, rfl, rfl, rfl, rfl, rfl, rfl, rfl, rfl, rfl, rfl, rfl, rfl, rfl, rfl,
  rfl, rfl, rfl, rfl, rfl, rfl, rfl, rfl, rfl, rfl, rfl, rfl, rfl, rfl, rfl, rfl, rfl, rfl⟩

@[simp] theorem putSpace_spaces (s : State) (a : BitVec 10) (x : Space) : (putSpace s a x).spaces = insert s.spaces a.toNat x := rfl

/-! ### Reading a unit after writing it -/

@[simp] theorem hearthOf_putHearth_same (s : State) (n : Nat) (x : Hearth) : hearthOf (putHearth s n x) n = x := lookup_insert_same _ _ _ _

theorem hearthOf_putHearth_other (s : State) {n m : Nat} (x : Hearth) (h : n ≠ m) : hearthOf (putHearth s n x) m = hearthOf s m :=
  lookup_insert_other _ _ _ h

@[simp] theorem coreOf_putCore_same (s : State) (n : Nat) (x : Core) : coreOf (putCore s n x) n = x := lookup_insert_same _ _ _ _

theorem coreOf_putCore_other (s : State) {n m : Nat} (x : Core) (h : n ≠ m) : coreOf (putCore s n x) m = coreOf s m :=
  lookup_insert_other _ _ _ h

@[simp] theorem benchOf_putBench_same (s : State) (n : Nat) (x : Bench) : benchOf (putBench s n x) n = x := lookup_insert_same _ _ _ _

theorem benchOf_putBench_other (s : State) {n m : Nat} (x : Bench) (h : n ≠ m) : benchOf (putBench s n x) m = benchOf s m :=
  lookup_insert_other _ _ _ h

@[simp] theorem dieOf_putDie_same (s : State) (n : Nat) (x : Die) : dieOf (putDie s n x) n = x := lookup_insert_same _ _ _ _

theorem dieOf_putDie_other (s : State) {n m : Nat} (x : Die) (h : n ≠ m) : dieOf (putDie s n x) m = dieOf s m :=
  lookup_insert_other _ _ _ h

@[simp] theorem spaceOf_putSpace_same (s : State) (a : BitVec 10) (x : Space) : spaceOf (putSpace s a x) a = x :=
  lookup_insert_same _ _ _ _

theorem spaceOf_putSpace_other (s : State) {a b : BitVec 10} (x : Space) (h : a ≠ b) : spaceOf (putSpace s a x) b = spaceOf s b :=
  lookup_insert_other _ _ _ fun e => h (BitVec.eq_of_toNat_eq e)

/-! ### A unit's registers, where another kind of unit or the current thread is written -/

@[simp] theorem hearthOf_setRegs (r : Regs) (s : State) (m : Nat) : hearthOf (setRegs r s) m = hearthOf s m := rfl
@[simp] theorem hearthOf_putCore (s : State) (n m : Nat) (x : Core) : hearthOf (putCore s n x) m = hearthOf s m := rfl
@[simp] theorem hearthOf_putBench (s : State) (n m : Nat) (x : Bench) : hearthOf (putBench s n x) m = hearthOf s m := rfl
@[simp] theorem hearthOf_putDie (s : State) (n m : Nat) (x : Die) : hearthOf (putDie s n x) m = hearthOf s m := rfl

@[simp] theorem coreOf_setRegs (r : Regs) (s : State) (m : Nat) : coreOf (setRegs r s) m = coreOf s m := rfl
@[simp] theorem coreOf_putHearth (s : State) (n m : Nat) (x : Hearth) : coreOf (putHearth s n x) m = coreOf s m := rfl
@[simp] theorem coreOf_putBench (s : State) (n m : Nat) (x : Bench) : coreOf (putBench s n x) m = coreOf s m := rfl
@[simp] theorem coreOf_putDie (s : State) (n m : Nat) (x : Die) : coreOf (putDie s n x) m = coreOf s m := rfl

@[simp] theorem benchOf_setRegs (r : Regs) (s : State) (m : Nat) : benchOf (setRegs r s) m = benchOf s m := rfl
@[simp] theorem benchOf_putHearth (s : State) (n m : Nat) (x : Hearth) : benchOf (putHearth s n x) m = benchOf s m := rfl
@[simp] theorem benchOf_putCore (s : State) (n m : Nat) (x : Core) : benchOf (putCore s n x) m = benchOf s m := rfl
@[simp] theorem benchOf_putDie (s : State) (n m : Nat) (x : Die) : benchOf (putDie s n x) m = benchOf s m := rfl

@[simp] theorem dieOf_setRegs (r : Regs) (s : State) (m : Nat) : dieOf (setRegs r s) m = dieOf s m := rfl
@[simp] theorem dieOf_putHearth (s : State) (n m : Nat) (x : Hearth) : dieOf (putHearth s n x) m = dieOf s m := rfl
@[simp] theorem dieOf_putCore (s : State) (n m : Nat) (x : Core) : dieOf (putCore s n x) m = dieOf s m := rfl
@[simp] theorem dieOf_putBench (s : State) (n m : Nat) (x : Bench) : dieOf (putBench s n x) m = dieOf s m := rfl

/-! ### Threads -/

@[simp] theorem setRegs_id (s : State) : setRegs s.th.r s = s := rfl
@[simp] theorem setRegs_setRegs (r r' : Regs) (s : State) : setRegs r (setRegs r' s) = setRegs r s := rfl

@[simp] theorem setRegs_th_r (r : Regs) (s : State) : (setRegs r s).th.r = r := rfl

/-- A state that only differs in the current thread's registers is that state with those registers set. -/
theorem onlyRegs_iff (s t : State) : (∃ r, t = setRegs r s) ↔ t = setRegs t.th.r s :=
  ⟨fun ⟨r, h⟩ => by subst h; rfl, fun h => ⟨_, h⟩⟩

/-- A thread found by its name has that name, and exists. -/
theorem findThread_some {s : State} {t : ThreadId} {x : Thread} (h : findThread s t = some x) : x.id = t ∧ x.st ≠ .unborn := by
  unfold findThread at h
  split at h
  · next hc => cases h; exact hc
  · have := List.find?_some h; simpa using this

/-- The current thread stands first. -/
theorem findThread_current {s : State} (h : s.th.st ≠ .unborn) : findThread s s.th.id = some s.th := by
  simp [findThread, h]

/-- Replacing a thread by one of another name leaves the current thread. -/
theorem putThread_th_other {s : State} {x : Thread} (h : s.th.id ≠ x.id) : (putThread s x).th = s.th := by
  simp [putThread, h]

/-- Replacing the current thread. -/
theorem putThread_current {s : State} {x : Thread} (h : s.th.id = x.id) (hs : s.th.st ≠ .unborn) : putThread s x = { s with th := x } := by
  simp [putThread, h, hs]

/-- Replacing a thread leaves every other field. -/
@[simp] theorem putThread_fields (s : State) (x : Thread) :
    (putThread s x).hearths = s.hearths ∧ (putThread s x).cores = s.cores ∧ (putThread s x).benches = s.benches
      ∧ (putThread s x).dies = s.dies ∧ (putThread s x).spaces = s.spaces ∧ (putThread s x).domains = s.domains
      ∧ (putThread s x).mem = s.mem ∧ (putThread s x).poison = s.poison ∧ (putThread s x).pending = s.pending
      ∧ (putThread s x).packets = s.packets ∧ (putThread s x).deposits = s.deposits ∧ (putThread s x).nreads = s.nreads
      ∧ (putThread s x).units = s.units ∧ (putThread s x).shootdowns = s.shootdowns ∧ (putThread s x).cyc = s.cyc
      ∧ (putThread s x).tlock = s.tlock ∧ (putThread s x).slewAt = s.slewAt ∧ (putThread s x).withhold = s.withhold
      ∧ (putThread s x).node = s.node ∧ (putThread s x).regiontbl = s.regiontbl ∧ (putThread s x).ops = s.ops
      ∧ (putThread s x).launches = s.launches ∧ (putThread s x).launchCount = s.launchCount
      ∧ (putThread s x).lastQueue = s.lastQueue ∧ (putThread s x).remotes = s.remotes ∧ (putThread s x).nodes = s.nodes
      ∧ (putThread s x).lostNodes = s.lostNodes ∧ (putThread s x).mgmt = s.mgmt ∧ (putThread s x).queues = s.queues
      ∧ (putThread s x).interrupts = s.interrupts ∧ (putThread s x).hostReads = s.hostReads
      ∧ (putThread s x).responses = s.responses ∧ (putThread s x).cap = s.cap ∧ (putThread s x).capNow = s.capNow ∧ (putThread s x).capAt = s.capAt
      ∧ (putThread s x).power = s.power ∧ (putThread s x).temp = s.temp ∧ (putThread s x).therm = s.therm
      ∧ (putThread s x).limit = s.limit ∧ (putThread s x).tripped = s.tripped ∧ (putThread s x).boot = s.boot
      ∧ (putThread s x).agenda = s.agenda ∧ (putThread s x).freeCount = s.freeCount := by
  unfold putThread
  split <;> exact
    ⟨rfl, rfl, rfl, rfl, rfl, rfl, rfl, rfl, rfl, rfl, rfl, rfl, rfl, rfl, rfl, rfl, rfl, rfl, rfl, rfl, rfl, rfl, rfl, rfl, rfl, rfl,
  rfl, rfl, rfl, rfl, rfl, rfl, rfl, rfl, rfl, rfl, rfl, rfl, rfl, rfl, rfl, rfl, rfl⟩

/-- Releasing parked threads leaves every field but the threads. -/
@[simp] theorem releaseIf_fields (c : Thread → Bool) (s : State) :
    (releaseIf c s).hearths = s.hearths ∧ (releaseIf c s).cores = s.cores ∧ (releaseIf c s).benches = s.benches
      ∧ (releaseIf c s).dies = s.dies ∧ (releaseIf c s).spaces = s.spaces ∧ (releaseIf c s).domains = s.domains
      ∧ (releaseIf c s).mem = s.mem ∧ (releaseIf c s).poison = s.poison ∧ (releaseIf c s).pending = s.pending
      ∧ (releaseIf c s).packets = s.packets ∧ (releaseIf c s).deposits = s.deposits ∧ (releaseIf c s).nreads = s.nreads
      ∧ (releaseIf c s).units = s.units ∧ (releaseIf c s).shootdowns = s.shootdowns ∧ (releaseIf c s).cyc = s.cyc
      ∧ (releaseIf c s).tlock = s.tlock ∧ (releaseIf c s).slewAt = s.slewAt ∧ (releaseIf c s).withhold = s.withhold
      ∧ (releaseIf c s).node = s.node ∧ (releaseIf c s).regiontbl = s.regiontbl ∧ (releaseIf c s).ops = s.ops
      ∧ (releaseIf c s).launches = s.launches ∧ (releaseIf c s).launchCount = s.launchCount
      ∧ (releaseIf c s).lastQueue = s.lastQueue ∧ (releaseIf c s).remotes = s.remotes ∧ (releaseIf c s).nodes = s.nodes
      ∧ (releaseIf c s).lostNodes = s.lostNodes ∧ (releaseIf c s).mgmt = s.mgmt ∧ (releaseIf c s).queues = s.queues
      ∧ (releaseIf c s).interrupts = s.interrupts ∧ (releaseIf c s).hostReads = s.hostReads
      ∧ (releaseIf c s).responses = s.responses ∧ (releaseIf c s).cap = s.cap ∧ (releaseIf c s).capNow = s.capNow ∧ (releaseIf c s).capAt = s.capAt
      ∧ (releaseIf c s).power = s.power ∧ (releaseIf c s).temp = s.temp ∧ (releaseIf c s).therm = s.therm
      ∧ (releaseIf c s).limit = s.limit ∧ (releaseIf c s).tripped = s.tripped ∧ (releaseIf c s).boot = s.boot
      ∧ (releaseIf c s).agenda = s.agenda ∧ (releaseIf c s).freeCount = s.freeCount :=
  ⟨rfl, rfl, rfl, rfl, rfl, rfl, rfl, rfl, rfl, rfl, rfl, rfl, rfl, rfl, rfl, rfl, rfl, rfl, rfl, rfl, rfl, rfl, rfl, rfl, rfl, rfl,
  rfl, rfl, rfl, rfl, rfl, rfl, rfl, rfl, rfl, rfl, rfl, rfl, rfl, rfl, rfl, rfl, rfl⟩

end Sys2Proof.Machine
end

