-- ==== Sys2Proof/Laws/Registers.lean ====
section
/-!
SUPPORT. The registers of a thread under their writes: what each write changes, and what the end test and a transfer leave.
-/

namespace Sys2Proof.Machine

open Sys2Proof

/-! ### What a write leaves -/

/-- A write of a g register leaves everything else. -/
@[simp] theorem Regs.wg_fields (r : Regs) (n : Reg) (w : Word) :
    (r.wg n w).v = r.v ∧ (r.wg n w).m = r.m ∧ (r.wg n w).p = r.p ∧ (r.wg n w).sh = r.sh ∧ (r.wg n w).loops = r.loops
      ∧ (r.wg n w).frame = r.frame ∧ (r.wg n w).rng = r.rng ∧ (r.wg n w).rnd = r.rnd ∧ (r.wg n w).ftz = r.ftz
      ∧ (r.wg n w).flags = r.flags ∧ (r.wg n w).pc = r.pc := by
  unfold Regs.wg; split <;> exact ⟨rfl, rfl, rfl, rfl, rfl, rfl, rfl, rfl, rfl, rfl, rfl⟩

/-- A write of a predicate leaves everything else. -/
@[simp] theorem Regs.wp_fields (r : Regs) (n : PReg) (b : Bool) :
    (r.wp n b).g = r.g ∧ (r.wp n b).v = r.v ∧ (r.wp n b).m = r.m ∧ (r.wp n b).sh = r.sh ∧ (r.wp n b).loops = r.loops
      ∧ (r.wp n b).frame = r.frame ∧ (r.wp n b).rng = r.rng ∧ (r.wp n b).rnd = r.rnd ∧ (r.wp n b).ftz = r.ftz
      ∧ (r.wp n b).flags = r.flags ∧ (r.wp n b).pc = r.pc := by
  unfold Regs.wp; split <;> exact ⟨rfl, rfl, rfl, rfl, rfl, rfl, rfl, rfl, rfl, rfl, rfl⟩

/-- A write of a vector register leaves everything else. -/
@[simp] theorem Regs.wv_fields (r : Regs) (n : Reg) (x : Vec) :
    (r.wv n x).g = r.g ∧ (r.wv n x).m = r.m ∧ (r.wv n x).p = r.p ∧ (r.wv n x).sh = r.sh ∧ (r.wv n x).loops = r.loops
      ∧ (r.wv n x).frame = r.frame ∧ (r.wv n x).rng = r.rng ∧ (r.wv n x).rnd = r.rnd ∧ (r.wv n x).ftz = r.ftz
      ∧ (r.wv n x).flags = r.flags ∧ (r.wv n x).pc = r.pc := by
  exact ⟨rfl, rfl, rfl, rfl, rfl, rfl, rfl, rfl, rfl, rfl, rfl⟩

/-- A write of a mask register leaves everything else. -/
@[simp] theorem Regs.wm_fields (r : Regs) (n : QReg) (w : Word) :
    (r.wm n w).g = r.g ∧ (r.wm n w).v = r.v ∧ (r.wm n w).p = r.p ∧ (r.wm n w).sh = r.sh ∧ (r.wm n w).loops = r.loops
      ∧ (r.wm n w).frame = r.frame ∧ (r.wm n w).rng = r.rng ∧ (r.wm n w).rnd = r.rnd ∧ (r.wm n w).ftz = r.ftz
      ∧ (r.wm n w).flags = r.flags ∧ (r.wm n w).pc = r.pc := by
  exact ⟨rfl, rfl, rfl, rfl, rfl, rfl, rfl, rfl, rfl, rfl, rfl⟩

/-- A write of a shape register leaves everything else. -/
@[simp] theorem Regs.wsh_fields (r : Regs) (n : QReg) (w : Word) :
    (r.wsh n w).g = r.g ∧ (r.wsh n w).v = r.v ∧ (r.wsh n w).m = r.m ∧ (r.wsh n w).p = r.p ∧ (r.wsh n w).loops = r.loops
      ∧ (r.wsh n w).frame = r.frame ∧ (r.wsh n w).rng = r.rng ∧ (r.wsh n w).rnd = r.rnd ∧ (r.wsh n w).ftz = r.ftz
      ∧ (r.wsh n w).flags = r.flags ∧ (r.wsh n w).pc = r.pc := by
  exact ⟨rfl, rfl, rfl, rfl, rfl, rfl, rfl, rfl, rfl, rfl, rfl⟩

/-- Raising flags leaves everything else. -/
@[simp] theorem Regs.raise_fields (r : Regs) (f : BitVec 6) :
    (r.raise f).g = r.g ∧ (r.raise f).v = r.v ∧ (r.raise f).m = r.m ∧ (r.raise f).p = r.p ∧ (r.raise f).sh = r.sh
      ∧ (r.raise f).loops = r.loops ∧ (r.raise f).frame = r.frame ∧ (r.raise f).rng = r.rng ∧ (r.raise f).rnd = r.rnd
      ∧ (r.raise f).ftz = r.ftz ∧ (r.raise f).pc = r.pc := by
  exact ⟨rfl, rfl, rfl, rfl, rfl, rfl, rfl, rfl, rfl, rfl, rfl⟩

@[simp] theorem Regs.raise_flags (r : Regs) (f : BitVec 6) : (r.raise f).flags = r.flags ||| f := rfl

/-! ### Reads after writes -/

/-- g0 reads zero (R7). -/
@[simp] theorem Regs.rg_zero (r : Regs) : r.rg 0 = 0 := rfl

/-- A write of g0 is discarded (R7). -/
@[simp] theorem Regs.wg_zero (r : Regs) (w : Word) : r.wg 0 w = r := rfl

/-- p0 reads one (R7). -/
@[simp] theorem Regs.rp_zero (r : Regs) : r.rp 0 = true := rfl

/-- A write of p0 is discarded (R7). -/
@[simp] theorem Regs.wp_zero (r : Regs) (b : Bool) : r.wp 0 b = r := rfl

/-- An element of a register file that a bit vector numbers, read after a write of one. -/
theorem get_set_numbered {α : Type} {w : Nat} (v : Vector α (2 ^ w)) (n k : BitVec w) (x : α) :
    (v.set n.toNat x n.isLt).get k.toFin = if k = n then x else v.get k.toFin := by
  have h : (n.toNat = k.toNat) = (k = n) := propext ⟨fun h => BitVec.eq_of_toNat_eq h.symm, fun h => by rw [h]⟩
  change (v.set n.toNat x n.isLt)[k.toNat]'k.isLt = if k = n then x else v[k.toNat]'k.isLt
  rw [Vector.getElem_set]
  simp only [h]

/-- A g register read after a write of one. -/
theorem Regs.rg_wg (r : Regs) (n k : Reg) (w : Word) : (r.wg n w).rg k = if k = n ∧ n ≠ 0 then w else r.rg k := by
  by_cases hn : n = 0
  · subst hn
    have h : ¬(k = (0 : Reg) ∧ (0 : Reg) ≠ 0) := fun h => h.2 rfl
    rw [if_neg h]
    rfl
  · by_cases hk : k = 0
    · subst hk
      have h : ¬((0 : Reg) = n ∧ n ≠ 0) := fun h => hn h.1.symm
      rw [if_neg h]
      rfl
    · have e : (k = n ∧ n ≠ 0) = (k = n) := propext ⟨fun h => h.1, fun h => ⟨h, hn⟩⟩
      simp only [e]
      unfold Regs.wg Regs.rg
      simp only [hn, hk, if_false]
      exact get_set_numbered (w := 5) r.g n k w

theorem Regs.rg_wg_same (r : Regs) (n : Reg) (w : Word) (h : n ≠ 0) : (r.wg n w).rg n = w := by rw [Regs.rg_wg, if_pos ⟨rfl, h⟩]

theorem Regs.rg_wg_other (r : Regs) {n k : Reg} (w : Word) (h : k ≠ n) : (r.wg n w).rg k = r.rg k := by
  rw [Regs.rg_wg, if_neg fun e => h e.1]

/-- A vector register read after a write of one. -/
theorem Regs.rv_wv (r : Regs) (n k : Reg) (x : Vec) : (r.wv n x).rv k = if k = n then x else r.rv k :=
  get_set_numbered (w := 5) r.v n k x

/-- A mask register read after a write of one. -/
theorem Regs.rm_wm (r : Regs) (n k : QReg) (w : Word) : (r.wm n w).rm k = if k = n then w else r.rm k :=
  get_set_numbered (w := 3) r.m n k w

/-- A shape register read after a write of one. -/
theorem Regs.rsh_wsh (r : Regs) (n k : QReg) (w : Word) : (r.wsh n w).rsh k = if k = n then w else r.rsh k :=
  get_set_numbered (w := 3) r.sh n k w

/-- Predicate bits after a write of one, by number. -/
theorem Regs.wp_bits (r : Regs) (n : PReg) (b : Bool) (k : Nat) (h : n ≠ 0) :
    (r.wp n b).p.getLsbD k = if k = n.toNat then b else r.p.getLsbD k := by
  have hl := n.isLt
  have hn : n.toNat < 16 := by omega
  simp only [Regs.wp, h, if_false, BitVec.getLsbD_or, BitVec.getLsbD_and, BitVec.getLsbD_not, BitVec.getLsbD_shiftLeft]
  by_cases e : k = n.toNat
  · subst e; cases b <;> simp [hn]
  · by_cases hk : k < 16
    · by_cases lt : k < n.toNat
      · cases b <;> simp [hk, lt, e]
      · have : k - n.toNat ≠ 0 := by omega
        cases b <;> simp [hk, lt, e, this]
    · have : r.p.getLsbD k = false := BitVec.getLsbD_of_ge _ _ (by omega)
      simp [hk, e, this]

/-- A predicate read after a write of one. -/
theorem Regs.rp_wp (r : Regs) (n k : PReg) (b : Bool) : (r.wp n b).rp k = if k = n ∧ n ≠ 0 then b else r.rp k := by
  by_cases hn : n = 0
  · subst hn
    have h : ¬(k = (0 : PReg) ∧ (0 : PReg) ≠ 0) := fun h => h.2 rfl
    rw [if_neg h]
    rfl
  · by_cases hk : k = 0
    · subst hk
      have h : ¬((0 : PReg) = n ∧ n ≠ 0) := fun h => hn h.1.symm
      rw [if_neg h]
      rfl
    · have e : (k = n ∧ n ≠ 0) = (k = n) := propext ⟨fun h => h.1, fun h => ⟨h, hn⟩⟩
      have e' : (k.toNat = n.toNat) = (k = n) := propext ⟨BitVec.eq_of_toNat_eq, fun h => by rw [h]⟩
      simp only [Regs.rp, hk, if_false, Regs.wp_bits r n b _ hn, e, e']

/-! ### The end test and a transfer (R170) -/

/-- Two states of the registers differ at most in the PC and in the loop stack. -/
def sameButControl (r r' : Regs) : Prop := r' = { r with pc := r'.pc, loops := r'.loops }

theorem sameButControl.refl (r : Regs) : sameButControl r r := rfl

theorem sameButControl.trans {a b c : Regs} (h : sameButControl a b) (k : sameButControl b c) : sameButControl a c := by
  unfold sameButControl at *
  rw [k, h]

theorem endTestFrom_control (unit d : Nat) (next : Word) (r : Regs) : sameButControl r (endTestFrom unit d next r) := by
  induction d generalizing r with
  | zero => rfl
  | succ d ih =>
    simp only [endTestFrom]
    split
    · split
      · rfl
      · exact sameButControl.trans (b := r.setLx d { { r.lx d with index := (r.lx d).index + 1 } with valid := false }) rfl (ih _)
    · rfl

theorem jumpFrom_control (unit d : Nat) (t : Word) (r : Regs) : sameButControl r (jumpFrom unit d t r) := by
  induction d generalizing r with
  | zero => rfl
  | succ d ih =>
    simp only [jumpFrom]
    split
    · exact sameButControl.trans (b := r.closeLx d) rfl (ih _)
    · rfl

/-- Completion changes the PC and the loop stack only (R170). -/
theorem Regs.advance_control (r : Regs) : sameButControl r r.advance := endTestFrom_control _ _ _ _

/-- A transfer changes the PC and the loop stack only (R170). -/
theorem Regs.jump_control (r : Regs) (t : Word) : sameButControl r (r.jump t) := jumpFrom_control _ _ _ _

/-- With no loop open, completion moves the PC to the next word (R165, R170). -/
theorem Regs.advance_noLoop (r : Regs) (h : r.depth = 0) : r.advance = { r with pc := codeAdd r.pc 4 } := by
  simp [Regs.advance, endTest, h, endTestFrom]

/-- With no loop open, a transfer moves the PC to its target. -/
theorem Regs.jump_noLoop (r : Regs) (t : Word) (h : r.depth = 0) : r.jump t = { r with pc := t } := by
  simp [Regs.jump, h, jumpFrom]

/-- A transfer ends at its target, whatever loops it leaves. -/
theorem jumpFrom_pc (unit d : Nat) (t : Word) (r : Regs) : (jumpFrom unit d t r).pc = t := by
  induction d generalizing r with
  | zero => rfl
  | succ d ih =>
    simp only [jumpFrom]
    split
    · exact ih _
    · rfl

theorem Regs.jump_pc (r : Regs) (t : Word) : (r.jump t).pc = t := jumpFrom_pc _ _ _ _

@[simp] theorem Regs.advance_g (r : Regs) : r.advance.g = r.g := by rw [r.advance_control]
@[simp] theorem Regs.jump_g (r : Regs) (t : Word) : (r.jump t).g = r.g := by rw [r.jump_control]
@[simp] theorem Regs.advance_v (r : Regs) : r.advance.v = r.v := by rw [r.advance_control]
@[simp] theorem Regs.jump_v (r : Regs) (t : Word) : (r.jump t).v = r.v := by rw [r.jump_control]
@[simp] theorem Regs.advance_m (r : Regs) : r.advance.m = r.m := by rw [r.advance_control]
@[simp] theorem Regs.jump_m (r : Regs) (t : Word) : (r.jump t).m = r.m := by rw [r.jump_control]
@[simp] theorem Regs.advance_p (r : Regs) : r.advance.p = r.p := by rw [r.advance_control]
@[simp] theorem Regs.jump_p (r : Regs) (t : Word) : (r.jump t).p = r.p := by rw [r.jump_control]
@[simp] theorem Regs.advance_sh (r : Regs) : r.advance.sh = r.sh := by rw [r.advance_control]
@[simp] theorem Regs.jump_sh (r : Regs) (t : Word) : (r.jump t).sh = r.sh := by rw [r.jump_control]
@[simp] theorem Regs.advance_frame (r : Regs) : r.advance.frame = r.frame := by rw [r.advance_control]
@[simp] theorem Regs.jump_frame (r : Regs) (t : Word) : (r.jump t).frame = r.frame := by rw [r.jump_control]
@[simp] theorem Regs.advance_rng (r : Regs) : r.advance.rng = r.rng := by rw [r.advance_control]
@[simp] theorem Regs.jump_rng (r : Regs) (t : Word) : (r.jump t).rng = r.rng := by rw [r.jump_control]
@[simp] theorem Regs.advance_rnd (r : Regs) : r.advance.rnd = r.rnd := by rw [r.advance_control]
@[simp] theorem Regs.jump_rnd (r : Regs) (t : Word) : (r.jump t).rnd = r.rnd := by rw [r.jump_control]
@[simp] theorem Regs.advance_ftz (r : Regs) : r.advance.ftz = r.ftz := by rw [r.advance_control]
@[simp] theorem Regs.jump_ftz (r : Regs) (t : Word) : (r.jump t).ftz = r.ftz := by rw [r.jump_control]
@[simp] theorem Regs.advance_flags (r : Regs) : r.advance.flags = r.flags := by rw [r.advance_control]
@[simp] theorem Regs.jump_flags (r : Regs) (t : Word) : (r.jump t).flags = r.flags := by rw [r.jump_control]

@[simp] theorem Regs.advance_rg (r : Regs) (n : Reg) : r.advance.rg n = r.rg n := by simp [Regs.rg]
@[simp] theorem Regs.advance_rp (r : Regs) (n : PReg) : r.advance.rp n = r.rp n := by simp [Regs.rp]
@[simp] theorem Regs.advance_rv (r : Regs) (n : Reg) : r.advance.rv n = r.rv n := by simp [Regs.rv]
@[simp] theorem Regs.advance_rm (r : Regs) (n : QReg) : r.advance.rm n = r.rm n := by simp [Regs.rm]
@[simp] theorem Regs.advance_rsh (r : Regs) (n : QReg) : r.advance.rsh n = r.rsh n := by simp [Regs.rsh]

end Sys2Proof.Machine
end

