-- ==== Sys2Proof/Laws/Words.lean ====
section
/-!
SUPPORT. Pieces of meaning run on a state: sequencing, traps, stalls, parking, guards, and the words that only compute on registers. Each
lemma says once what its operation can do; later proofs cite it and do not unfold the operation.
-/

namespace Sys2Proof.Machine

open Sys2Proof

/-! ### Sequencing -/

variable {α β : Type}

theorem M.bind_eq (x : M α) (f : α → M β) (s : State) :
    (x >>= f) s = match x s with
      | .ok a t => f a t
      | .error e t => .error e t := by
  change EStateM.bind x f s = _
  unfold EStateM.bind
  cases x s <;> rfl

/-- A piece that goes on. -/
theorem M.bind_ok {x : M α} {f : α → M β} {s t : State} {a : α} (h : x s = .ok a t) : (x >>= f) s = f a t := by rw [M.bind_eq, h]

/-- A piece that stops. -/
theorem M.bind_error {x : M α} {f : α → M β} {s t : State} {e : Stop} (h : x s = .error e t) : (x >>= f) s = .error e t := by
  rw [M.bind_eq, h]

/-- A sequence that goes on went on in both pieces. -/
theorem M.bind_ok_iff {x : M α} {f : α → M β} {s u : State} {b : β} :
    (x >>= f) s = .ok b u ↔ ∃ a t, x s = .ok a t ∧ f a t = .ok b u := by
  rw [M.bind_eq]
  cases h : x s with
  | ok a t => exact ⟨fun k => ⟨a, t, rfl, k⟩, fun ⟨a', t', e, k⟩ => by cases e; exact k⟩
  | error e t => exact ⟨fun k => by simp at k, fun ⟨_, _, e, _⟩ => by simp at e⟩

@[simp] theorem M.pure_run (a : α) (s : State) : (pure a : M α) s = .ok a s := rfl
@[simp] theorem M.get_run (s : State) : (get : M State) s = .ok s s := rfl
@[simp] theorem M.set_run (t s : State) : (set t : M PUnit) s = .ok ⟨⟩ t := rfl
@[simp] theorem M.modify_run (f : State → State) (s : State) : (modify f : M PUnit) s = .ok ⟨⟩ (f s) := rfl
@[simp] theorem M.throw_run (e : Stop) (s : State) : (throw e : M α) s = .error e s := rfl
@[simp] theorem modTh_run (f : Thread → Thread) (s : State) : modTh f s = .ok ⟨⟩ { s with th := f s.th } := rfl
@[simp] theorem modRegs_run (f : Regs → Regs) (s : State) : modRegs f s = .ok ⟨⟩ (setRegs (f s.th.r) s) := rfl
@[simp] theorem getTh_run (s : State) : getTh s = .ok s.th s := rfl
@[simp] theorem getRegs_run (s : State) : getRegs s = .ok s.th.r s := rfl
@[simp] theorem readG_run (n : Reg) (s : State) : readG n s = .ok (s.th.r.rg n) s := rfl
@[simp] theorem writeG_run (n : Reg) (w : Word) (s : State) : writeG n w s = .ok ⟨⟩ (setRegs (s.th.r.wg n w) s) := rfl
@[simp] theorem advance_run (s : State) : advance s = .ok ⟨⟩ (setRegs s.th.r.advance s) := rfl
@[simp] theorem stop_run (s : State) : (stop : M α) s = .error .stopped s := rfl
@[simp] theorem trap_run (c : Cause) (v : Word) (s : State) : (trap c v : M α) s = .error (.trap c v) s := rfl
@[simp] theorem trapN_run (c : Cause) (v : Nat) (s : State) : (trapN c v : M α) s = .error (.trap c (BitVec.ofNat 64 v)) s := rfl

/-- A stalled word changes its thread's state of R373 only. -/
@[simp] theorem stall_run (k : TState) (s : State) : (stall k : M α) s = .error .stopped { s with th := { s.th with st := k } } := rfl

/-- A parked thread leaves its seat, and nothing else changes. -/
@[simp] theorem park_run (w : Wait) (s : State) :
    (park w : M α) s = .error .stopped { s with th := { s.th with st := .parked, wait := w, parkedAt := s.cyc, place := s.th.place.vacated } } := rfl

/-- A place that memory has. -/
theorem requirePa_run {pa : Nat} (h : paExists pa = true) (s : State) : requirePa pa s = .ok ⟨⟩ s := by simp [requirePa, h]

/-! ### Outcomes -/

theorem outcome_ok {m : M Unit} {s t : State} {a : Unit} (h : m s = .ok a t) : outcome m s = .next t := by simp [outcome, h]

theorem outcome_stopped {m : M Unit} {s t : State} (h : m s = .error .stopped t) : outcome m s = .next t := by simp [outcome, h]

theorem outcome_trap {m : M Unit} {s t : State} {c : Cause} {v : Word} (h : m s = .error (.trap c v) t) :
    outcome m s = .next (takeTrap c v t) := by simp [outcome, h]

/-- A meaning ends in a next state, or in one of the two faults of memory that does not exist. -/
theorem outcome_cases (m : M Unit) (s : State) :
    (∃ t, outcome m s = .next t) ∨ (∃ pa, outcome m s = .fault (.noMemory pa)) ∨ ∃ va, outcome m s = .fault (.noHearth va) := by
  unfold outcome
  split
  · exact .inl ⟨_, rfl⟩
  · exact .inl ⟨_, rfl⟩
  · exact .inl ⟨_, rfl⟩
  · exact .inl ⟨_, rfl⟩
  · exact .inr (.inl ⟨_, rfl⟩)
  · exact .inr (.inr ⟨_, rfl⟩)

/-! ### Guards (R125) -/

/-- A word whose guard holds is its body. -/
theorem strand_true {gd : Guard} {s : State} (body : M Unit) (h : s.th.r.guard gd = true) : strand gd body s = outcome body s := by
  simp [strand, outcome, guarded, M.bind_eq, h]

/-- A word whose guard does not hold only completes. -/
theorem strand_false {gd : Guard} {s : State} (body : M Unit) (h : s.th.r.guard gd = false) :
    strand gd body s = .next (setRegs s.th.r.advance s) := by
  simp [strand, outcome, guarded, M.bind_eq, h]

/-- A computing word whose guard holds applies its function to the registers and completes. -/
theorem compute_true {gd : Guard} {s : State} (f : Regs → Regs) (h : s.th.r.guard gd = true) :
    compute gd f s = .next (setRegs (f s.th.r).advance s) := by simp [compute, h]

theorem compute_false {gd : Guard} {s : State} (f : Regs → Regs) (h : s.th.r.guard gd = false) :
    compute gd f s = .next (setRegs s.th.r.advance s) := by simp [compute, h]

/-- A computing word changes the current thread's registers only, whatever its guard. -/
theorem compute_frame (gd : Guard) (f : Regs → Regs) (s : State) : ∃ r, compute gd f s = .next (setRegs r s) := ⟨_, rfl⟩

/-! ### Traps (R357, R358) -/

/-- What taking a trap outside forge mode leaves: the thread trapped at its PC with its record, its registers as they were, perhaps a
packet more on its way to a handler, and nothing else changed. -/
theorem takeTrap_strand {c : Cause} {v : Word} {s : State} (hs : s.th.st ≠ .unborn) (hp : ∀ h, s.th.place ≠ .forge h) :
    ∃ t ps, takeTrap c v s = { s with th := t, packets := ps } ∧ t.st = .trapped ∧ t.r = s.th.r ∧ t.record.value = v
      ∧ t.record.pc = s.th.r.pc ∧ t.record.cyc = s.cyc ∧ (ps = s.packets ∨ ∃ p, ps = s.packets ++ [p]) := by
  have hl : latch c.code s.th s = (s, s.th) := by
    unfold latch
    split
    · next h e => exact absurd e (hp h)
    · rfl
  have e : ∀ x : Thread, x.id = s.th.id → putThread s x = { s with th := x } := fun x h => putThread_current h.symm hs
  unfold takeTrap trapThread
  rw [hl]
  dsimp only
  split
  · rw [e]
    · exact ⟨_, _, rfl, rfl, rfl, rfl, rfl, rfl, .inl rfl⟩
    · rfl
  · rw [e]
    · exact ⟨_, _, rfl, rfl, rfl, rfl, rfl, rfl, .inr ⟨_, rfl⟩⟩
    · rfl

/-! ### Numbers and free values -/

/-- The next number of a context is issued (R98). -/
theorem issueNumber_run (e : Nat) (s : State) :
    issueNumber e s = .ok ((s.th.timeline e).last + 1)
      { s with th := s.th.setTimeline e { s.th.timeline e with last := (s.th.timeline e).last + 1 } } := rfl

/-- A free value is drawn by advancing its counter; nothing is known of the value. -/
theorem drawFree_run (s : State) : drawFree s = .ok (Config.freeValue s.freeCount) { s with freeCount := s.freeCount + 1 } := rfl

theorem timeline_setTimeline_other (t : Thread) {e f : Nat} (l : Timeline) (h : e ≠ f) : (t.setTimeline e l).timeline f = t.timeline f := by
  simp [Thread.timeline, Thread.setTimeline, h, List.getD_eq_getElem?_getD]

theorem timeline_setTimeline_same (t : Thread) {e : Nat} (l : Timeline) (h : e < 5) : (t.setTimeline e l).timeline e = l := by
  simp [Thread.timeline, Thread.setTimeline, h, List.getD_eq_getElem?_getD]

end Sys2Proof.Machine
end

