-- ==== Sys2Proof/Laws/Access.lean ====
section
/-!
SUPPORT. The shared accesses: what an operation on memory performs and where, the canonical form under it, and what a load, a store and a
release answer where nothing stands in their way.
-/

namespace Sys2Proof.Machine

open Sys2Proof

/-! ### Operations on memory (R87, R96) -/

/-- An operation keeps the canonical form. -/
theorem StoreOp.wf_apply (o : StoreOp) (pa : Nat) {m : List Host.Cell} (h : Mem.wf m = true) : Mem.wf (o.apply pa m) = true := by
  cases o with
  | bytes n d k => exact Mem.wf_writeMasked _ _ _ _ h
  | update op f c => exact Mem.wf_write _ _ _ h

/-- An operation leaves every byte outside its range. -/
theorem StoreOp.get_apply_other (o : StoreOp) (pa : Nat) (m : List Host.Cell) {a : Nat} (h : a < pa ∨ pa + o.size ≤ a) :
    Mem.get (o.apply pa m) a = Mem.get m a := by
  cases o with
  | bytes n d k => exact Mem.get_writeMasked_other _ _ _ _ _ h
  | update op f c => exact Mem.get_write_other _ _ _ _ h

/-- Taking a checkpoint line changes no memory and no thread. -/
theorem noteLine_frame (pa : Nat) (s : State) :
    (noteLine pa s).mem = s.mem ∧ (noteLine pa s).th = s.th ∧ (noteLine pa s).others = s.others
      ∧ (noteLine pa s).pending = s.pending ∧ (noteLine pa s).remotes = s.remotes ∧ (noteLine pa s).ops = s.ops := by
  unfold noteLine
  split
  · exact ⟨rfl, rfl, rfl, rfl, rfl, rfl⟩
  · dsimp only
    split
    · split <;> exact ⟨rfl, rfl, rfl, rfl, rfl, rfl⟩
    · exact ⟨rfl, rfl, rfl, rfl, rfl, rfl⟩

/-- Taking checkpoint lines changes no memory, no thread and no core. -/
theorem noteCheckpoint_frame (pa n : Nat) (s : State) :
    (noteCheckpoint pa n s).mem = s.mem ∧ (noteCheckpoint pa n s).th = s.th ∧ (noteCheckpoint pa n s).others = s.others
      ∧ (noteCheckpoint pa n s).pending = s.pending ∧ (noteCheckpoint pa n s).remotes = s.remotes ∧ (noteCheckpoint pa n s).ops = s.ops := by
  unfold noteCheckpoint
  split
  · rename_i h
    clear h
    generalize List.range _ = ks
    induction ks generalizing s with
    | nil => exact ⟨rfl, rfl, rfl, rfl, rfl, rfl⟩
    | cons k ks ih =>
      obtain ⟨h1, h2, h3, h4, h5, h6⟩ := ih (noteLine (pa / 128 * 128 + 128 * k) s)
      obtain ⟨g1, g2, g3, g4, g5, g6⟩ := noteLine_frame (pa / 128 * 128 + 128 * k) s
      exact ⟨h1.trans g1, h2.trans g2, h3.trans g3, h4.trans g4, h5.trans g5, h6.trans g6⟩
  · exact ⟨rfl, rfl, rfl, rfl, rfl, rfl⟩

/-- A performed operation changes memory in its range only, and neither the threads nor what is on its way. -/
theorem performOp_frame (o : StoreOp) (pa : Nat) (s : State) :
    ((performOp o pa s).mem = o.apply pa s.mem ∨ (performOp o pa s).mem = s.mem) ∧ (performOp o pa s).th = s.th
      ∧ (performOp o pa s).others = s.others ∧ (performOp o pa s).pending = s.pending ∧ (performOp o pa s).remotes = s.remotes
      ∧ (performOp o pa s).ops = s.ops := by
  cases o with
  | bytes n d k =>
    obtain ⟨h1, h2, h3, h4, h5, h6⟩ := noteCheckpoint_frame pa _ { s with mem := (StoreOp.bytes n d k).apply pa s.mem }
    exact ⟨.inl h1, h2, h3, h4, h5, h6⟩
  | update op f c =>
    simp only [performOp]
    split
    · exact ⟨.inr rfl, rfl, rfl, rfl, rfl, rfl⟩
    · obtain ⟨h1, h2, h3, h4, h5, h6⟩ := noteCheckpoint_frame pa _ { s with mem := (StoreOp.update op f c).apply pa s.mem }
      exact ⟨.inl h1, h2, h3, h4, h5, h6⟩

/-- A performed operation keeps the canonical form. -/
theorem performOp_wf (o : StoreOp) (pa : Nat) {s : State} (h : s.memoryForm) : (performOp o pa s).memoryForm := by
  rcases (performOp_frame o pa s).1 with e | e
  · rw [State.memoryForm, e]; exact o.wf_apply pa h
  · rw [State.memoryForm, e]; exact h

theorem foldl_performOp (ps : List Pending) (s : State) :
    (s.memoryForm → (ps.foldl (fun s p => performOp p.op p.pa s) s).memoryForm)
      ∧ (ps.foldl (fun s p => performOp p.op p.pa s) s).th = s.th ∧ (ps.foldl (fun s p => performOp p.op p.pa s) s).others = s.others
      ∧ (ps.foldl (fun s p => performOp p.op p.pa s) s).pending = s.pending
      ∧ (ps.foldl (fun s p => performOp p.op p.pa s) s).remotes = s.remotes := by
  induction ps generalizing s with
  | nil => exact ⟨id, rfl, rfl, rfl, rfl⟩
  | cons p ps ih =>
    obtain ⟨h1, h2, h3, h4, h5⟩ := ih (performOp p.op p.pa s)
    obtain ⟨-, g2, g3, g4, g5, -⟩ := performOp_frame p.op p.pa s
    exact ⟨fun h => h1 (performOp_wf _ _ h), h2.trans g2, h3.trans g3, h4.trans g4, h5.trans g5⟩

/-- Performing a hearth's stores keeps the canonical form, leaves the threads, and leaves none of the hearth's stores (R87). -/
theorem drainHearth_frame (h : Nat) (s : State) :
    (s.memoryForm → (drainHearth h s).memoryForm) ∧ (drainHearth h s).th = s.th ∧ (drainHearth h s).others = s.others
      ∧ (drainHearth h s).pending = s.pending.filter (fun p => decide (p.hearth ≠ h)) ∧ (drainHearth h s).remotes = s.remotes := by
  obtain ⟨h1, h2, h3, h4, h5⟩ := foldl_performOp (s.pending.filter fun p => decide (p.hearth = h))
    { s with pending := s.pending.filter fun p => decide (p.hearth ≠ h) }
  exact ⟨h1, h2, h3, h4, h5⟩

/-- A performed operation touches no core. -/
theorem performOp_cores (o : StoreOp) (pa : Nat) (s : State) : (performOp o pa s).cores = s.cores := by
  have hl : ∀ (a : Nat) (s : State), (noteLine a s).cores = s.cores := by
    intro a s
    unfold noteLine
    split
    · rfl
    · dsimp only
      split
      · split <;> rfl
      · rfl
  have hc : ∀ (n : Nat) (s : State), (noteCheckpoint pa n s).cores = s.cores := by
    intro n s
    unfold noteCheckpoint
    split
    · rename_i h
      clear h
      generalize List.range _ = ks
      induction ks generalizing s with
      | nil => rfl
      | cons k ks ih => exact (ih _).trans (hl _ _)
    · rfl
  cases o with
  | bytes n d k => exact hc _ _
  | update op f c =>
    simp only [performOp]
    split
    · rfl
    · exact hc _ _

theorem foldl_performOp_cores (ps : List Pending) (s : State) : (ps.foldl (fun s p => performOp p.op p.pa s) s).cores = s.cores := by
  induction ps generalizing s with
  | nil => rfl
  | cons p ps ih => exact (ih _).trans (performOp_cores _ _ _)

/-- Performing a hearth's stores touches no core. -/
theorem drainHearth_cores (h : Nat) (s : State) : (drainHearth h s).cores = s.cores := foldl_performOp_cores _ _

/-- A hearth with no store on its way has nothing to perform. -/
theorem drainHearth_none {h : Nat} {s : State} (e : s.pending = []) : drainHearth h s = s := by
  unfold drainHearth
  rw [e]
  simp only [List.filter_nil, List.foldl_nil]
  rw [← e]

/-! ### Releases (R91, R101) -/

/-- A release at a scope goes on once nothing that it waits for is under way; above hearth scope it performs the hearth's stores. -/
theorem releaseAt_run {s : State} {c : Nat} (h : awaitsRelease c s s.th = false) :
    releaseAt c s = .ok ⟨⟩ (if scopeHearth < c then drainHearth s.th.view s else s) := by
  unfold releaseAt
  rw [M.bind_ok (M.get_run s), if_neg (by rw [h]; simp)]
  split <;> rfl

/-- A release that has to wait stalls its thread. -/
theorem releaseAt_wait {s : State} {c : Nat} (h : awaitsRelease c s s.th = true) :
    releaseAt c s = .error .stopped { s with th := { s.th with st := .stalledMemory } } := by
  unfold releaseAt
  rw [M.bind_ok (M.get_run s), if_pos h]
  rfl

/-- The release at system scope. -/
theorem releaseStores_run {s : State} (h : awaitsRelease scopeSystem s s.th = false) :
    releaseStores s = .ok ⟨⟩ (drainHearth s.th.view s) := (releaseAt_run h).trans rfl

theorem releaseStores_wait {s : State} (h : awaitsRelease scopeSystem s s.th = true) :
    releaseStores s = .error .stopped { s with th := { s.th with st := .stalledMemory } } := releaseAt_wait h

/-! ### Places -/

/-- Delay accounting that is off counts nothing (R421). -/
theorem noteDelay_off {s : State} {t : Thread} (h : accountsOff s t) (p : Spot) (b : Bool) : noteDelay t p b s = s := by
  unfold accountsOff at h
  simp only [noteDelay, h, Bool.false_and, Bool.false_eq_true, if_false]

theorem countDelay_off {s : State} (h : delaysOff s) (p : Spot) (b : Bool) : countDelay p b s = .ok ⟨⟩ s := by
  show (modify (fun s => noteDelay s.th p b s) : M Unit) s = _
  rw [M.modify_run, noteDelay_off h]

/-- A place that translates, to memory that is there, outside refresh. -/
theorem placeOf_run {tv va n : Nat} {kind : AccessKind} {s s' : State} {ps : List Spot} (h : reach (agentOf s.th) va n kind s = (.ok ps, s'))
    (he : here ps) (hr : (kind = .load ∨ kind = .fetch) → refreshHolds s' ps = false) : placeOf tv va n kind s = .ok ps s' := by
  have hf : (ps.find? fun p => p.node.isNone && !paExists p.pa) = none := by
    rw [List.find?_eq_none]
    intro p hp
    simp [(he p hp).2]
  unfold placeOf
  rw [M.bind_ok (M.get_run s), h]
  simp only
  rw [M.bind_ok (M.set_run s' s), hf]
  simp only
  by_cases hk : kind = .load ∨ kind = .fetch
  · rw [if_neg (by rw [hr hk]; simp)]; rfl
  · rw [if_neg (by simp [hk])]; rfl

/-- A translation changes the translation caches only. -/
theorem translate_frame (ag : Agent) (va : Nat) (kind : AccessKind) (s : State) :
    ∃ hs bs, (translate ag va kind s).2 = { s with hearths := hs, benches := bs } := by
  unfold translate
  split
  · split <;> exact ⟨_, _, rfl⟩
  · dsimp only
    split
    · exact ⟨_, _, rfl⟩
    · split
      · exact ⟨_, _, rfl⟩
      · split <;> exact ⟨_, _, rfl⟩

/-- Reaching some bytes changes the translation caches only. -/
theorem reach_frame (ag : Agent) (va n : Nat) (kind : AccessKind) (s : State) :
    ∃ hs bs, (reach ag va n kind s).2 = { s with hearths := hs, benches := bs } := by
  obtain ⟨hs, bs, e⟩ := translate_frame ag va kind s
  unfold reach
  split
  · next h => rw [h] at e; exact ⟨hs, bs, e⟩
  · next h => rw [h] at e; exact ⟨hs, bs, e⟩
  · next h => rw [h] at e; exact ⟨hs, bs, e⟩
  · next pa node s1 h =>
    rw [h] at e
    have e : s1 = { s with hearths := hs, benches := bs } := e
    dsimp only
    split
    · exact ⟨hs, bs, e⟩
    · obtain ⟨hs', bs', e'⟩ := translate_frame ag ((va + (4096 - va % 4096)) % 2 ^ 56) kind s1
      rw [e] at e'
      split
      all_goals
        next h' =>
          rw [e] at h'
          rw [h'] at e'
          exact ⟨hs', bs', e'⟩

/-- A translation does not read the operations in progress. -/
theorem translate_ops (ag : Agent) (va : Nat) (kind : AccessKind) (s : State) (os : List EngineOp) :
    translate ag va kind { s with ops := os } = ((translate ag va kind s).1, { (translate ag va kind s).2 with ops := os }) := by
  unfold translate
  by_cases h : selfWindow ≤ va
  · simp only [if_pos h]; cases ag.hearth <;> rfl
  · simp only [if_neg h]
    rcases ag with ⟨a, b, c, hh, d, e⟩
    dsimp only
    have h1 : ∀ h, hearthOf { s with ops := os } h = hearthOf s h := fun _ => rfl
    have h2 : ∀ h, benchOf { s with ops := os } h = benchOf s h := fun _ => rfl
    simp only [h1, h2]
    cases hh <;> cases e <;> dsimp only
    all_goals first
      | (cases benchLookup a va (benchOf s d) with | mk x y => cases x <;> rfl)
      | skip
    rename_i h0
    cases lookupTlb a va (hearthOf s h0).l1 with
    | some x => rfl
    | none => cases benchLookup a va (benchOf s d) with | mk x y => cases x <;> rfl

/-- Reaching some bytes does not read the operations in progress. -/
theorem reach_ops {ag : Agent} {va n : Nat} {kind : AccessKind} {s s' : State} {r : Reach} (h : reach ag va n kind s = (r, s'))
    (os : List EngineOp) : reach ag va n kind { s with ops := os } = (r, { s' with ops := os }) := by
  unfold reach at h ⊢
  rw [translate_ops]
  cases e : translate ag va kind s with
  | mk a s1 =>
    rw [e] at h
    cases a with
    | ok pa node =>
      dsimp only at h ⊢
      split at h
      · next hn => rw [if_pos hn]; cases h; rfl
      · next hn =>
        rw [if_neg hn, translate_ops]
        cases e2 : translate ag ((va + (4096 - va % 4096)) % 2 ^ 56) kind s1 with
        | mk b s2 => rw [e2] at h; cases b <;> cases h <;> rfl
    | _ => cases h; rfl
/-- Reaching some bytes goes alike whatever becomes of an operation's record. -/
theorem reach_modOp {ag : Agent} {va k : Nat} {kind : AccessKind} {s s' : State} {r : Reach} (h : reach ag va k kind s = (r, s'))
    (t : ThreadId) (e n : Nat) (f : EngineOp → EngineOp) : reach ag va k kind (modOp t e n f s) = (r, modOp t e n f s') := by
  have ho : s'.ops = s.ops := by
    obtain ⟨hs, bs, e'⟩ := reach_frame ag va k kind s
    rw [h] at e'
    simp [show s' = _ from e']
  have := reach_ops h (s.ops.map fun o => if o.t = t ∧ o.e = e ∧ o.n = n then f o else o)
  simpa [modOp, ho] using this

/-- The bytes of an access in one page lie one after the other. -/
theorem reach_onePage {ag : Agent} {va n : Nat} {kind : AccessKind} {s s' : State} {ps : List Spot}
    (h : reach ag va n kind s = (.ok ps, s')) (hn : va % 4096 + n ≤ 4096) : ∃ pa node, ps = spotsFrom va pa node n := by
  unfold reach at h
  split at h
  · cases h
  · cases h
  · cases h
  · next pa node s1 _ =>
    dsimp only at h
    rw [if_pos (by omega)] at h
    cases h
    exact ⟨pa, node, rfl⟩

theorem mem_spotsFrom {va pa n : Nat} {node : Option (BitVec 11)} {q : Spot} (h : q ∈ spotsFrom va pa node n) :
    ∃ k < n, q = ⟨va + k, pa + k, node⟩ := by
  unfold spotsFrom at h
  obtain ⟨k, hk, e⟩ := List.mem_map.mp h
  exact ⟨k, List.mem_range.mp hk, e.symm⟩

/-- Bytes of one page are of one part. -/
theorem spotsFrom_onePart {va pa n : Nat} {node : Option (BitVec 11)} {p : Spot} {ps : List Spot} (hn : va % 4096 + n ≤ 4096)
    (e : p :: ps = spotsFrom va pa node n) : (p :: ps).all (samePart p) = true := by
  rw [List.all_eq_true]
  intro q hq
  have hp : p ∈ spotsFrom va pa node n := e ▸ List.mem_cons_self
  obtain ⟨j, hj, ep⟩ := mem_spotsFrom hp
  obtain ⟨k, hk, eq⟩ := mem_spotsFrom (e ▸ hq)
  subst ep eq
  simp only [samePart, decide_eq_true_eq, true_and]
  omega

/-! ### Loads (R187) -/

theorem markReads_run (ps : List Spot) (s : State) : markReads ps s = .ok ⟨⟩ (marked ps s) := by
  unfold markReads marked
  rw [M.bind_ok (getTh_run s)]
  split <;> rfl

theorem marked_frame (ps : List Spot) (s : State) :
    (marked ps s).th.r = s.th.r ∧ (marked ps s).mem = s.mem ∧ (marked ps s).pending = s.pending ∧ (marked ps s).hearths = s.hearths
      ∧ (marked ps s).others = s.others ∧ (marked ps s).cores = s.cores := by
  unfold marked
  split <;> exact ⟨rfl, rfl, rfl, rfl, rfl, rfl⟩

/-- Levels that differ only in what they have read change nothing of what the thread reads. -/
theorem viewNat_levels (f : Level → Level) (ht : ∀ l, (f l).task = l.task) (hl : ∀ l va, (f l).lineOf va = l.lineOf va) (s : State)
    (qs : List Spot) :
    viewNat { s with th := { s.th with levels := s.th.levels.map f } } { s.th with levels := s.th.levels.map f } qs = viewNat s s.th qs := by
  generalize hu : ({ s.th with levels := s.th.levels.map f } : Thread) = u
  generalize hs : ({ s with th := u } : State) = s'
  have ei : u.inTask = s.th.inTask := by
    subst hu
    simp only [Thread.inTask, List.any_map]
    congr 1
    funext l
    exact ht l
  have eb : baseMem s' u = baseMem s s.th := by
    subst hs
    unfold baseMem
    rw [show computing ({ s with th := u } : State) u = computing s s.th by subst hu; rfl]
    cases computing s s.th with
    | none => subst hu; rfl
    | some l =>
      dsimp only [withDeferred]
      congr 1
      funext m d
      rw [show readsDeferred ({ s with th := u } : State) u none d = readsDeferred s s.th none d by
        unfold readsDeferred
        rw [ei]
        subst hu
        rfl]
  have es : ∀ va, shadowOf s' u va = shadowOf s s.th va := by
    intro va
    have e1 : ownedLevels s' u = withPositions none (s.th.levels.map f) ++ (s.domains.zipIdx.flatMap fun (d, i) =>
        if d.members.contains s.th.id then withPositions (some i) d.levels else []).foldr insertOwned [] := by subst hs hu; rfl
    unfold shadowOf
    rw [e1]
    unfold ownedLevels
    rw [List.findSome?_append, List.findSome?_append]
    congr 1
    unfold withPositions
    rw [List.zipIdx_map, List.map_map, List.findSome?_map, List.findSome?_map]
    congr 1
    funext x
    simp only [Function.comp_apply, Prod.map, id, hl]
  have eo : ∀ q, ownLocal u q = ownLocal s.th q := by intro q; subst hu; rfl
  unfold viewNat
  dsimp only
  rw [eb]
  congr 1
  refine List.map_congr_left fun q _ => ?_
  unfold viewByte
  rw [eo, es, show s'.mem = s.mem by subst hs; rfl]

/-- Marked lines change nothing of what the thread reads. -/
theorem marked_view (ps qs : List Spot) (s : State) : viewNat (marked ps s) (marked ps s).th qs = viewNat s s.th qs := by
  unfold marked
  split
  · exact viewNat_levels _ (fun l => by split <;> rfl) (fun l va => by split <;> rfl) s qs
  · rfl

/-- Nothing watches an access but what the thread passes. -/
theorem watch_none {rd wr : Bool} {va n : Nat} {s : State}
    (h : watchHit (debugOf s s.th) s.th.id.asid rd wr va n s.th.passBreak = none) : watch rd wr va n s = .ok ⟨⟩ s := by
  unfold watch
  rw [M.bind_ok (M.get_run s)]
  simp only [h]
  rfl

/-- What a translated access answers is its places and the state after it. -/
theorem reach_eq {s : State} {va n : Nat} {kind : AccessKind} (h : resolves s va n kind) :
    reach (agentOf s.th) va n kind s = (.ok (placesOf s va n kind), translated s va n kind) := by
  rw [← h.1]; rfl

/-- A translation changes the translation caches only. -/
theorem translated_frame (s : State) (va n : Nat) (kind : AccessKind) :
    ∃ hs bs, translated s va n kind = { s with hearths := hs, benches := bs } := reach_frame _ _ _ _ _

/-- Updates that a read meets are merged: the canonical form stays, and the threads. -/
theorem mergeReads_frame (pas : List Nat) (s : State) :
    (s.memoryForm → (mergeReads pas s).memoryForm) ∧ (mergeReads pas s).th = s.th ∧ (mergeReads pas s).others = s.others
      ∧ (mergeReads pas s).remotes = s.remotes := by
  unfold mergeReads
  dsimp only
  split
  · obtain ⟨h1, h2, h3, -, h5⟩ := foldl_performOp (splitMet (fun p => p.op.isUpdate && pas.any fun a => decide (p.pa ≤ a ∧ a < p.pa + p.op.size))
      s.pending).1 { s with pending := (splitMet (fun p => p.op.isUpdate && pas.any fun a => decide (p.pa ≤ a ∧ a < p.pa + p.op.size))
      s.pending).2 }
    exact ⟨h1, h2, h3, h5⟩
  · exact ⟨id, rfl, rfl, rfl⟩

/-- Merging updates touches no core. -/
theorem mergeReads_cores (pas : List Nat) (s : State) : (mergeReads pas s).cores = s.cores := by
  unfold mergeReads
  dsimp only
  split
  · exact foldl_performOp_cores _ _
  · rfl

/-- Delay accounting depends on the thread and the cores only. -/
theorem delaysOff_of {s t : State} (h : delaysOff s) (ht : accountCore t.th = accountCore s.th) (hc : t.cores = s.cores) : delaysOff t := by
  unfold delaysOff at h ⊢
  rw [ht, show coreOf t (accountCore s.th) = coreOf s (accountCore s.th) by unfold coreOf; rw [hc]]
  exact h

/-- Reading leaves the thread as it is, and every core. -/
theorem fetched_frame (s : State) (va n : Nat) : (fetched s va n).th = s.th ∧ (fetched s va n).cores = s.cores := by
  obtain ⟨hs, bs, e⟩ := translated_frame s va n .load
  exact ⟨(mergeReads_frame _ _).2.1.trans (by rw [e]), (mergeReads_cores _ _).trans (by rw [e])⟩

/-- Where no update waits, a read merges nothing. -/
theorem mergeReads_none {pas : List Nat} {s : State} (h : (s.pending.any fun p => p.op.isUpdate) = false) : mergeReads pas s = s := by
  unfold mergeReads
  dsimp only
  rw [if_neg]
  rw [List.any_eq_false] at h
  rw [Bool.not_eq_true, List.any_eq_false]
  intro p hp
  simp [h p hp]

/-- A load that nothing stops answers the bytes that the thread sees at its place; it leaves the lines marked that an open task has read. -/
theorem loadAt_readable {tv va n : Nat} {s : State} (h : Readable s va n) :
    loadAt tv va n s = .ok (loaded s va n) (marked (placesOf s va n .load) (fetched s va n)) := by
  have hh := h.reached.2
  have hf : (placesOf s va n .load).filter (·.node.isNone) = placesOf s va n .load := by
    rw [List.filter_eq_self]
    intro p hp
    simp [(hh p hp).1]
  have hl : (placesOf s va n .load).all (·.node.isNone) = true := by
    rw [List.all_eq_true]
    intro p hp
    simp [(hh p hp).1]
  have hd : delaysOff (marked (placesOf s va n .load) (fetched s va n)) := by
    refine delaysOff_of h.quiet ?_ ((marked_frame _ _).2.2.2.2.2.trans (fetched_frame s va n).2)
    rw [show accountCore (marked (placesOf s va n .load) (fetched s va n)).th = accountCore (fetched s va n).th by unfold marked; split <;> rfl,
      (fetched_frame s va n).1]
  have hv : viewNat (marked (placesOf s va n .load) (fetched s va n)) (marked (placesOf s va n .load) (fetched s va n)).th (placesOf s va n .load)
      = loaded s va n := marked_view _ _ _
  have hm : (modify (mergeReads ((placesOf s va n .load).map (·.pa))) : M Unit) (translated s va n .load) = .ok ⟨⟩ (fetched s va n) := rfl
  unfold loadAt
  rw [M.bind_ok (watch_none h.unwatched), M.bind_ok (getTh_run s), if_neg (by rw [h.unqueued]; simp)]
  dsimp only
  rw [M.bind_ok (placeOf_run (reach_eq h.reached) hh fun _ => h.open_), hf, M.bind_ok hm, M.bind_ok (M.get_run _), if_neg (by rw [h.clean]; simp),
    M.bind_ok (markReads_run _ _)]
  unfold ownerView
  rw [bind_assoc, M.bind_ok (M.get_run _), if_pos hl]
  simp only [pure_bind, hl, if_true, hv]
  cases e : placesOf s va n .load with
  | nil => rfl
  | cons p ps =>
    rw [e] at hd
    rw [show countLoads (List.take 1 (p :: ps)) = countDelay p true >>= fun _ => pure ⟨⟩ from rfl, bind_assoc, M.bind_ok (countDelay_off hd p true)]
    rfl

/-! ### Stores (R101, R187) -/

/-- A store to the thread's own local memory is performed at once (R87), an update outside a compute phase too (R37). -/
theorem publish_own {p : Spot} {s : State} (o : StoreOp) (h : ownLocal s.th p = true) (hu : o.isUpdate = false ∨ computing s s.th = none) :
    publish p o s = .ok ⟨⟩ (performOp o p.pa s) := by
  have ha : atOnce s p o = true := by
    unfold atOnce
    rcases hu with e | e <;> simp [h, e]
  unfold publish
  rw [M.bind_ok (M.get_run s), if_pos ha]
  rfl

/-- A store elsewhere in this package, outside a compute phase, joins its hearth's stores (R87). -/
theorem publish_pending {p : Spot} {s : State} (o : StoreOp) (h : ownLocal s.th p = false) (hc : computing s s.th = none)
    (hn : p.node = none) : publish p o s = .ok ⟨⟩ { s with pending := s.pending ++ pieces s.th.view p.pa o } := by
  unfold publish
  rw [M.bind_ok (M.get_run s), if_neg (by unfold atOnce; rw [h]; simp), hc]
  simp only [hn]
  rfl

/-- No record is asked of an exchange buffer outside a compute phase, or for none. -/
theorem requireRecords_run {va n : Nat} {s : State} (h : n = 0 ∨ computing s s.th = none) : requireRecords va n s = .ok ⟨⟩ s := by
  unfold requireRecords
  rw [M.bind_ok (M.get_run s)]
  rcases h with rfl | h
  · cases computing s s.th with
    | none => rfl
    | some l => simp only [Nat.lt_irrefl, false_and, if_false]; rfl
  · rw [h]; rfl

/-- A number of whole bytes, all set. -/
theorem bytesToNat_ones (n : Nat) : bytesToNat (List.replicate n 0xFF) = fullMask n := by
  induction n with
  | zero => rfl
  | succ n ih =>
    rw [List.replicate_succ, bytesToNat, ih]
    unfold fullMask
    have : 2 ^ (8 * (n + 1)) = 256 * 2 ^ (8 * n) := by rw [Nat.mul_add, Nat.pow_add]; omega
    have : 0 < 2 ^ (8 * n) := Nat.two_pow_pos _
    have e : (0xFF : Byte).toNat = 255 := rfl
    rw [e]
    omega

/-- A whole store of bytes that are all public is published as it is. -/
theorem StoreOp.part_whole {n x : Nat} (hx : x < 2 ^ (8 * n)) : (StoreOp.whole n x).part (List.replicate n true) 0 n = StoreOp.whole n x := by
  have hf : fullMask n < 2 ^ (8 * n) := by unfold fullMask; have := Nat.two_pow_pos (8 * n); omega
  have e : ((List.replicate n true).map fun b => if b then (0xFF : Byte) else 0) = List.replicate n 0xFF := by simp
  unfold StoreOp.whole StoreOp.part
  rw [e, bytesToNat_ones]
  simp only [Nat.and_self, field, Nat.mul_zero, Nat.shiftRight_zero, Nat.mod_eq_of_lt hx, Nat.mod_eq_of_lt hf]

/-- What an operation within one page publishes, where no level covers a byte of it. -/
theorem publicParts_onePage {ps : List Spot} {p : Spot} {va n : Nat} {o : StoreOp} {cov : Spot → Bool} (hn : va % 4096 + n ≤ 4096)
    (e : ∃ pa node, p :: ps = spotsFrom va pa node n) (hc : ∀ q ∈ p :: ps, cov q = false)
    (ho : o.isUpdate = true ∨ ∃ x < 2 ^ (8 * n), o = .whole n x) : publicParts cov (p :: ps) o = [(p, o)] := by
  obtain ⟨pa, node, e⟩ := e
  have hs : (p :: ps).all (samePart p) = true := spotsFrom_onePart hn e
  have hlen : (p :: ps).length = n := by rw [e]; simp [spotsFrom]
  have hpart : (p :: ps).filter (samePart p) = p :: ps := List.filter_eq_self.mpr (List.all_eq_true.mp hs)
  have hh : partHeads (p :: ps) = [p] := by
    have : ps.filter (fun q => decide (q.va % 4096 = 0)) = [] := by
      rw [List.filter_eq_nil_iff]
      intro q hq
      have hp : p :: ps = ⟨va, pa, node⟩ :: (spotsFrom va pa node n).tail := by
        cases n with
        | zero => simp [spotsFrom] at e
        | succ n => rw [e]; simp [spotsFrom, List.range_succ_eq_map]
      have hq' : q ∈ (spotsFrom va pa node n).tail := by
        have := (List.cons.inj hp).2
        rwa [this] at hq
      cases n with
      | zero => simp [spotsFrom] at e
      | succ n =>
        simp only [spotsFrom, List.range_succ_eq_map, List.map_cons, List.tail_cons, List.map_map, List.mem_map, List.mem_range, Function.comp_apply] at hq'
        obtain ⟨k, hk, rfl⟩ := hq'
        simp only [decide_eq_true_eq]
        omega
    rw [partHeads, this]
  have h1 : (p :: ps).all cov = false := by
    rw [Bool.eq_false_iff, Ne, List.all_eq_true]
    intro h
    have := h p List.mem_cons_self
    rw [hc p List.mem_cons_self] at this
    cases this
  have h2 : ((p :: ps).map fun q => !cov q) = List.replicate n true := by
    rw [List.eq_replicate_iff]
    refine ⟨by rw [List.length_map, hlen], ?_⟩
    intro b hb
    obtain ⟨q, hq, rfl⟩ := List.mem_map.mp hb
    rw [hc q hq]; rfl
  have h3 : (p :: ps).takeWhile (fun q => !samePart p q) = [] := by
    rw [List.takeWhile_cons, if_neg]
    have := (List.all_eq_true.mp hs) p List.mem_cons_self
    simp [this]
  unfold publicParts
  simp only [hh, List.filterMap_cons, List.filterMap_nil, hpart, h1, h2, h3, List.length_nil, hlen]
  rcases ho with e | ⟨x, hx, rfl⟩
  · simp [e]
  · have hw : (StoreOp.whole n x).isUpdate = false := rfl
    simp [hw, StoreOp.part_whole hx]

/-- A store that nothing stops is published at its place; what follows it counts nothing. A whole store of n bytes, or an update outside a
compute phase. -/
theorem storeAt_writable {tv va n : Nat} {p : Spot} {ps : List Spot} {o : StoreOp} {s t : State} {later : Bool} (hn : o.size = n)
    (h : Writable s va n) (e : placesOf s va n .store = p :: ps) (ho : o.isUpdate = true ∨ ∃ x < 2 ^ (8 * n), o = .whole n x)
    (hr : (atOnce (translated s va n .store) p o = true) ∨ computing s s.th = none)
    (hp : publish p o (translated s va n .store) = .ok ⟨⟩ t) (hq : delaysOff t) : storeAt tv va o later s = .ok ⟨⟩ t := by
  subst hn
  obtain ⟨hs, bs, et⟩ := translated_frame s va o.size .store
  have eth : (translated s va o.size .store).th = s.th := by rw [et]
  have hh := h.reached.2
  rw [e] at hh
  have hw := h.writable
  rw [e] at hw
  have hc := h.uncovered
  rw [e] at hc
  have hf : ((p :: ps).find? fun p => p.node.isNone && !paExists p.pa) = none := by
    rw [List.find?_eq_none]
    intro q hq
    simp [(hh q hq).2]
  have hro : ((p :: ps).any fun q => readOnly (translated s va o.size .store) (translated s va o.size .store).th.id.asid q.va q.pa) = false := by
    rw [List.any_eq_false, eth]
    intro q hq
    simp [hw q hq]
  have hb : heldRemote (translated s va o.size .store) (p :: ps) = false := by
    unfold heldRemote
    rw [List.any_eq_false]
    intro q hq
    simp [(hh q hq).1]
  have hcov : (p :: ps).any (covered (translated s va o.size .store) (translated s va o.size .store).th) = false := by
    rw [List.any_eq_false, eth]
    intro q hq
    simp [hc q hq]
  have hre := reach_eq h.reached
  rw [e] at hre
  have hparts : publicParts (covered (translated s va o.size .store) (translated s va o.size .store).th) (p :: ps) o = [(p, o)] :=
    publicParts_onePage h.onePage (reach_onePage hre h.onePage) (by rw [eth]; exact hc) ho
  have hcomp : computing (translated s va o.size .store) (translated s va o.size .store).th = computing s s.th := by rw [et]; rfl
  have hm : commitStore (p :: ps) o 0 (translated s va o.size .store) = .ok ⟨⟩ t := by
    have hreq : ∀ k, requireRecords k ([(p, o)].filter (fun x => !atOnce (translated s va o.size .store) x.1 x.2) |>.foldl
        (fun n x => n + recordsOf x.1.pa x.2) 0) (translated s va o.size .store) = .ok ⟨⟩ (translated s va o.size .store) := by
      intro k
      apply requireRecords_run
      rcases hr with hr | hr
      · left; simp [hr]
      · right; rw [hcomp]; exact hr
    unfold commitStore
    rw [M.bind_ok (M.get_run _)]
    dsimp only
    rw [hparts, M.bind_ok (hreq _), if_neg (by rw [hcov]; simp)]
    simp only [List.forIn_cons, List.forIn_nil, pure_bind, bind_assoc]
    rw [M.bind_ok hp]
    rfl
  have hold : oldFor tv (p :: ps) o (translated s va o.size .store) = .ok (some 0) (translated s va o.size .store) := by
    unfold oldFor
    rw [M.bind_ok (M.get_run _), if_neg (by rw [hcov]; simp)]
    rfl
  unfold storeAt
  rw [M.bind_ok (watch_none h.unwatched), M.bind_ok (M.get_run s), if_neg (by rw [h.unqueued]; simp), hre]
  dsimp only
  rw [M.bind_ok (M.set_run _ s), hf]
  dsimp only
  unfold storePlaced
  rw [M.bind_ok (M.get_run _), if_neg (by rw [hro]; simp), if_neg (by rw [hb]; simp), M.bind_ok hold]
  dsimp only
  rw [M.bind_ok hm]
  exact countDelay_off hq p true

end Sys2Proof.Machine
end

