-- ==== Sys2Proof/Laws/Ranges.lean ====
section
/-!
SUPPORT. Words and ranges in memory: writing register blocks and records, and clearing a range.
-/

namespace Sys2Proof.Machine

open Sys2Proof

/-- Words written keep the canonical form. -/
theorem writeWords_wf (pa : Nat) (ws : List Word) {m : List Host.Cell} (h : Mem.wf m = true) : Mem.wf (writeWords pa ws m) = true := by
  induction ws generalizing pa m with
  | nil => exact h
  | cons w ws ih => exact ih _ (Mem.wf_write _ _ _ h)

/-- Words written leave every byte outside them. -/
theorem writeWords_other (pa : Nat) (ws : List Word) (m : List Host.Cell) {a : Nat} (h : a < pa ∨ pa + 8 * ws.length ≤ a) :
    Mem.get (writeWords pa ws m) a = Mem.get m a := by
  induction ws generalizing pa m with
  | nil => rfl
  | cons w ws ih =>
    simp only [List.length_cons] at h
    rw [writeWords, ih _ _ (by omega), Mem.get_write_other _ _ _ _ (by omega)]

/-- A cleared range keeps the canonical form. -/
theorem clearRange_wf (a n : Nat) {m : List Host.Cell} (h : Mem.wf m = true) : Mem.wf (clearRange a n m) = true :=
  Mem.wfFrom_filter _ h

/-- A cleared range reads as zero, and every other byte as before. -/
theorem get_clearRange (a n : Nat) (m : List Host.Cell) (x : Nat) :
    Mem.get (clearRange a n m) x = if a ≤ x ∧ x < a + n then 0 else Mem.get m x := by
  unfold clearRange
  induction m with
  | nil => simp [Mem.get]
  | cons c t ih =>
    obtain ⟨k, b⟩ := c
    rw [List.filter_cons]
    by_cases h : a ≤ k ∧ k < a + n
    · rw [if_neg (by simp [h]), ih, Mem.get_cons]
      by_cases e : k = x
      · subst e; simp [h]
      · simp [e]
    · rw [if_pos (by simp [h]), Mem.get_cons, Mem.get_cons, ih]
      by_cases e : k = x
      · subst e; simp [h]
      · simp [e]

/-- A frame written to memory keeps the canonical form (R178). -/
theorem writeFrame_wf (t : Thread) (pa : Nat) {m : List Host.Cell} (h : Mem.wf m = true) : Mem.wf (writeFrame t pa m) = true :=
  writeWords_wf _ _ (clearRange_wf _ _ h)

end Sys2Proof.Machine
end

