-- ==== Sys2Proof/Tests/Slice0.lean ====
section
/-!
SUPPORT. Tests: words written out from the encoding tables decode to the instructions they stand for; ill-formed terms are refused;
single steps give the spec's worked values; and for each obligation with hypotheses a concrete state and operands meet them.
-/

namespace Sys2Proof.Tests

open Sys2Proof Sys2Proof.Machine

set_option maxRecDepth 20000
set_option Elab.async false

/-! ### Decoding: one word for every strand form, from the tables of R126 to R137, R158 to R241 and R349 to R396 -/

/-- Each word decodes to its instruction, is well formed, and is what the encoder gives for it. -/
def decodesTo (ps : List (BitVec 32 × Instr)) : Bool :=
  ps.all fun p => decide ((decodeWord p.1).toOption = some p.2) && decide (encode p.2 = p.1) && wellFormed p.2

theorem test_decode_major_01 : decodesTo
  [(0x06532d80, .add ⟨1, 1⟩ 9 18 27),
   (0x04932d81, .sub ⟨0, 2⟩ 9 18 27),
   (0x06d32d82, .mul ⟨1, 3⟩ 9 18 27),
   (0x05132d83, .mulh ⟨0, 4⟩ 9 18 27),
   (0x07532d84, .mulhz ⟨1, 5⟩ 9 18 27),
   (0x05932d85, .div ⟨0, 6⟩ 9 18 27),
   (0x07d32d86, .divz ⟨1, 7⟩ 9 18 27),
   (0x04132d87, .rem ⟨0, 0⟩ 9 18 27),
   (0x06532d88, .remz ⟨1, 1⟩ 9 18 27),
   (0x04932d89, .and ⟨0, 2⟩ 9 18 27),
   (0x06d32d8a, .or ⟨1, 3⟩ 9 18 27),
   (0x05132d8b, .xor ⟨0, 4⟩ 9 18 27),
   (0x07532d8c, .andn ⟨1, 5⟩ 9 18 27),
   (0x05932d8d, .shl ⟨0, 6⟩ 9 18 27),
   (0x07d32d8e, .shr ⟨1, 7⟩ 9 18 27),
   (0x04132d8f, .sha ⟨0, 0⟩ 9 18 27),
   (0x06532d90, .rol ⟨1, 1⟩ 9 18 27),
   (0x04932d91, .min ⟨0, 2⟩ 9 18 27),
   (0x06d32d92, .max ⟨1, 3⟩ 9 18 27),
   (0x05132d93, .minz ⟨0, 4⟩ 9 18 27),
   (0x07532d94, .maxz ⟨1, 5⟩ 9 18 27),
   (0x05932015, .clz ⟨0, 6⟩ 9 18),
   (0x07d32016, .ctz ⟨1, 7⟩ 9 18),
   (0x04132017, .popc ⟨0, 0⟩ 9 18),
   (0x06532018, .bswap ⟨1, 1⟩ 9 18),
   (0x04932099, .sext ⟨0, 2⟩ 9 18 1),
   (0x06d3211a, .zext ⟨1, 3⟩ 9 18 2),
   (0x05132d9b, .sel ⟨0, 4⟩ 9 18 27)] = true := by
  decide +kernel

theorem test_decode_majors_02_to_0d : decodesTo
  [(0x0b532094, .addi ⟨1, 5⟩ 9 18 148),
   (0x0d932099, .andi ⟨0, 6⟩ 9 18 153),
   (0x13d3209e, .ori ⟨1, 7⟩ 9 18 158),
   (0x141320a3, .xori ⟨0, 0⟩ 9 18 163),
   (0x1a532028, .shli ⟨1, 1⟩ 9 18 40),
   (0x1c93202d, .shri ⟨0, 2⟩ 9 18 45),
   (0x22d32032, .shai ⟨1, 3⟩ 9 18 50),
   (0x251200b7, .li ⟨0, 4⟩ 9 183),
   (0x2b5200bc, .lih ⟨1, 5⟩ 9 188),
   (0x2d9321e8, .bfx ⟨0, 6⟩ 9 18 7 40),
   (0x33d322d5, .bfi ⟨1, 7⟩ 9 18 11 21),
   (0x34132d84, .cmp ⟨0, 0⟩ 9 18 27 4)] = true := by
  decide +kernel

theorem test_decode_majors_0e_to_13 : decodesTo
  [(0x3a5324d0, .cmpi ⟨1, 1⟩ 9 18 2 208),
   (0x3c922580, .pand ⟨0, 2⟩ 9 2 11),
   (0x3ed22581, .por ⟨1, 3⟩ 9 2 11),
   (0x3d122582, .pxor ⟨0, 4⟩ 9 2 11),
   (0x3f522583, .pandn ⟨1, 5⟩ 9 2 11),
   (0x3d922004, .pnot ⟨0, 6⟩ 9 2),
   (0x3fd20005, .pset ⟨1, 7⟩ 9),
   (0x3c120006, .pclr ⟨0, 0⟩ 9),
   (0x42532d80, .padd ⟨1, 1⟩ 9 18 27),
   (0x449320fd, .paddi ⟨0, 2⟩ 9 18 253),
   (0x4ad32012, .ptag ⟨1, 3⟩ 9 18 2 2),
   (0x4d132000, .pgetf ⟨0, 4⟩ 9 18),
   (0x4f532001, .pgetb ⟨1, 5⟩ 9 18),
   (0x4d932002, .pstrip ⟨0, 6⟩ 9 18)] = true := by
  decide +kernel

theorem test_decode_majors_14_to_1a : decodesTo
  [(0x53c00116, .br ⟨1, 7⟩ 278),
   (0x5400011b, .brl ⟨0, 0⟩ 283),
   (0x5a412000, .jr ⟨1, 1⟩ 18),
   (0x58932001, .jrl ⟨0, 2⟩ 9 18),
   (0x5ed20009, .loop ⟨1, 3⟩ 9 9),
   (0x61123000, .lidx ⟨0, 4⟩ 9 3),
   (0x63402001, .lbrk ⟨1, 5⟩ 2),
   (0x61925002, .lcnt ⟨0, 6⟩ 9 5),
   (0x67c1258e, .frame ⟨1, 7⟩ 18 11 14),
   (0x68000000, .yield ⟨0, 0⟩),
   (0x6a412100, .exit ⟨1, 1⟩ 18),
   (0x68920202, .self ⟨0, 2⟩ 9 2),
   (0x6ad323d8, .spawn ⟨1, 3⟩ 9 18 27),
   (0x691324d8, .spawnn ⟨0, 4⟩ 9 18 27),
   (0x6b532500, .join ⟨1, 5⟩ 9 18),
   (0x69932600, .prio ⟨0, 6⟩ 9 18),
   (0x6bc00700, .park ⟨1, 7⟩),
   (0x68012800, .wake ⟨0, 0⟩ 18),
   (0x6a400900, .forge ⟨1, 1⟩)] = true := by
  decide +kernel

theorem test_decode_majors_1b_to_22 : decodesTo
  [(0x6c93b575, .ld ⟨0, 2⟩ 9 27 1 373),
   (0x72d3b97a, .ldz ⟨1, 3⟩ 9 27 2 378),
   (0x7513bd7f, .st ⟨0, 4⟩ 9 27 3 383),
   (0x7b53b184, .ldv ⟨1, 5⟩ 9 27 388),
   (0x7d93b189, .stv ⟨0, 6⟩ 9 27 393),
   (0x83d3b18e, .ldf ⟨1, 7⟩ 9 27 398),
   (0x8413b193, .stf ⟨0, 0⟩ 9 27 403),
   (0x8a532180, .lda ⟨1, 1⟩ 9 18 3 0),
   (0x88932294, .strl ⟨0, 2⟩ 9 18 5 1),
   (0x8ad32da8, .ldx ⟨1, 3⟩ 9 18 27 2),
   (0x89132dbc, .ldzx ⟨0, 4⟩ 9 18 27 3),
   (0x8b532dc0, .stx ⟨1, 5⟩ 9 18 27 0),
   (0x89812dd0, .pref ⟨0, 6⟩ 18 27)] = true := by
  decide +kernel

theorem test_decode_majors_23_to_24 : decodesTo
  [(0x8fd52740, .aadd ⟨1, 7⟩ 10 18 14 2),
   (0x8c132d81, .aand ⟨0, 0⟩ 9 18 27 0),
   (0x8e532da2, .aor ⟨1, 1⟩ 9 18 27 1),
   (0x8c952743, .axor ⟨0, 2⟩ 10 18 14 2),
   (0x8ed32da4, .amin ⟨1, 3⟩ 9 18 27 1),
   (0x8d132d85, .amax ⟨0, 4⟩ 9 18 27 0),
   (0x8f532da6, .aminz ⟨1, 5⟩ 9 18 27 1),
   (0x8d932d87, .amaxz ⟨0, 6⟩ 9 18 27 0),
   (0x8fd52748, .aswap ⟨1, 7⟩ 10 18 14 2),
   (0x8c132da9, .acas ⟨0, 0⟩ 9 18 27 1),
   (0x8e55274a, .acas16 ⟨1, 1⟩ 10 18 14),
   (0x90812d9c, .cadd ⟨0, 2⟩ 18 27 7),
   (0x92c12da9, .cmax ⟨1, 3⟩ 18 27 10),
   (0x91012db6, .cmin ⟨0, 4⟩ 18 27 13),
   (0x93412d9b, .cor ⟨1, 5⟩ 18 27 6)] = true := by
  decide +kernel

theorem test_decode_majors_25_to_26 : decodesTo
  [(0x95800004, .fence ⟨0, 6⟩ 4),
   (0x97c00105, .fencee ⟨1, 7⟩ 5),
   (0x94132203, .sync ⟨0, 0⟩ 9 18 3),
   (0x96520305, .domget ⟨1, 1⟩ 9 5),
   (0x94920400, .phase ⟨0, 2⟩ 9),
   (0x96d32502, .xchg ⟨1, 3⟩ 9 18 2),
   (0x99132000, .snap ⟨0, 4⟩ 9 18),
   (0x9b532100, .accept ⟨1, 5⟩ 9 18),
   (0x99932200, .reject ⟨0, 6⟩ 9 18),
   (0x9bd32300, .snapq ⟨1, 7⟩ 9 18),
   (0x98012404, .torder ⟨0, 0⟩ 18 4),
   (0x9a412500, .tbegin ⟨1, 1⟩ 18),
   (0x98800600, .tcommit ⟨0, 2⟩),
   (0x9ac00700, .tabort ⟨1, 3⟩),
   (0x99120800, .tstat ⟨0, 4⟩ 9)] = true := by
  decide +kernel

theorem test_decode_majors_27_to_2a : decodesTo
  [(0x9f532003, .tlwait ⟨1, 5⟩ 9 18 3),
   (0x9d92010c, .tlread ⟨0, 6⟩ 9 1 4),
   (0xa3c120d8, .msend ⟨1, 7⟩ 18 27),
   (0xa00121d8, .msende ⟨0, 0⟩ 18 27),
   (0xa2532269, .deposit ⟨1, 1⟩ 9 18 13 1),
   (0xa093232d, .nread ⟨0, 2⟩ 9 18 5 5),
   (0xa2d20440, .mrecv ⟨1, 3⟩ 9 2 0 0),
   (0xa51320d8, .rebind ⟨0, 4⟩ 9 18 27),
   (0xa7532102, .bindq ⟨1, 5⟩ 9 18 2),
   (0xa9932d80, .rngx ⟨0, 6⟩ 9 18 27),
   (0xabd32001, .rngsDraw ⟨1, 7⟩ 9 18 0),
   (0xa8132181, .rngsLoad ⟨0, 0⟩ 9 18 1),
   (0xaa412002, .hinit ⟨1, 1⟩ 18 0),
   (0xa8932d83, .hsift ⟨0, 2⟩ 9 18 27),
   (0xaad32104, .hpop ⟨1, 3⟩ 9 18 2)] = true := by
  decide +kernel

theorem test_decode_majors_2b_to_2c : decodesTo
  [(0xad132d80, .vadd ⟨0, 4⟩ 9 18 27 0),
   (0xaf532d89, .vsub ⟨1, 5⟩ 9 18 27 1),
   (0xad932d92, .vmul ⟨0, 6⟩ 9 18 27 2),
   (0xafd32d83, .vfma ⟨1, 7⟩ 9 18 27 0),
   (0xac132d8c, .vfms ⟨0, 0⟩ 9 18 27 1),
   (0xae532d95, .vmin ⟨1, 1⟩ 9 18 27 2),
   (0xac932d86, .vmax ⟨0, 2⟩ 9 18 27 0),
   (0xaed32d8f, .vdiv ⟨1, 3⟩ 9 18 27 1),
   (0xb1132010, .vabs ⟨0, 4⟩ 9 18 2),
   (0xb3532001, .vneg ⟨1, 5⟩ 9 18 0),
   (0xb193200a, .vsqrt ⟨0, 6⟩ 9 18 1),
   (0xb3d32013, .vrcp ⟨1, 7⟩ 9 18 2),
   (0xb0132004, .vrsq ⟨0, 0⟩ 9 18 0),
   (0xb253200d, .vexp ⟨1, 1⟩ 9 18 1),
   (0xb0932016, .vlog2 ⟨0, 2⟩ 9 18 2),
   (0xb2d32007, .vsig ⟨1, 3⟩ 9 18 0)] = true := by
  decide +kernel

theorem test_decode_majors_2d_to_2f : decodesTo
  [(0xb5132da8, .viadd ⟨0, 4⟩ 9 18 27 5),
   (0xb7532db1, .visub ⟨1, 5⟩ 9 18 27 6),
   (0xb5932dba, .vimul ⟨0, 6⟩ 9 18 27 7),
   (0xb7d32dcb, .vand ⟨1, 7⟩ 9 18 27 9),
   (0xb4132dd4, .vor ⟨0, 0⟩ 9 18 27 10),
   (0xb6532ddd, .vxor ⟨1, 1⟩ 9 18 27 11),
   (0xb4932dae, .vshl ⟨0, 2⟩ 9 18 27 5),
   (0xb6d32db7, .vshr ⟨1, 3⟩ 9 18 27 6),
   (0xb9032dd3, .vcmp ⟨0, 4⟩ 1 18 27 10 3),
   (0xbf5321e0, .vselm ⟨1, 5⟩ 9 18 3 12),
   (0xbd822181, .mand ⟨0, 6⟩ 1 2 3),
   (0xbfc22182, .mor ⟨1, 7⟩ 1 2 3),
   (0xbc022183, .mxor ⟨0, 0⟩ 1 2 3),
   (0xbe422004, .mnot ⟨1, 1⟩ 1 2),
   (0xbc922005, .mpop ⟨0, 2⟩ 9 2),
   (0xbed22006, .mfirst ⟨1, 3⟩ 9 2)] = true := by
  decide +kernel

theorem test_decode_majors_30_to_32 : decodesTo
  [(0xc11328b8, .vcvt ⟨0, 4⟩ 9 18 4 1 7),
   (0xc3532de1, .vqnt ⟨1, 5⟩ 9 18 27 12),
   (0xc1932d8a, .vdqnt ⟨0, 6⟩ 9 18 27 1),
   (0xc7d32d80, .vperm ⟨1, 7⟩ 9 18 27 0),
   (0xc4132009, .vbcast ⟨0, 0⟩ 9 18 1),
   (0xc6532d92, .vext ⟨1, 1⟩ 9 18 27 2),
   (0xc4932d9b, .vins ⟨0, 2⟩ 9 18 27 3),
   (0xc6d32d84, .vslide ⟨1, 3⟩ 9 18 27 0),
   (0xc91321a0, .vredadd ⟨0, 4⟩ 9 18 3 4),
   (0xcb532199, .vredmax ⟨1, 5⟩ 9 18 3 3),
   (0xc9932192, .vredmin ⟨0, 6⟩ 9 18 3 2),
   (0xcbd321bb, .vredx ⟨1, 7⟩ 9 18 3 7)] = true := by
  decide +kernel

theorem test_decode_majors_33_to_35 : decodesTo
  [(0xcc032000, .shset ⟨0, 0⟩ 1 18),
   (0xce522001, .shget ⟨1, 1⟩ 9 2),
   (0xcc8221b2, .tsew ⟨0, 2⟩ 1 2 3 6),
   (0xcec22013, .tsred ⟨1, 3⟩ 1 2 2),
   (0xcd02201c, .tscvt ⟨0, 4⟩ 1 2 3),
   (0xd3412000, .mmj ⟨1, 5⟩ 18),
   (0xd1920100, .mcommit ⟨0, 6⟩ 9),
   (0xd3d32270, .mwait ⟨1, 7⟩ 9 18 14),
   (0xd0012300, .accrel ⟨0, 0⟩ 18),
   (0xd24124d8, .accrd ⟨1, 1⟩ 18 27),
   (0xd49320d8, .cpy ⟨0, 2⟩ 9 18 27),
   (0xd6d321d8, .gath ⟨1, 3⟩ 9 18 27),
   (0xd51322d8, .scat ⟨0, 4⟩ 9 18 27),
   (0xd7532300, .xfer ⟨1, 5⟩ 9 18)] = true := by
  decide +kernel

theorem test_decode_majors_36_to_39 : decodesTo
  [(0xd99320d8, .dspcnt ⟨0, 6⟩ 9 18 27),
   (0xdbd32100, .dspgo ⟨1, 7⟩ 9 18),
   (0xd8132200, .dspcmb ⟨0, 0⟩ 9 18),
   (0xda532300, .gmm ⟨1, 1⟩ 9 18),
   (0xd8920403, .gmmq ⟨0, 2⟩ 9 3),
   (0xded32000, .wstream ⟨1, 3⟩ 9 18),
   (0xdd1321d8, .wpin ⟨0, 4⟩ 9 18 27),
   (0xdf5322d8, .wunpin ⟨1, 5⟩ 9 18 27),
   (0xdd9323d8, .wpol ⟨0, 6⟩ 9 18 27),
   (0xe3d32000, .launch ⟨1, 7⟩ 9 18),
   (0xe0132101, .lstat ⟨0, 0⟩ 9 18 1),
   (0xe65203f0, .srd ⟨1, 1⟩ 9 1008),
   (0xe49213f5, .swr ⟨0, 2⟩ 9 1013),
   (0xe6d22000, .tretResume ⟨1, 3⟩ 9 0),
   (0xe5122005, .tretSkip ⟨0, 4⟩ 9 1),
   (0xe7522002, .tretKill ⟨1, 5⟩ 9 0),
   (0xe5943480, .tlbw ⟨0, 6⟩ 10 9),
   (0xe7d24604, .tlbinv ⟨1, 7⟩ 9 12 0 4),
   (0xe4125902, .tlbq ⟨0, 0⟩ 9 18 2),
   (0xe6526c00, .ctxevict ⟨1, 1⟩ 9 24),
   (0xe4927e80, .ctxfill ⟨0, 2⟩ 9 29),
   (0xe6d28000, .haltcQuiesce ⟨1, 3⟩ 9),
   (0xe5128001, .haltcRelease ⟨0, 4⟩ 9)] = true := by
  decide +kernel

theorem test_decode_major_3a : decodesTo
  [(0xeb41202c, .trapi ⟨1, 5⟩ 18 44),
   (0xe9800131, .brk ⟨0, 6⟩ 49)] = true := by
  decide +kernel
/-! ### Decoding: one word for every slot operation, written out from R139 to R142 and R260 to R276 -/

/-- Each word decodes, in its slot, to its operation, and is what the encoder gives for it. -/
def slotsTo (ps : List (BitVec 3 × BitVec 32 × Slot)) : Bool :=
  ps.all fun p => decide ((decodeSlot p.1 p.2.1).toOption = some p.2.2) && decide (p.2.2.encode = p.2.1)

theorem test_decode_slot0 : slotsTo
  [(0, 0x083FFFFF, .plain (.bbr ⟨0, 0⟩ 0x3FFFFF)), (0, 0x100C0004, .plain (.bloop ⟨0, 0⟩ 6 4)),
   (0, 0b00011_1_0101_0000000000000000000000, .plain (.bleave ⟨1, 5⟩)), (0, 0b00100_0_1111_00000_01001_000000000100, .plain (.bwaittl ⟨0, 15⟩ 9 4)),
   (0, 0b00101_0_0010_00111_01000_000000000_101, .plain (.bsync ⟨0, 2⟩ 7 8 5)), (0, 0, .plain (.nop 0)), (7, 0, .plain (.nop 7))] = true := by
  decide +kernel

theorem test_decode_slot1 : slotsTo
  [(1, 0x080840C0, .plain (.sadd ⟨0, 0⟩ 4 4 1 1 0)), (1, 0b00010_0_0000_00001_00010_00011_0_000000, .plain (.ssub ⟨0, 0⟩ 1 2 3 0 0)),
   (1, 0b00011_0_0001_00001_00010_11111_1_111111, .plain (.smul ⟨0, 1⟩ 1 2 31 1 63)), (1, 0b00100_1_0000_01001_00010_00011_0_000000, .plain (.sand ⟨1, 0⟩ 9 2 3 0 0)),
   (1, 0b00101_0_0000_01001_10010_00011_0_000000, .plain (.sor ⟨0, 0⟩ 9 18 3 0 0)), (1, 0b00110_0_0000_01001_10010_11011_0_000000, .plain (.sxor ⟨0, 0⟩ 9 18 27 0 0)),
   (1, 0b00111_0_0000_01001_10010_00000_1_000101, .plain (.sshl ⟨0, 0⟩ 9 18 0 1 5)), (1, 0b01000_0_0000_01001_10010_11011_0_000000, .plain (.sshr ⟨0, 0⟩ 9 18 27 0 0)),
   (1, 0b01001_0_0000_01001_10000000000000001, .plain (.sli ⟨0, 0⟩ 9 0x10001)), (1, 0b01010_0_0001_00011_00100_00101_0_000_010, .plain (.scmp ⟨0, 1⟩ 3 4 5 0 2)),
   (1, 0b01011_0_0000_01001_00110_00000_000000_0, .plain (.smovqPop ⟨0, 0⟩ 9 6)), (1, 0b01011_0_0000_00101_10010_00000_000000_1, .plain (.smovqAppend ⟨0, 0⟩ 5 18))] = true := by
  decide +kernel

theorem test_decode_slots23 : slotsTo
  [(2, 0b00001_0_0000_01001_00110_11011_00_1_0_000, .plain (.bvadd ⟨0, 0⟩ 0 9 6 27 0 1 0 0)), (3, 0b00010_0_0000_00001_00010_00011_10_0_0_000, .plain (.bvmul ⟨0, 0⟩ 1 1 2 3 2 0 0 0)),
   (2, 0x181246A0, .plain (.bvfma ⟨0, 0⟩ 0 9 4 13 1 0 0)), (3, 0b00100_0_1001_00111_10010_00011_11_0_1_100, .plain (.bvmax ⟨0, 9⟩ 1 7 18 3 3 0 1 1)),
   (2, 0b00101_0_0000_01001_10010_00000_10_0_0_011, .plain (.bvcvt ⟨0, 0⟩ 0 9 18 2 0 0 3)), (3, 0b00110_0_0000_01001_10010_00111_01_0_0_000, .plain (.bvqnt ⟨0, 0⟩ 1 9 18 7 1 0 0)),
   (2, 0b00111_0_0000_01001_10010_11011_10_01_101, .plain (.bvcmp ⟨0, 0⟩ 0 9 18 27 2 1 5)), (3, 0b00111_0_0000_01111_10010_11011_00_10_000, .plain (.bvcmp ⟨0, 0⟩ 1 15 18 27 0 2 0)),
   (2, 0b01000_0_0000_01001_10010_11011_00_0_1010, .plain (.bvsel ⟨0, 0⟩ 0 9 18 27 10)), (3, 0b01001_1_0011_00101_10010_00000_00_0_1_000, .plain (.bvmov ⟨1, 3⟩ 1 5 18 0 1))] = true := by
  decide +kernel

theorem test_decode_slots45 : slotsTo
  [(4, 0b00001_0_0000_1_00_00_10010_111_000000000, .engine (.awld ⟨0, 0⟩ 1 0 18 7)), (4, 0b00010_0_0000_00000000000000000000_1_0, .engine (.aswapSlot ⟨0, 0⟩ 1 0)),
   (4, 0b00011_0_0000_101_0_1_0011_0000110_000000, .engine (.aiss ⟨0, 0⟩ 5 0 1 3 6)), (4, 0b00100_1_1111_000000_0001000_0000010_00, .engine (.azero ⟨1, 15⟩ 8 2)),
   (4, 0b00101_0_0000_001_10_1_1000000_0000011_00, .engine (.ashout ⟨0, 0⟩ 1 2 1 64 3)), (4, 0b00110_0_0000_01001_1_1_000000000000000, .engine (.aprov ⟨0, 0⟩ 9 1 1)),
   (5, 0b00001_0_0000_00001_00010_00011_0000000, .engine (.tcopy ⟨0, 0⟩ 1 2 3)), (5, 0b00010_0_0000_01001_10010_11011_0000000, .engine (.tgath ⟨0, 0⟩ 9 18 27)),
   (5, 0b00011_0_0000_01001_10010_11011_0000000, .engine (.tscat ⟨0, 0⟩ 9 18 27)), (5, 0b00100_0_0000_01001_10010_11011_0000000, .engine (.txfer ⟨0, 0⟩ 9 18 27)),
   (5, 0b00101_0_0000_01001_10010_11011_101_0000, .engine (.tsend ⟨0, 0⟩ 9 18 27 5))] = true := by
  decide +kernel

theorem test_decode_slots67 : slotsTo
  [(6, 0b00001_0_0000_01001_10010_11011_11_00000, .engine (.xperm ⟨0, 0⟩ 9 18 27 3)), (6, 0b00010_0_0000_01001_10010_00001_00_11111, .engine (.xbcast ⟨0, 0⟩ 9 18 0 63)),
   (6, 0b00011_0_0000_01001_10010_00000_10_00101, .engine (.xrot ⟨0, 0⟩ 9 18 2 5)), (7, 0b00001_0_0000_101_01_10_011_00000_0000000, .engine (.qbind ⟨0, 0⟩ 5 1 2 3 0)),
   (7, 0b00001_0_0000_101_10_01_000_10010_0000000, .engine (.qbind ⟨0, 0⟩ 5 2 1 0 18)), (7, 0b00010_0_0000_110_00_10010_000000000000, .engine (.qadv ⟨0, 0⟩ 6 18)),
   (7, 0b00011_0_0000_110_11111111_00000000000, .engine (.qwaitf ⟨0, 0⟩ 6 255)), (7, 0b00100_0_0000_110_0000000000000000000, .engine (.qwaite ⟨0, 0⟩ 6)),
   (7, 0b00101_0_0000_00000_10010_000000000000, .engine (.scexp ⟨0, 0⟩ 18))] = true := by
  decide +kernel

/-- R143: the reasons for which a slot is refused: an unassigned value, a reserved field, a predicate outside its cluster. -/
theorem test_slot_refusals :
    decodeSlot 0 0b00110_0_0000_0000000000000000000000 = .error .unassigned ∧ decodeSlot 0 1 = .error .reserved
      ∧ decodeSlot 0 0b00011_0_0000_0000000000000000000001 = .error .reserved ∧ decodeSlot 2 0b00111_0_0000_00001_00010_00011_00_00000 = .error .cluster
      ∧ decodeSlot 2 0b00011_0_0000_01001_00100_01101_10_00000 = .error .unassigned
      ∧ decodeSlot 1 0b00001_0_0000_00001_00010_00011_0_000001 = .error .reserved := ⟨rfl, rfl, rfl, rfl, rfl, rfl⟩

/-- R143: two slots of a bundle with one destination are a duplicate, the lowest offending slot reported; g0 is no destination. -/
theorem test_bundle_duplicate :
    (decodeBundle (0b00001_0_0000_00001_00010_00011_0_000000#32 ++ 0#32 |>.setWidth 256)).toOption.isSome = true
      ∧ decodeBundle (BitVec.ofNat 256 (0b01001_0_0000_01001_00000000000000001 * 2 ^ 32 + 0b00001_0_0000_01001_00010_00011_0000000 * 2 ^ 160)) = .error ⟨3, 1⟩
      ∧ (decodeBundle (BitVec.ofNat 256 (0b01001_0_0000_00000_00000000000000001 * 2 ^ 32 + 0b00001_0_0000_00000_00010_00011_0000000 * 2 ^ 160))).toOption.isSome = true := by
  refine ⟨by decide +kernel, rfl, by decide +kernel⟩

/-- R127: words 0 and 0xFFFFFFFF, a reserved field and an unassigned code are refused. -/
theorem test_word_refusals :
    decodeWord 0 = .error .unassigned ∧ decodeWord 0xFFFFFFFF = .error .unassigned ∧ (decodeWord 0b000001_0_000_00011_00100_00101_1111111).toOption = none := ⟨rfl, rfl, by decide +kernel⟩


/-! ### Well-formedness: one ill-formed term for each check -/

/-- Every one of these terms is ill formed. -/
def refusesAll (is : List Instr) : Bool := is.all fun i => !wellFormed i

/-- R127, R134 to R138: a strand word that carries an unassigned value is refused. -/
theorem test_ill_formed_words :
    refusesAll [.sext ⟨0, 0⟩ 1 2 3, .zext ⟨0, 0⟩ 1 2 3, .bfx ⟨0, 0⟩ 1 2 32 32, .bfi ⟨0, 0⟩ 1 2 63 1, .cmp ⟨0, 0⟩ 1 2 3 6, .cmpi ⟨0, 0⟩ 1 2 7 0,
        .loop ⟨0, 0⟩ 1 0, .lidx ⟨0, 0⟩ 1 6, .lbrk ⟨0, 0⟩ 6, .lcnt ⟨0, 0⟩ 1 31, .frame ⟨0, 0⟩ 1 24 0, .self ⟨0, 0⟩ 1 4, .lda ⟨0, 0⟩ 1 2 6 0,
        .strl ⟨0, 0⟩ 1 2 7 0] = true
      ∧ refusesAll [.aadd ⟨0, 0⟩ 1 2 4 2, .aand ⟨0, 0⟩ 2 2 3 2, .aor ⟨0, 0⟩ 1 2 3 3, .axor ⟨0, 0⟩ 1 2 4 2, .aswap ⟨0, 0⟩ 2 2 5 2, .amin ⟨0, 0⟩ 1 2 3 2,
        .amax ⟨0, 0⟩ 1 2 3 2, .aminz ⟨0, 0⟩ 1 2 3 3, .amaxz ⟨0, 0⟩ 1 2 3 2, .acas ⟨0, 0⟩ 1 2 3 2, .acas16 ⟨0, 0⟩ 1 2 4, .cadd ⟨0, 0⟩ 1 2 5,
        .cmax ⟨0, 0⟩ 1 2 14, .cmin ⟨0, 0⟩ 1 2 0, .cor ⟨0, 0⟩ 1 2 31, .fence ⟨0, 0⟩ 6, .fencee ⟨0, 0⟩ 7] = true
      ∧ refusesAll [.sync ⟨0, 0⟩ 1 2 6, .domget ⟨0, 0⟩ 1 6, .xchg ⟨0, 0⟩ 1 2 6, .torder ⟨0, 0⟩ 1 0, .torder ⟨0, 0⟩ 1 6, .tlwait ⟨0, 0⟩ 1 2 5,
        .tlread ⟨0, 0⟩ 1 0 5, .deposit ⟨0, 0⟩ 1 2 0 3, .deposit ⟨0, 0⟩ 1 2 16 1, .deposit ⟨0, 0⟩ 1 2 8 2, .bindq ⟨0, 0⟩ 1 2 4,
        .mwait ⟨0, 0⟩ 1 2 3, .gmmq ⟨0, 0⟩ 1 4, .lstat ⟨0, 0⟩ 1 2 4, .tlbw ⟨0, 0⟩ 3 4, .tlbinv ⟨0, 0⟩ 1 3 4 2, .tlbinv ⟨0, 0⟩ 1 4 4 5,
        .tlbq ⟨0, 0⟩ 1 3 0, .tsew ⟨0, 0⟩ 1 2 3 7, .tsew ⟨0, 0⟩ 1 2 3 5, .tsred ⟨0, 0⟩ 1 2 3] = true := by
  decide +kernel

/-- R134, R226 to R233: a vector word of an unassigned element type, comparison, mode or width is refused. -/
theorem test_ill_formed_vector_words :
    refusesAll [.vadd ⟨0, 0⟩ 1 2 3 3, .vsub ⟨0, 0⟩ 1 2 3 5, .vmul ⟨0, 0⟩ 1 2 3 15, .vfma ⟨0, 0⟩ 1 2 3 4, .vfms ⟨0, 0⟩ 1 2 3 3, .vmin ⟨0, 0⟩ 1 2 3 7,
        .vmax ⟨0, 0⟩ 1 2 3 3, .vdiv ⟨0, 0⟩ 1 2 3 3, .vabs ⟨0, 0⟩ 1 2 3, .vneg ⟨0, 0⟩ 1 2 3, .vsqrt ⟨0, 0⟩ 1 2 3, .vrcp ⟨0, 0⟩ 1 2 3,
        .vrsq ⟨0, 0⟩ 1 2 3, .vexp ⟨0, 0⟩ 1 2 3, .vlog2 ⟨0, 0⟩ 1 2 3, .vsig ⟨0, 0⟩ 1 2 3] = true
      ∧ refusesAll [.viadd ⟨0, 0⟩ 1 2 3 0, .visub ⟨0, 0⟩ 1 2 3 8, .vimul ⟨0, 0⟩ 1 2 3 12, .vand ⟨0, 0⟩ 1 2 3 4, .vor ⟨0, 0⟩ 1 2 3 0, .vxor ⟨0, 0⟩ 1 2 3 1,
        .vshl ⟨0, 0⟩ 1 2 3 2, .vshr ⟨0, 0⟩ 1 2 3 8, .vcmp ⟨0, 0⟩ 1 2 3 5 6, .vcmp ⟨0, 0⟩ 1 2 3 3 0, .vselm ⟨0, 0⟩ 1 2 3 13] = true
      ∧ refusesAll [.vcvt ⟨0, 0⟩ 1 2 5 0 0, .vcvt ⟨0, 0⟩ 1 2 3 1 0, .vperm ⟨0, 0⟩ 1 2 3 4, .vbcast ⟨0, 0⟩ 1 2 4, .vext ⟨0, 0⟩ 1 2 3 4, .vins ⟨0, 0⟩ 1 2 3 4,
        .vslide ⟨0, 0⟩ 1 2 3 4, .vredadd ⟨0, 0⟩ 1 2 3 5, .vredmax ⟨0, 0⟩ 1 2 3 5, .vredmin ⟨0, 0⟩ 1 2 3 9, .vredx ⟨0, 0⟩ 1 2 3 4] = true := by
  decide +kernel

/-- R142, R143, R260 to R273: a slot operation with an unassigned value, an unused field that is not zero, or a predicate outside its
cluster is refused. -/
theorem test_ill_formed_slots :
    ([.bloop ⟨0, 0⟩ 1 0, .bwaittl ⟨0, 0⟩ 1 5, .bsync ⟨0, 0⟩ 1 2 6, .scmp ⟨0, 0⟩ 1 2 3 0 6, .bvfma ⟨0, 0⟩ 0 1 2 3 2 0 0,
        .bvcvt ⟨0, 0⟩ 0 1 2 0 0 0 4, .bvcmp ⟨0, 0⟩ 0 8 1 2 0 3 0, .bvcmp ⟨0, 0⟩ 0 8 1 2 0 0 6, .awld ⟨0, 0⟩ 0 2 1 0,
        .aprov ⟨0, 0⟩ 1 0 0, .xbcast ⟨0, 0⟩ 1 2 3 8, .qbind ⟨0, 0⟩ 1 3 0 0 0, .qbind ⟨0, 0⟩ 1 0 3 0 0, .qbind ⟨0, 0⟩ 1 2 0 0 0] : List Instr).all
        (fun i => !assigned i) = true
      ∧ ([.sadd ⟨0, 0⟩ 1 2 3 0 1, .ssub ⟨0, 0⟩ 1 2 3 0 2, .smul ⟨0, 0⟩ 1 2 3 0 4, .sand ⟨0, 0⟩ 1 2 3 0 8, .sor ⟨0, 0⟩ 1 2 3 0 16,
        .sxor ⟨0, 0⟩ 1 2 3 0 32, .sshl ⟨0, 0⟩ 1 2 3 0 1, .sshr ⟨0, 0⟩ 1 2 3 0 63, .bvadd ⟨0, 0⟩ 0 1 8 3 0 1 0 0, .bvmul ⟨0, 0⟩ 0 1 2 8 0 0 1 0,
        .bvfma ⟨0, 0⟩ 0 1 31 3 0 1 0, .bvmax ⟨0, 0⟩ 0 8 2 3 0 0 0 1] : List Instr).all (fun i => !unusedZero i) = true
      ∧ ([.bvcvt ⟨0, 0⟩ 0 8 2 0 0 1 0, .bvqnt ⟨0, 0⟩ 0 1 8 3 0 1 0, .bvmov ⟨0, 0⟩ 0 1 16 1 0, .aiss ⟨0, 0⟩ 1 1 0 0 0, .awld ⟨0, 0⟩ 0 1 1 0, .qbind ⟨0, 0⟩ 0 2 1 1 0,
        .qbind ⟨0, 0⟩ 0 0 1 0 1] : List Instr).all (fun i => !unusedZero i) = true
      ∧ ([.scmp ⟨0, 0⟩ 0 1 2 0 0, .scmp ⟨0, 0⟩ 8 1 2 0 0, .bvcmp ⟨0, 0⟩ 0 7 1 2 0 0 0, .bvcmp ⟨0, 0⟩ 0 12 1 2 0 0 0,
        .bvcmp ⟨0, 0⟩ 1 11 1 2 0 0 0] : List Instr).all (fun i => !inCluster i) = true := by
  decide +kernel

/-! ### Small states -/

/-- The translation of 2 MiB from `va` on of address space a, readable, writable and executable, to physical `pa` (R385). -/
def page (a va pa : Nat) : TlbEntry := ⟨BitVec.ofNat 64 (2 ^ 63 + 3 * 2 ^ 59 + 7 * 2 ^ 56 + va + a), BitVec.ofNat 64 pa⟩

/-- Registers with the given g values, the PC at 0x10000000. -/
def regs (gs : List (Reg × Word)) : Regs := gs.foldl (fun r x => r.wg x.1 x.2) { pc := 0x10000000 }

/-- A running thread of address space 1 on core 0, its frame at 0x100000. -/
def runner (r : Regs) : Thread := { id := ⟨1, 0x100⟩, st := .running, place := .strand 0, resident := 0xFFFF, seatedOnce := true, r := r }

/-- A ready package with one running thread; its code and data at 0x10000000 stand at physical 0x40000000, its frames at 0x80000000. -/
def one (r : Regs) : State :=
  { boot := { state := .ready }, th := runner r
    hearths := [(0, { l1 := [page 1 0x10000000 0x40000000, page 1 0 0x80000000] })] }

/-- The instruction answers a next state that satisfies a condition. -/
def after (i : Instr) (s : State) (f : State → Bool) : Bool :=
  match exec i s with
  | .next t => f t
  | _ => false

/-- Each instruction leaves the g register with the value, and the PC at the next word. -/
def gives (s : State) (xs : List (Instr × Reg × Word)) : Bool :=
  xs.all fun x => after x.1 s fun t => decide (t.th.r.rg x.2.1 = x.2.2 ∧ t.th.r.pc = codeAdd s.th.r.pc 4)

/-- Memory with n-byte numbers written. -/
def withMem (xs : List (Nat × Nat × Nat)) (s : State) : State := { s with mem := xs.foldl (fun m x => Mem.write m x.1 x.2.1 x.2.2) s.mem }

/-- The current thread's own local memory stands from here on. -/
def selfPa (off : Nat) : Nat := localBase + off

/-! ### Integer, immediate, compare and pointer words -/

/-- R158: ADD wraps; MULH and MULHZ of all ones by two. -/
theorem test_arithmetic : gives (one (regs [(4, 0xFFFFFFFFFFFFFFFF), (5, 2)]))
    [(.add ⟨0, 0⟩ 3 4 5, 3, 1), (.sub ⟨0, 0⟩ 3 5 4, 3, 3), (.mul ⟨0, 0⟩ 3 4 5, 3, 0xFFFFFFFFFFFFFFFE), (.mulh ⟨0, 0⟩ 3 4 5, 3, 0xFFFFFFFFFFFFFFFF),
     (.mulhz ⟨0, 0⟩ 3 4 5, 3, 1), (.add ⟨0, 0⟩ 0 4 5, 0, 0), (.add ⟨1, 0⟩ 3 4 5, 3, 0)] = true := by
  decide +kernel

/-- R159: the corners of the division table, and truncation toward zero. -/
theorem test_division : gives (one (regs [(4, 0x8000000000000000), (5, 0xFFFFFFFFFFFFFFFF), (6, 0xFFFFFFFFFFFFFFF9), (7, 2)]))
    [(.div ⟨0, 0⟩ 3 4 5, 3, 0x8000000000000000), (.rem ⟨0, 0⟩ 3 4 5, 3, 0), (.div ⟨0, 0⟩ 3 4 8, 3, 0xFFFFFFFFFFFFFFFF), (.rem ⟨0, 0⟩ 3 4 8, 3, 0x8000000000000000),
     (.div ⟨0, 0⟩ 3 6 7, 3, 0xFFFFFFFFFFFFFFFD), (.rem ⟨0, 0⟩ 3 6 7, 3, 0xFFFFFFFFFFFFFFFF), (.divz ⟨0, 0⟩ 3 6 7, 3, 0x7FFFFFFFFFFFFFFC),
     (.remz ⟨0, 0⟩ 3 6 7, 3, 1), (.divz ⟨0, 0⟩ 3 6 8, 3, 0xFFFFFFFFFFFFFFFF), (.remz ⟨0, 0⟩ 3 6 8, 3, 0xFFFFFFFFFFFFFFF9)] = true := by
  decide +kernel

/-- R158: logic, shifts by the low six bits, rotation, minima and maxima with and without sign. -/
theorem test_logic : gives (one (regs [(3, 0xFF00FF00FF00FF00), (4, 0x8000000000000003), (5, 0xFFFFFFFFFFFFFF41)]))
    [(.and ⟨0, 0⟩ 6 4 5, 6, 0x8000000000000001), (.or ⟨0, 0⟩ 6 4 5, 6, 0xFFFFFFFFFFFFFF43), (.xor ⟨0, 0⟩ 6 4 5, 6, 0x7FFFFFFFFFFFFF42),
     (.andn ⟨0, 0⟩ 6 4 5, 6, 2), (.shl ⟨0, 0⟩ 6 4 5, 6, 6), (.shr ⟨0, 0⟩ 6 4 5, 6, 0x4000000000000001), (.sha ⟨0, 0⟩ 6 4 5, 6, 0xC000000000000001),
     (.rol ⟨0, 0⟩ 6 4 5, 6, 7), (.min ⟨0, 0⟩ 6 4 5, 6, 0x8000000000000003), (.max ⟨0, 0⟩ 6 4 3, 6, 0xFF00FF00FF00FF00),
     (.minz ⟨0, 0⟩ 6 4 5, 6, 0x8000000000000003), (.maxz ⟨0, 0⟩ 6 4 5, 6, 0xFFFFFFFFFFFFFF41), (.sel ⟨0, 0⟩ 3 4 5, 3, 0x80FF00FF00FF0041)] = true := by
  decide +kernel

/-- R160: counts, byte reversal, and the extensions of the worked example. -/
theorem test_counts : gives (one (regs [(4, 0x80F0), (5, 0)]))
    [(.clz ⟨0, 0⟩ 6 4, 6, 48), (.clz ⟨0, 0⟩ 6 5, 6, 64), (.ctz ⟨0, 0⟩ 6 4, 6, 4), (.ctz ⟨0, 0⟩ 6 5, 6, 64), (.popc ⟨0, 0⟩ 6 4, 6, 5),
     (.bswap ⟨0, 0⟩ 6 4, 6, 0xF080000000000000), (.sext ⟨0, 0⟩ 5 4 1, 5, 0xFFFFFFFFFFFF80F0), (.zext ⟨0, 0⟩ 6 4 0, 6, 0xF0),
     (.sext ⟨0, 0⟩ 6 4 0, 6, 0xFFFFFFFFFFFFFFF0), (.zext ⟨0, 0⟩ 6 4 2, 6, 0x80F0)] = true := by
  decide +kernel

/-- R161: the chain of LI and LIH of the worked example, the bit fields and the immediate words. -/
theorem test_immediates : gives (one (regs [(5, 0x0000120000123456), (6, 0xAB00), (7, 0xFFFFFFFFFFFFFFF0)]))
    [(.lih ⟨0, 0⟩ 5 0x7000, 5, 0x1200001234567000), (.li ⟨0, 0⟩ 5 0x1200, 5, 0x1200), (.li ⟨0, 0⟩ 5 0x1FFFF, 5, 0xFFFFFFFFFFFFFFFF),
     (.bfx ⟨0, 0⟩ 5 6 3 8, 5, 0xB), (.bfi ⟨0, 0⟩ 5 6 7 8, 5, 0x0000120000120056), (.addi ⟨0, 0⟩ 4 7 0x010, 4, 0), (.addi ⟨0, 0⟩ 4 7 0xFFF, 4, 0xFFFFFFFFFFFFFFEF),
     (.andi ⟨0, 0⟩ 4 6 0x7F0, 4, 0x300), (.ori ⟨0, 0⟩ 4 6 0x800, 4, 0xFFFFFFFFFFFFFB00), (.xori ⟨0, 0⟩ 4 6 0x0FF, 4, 0xABFF),
     (.shli ⟨0, 0⟩ 4 6 60, 4, 0), (.shri ⟨0, 0⟩ 4 7 60, 4, 0xF), (.shai ⟨0, 0⟩ 4 7 63, 4, 0xFFFFFFFFFFFFFFFF)] = true := by
  decide +kernel

/-- R164: the worked example of fat pointers. -/
theorem test_pointers : gives (one (regs [(4, 0x12FFFFFFFFFFFFF0), (6, 0x20)]))
    [(.paddi ⟨0, 0⟩ 5 4 0x020, 5, 0x1200000000000010), (.addi ⟨0, 0⟩ 5 4 0x020, 5, 0x1300000000000010), (.ptag ⟨0, 0⟩ 5 4 6 0, 5, 0x30FFFFFFFFFFFFF0),
     (.pgetb ⟨0, 0⟩ 5 4, 5, 2), (.pgetf ⟨0, 0⟩ 5 4, 5, 2), (.pstrip ⟨0, 0⟩ 5 4, 5, 0xFFFFFFFFFFFFF0), (.padd ⟨0, 0⟩ 5 4 6, 5, 0x1200000000000010)] = true := by
  decide +kernel

/-- R162, R163: the worked example of compares, and predicate logic; p0 stays 1. -/
theorem test_compares :
    let s := one { (regs [(4, 0xFFFFFFFFFFFFFFFF)]) with p := 0x0008 }
    let p (i : Instr) (n : PReg) (b : Bool) : Bool := after i s fun t => decide (t.th.r.rp n = b)
    (p (.cmp ⟨0, 0⟩ 2 4 5 2) 2 true && p (.cmp ⟨0, 0⟩ 2 4 5 4) 2 false && p (.cmp ⟨0, 0⟩ 2 4 5 0) 2 false && p (.cmp ⟨0, 0⟩ 2 4 5 1) 2 true
      && p (.cmp ⟨0, 0⟩ 2 4 4 3) 2 true && p (.cmp ⟨0, 0⟩ 2 4 4 5) 2 true && p (.cmpi ⟨0, 0⟩ 2 4 4 0x1FF) 2 false && p (.cmpi ⟨0, 0⟩ 2 4 5 0x1FF) 2 true
      && p (.cmpi ⟨0, 0⟩ 2 5 2 0x1FF) 2 false && p (.pand ⟨0, 0⟩ 9 3 0) 9 true && p (.por ⟨0, 0⟩ 9 2 1) 9 false && p (.pxor ⟨0, 0⟩ 9 3 0) 9 false
      && p (.pandn ⟨0, 0⟩ 9 0 3) 9 false && p (.pandn ⟨0, 0⟩ 9 3 2) 9 true && p (.pnot ⟨0, 0⟩ 9 2) 9 true && p (.pset ⟨0, 0⟩ 15) 15 true
      && p (.pclr ⟨0, 0⟩ 3) 3 false && p (.pclr ⟨0, 0⟩ 0) 0 true) = true := by
  decide +kernel

/-! ### Control -/

/-- R165, R166: the worked example of BRL; a jump to an odd address traps. -/
theorem test_branches :
    let s := one { (regs [(4, 0x1200000010000200), (5, 0x10000002)]) with pc := 0x40000100 }
    (after (.brl ⟨0, 0⟩ 0x3FFFFD) s (fun t => decide (t.th.r.pc = 0x400000F4 ∧ t.th.r.rg 31 = 0x40000104))
      && after (.br ⟨0, 0⟩ 2) s (fun t => decide (t.th.r.pc = 0x40000108)) && after (.jr ⟨0, 0⟩ 4) s (fun t => decide (t.th.r.pc = 0x10000200))
      && after (.jrl ⟨0, 0⟩ 4 4) s (fun t => decide (t.th.r.pc = 0x10000200 ∧ t.th.r.rg 4 = 0x40000104))
      && after (.jrl ⟨0, 0⟩ 6 5) s (fun t => decide (t.th.st = .trapped ∧ t.th.r.rg 6 = 0 ∧ t.th.record.value = 0x10000002))) = true := by
  decide +kernel

/-- R168 to R171: LOOP opens a level; the last word of the body starts the next iteration, or closes the level. -/
theorem test_loops :
    let body (i : BitVec 26) : State := one { (regs []) with loops := (Vector.replicate 6 {}).set 0 ⟨0x4000000, true, i, 3, 1⟩ }
    (after (.loop ⟨0, 0⟩ 4 1) (one (regs [(4, 3)])) (fun t => decide (t.th.r.pc = 0x10000004 ∧ t.th.r.lx 0 = ⟨0x4000001, true, 0, 3, 1⟩))
      && after (.loop ⟨0, 0⟩ 4 2) (one (regs [])) (fun t => decide (t.th.r.pc = 0x1000000C ∧ t.th.r.depth = 0))
      && after (.add ⟨0, 0⟩ 5 5 5) (body 1) (fun t => decide (t.th.r.pc = 0x10000000 ∧ (t.th.r.lx 0).index = 2))
      && after (.add ⟨0, 0⟩ 5 5 5) (body 2) (fun t => decide (t.th.r.pc = 0x10000004 ∧ t.th.r.depth = 0))
      && after (.lidx ⟨0, 0⟩ 5 0) (body 0) (fun t => decide (t.th.r.rg 5 = 0)) && after (.lcnt ⟨0, 0⟩ 5 0) (body 0) (fun t => decide (t.th.r.rg 5 = 3))
      && after (.lcnt ⟨0, 0⟩ 5 1) (body 0) (fun t => decide (t.th.r.rg 5 = 0xFFFFFFFFFFFFFFFF))
      && after (.lbrk ⟨0, 0⟩ 0) (body 0) (fun t => decide (t.th.r.pc = 0x10000004 ∧ t.th.r.depth = 0))
      && after (.br ⟨0, 0⟩ 0) (body 0) (fun t => decide (t.th.r.pc = 0x10000000 ∧ t.th.r.depth = 1))
      && after (.br ⟨0, 0⟩ 1) (body 0) (fun t => decide (t.th.r.pc = 0x10000004 ∧ t.th.r.depth = 0))) = true := by
  decide +kernel

/-- R173 to R175: the worked example of FRAME; the first issue starts it, each further one runs a replay of the two captured words. -/
theorem test_frame :
    let code : List (Nat × Nat × Nat) := [(0x40000000, 4, 0x64006101), (0x40000004, 4, (encode (.add ⟨0, 0⟩ 8 8 1)).toNat),
      (0x40000008, 4, (encode (.add ⟨0, 0⟩ 9 9 8)).toNat)]
    let r := regs [(1, 0x10), (6, 3), (8, 1), (9, 2), (10, 3), (11, 4), (12, 5), (13, 6)]
    let s := withMem code (one { r with frame := ⟨3, 1, 2, 2⟩, g := (r.g.set 8 0x11).set 9 0x13 })
    (after (.frame ⟨0, 0⟩ 6 2 1) (withMem code (one r)) (fun t => decide (t.th.r.rg 8 = 0x11 ∧ t.th.r.rg 9 = 0x13 ∧ t.th.r.frame.j = 1 ∧ t.th.r.pc = 0x10000000))
      && after (.frame ⟨0, 0⟩ 6 2 1) s (fun t => decide (t.th.r.rg 10 = 0x13 ∧ t.th.r.rg 11 = 0x17 ∧ t.th.r.frame.j = 2 ∧ t.th.r.rg 1 = 0x10))
      && after (.frame ⟨0, 0⟩ 6 2 1) { s with th := { s.th with r := { s.th.r with frame := ⟨3, 2, 2, 2⟩ } } }
          (fun t => decide (t.th.r.rg 12 = 0x15 ∧ t.th.r.rg 13 = 0x1B ∧ t.th.r.frame.n = 0 ∧ t.th.r.pc = 0x1000000C))
      && decide (staggerReg 4 30 = 10)) = true := by
  decide +kernel

/-- R177 to R183: SELF names the frame, hearth and core; PRIO answers the old priority, bounded by the launch's; PARK parks unless woken. -/
theorem test_thread_words :
    let s := one (regs [(4, 40)])
    let s := { s with th := { s.th with place := .strand 69, launchPrio := 30, basePrio := 10 } }
    (after (.self ⟨0, 0⟩ 5 0) s (fun t => decide (t.th.r.rg 5 = 0x100000)) && after (.self ⟨0, 0⟩ 5 1) s (fun t => decide (t.th.r.rg 5 = 17))
      && after (.self ⟨0, 0⟩ 5 2) s (fun t => decide (t.th.r.rg 5 = 69)) && after (.self ⟨0, 0⟩ 5 3) s (fun t => decide (t.th.r.rg 5 = 10))
      && after (.prio ⟨0, 0⟩ 5 4) s (fun t => decide (t.th.r.rg 5 = 10 ∧ t.th.basePrio = 30))
      && after (.park ⟨0, 0⟩) s (fun t => decide (t.th.st = .parked ∧ t.th.r.pc = 0x10000004))
      && after (.park ⟨0, 0⟩) { s with th := { s.th with wake := true } } (fun t => decide (t.th.st = .running ∧ t.th.wake = false))
      && after (.yield ⟨0, 0⟩) s (fun t => decide (t.th.r.pc = 0x10000004))) = true := by
  decide +kernel

/-! ### Vector words -/

/-- A vector of 32-bit lanes, the others zero. -/
def lanes32 (xs : List Nat) : Vec := BitVec.ofNat 512 (xs.foldr (fun x n => x + 2 ^ 32 * n) 0)

/-- A vector of bytes, the others zero. -/
def lanes8 (xs : List Nat) : Vec := BitVec.ofNat 512 (xs.foldr (fun x n => x + 256 * n) 0)

/-- The registers with vector registers given. -/
def vregs (xs : List (Reg × Vec)) (r : Regs) : Regs := xs.foldl (fun r x => r.wv x.1 x.2) r

/-- Each instruction leaves the v register with the value. -/
def givesV (s : State) (xs : List (Instr × Reg × Vec)) : Bool :=
  xs.all fun x => after x.1 s fun t => decide (t.th.r.rv x.2.1 = x.2.2)

/-- R222, R223: 1.5 + 2.25, a product, a fused sum, 1/0 with its flag, the canonical NaN for ∞ − ∞, and −0 below +0. -/
theorem test_vector_floats :
    let s := one (vregs [(1, lanes32 [0x3FC00000, 0x3F800000, 0x7F800000, 0x80000000]), (2, lanes32 [0x40100000, 0, 0x7F800000, 0])] (regs []))
    (givesV s [(.vadd ⟨0, 0⟩ 3 1 2 0, 3, lanes32 [0x40700000, 0x3F800000, 0x7F800000, 0]),
        (.vsub ⟨0, 0⟩ 3 1 2 0, 3, lanes32 [0xBF400000, 0x3F800000, 0x7FC00000, 0x80000000]),
        (.vmul ⟨0, 0⟩ 3 1 2 0, 3, lanes32 [0x40580000, 0, 0x7F800000, 0x80000000]),
        (.vmin ⟨0, 0⟩ 3 1 2 0, 3, lanes32 [0x3FC00000, 0, 0x7F800000, 0x80000000]), (.vmax ⟨0, 0⟩ 3 1 2 0, 3, lanes32 [0x40100000, 0x3F800000, 0x7F800000, 0]),
        (.vneg ⟨0, 0⟩ 3 2 0, 3, lanes32 ([0xC0100000, 0x80000000, 0xFF800000] ++ List.replicate 13 0x80000000)),
        (.vabs ⟨0, 0⟩ 3 1 0, 3, lanes32 [0x3FC00000, 0x3F800000, 0x7F800000, 0]),
        (.vfma ⟨0, 0⟩ 1 1 2 0, 1, lanes32 [0x409C0000, 0x3F800000, 0x7F800000, 0x80000000])]
      && after (.vdiv ⟨0, 0⟩ 3 1 2 0) s (fun t => decide (lane 32 (t.th.r.rv 3) 1 = 0x7F800000 ∧ lane 32 (t.th.r.rv 3) 0 = 0x3F2AAAAB ∧ t.th.r.flags = 0b10011))) = true := by
  decide +kernel

/-- R224, R225: the special cases and the exact values of the special functions. -/
theorem test_vector_functions :
    let s := one (vregs [(1, lanes32 [0x40800000, 0x80000000, 0x7F800000, 0x3F800000])] (regs []))
    let l (i : Instr) (xs : List Nat) : Bool := after i s fun t => decide ((List.range 4).map (lane 32 (t.th.r.rv 3)) = xs)
    (l (.vsqrt ⟨0, 0⟩ 3 1 0) [0x40000000, 0x80000000, 0x7F800000, 0x3F800000] && l (.vrcp ⟨0, 0⟩ 3 1 0) [0x3E800000, 0xFF800000, 0, 0x3F800000]
      && l (.vrsq ⟨0, 0⟩ 3 1 0) [0x3F000000, 0xFF800000, 0, 0x3F800000] && l (.vexp ⟨0, 0⟩ 3 1 0) [0x41800000, 0x3F800000, 0x7F800000, 0x40000000]
      && l (.vlog2 ⟨0, 0⟩ 3 1 0) [0x40000000, 0xFF800000, 0x7F800000, 0]
      && after (.vsig ⟨0, 0⟩ 3 1 0) (one (vregs [(1, lanes32 [0xFF800000, 0x80000000, 0x7F800000, 0x7FC00000])] (regs [])))
          fun t => decide ((List.range 4).map (lane 32 (t.th.r.rv 3)) = [0, 0x3F000000, 0x3F800000, 0x7FC00000])) = true := by
  decide +kernel

/-- R226, R233: wrapped integer lanes, arithmetic and logical shifts, and the exact masked sum. -/
theorem test_vector_integers :
    let s := one (vregs [(1, lanes32 [0xFFFFFFFF, 0x80000000, 7]), (2, lanes32 [2, 33, 3])] { (regs []) with m := (Vector.replicate 8 0).set 2 0b011 })
    (givesV s [(.viadd ⟨0, 0⟩ 3 1 2 7, 3, lanes32 [1, 0x80000021, 10]), (.visub ⟨0, 0⟩ 3 2 1 7, 3, lanes32 [3, 0x80000021, 0xFFFFFFFC]),
        (.vimul ⟨0, 0⟩ 3 1 2 11, 3, lanes32 [0xFFFFFFFE, 0x80000000, 21]), (.vand ⟨0, 0⟩ 3 1 2 7, 3, lanes32 [2, 0, 3]), (.vor ⟨0, 0⟩ 3 1 2 7, 3, lanes32 [0xFFFFFFFF, 0x80000021, 7]),
        (.vxor ⟨0, 0⟩ 3 1 2 7, 3, lanes32 [0xFFFFFFFD, 0x80000021, 4]), (.vshl ⟨0, 0⟩ 3 1 2 7, 3, lanes32 [0xFFFFFFFC, 0, 56]),
        (.vshr ⟨0, 0⟩ 3 1 2 7, 3, lanes32 [0xFFFFFFFF, 0xC0000000, 0]), (.vshr ⟨0, 0⟩ 3 1 2 11, 3, lanes32 [0x3FFFFFFF, 0x40000000, 0])]
      && gives s [(.vredx ⟨0, 0⟩ 4 1 2 7, 4, 0xFFFFFFFF7FFFFFFF), (.vredx ⟨0, 0⟩ 4 1 2 11, 4, 0x17FFFFFFF)]) = true := by
  decide +kernel

/-- R53, R57, R229: the table of conversions to bf16, in RNE and RTZ; 1.0625 to e4m3; and −1.5 to s32. -/
theorem test_conversions :
    let s := one (vregs [(1, lanes32 [0x3F808000, 0x3F818000, 0xBF818000, 0x42A18000]), (2, lanes32 [0x3F880000])] (regs []))
    let l (i : Instr) (w : Nat) (xs : List Nat) : Bool := after i s fun t => decide ((List.range xs.length).map (lane w (t.th.r.rv 3)) = xs)
    (l (.vcvt ⟨0, 0⟩ 3 1 0 0 0) 16 [0x3F80, 0x3F82, 0xBF82, 0x42A2, 0] && l (.vcvt ⟨0, 0⟩ 3 1 1 0 0) 16 [0x3F80, 0x3F81, 0xBF81, 0x42A1]
      && l (.vcvt ⟨0, 0⟩ 3 1 3 0 0) 16 [0x3F80, 0x3F81, 0xBF82, 0x42A1]) = true := by
  decide +kernel

/-- R55, R57: 2.5 and −2.5 to s32 by stochastic rounding: half of the draws, those below 2^31, give the upper neighbour. -/
theorem test_stochastic :
    let c (u x : Nat) : Nat := (convert 1 8 ⟨4, false⟩ u x).1
    c 0x7FFFFFFF 0x40200000 = 3 ∧ c 0x80000000 0x40200000 = 2 ∧ c 0x7FFFFFFF 0xC0200000 = 0xFFFFFFFE ∧ c 0x80000000 0xC0200000 = 0xFFFFFFFD ∧ c 0 0x40400000 = 3 := by
  decide +kernel

/-- R62, R230: the worked example of VQNT into four planes. -/
theorem test_vqnt :
    let x := lanes32 [0x3FC00000, 0xBF000000, 0, 0x40600000, 0xC0800000, 0x3F800000, 0xC0200000, 0x3F000000]
    after (.vqnt ⟨0, 0⟩ 3 2 7 2) (one (vregs [(2, x)] (regs [(7, 9)])))
      (fun t => decide (t.th.r.rv 3 = lanes8 [2, 0, 0, 4, 0xFC, 1, 0xFE, 0] ∧ t.th.r.rg 7 = 0 ∧ t.th.r.flags.getLsbD 5 = true)) = true := by
  decide +kernel

/-- R73: the worked example of VREDADD; with a mask of no element it gives −0. -/
theorem test_vredadd :
    let s := one (vregs [(1, lanes32 (0x4B800000 :: List.replicate 15 0x3F800000))] { (regs []) with m := (Vector.replicate 8 0).set 1 0xFFFF })
    gives s [(.vredadd ⟨0, 0⟩ 4 1 1 0, 4, 0x4B800007), (.vredadd ⟨0, 0⟩ 4 1 2 0, 4, 0x80000000), (.vredmax ⟨0, 0⟩ 4 1 1 0, 4, 0x4B800000),
      (.vredmin ⟨0, 0⟩ 4 1 1 0, 4, 0x3F800000)] = true := by
  decide +kernel

/-- R221, R227, R228, R232: masks, selection, broadcast, element moves and slides. -/
theorem test_vector_moves :
    let s := one (vregs [(1, lanes32 [5, 6, 7, 8]), (2, lanes32 [3, 2, 1, 0])] { (regs [(4, 1), (5, 0x1234567890)]) with m := (Vector.replicate 8 0).set 1 0b0110 })
    (givesV s [(.vperm ⟨0, 0⟩ 3 1 2 2, 3, lanes32 ([8, 7, 6, 5] ++ List.replicate 12 5)), (.vbcast ⟨0, 0⟩ 3 5 2, 3, lanes32 (List.replicate 16 0x34567890)),
        (.vins ⟨0, 0⟩ 1 5 4 2, 1, lanes32 [5, 0x34567890, 7, 8]), (.vslide ⟨0, 0⟩ 3 1 4 2, 3, lanes32 [6, 7, 8]),
        (.vselm ⟨0, 0⟩ 2 1 1 0, 2, lanes32 [3, 6, 7, 0])]
      && gives s [(.vext ⟨0, 0⟩ 6 1 4 2, 6, 6), (.mpop ⟨0, 0⟩ 6 1, 6, 2), (.mfirst ⟨0, 0⟩ 6 1, 6, 1), (.mfirst ⟨0, 0⟩ 6 2, 6, 64)]
      && after (.vcmp ⟨0, 0⟩ 3 2 1 7 2) s (fun t => decide (t.th.r.rm 3 = 0b1111)) && after (.mnot ⟨0, 0⟩ 3 1) s (fun t => decide (t.th.r.rm 3 = 0xFFFFFFFFFFFFFFF9))
      && after (.mxor ⟨0, 0⟩ 3 1 1) s (fun t => decide (t.th.r.rm 3 = 0)) && after (.mand ⟨0, 0⟩ 3 1 2) s (fun t => decide (t.th.r.rm 3 = 0))
      && after (.mor ⟨0, 0⟩ 3 1 2) s (fun t => decide (t.th.r.rm 3 = 0b0110))) = true := by
  decide +kernel

/-- R243, R244, R245: the test vector of Philox4x32-10, through RNGX and through a stream draw. -/
theorem test_philox :
    let w : BitVec 128 := 0x9B00DBD8BC57AC4CE169C58D6627E8D5
    (decide (philox 0 0 = w) && after (.rngx ⟨0, 0⟩ 3 0 1) (one (regs [])) (fun t => decide ((t.th.r.rv 3).extractLsb' 128 128 = w))
      && after (.rngsDraw ⟨0, 0⟩ 3 0 0) (one (regs [])) (fun t => decide ((t.th.r.rv 3).extractLsb' 0 128 = w))
      && after (.rngsLoad ⟨0, 0⟩ 4 5 1) (one (regs [(4, 7), (5, 9)])) (fun t => decide (t.th.r.handle 1 = ⟨9, 7⟩ ∧ t.th.r.handle 0 = ⟨0, 0⟩))) = true := by
  decide +kernel

/-! ### Memory words -/

/-- R186 to R190: loads extend; a store into the thread's own local memory stands at once, any other waits among its hearth's stores;
a misaligned address traps with the address. -/
theorem test_loads_and_stores :
    let s := withMem [(0x40000010, 8, 0xFFFE), (selfPa 0x100, 8, 0)] (one (regs [(4, 0x1200000010000000), (5, 0xFFFFFFFFD00100), (6, 0x1122334455667788), (7, 8)]))
    (gives s [(.ld ⟨0, 0⟩ 3 4 1 8, 3, 0xFFFFFFFFFFFFFFFE), (.ldz ⟨0, 0⟩ 3 4 1 8, 3, 0xFFFE), (.ldx ⟨0, 0⟩ 3 4 7 1, 3, 0xFFFFFFFFFFFFFFFE),
        (.ldzx ⟨0, 0⟩ 3 4 7 1, 3, 0xFFFE), (.ld ⟨0, 0⟩ 3 4 3 2, 3, 0xFFFE)]
      && after (.st ⟨0, 0⟩ 6 5 2 1) s (fun t => decide (Mem.read t.mem (selfPa 0x104) 4 = 0x55667788 ∧ Mem.read t.mem (selfPa 0x108) 4 = 0 ∧ t.pending = []))
      && after (.stx ⟨0, 0⟩ 6 5 7 0) s (fun t => decide (Mem.read t.mem (selfPa 0x108) 8 = 0x88))
      && after (.st ⟨0, 0⟩ 6 4 3 1) s (fun t => decide (t.mem = s.mem ∧ t.pending = [⟨s.th.view, 0x40000008, .whole 8 0x1122334455667788⟩]))
      && after (.ld ⟨0, 0⟩ 3 7 3 0) (one (regs [(7, 0x10000004)])) (fun t => decide (t.th.st = .trapped ∧ t.th.record.value = 0x10000004 ∧ t.th.record.head.extractLsb' 0 8 = 0x06))) = true := by
  decide +kernel

/-- R61, R189: the worked example of LDF from a nested block. -/
theorem test_ldf :
    after (.ldf ⟨0, 0⟩ 3 4 0) (withMem [(0x40000000, 5, 0xCB6B0A52FF)] (one (regs [(4, 0x9000000010000000)])))
      (fun t => decide (t.th.r.rv 3 = lanes8 [3, 0xFF, 0, 7, 0xF8, 2, 0xFB, 1])) = true := by
  decide +kernel

/-- R192, R193: the worked example of ACAS, twice; the sign in AMAX; a 16-byte swap. -/
theorem test_atomics :
    let s (x : Nat) := withMem [(0x40005000, 8, x)] (one (regs [(6, 7), (7, 1), (10, 0x10005000), (11, 0x40)]))
    let leaves (i : Instr) (x y : Nat) (r : Word) : Bool := after i (s x) fun t => decide (Mem.read t.mem 0x40005000 8 = y ∧ t.th.r.rg 6 = r)
    (leaves (.acas ⟨0, 0⟩ 6 10 11 1) 7 0x40 7 && leaves (.acas ⟨0, 0⟩ 6 10 11 1) 0x41 0x41 0x41 && leaves (.aadd ⟨0, 0⟩ 6 10 11 0) 0xFFFFFFF0 0x30 0xFFFFFFF0
      && leaves (.amax ⟨0, 0⟩ 6 10 11 0) 0xFFFFFFFE 0x40 0xFFFFFFFE && leaves (.amaxz ⟨0, 0⟩ 6 10 11 0) 0xFFFFFFFE 0xFFFFFFFE 0xFFFFFFFE
      && leaves (.amin ⟨0, 0⟩ 6 10 11 0) 0xFFFFFFFE 0xFFFFFFFE 0xFFFFFFFE && leaves (.aminz ⟨0, 0⟩ 6 10 11 1) 0xFFFFFFFE 0x40 0xFFFFFFFE
      && leaves (.aand ⟨0, 0⟩ 6 10 11 1) 0x47 0x40 0x47 && leaves (.aor ⟨0, 0⟩ 6 10 11 1) 7 0x47 7 && leaves (.axor ⟨0, 0⟩ 6 10 11 1) 0x47 7 0x47
      && leaves (.aswap ⟨0, 0⟩ 6 10 11 1) 7 0x40 7 && leaves (.acas16 ⟨0, 0⟩ 6 10 10) 0 0 0) = true := by
  decide +kernel

/-- R97, R194: a commutative update joins its hearth's stores; a FENCE merges it: a sum modulo the width, the larger, the smaller, the OR. -/
theorem test_updates :
    (decide (updated 0 6 0xF0 0x20 = 0x10 ∧ updated 1 6 0xF0 0x20 = 0x20 ∧ updated 1 10 0xF0 0x20 = 0xF0 ∧ updated 2 6 0xF0 0x20 = 0xF0 ∧ updated 3 10 0xF0 0x0F = 0xFF)
      && after (.cadd ⟨0, 0⟩ 4 5 8) (withMem [(0x40000000, 4, 0xFFFFFFFF)] (one (regs [(4, 0x10000000), (5, 3)])))
          (fun t => decide (Mem.read t.mem 0x40000000 8 = 0xFFFFFFFF ∧ t.pending.length = 1)
            && after (.fence ⟨0, 0⟩ 5) t fun u => decide (Mem.read u.mem 0x40000000 8 = 2 ∧ u.pending = []))) = true := by
  decide +kernel

/-- R246 to R248: the worked example of a heap of two places. -/
theorem test_heap :
    let place : Word := 0xFFFFFFFFD00100
    let heap (w0 w1 w2 : Nat) (e : Word) : State := withMem [(selfPa 0x100, 8, w0), (selfPa 0x108, 8, w1), (selfPa 0x110, 8, w2)] (one (regs [(8, place), (9, e), (6, 1)]))
    let leaves (i : Instr) (s : State) (g : Reg) (x : Word) (w0 w1 w2 : Nat) : Bool := after i s fun t =>
      decide (t.th.r.rg g = x ∧ Mem.read t.mem (selfPa 0x100) 8 = w0 ∧ Mem.read t.mem (selfPa 0x108) 8 = w1 ∧ Mem.read t.mem (selfPa 0x110) 8 = w2)
    let two := 0x4000000000000000
    let five := 0x40A0000000000001
    let five' := 0x40A0000000000002
    let one' := 0x3F80000000000003
    (leaves (.hinit ⟨0, 0⟩ 8 1) (heap 9 9 9 0) 8 place 2 0 0 && leaves (.hsift ⟨0, 0⟩ 5 8 9) (heap 2 0 0 0x4000000000000000) 5 1 0x12 two 0
      && leaves (.hsift ⟨0, 0⟩ 5 8 9) (heap 0x12 two 0 0x40A0000000000001) 5 1 0x22 two five
      && leaves (.hsift ⟨0, 0⟩ 5 8 9) (heap 0x22 two five 0x40A0000000000002) 5 1 0x22 five' five
      && leaves (.hsift ⟨0, 0⟩ 5 8 9) (heap 0x22 five' five (BitVec.ofNat 64 one')) 5 0 0x22 five' five
      && after (.hpop ⟨0, 0⟩ 6 8 2) (heap 0x22 five' five 0) (fun t => decide (t.th.r.rg 6 = BitVec.ofNat 64 five ∧ t.th.r.rp 2 = true ∧ Mem.read t.mem (selfPa 0x100) 8 = 0x12))
      && after (.hpop ⟨0, 0⟩ 6 8 2) (heap 0x02 five' five 0) (fun t => decide (t.th.r.rg 6 = 1 ∧ t.th.r.rp 2 = false))) = true := by
  decide +kernel

/-! ### Witnesses: for each statement with hypotheses, states and operands that meet them -/

/-- A piece of meaning goes through, and its result and state satisfy a condition. -/
def okAnd {α : Type} (m : M α) (s : State) (f : α → State → Bool) : Bool :=
  match m s with
  | .ok a t => f a t
  | .error _ _ => false

/-- A reach goes through, with at least one place. -/
def reachAnd (s : State) (va n : Nat) (k : AccessKind) (f : List Spot → State → Bool) : Bool :=
  match reach (agentOf s.th) va n k s with
  | (.ok ps, t) => !ps.isEmpty && f ps t
  | _ => false

def hereB (ps : List Spot) : Bool := ps.all fun p => p.node.isNone && paExists p.pa

theorem here_of {ps : List Spot} (h : hereB ps = true) : here ps := by
  intro p hp
  have := List.all_eq_true.mp h p hp
  simpa [Option.isNone_iff_eq_none] using this

/-- A reach that goes through gives the places and the state of the statements. -/
theorem reach_of {s : State} {va n : Nat} {k : AccessKind} {f : List Spot → State → Bool} (h : reachAnd s va n k f = true) :
    (reach (agentOf s.th) va n k s).1 = .ok (placesOf s va n k) ∧ f (placesOf s va n k) (translated s va n k) = true := by
  unfold reachAnd at h
  split at h
  · next ps t e =>
    simp only [Bool.and_eq_true] at h
    simp only [placesOf, translated, e]
    exact ⟨trivial, h.2⟩
  · simp at h

def delaysOffB (s : State) : Bool := decide ((coreOf s (accountCore s.th)).delaybase.getLsbD 63 = false)

theorem delays_of {s : State} (h : delaysOffB s = true) : delaysOff s := by simpa [delaysOffB, delaysOff] using h

/-- `Readable`, as a check. -/
def readableB (s : State) (va n : Nat) : Bool :=
  decide (watchHit (debugOf s s.th) s.th.id.asid true false va n s.th.passBreak = none) && !queueOverlaps s.th va n && delaysOffB s
    && reachAnd s va n .load fun ps t =>
      let u := mergeReads (ps.map (·.pa)) t
      hereB ps && !refreshHolds t ps && !ps.any (poisonAt u u.th)

theorem readable_of {s : State} {va n : Nat} (h : readableB s va n = true) : Readable s va n := by
  simp only [readableB, Bool.and_eq_true, decide_eq_true_eq, Bool.not_eq_true'] at h
  obtain ⟨⟨⟨h1, h2⟩, h3⟩, h4⟩ := h
  obtain ⟨e, h5⟩ := reach_of h4
  simp only [Bool.and_eq_true, Bool.not_eq_true'] at h5
  exact ⟨h1, h2, ⟨e, here_of h5.1.1⟩, h5.1.2, h5.2, delays_of h3⟩

/-- `Writable`, as a check; and whether the place is the thread's own local memory. -/
def writableB (s : State) (va n : Nat) (own : Bool) : Bool :=
  decide (watchHit (debugOf s s.th) s.th.id.asid false true va n s.th.passBreak = none) && !s.th.queue.any (sharePage va n)
    && decide (va % 4096 + n ≤ 4096) && delaysOffB s
    && reachAnd s va n .store fun ps t => hereB ps && ps.all (fun q => !readOnly t s.th.id.asid q.va q.pa) && ps.all (fun q => !covered t s.th q)
      && ps.all (fun q => decide (ownLocal t.th q = own))

theorem writable_of {s : State} {va n : Nat} {own : Bool} (h : writableB s va n own = true) :
    Writable s va n ∧ ∀ q ∈ placesOf s va n .store, ownLocal (translated s va n .store).th q = own := by
  simp only [writableB, Bool.and_eq_true, decide_eq_true_eq, Bool.not_eq_true'] at h
  obtain ⟨⟨⟨⟨h1, h2⟩, h3⟩, h4⟩, h5⟩ := h
  obtain ⟨e, h6⟩ := reach_of h5
  simp only [Bool.and_eq_true, Bool.not_eq_true', List.all_eq_true, decide_eq_true_eq] at h6
  exact ⟨⟨h1, h2, h3, ⟨e, here_of h6.1.1.1⟩, h6.1.1.2, h6.1.2, delays_of h4⟩, h6.2⟩

/-- `Lockable`, as a check. -/
def lockableB (s : State) (va n : Nat) : Bool :=
  decide (watchHit (debugOf s s.th) s.th.id.asid true true va n s.th.passBreak = none) && !queueOverlaps s.th va n
    && decide (computing s s.th = none) && delaysOffB s
    && reachAnd s va n .atomic fun ps t => hereB ps && ps.all (fun q => !readOnly t s.th.id.asid q.va q.pa) && !ps.any (poisonAt t s.th)
      && ps.all (fun q => !covered t s.th q)

theorem lockable_of {s : State} {va n : Nat} (h : lockableB s va n = true) : Lockable s va n := by
  simp only [lockableB, Bool.and_eq_true, decide_eq_true_eq, Bool.not_eq_true'] at h
  obtain ⟨⟨⟨⟨h1, h2⟩, h3⟩, h4⟩, h5⟩ := h
  obtain ⟨e, h6⟩ := reach_of h5
  simp only [Bool.and_eq_true, Bool.not_eq_true', List.all_eq_true] at h6
  exact ⟨h1, h2, h3, ⟨e, here_of h6.1.1.1⟩, h6.1.1.2, h6.1.2, h6.2, delays_of h4⟩

/-- `HeapAt`, as a check. -/
def heapB (s : State) (va n : Nat) (k : AccessKind) : Bool :=
  decide (watchHit (debugOf s s.th) s.th.id.asid (decide (k ≠ .store)) true va (8 * n) s.th.passBreak = none)
    && !queueOverlaps s.th va (8 * n) && decide (va % 4096 + 8 * n ≤ 4096)
    && reachAnd s va (8 * n) k fun ps t => hereB ps && ps.all (ownLocal t.th)

theorem heap_of {s : State} {va n : Nat} {k : AccessKind} (h : heapB s va n k = true) : HeapAt s va n k := by
  simp only [heapB, Bool.and_eq_true, decide_eq_true_eq, Bool.not_eq_true'] at h
  obtain ⟨⟨⟨h1, h2⟩, h3⟩, h4⟩ := h
  obtain ⟨e, h5⟩ := reach_of h4
  simp only [Bool.and_eq_true, List.all_eq_true] at h5
  exact ⟨h1, h2, h3, ⟨e, here_of h5.1⟩, h5.2⟩

/-- `Capturable` of one word, as a check. -/
def capturableB (s : State) (pc : Word) (k : Nat) : Bool :=
  let va := (codeAdd pc (BitVec.ofNat 64 (4 * k))).toNat
  (reachAnd s va 4 .fetch fun ps t => hereB ps && !refreshHolds t ps && !ps.any fun p => poisoned t p.pa 1)
    && match decodeWord (BitVec.ofNat 32 (codeAt s va 4)) with
      | .ok i => (captured 0 i).isSome
      | .error _ => false

theorem capturable_of {s : State} {pc : Word} {k : Nat} (h : capturableB s pc k = true) : Capturable pc 1 k s := by
  simp only [capturableB, Bool.and_eq_true] at h
  obtain ⟨h1, h2⟩ := h
  obtain ⟨e, h3⟩ := reach_of h1
  simp only [Bool.and_eq_true, Bool.not_eq_true'] at h3
  refine ⟨⟨⟨e, here_of h3.1.1⟩, h3.1.2, h3.2⟩, ?_, trivial⟩
  split at h2
  · next i ei => exact ⟨i, ei, h2⟩
  · simp at h2

/-- One thread with a few registers set, and memory at which loads and stores go through. -/
def plain : State := one (regs [(2, 0x10000000), (3, 8), (4, 0x10000040), (5, 0xFFFFFFFFD00100), (6, 0x9000000010000000), (7, 0x10000001), (31, 9)])

/-- Nothing that a release waits for is under way, and the thread is in no compute phase and has no open packet. -/
def quietB (s : State) : Bool := !awaitsRelease scopeSystem s s.th && decide (computing s s.th = none) && decide (s.th.packet = none)

/-- DecodeEncodeWords, FalseGuard, and the hypotheses of the statements that ask only that the guard holds (IntegerArithmetic, Division,
LogicShiftsAndCounts, ImmediatesAndPointers, ComparesAndPredicates, VectorReductions, VectorConversions, RandomNumbers), with the one overflow of a
division and a bit field that fits; ComputeFrame and VectorFrame. -/
theorem test_witness_guards :
    (strandWord (.add ⟨0, 0⟩ 1 2 3) = true ∧ wellFormed (.add ⟨0, 0⟩ 1 2 3) = true) ∧
    (strandWord (.add ⟨1, 0⟩ 1 2 3) = true ∧ plain.th.r.guard (guardOf (encode (.add ⟨1, 0⟩ 1 2 3))) = false ∧ plain.th.r.frame.n = 0) ∧
    plain.th.r.guard ⟨0, 0⟩ = true ∧
    (let r := regs [(4, 0x8000000000000000), (5, 0xFFFFFFFFFFFFFFFF)]
     r.guard ⟨0, 0⟩ = true ∧ r.rg 4 = BitVec.intMin 64 ∧ r.rg 5 = -1) ∧
    ((8 : BitVec 6).toNat + ((3 : BitVec 6).toNat + 1) ≤ 64) ∧
    (computes (.cmp ⟨0, 0⟩ 1 2 3 0) = true ∧ after (.cmp ⟨0, 0⟩ 1 2 3 0) plain (fun _ => true) = true) ∧
    ((vectorResults (.vcmp ⟨0, 0⟩ 1 2 3 0 0)).isSome = true ∧ after (.vcmp ⟨0, 0⟩ 1 2 3 0 0) plain (fun _ => true) = true) := by
  decide +kernel

/-- DecodeEncodeSlots: an operation that stands in its slot and decodes. -/
theorem test_witness_slots :
    let x : Slot := .plain (.scmp ⟨0, 1⟩ 3 4 5 0 2)
    inSlot 1 x = true ∧ x.assigned = true ∧ x.unusedZero = true ∧ x.inCluster = true ∧ (decodeSlot 1 x.encode).toOption = some x := by
  decide +kernel

/-- StepRunsWord: an agenda with an event; an empty one with nothing due; and a word at the PC that issues, which leaves its sum. -/
theorem test_witness_step_word :
    let s := withMem [(0x40000000, 4, 0x04064280)] plain
    let u := { s with th := { s.th with st := .running } }
    s.boot.state = .ready ∧ ({ s with agenda := [.fabricStateUpdate] } : State).agenda = [.fabricStateUpdate] ∧ s.agenda = [] ∧ due s = []
      ∧ (canIssue s s.th = true ∧ u.th.redirect = none ∧ u.th.asyncTrap = none ∧ packetOverdue u u.th = false ∧ breakAmong u (breakPlaces u.th.r) = none
        ∧ u.th.forge = false ∧ okAnd (fetchM u.th.r.pc.toNat 4) u (fun w s1 =>
          decide ((decodeBytes (natToBytes 4 w)).toOption = some (.add ⟨0, 0⟩ 3 4 5, []))
            && okAnd (requireBlocks (namedBlocks (.add ⟨0, 0⟩ 3 4 5))) s1 fun _ s2 => decide (frameStart s2.th.r (.add ⟨0, 0⟩ 3 4 5) = none)) = true)
      ∧ (match step s with
        | .next t => decide (t.th.r.rg 3 = 0x10000040 + 0xFFFFFFFFD00100 ∧ t.th.r.pc = 0x10000004 ∧ t.cyc = 1)
        | _ => false) = true := by
  decide +kernel

/-- A forge thread of plain's registers in the seat of hearth 0, at a bundle of no operations. -/
def forger (r : Regs) : State :=
  let s := one r
  { s with th := { s.th with forge := true, place := .forge 0 }
           hearths := [(0, { hearthOf s 0 with seat := some s.th.id, owner := some s.th.id })] }

/-- StepRunsBundle: a bundle that decodes, and one whose slot 2 holds an unassigned operation. -/
theorem test_witness_step_bundle :
    let s := forger (regs [])
    let bad := withMem [(0x40000008, 4, 0x78000000)] s
    s.th.r.pc.toNat % 32 = 0 ∧ okAnd (fetchM s.th.r.pc.toNat 32) s (fun w _ => (decodeBundle (BitVec.ofNat 256 w)).toOption.isSome) = true
      ∧ okAnd (fetchM bad.th.r.pc.toNat 32) bad (fun w _ => match decodeBundle (BitVec.ofNat 256 w) with
        | .error e => decide (e = ⟨0, 2⟩)
        | .ok _ => false) = true
      ∧ (match step bad with
        | .next t => decide (t.th.st = .trapped ∧ t.th.record.value = 0x10000002 ∧ t.th.record.head.extractLsb' 0 8 = 0x02)
        | _ => false) = true := by
  decide +kernel

/-- MemoryFormKept: a state with memory in its form that steps; ResetState has no hypotheses. -/
theorem test_witness_memory_form :
    let s := withMem [(0x40000000, 4, 0x04064280)] plain
    Mem.wf s.mem = true ∧ (match step s with
      | .next t => Mem.wf t.mem
      | _ => false) = true := by
  decide +kernel

/-- VectorIntegers, VectorFloats, VectorMasks, VectorMoves: their types, comparison and widths. -/
theorem test_witness_vectors :
    plain.th.r.guard ⟨0, 0⟩ = true ∧ intType 7 = true ∧ intType 5 = true ∧ (2 : BitVec 4).toNat ≤ 2 ∧ ((0 : BitVec 4).toNat ≤ 2)
      ∧ (intType 11 = true ∧ (5 : BitVec 3).toNat ≤ 5) ∧ (12 : BitVec 4).toNat ≤ 12 ∧ (3 : BitVec 4).toNat ≤ 3 := by
  decide +kernel

/-- Branches, LoopLevels, HardwareLoops: an even and an odd target; an open level that goes on, ends, and does not end; a count of 0, a legal
and an illegal one, six open levels, and a level that is open or not. -/
theorem test_witness_loops :
    let r (i : BitVec 26) (len : BitVec 12) : Regs := { (regs [(4, 3), (5, 0x4000000), (6, 0x10000040), (7, 0x10000002)]) with
      loops := (Vector.replicate 6 {}).set 0 ⟨0x4000000, true, i, 3, len⟩ }
    let full : Regs := { regs [(4, 3)] with loops := Vector.replicate 6 ⟨0x4000000, true, 0, 3, 9⟩ }
    ((r 0 1).rg 6).toNat % 4 = 0 ∧ ((r 0 1).rg 7).toNat % 4 ≠ 0
      ∧ (0 < (r 0 2).depth ∧ codeAdd (r 0 2).pc 4 ≠ ((r 0 2).lx ((r 0 2).depth - 1)).endPc 4)
      ∧ (codeAdd (r 0 1).pc 4 = ((r 0 1).lx 0).endPc 4 ∧ (((r 0 1).lx 0).index + 1).toNat < ((r 0 1).lx 0).count.toNat)
      ∧ (codeAdd (r 2 1).pc 4 = ((r 2 1).lx 0).endPc 4 ∧ ((r 2 1).lx 0).count.toNat ≤ (((r 2 1).lx 0).index + 1).toNat ∧ (r 2 1).depth = 1)
      ∧ (((r 0 2).lx 0).startPc.toNat ≤ 0x10000004 ∧ 0x10000004 < (((r 0 2).lx 0).endPc 4).toNat ∧ ¬ 0x10000008 < (((r 0 2).lx 0).endPc 4).toNat)
      ∧ ((regs []).rg 4).toNat = 0 ∧ (((regs [(4, 3)]).rg 4).toNat ≠ 0 ∧ ((regs [(4, 3)]).rg 4).toNat ≤ 0x3FFFFFF ∧ (regs [(4, 3)]).depth < 6)
      ∧ ((codeAdd (codeAdd (r 0 9).pc 4) (BitVec.ofNat 64 (4 * 4))).toNat ≤ (((r 0 9).lx 0).endPc 4).toNat)
      ∧ (full.depth = 6 ∧ (full.rg 4).toNat ≠ 0) ∧ (0x3FFFFFF < ((regs [(5, 0x4000000)]).rg 5).toNat ∧ (regs []).depth = 0)
      ∧ ((0 : BitVec 5).toNat < (r 0 1).depth) ∧ (r 0 1).depth ≤ (1 : BitVec 5).toNat := by
  decide +kernel

/-- FrameReplays: a FRAME of count 0 over one word, and a replay in progress of an ADD that is not the last; its word can be captured. -/
theorem test_witness_frame :
    let s := withMem [(0x40000004, 4, 0x04064280)] plain
    let f := { s with th := { s.th with r := { s.th.r with frame := ⟨3, 1, 2, 1⟩ } } }
    (s.th.r.guard ⟨0, 0⟩ = true ∧ s.th.r.frame.n = 0 ∧ s.th.r.rg 9 = 0 ∧ s.th.r.depth = 0 ∧ Capturable s.th.r.pc 1 1 s)
      ∧ (f.th.r.frame.n = 1 ∧ Capturable f.th.r.pc 1 1 f ∧ capturedWords f.th.r.pc 1 1 f = [.add ⟨0, 0⟩ 3 4 5] ∧ f.th.resident = 0xFFFF
        ∧ f.th.r.frame.j.toNat + 1 < f.th.r.frame.count.toNat) :=
  ⟨⟨by decide +kernel, by decide +kernel, by decide +kernel, by decide +kernel, capturable_of (by decide +kernel)⟩, by decide +kernel,
    capturable_of (by decide +kernel), by decide +kernel, by decide +kernel, by decide +kernel⟩

/-- ThreadWords: a strand seat, a priority in and out of range, a wake that is and is not pending. -/
theorem test_witness_thread_words :
    plain.th.place = .strand 0 ∧ (3 : BitVec 8).toNat = 3 ∧ 63 < (plain.th.r.rg 2).toNat ∧ (plain.th.r.rg 3).toNat ≤ 63 ∧ plain.th.wake = false
      ∧ ({ plain.th with wake := true } : Thread).wake = true := by
  decide +kernel

/-- A thread with its frame at 0x101000, and its result 77. -/
def other (st : TState) : Thread := { runner (regs []) with id := ⟨1, 0x101⟩, st := st, place := .off, r := { (regs []) with g := (Vector.replicate 32 0).set 0 77 } }

/-- `FramesOpen`, as a check. -/
def framesOpenB (asid : BitVec 10) : BitVec 44 → Nat → State → Bool
  | _, 0, _ => true
  | ctx, n + 1, s =>
    let va := frameVa ⟨asid, ctx⟩
    (reachAnd s va 1 .store fun ps t => ps.all fun p => !readOnly t asid p.va p.pa) && framesOpenB asid (ctx + 1) n (translated s va 1 .store)

theorem framesOpen_of {asid : BitVec 10} : ∀ {n : Nat} {ctx : BitVec 44} {s : State}, framesOpenB asid ctx n s = true → FramesOpen asid ctx n s
  | 0, _, _, _ => trivial
  | n + 1, ctx, s, h => by
    simp only [framesOpenB, Bool.and_eq_true] at h
    obtain ⟨e, h2⟩ := reach_of h.1
    simp only [List.all_eq_true, Bool.not_eq_true'] at h2
    exact ⟨e, h2, framesOpen_of h.2⟩

/-- A thread with a frame address, an entry, a count and a value. -/
def creator : State := one (regs [(4, 0x101000), (5, 0x10000080), (6, 2), (7, 9)])

/-- ThreadCreationAndEnd: one frame page and two, an entry, no worker at all; a thread that is done and one that is not; nothing that keeps EXIT
or FORGE waiting. The spawned thread and the joined result are there. -/
theorem test_witness_threads :
    let s := creator
    s.th.r.guard ⟨0, 0⟩ = true ∧ quietB s = true
      ∧ ((s.th.r.rg 4).toNat % 4096 = 0 ∧ (s.th.r.rg 5).toNat % 4 = 0 ∧ (s.th.r.rg 0).toNat = 0 ∧ 0 < (s.th.r.rg 6).toNat ∧ (s.th.r.rg 6).toNat ≤ 65536)
      ∧ ((⟨s.th.id.asid, (s.th.r.rg 4).extractLsb' 12 44⟩ : ThreadId) ≠ s.th.id
        ∧ findThread { s with others := [other .done] } ⟨1, 0x101⟩ = some (other .done)
        ∧ findThread { s with others := [other .running] } ⟨1, 0x101⟩ = some (other .running) ∧ (other .running).joiner = none)
      ∧ (s.th.enginesIdle = true ∧ s.th.jobsDone = true)
      ∧ (s.th.r.depth = 0 ∧ (coreOf s 0).vqueue = [] ∧ (hearthOf s 0).forgeQueue.length < 64)
      ∧ after (.spawn ⟨0, 0⟩ 7 4 5) s (fun t => match findThread t ⟨1, 0x101⟩ with
        | some x => decide (x.r.pc = 0x10000080 ∧ x.r.rg 2 = 9 ∧ x.st = .ready)
        | none => false) = true
      ∧ after (.join ⟨0, 0⟩ 8 4) { s with others := [other .done] } (fun t => decide (t.th.r.rg 8 = 77)) = true
      ∧ after (.exit ⟨0, 0⟩ 7) s (fun t => (threads t).any fun x => decide (x.id = ⟨1, 0x100⟩ ∧ x.st = .done ∧ x.r.g.get 0 = 9)) = true
      ∧ after (.wake ⟨0, 0⟩ 4) { s with others := [{ other .parked with wait := .park }] } (fun t => t.others.all fun x => decide (x.st = .ready)) = true
      ∧ after (.forge ⟨0, 0⟩) s (fun t => decide ((hearthOf t 0).forgeQueue = [⟨1, 0x100⟩] ∧ t.th.wait = .forgeSeat)) = true := by
  decide +kernel

/-- ThreadCreationAndEnd: the frame pages of one and of two threads are open, and the thread's own blocks stand in this package. -/
theorem test_witness_frame_pages :
    FramesOpen 1 0x101 1 (drainHearth creator.th.view creator) ∧ FramesOpen 1 0x101 2 (drainHearth creator.th.view creator)
      ∧ frameHere creator.th creator 0x80100000 :=
  ⟨framesOpen_of (by decide +kernel), framesOpen_of (by decide +kernel), ⟨(placeBlock creator.th 0 creator).2, by decide +kernel⟩⟩

/-- Loads: aligned addresses at which loads go through, for every form; a group of 16 and a pointer that names none; a misaligned address, and a page
that may not be read. -/
theorem test_witness_loads :
    Readable plain 0x10000000 8 ∧ Readable plain 0x10000040 8 ∧ Readable plain 0x10000000 64
      ∧ (plain.th.r.guard ⟨0, 0⟩ = true ∧ (plain.th.r.rg 2 + (0 : BitVec 10).signExtend 64 * 8).toNat % 2 ^ 56 = 0x10000000 ∧ 0x10000000 % 64 = 0
        ∧ (plain.th.r.rg 2 + plain.th.r.rg 3 * 8).toNat % 2 ^ 56 = 0x10000040 ∧ addr (plain.th.r.rg 2) % 8 = 0)
      ∧ (match groupOf (plain.th.r.rg 6) with
        | some g => decide (0x10000000 % g.extent.2.2 = 0) && readableB plain ((0x10000000 + g.extent.1) % 2 ^ 56) g.extent.2.1
        | none => false) = true
      ∧ groupOf (0 : Word) = none ∧ (plain.th.r.rg 7).toNat % 2 ^ 56 % 2 ≠ 0
      ∧ (let s : State := { plain with hearths := [(0, { l1 := [⟨0x9A00000010000001, 0x40000000⟩] })] }
         (watchHit (debugOf s s.th) s.th.id.asid true false 0x10000000 8 s.th.passBreak = none ∧ queueOverlaps s.th 0x10000000 8 = false)
          ∧ (match reach (agentOf s.th) 0x10000000 8 .load s with
            | (.fault c, _) => decide (c = .protection)
            | _ => false) = true) := by
  exact ⟨readable_of (by decide +kernel), readable_of (by decide +kernel), readable_of (by decide +kernel), by decide +kernel⟩

/-- Stores and StoreFrame: aligned places in the thread's own local memory and elsewhere, for every form; a release with nothing queued. -/
theorem test_witness_stores :
    (Writable plain 0x10000000 8 ∧ ∀ q ∈ placesOf plain 0x10000000 8 .store, ownLocal (translated plain 0x10000000 8 .store).th q = false)
      ∧ (Writable plain 0xFFFFFFFFD00100 8 ∧ ∀ q ∈ placesOf plain 0xFFFFFFFFD00100 8 .store, ownLocal (translated plain 0xFFFFFFFFD00100 8 .store).th q = true)
      ∧ (Writable plain 0xFFFFFFFFD00100 64 ∧ ∀ q ∈ placesOf plain 0xFFFFFFFFD00100 64 .store, ownLocal (translated plain 0xFFFFFFFFD00100 64 .store).th q = true)
      ∧ (Writable (drainHearth plain.th.view plain) 0x10000000 8 ∧ ∀ q ∈ placesOf (drainHearth plain.th.view plain) 0x10000000 8 .store, ownLocal (translated (drainHearth plain.th.view plain) 0x10000000 8 .store).th q = false)
      ∧ (match groupOf (plain.th.r.rg 6) with
        | some g => decide (0x10000000 % g.extent.2.2 = 0) && writableB plain ((0x10000000 + g.extent.1) % 2 ^ 56) g.extent.2.1 false
        | none => false) = true
      ∧ quietB plain = true ∧ storesTo plain.th.r (.st ⟨0, 0⟩ 3 2 3 0) = some (0x10000000, 8) ∧ delaysOff plain := by
  exact ⟨writable_of (by decide +kernel), writable_of (by decide +kernel), writable_of (by decide +kernel), writable_of (by decide +kernel), by decide +kernel,
    by decide +kernel, by decide +kernel, by show (coreOf plain (accountCore plain.th)).delaybase.getLsbD 63 = false; decide +kernel⟩

/-- Atomics, UpdatesAndOrdering: places of 4, 8 and 16 bytes outside a compute phase; a place for an update; idle engines; a launch that computes. -/
theorem test_witness_atomics :
    Lockable plain 0x10000000 4 ∧ Lockable plain 0x10000000 8 ∧ Lockable plain 0x10000000 16
      ∧ (Writable plain 0x10000000 4 ∧ ∀ q ∈ placesOf plain 0x10000000 4 .store, ownLocal (translated plain 0x10000000 4 .store).th q = false)
      ∧ (plain.th.r.guard ⟨0, 0⟩ = true ∧ addr (plain.th.r.rg 2) = 0x10000000 ∧ 6 ≤ (8 : BitVec 5).toNat ∧ (8 : BitVec 5).toNat ≤ 13 ∧ updateBytes 8 = 4)
      ∧ quietB plain = true ∧ plain.th.enginesIdle = true ∧ (∀ x ∈ plain.launches, x.id ≠ plain.th.launch)
      ∧ ({ plain with launches := [{ id := 0, asid := 1, secure := false, priv := 0, prio := 0, addr := 0, record := [] }] } : State).launches.find?
          (fun y => decide (y.id = plain.th.launch)) = some { id := 0, asid := 1, secure := false, priv := 0, prio := 0, addr := 0, record := [] } := by
  exact ⟨lockable_of (by decide +kernel), lockable_of (by decide +kernel), lockable_of (by decide +kernel), writable_of (by decide +kernel), by decide +kernel⟩

/-- A shape record of rank 1 at an address: base, size, stride 1. -/
def record1 (at_ : Nat) (base : Nat) (size : Nat) : List (Nat × Nat × Nat) :=
  [(at_, 8, base), (at_ + 8, 8, size), (at_ + 0x18, 8, 1), (at_ + 0x28, 8, 1)]

/-- `ShapeRead`, as a check, with the record and the state after it. -/
def shapeAnd (s : State) (q : QReg) (f : Shape → State → Bool) : Bool :=
  decide (addr (s.th.r.rsh q) % 64 = 0) && readableB s (addr (s.th.r.rsh q)) 64 &&
    let x := shapeOf s q
    fmtAssigned x.fmt && x.valid && decide (x.chan = 0) && f x (afterShape s q)

/-- The state after a load of n bytes that goes through. -/
def loadAnd (s : State) (va n : Nat) (f : State → Bool) : Bool := readableB s va n && f (fetched s va n)

/-- Loads that go through one after the other. -/
def readsB (ps : List (Nat × Nat)) (s : State) : Bool :=
  match ps with
  | [] => true
  | (va, n) :: ps => readableB s va n && readsB ps (fetched s va n)

theorem reads_of : ∀ {ps : List (Nat × Nat)} {s : State}, readsB ps s = true → Reads ps s
  | [], _, _ => trivial
  | (va, n) :: ps, s, h => by
    simp only [readsB, Bool.and_eq_true] at h
    exact ⟨readable_of h.1, reads_of h.2⟩

/-- D of sh0 in local memory, A of sh1 and B of sh2 elsewhere, each with so many elements and the given format codes. -/
def shapes (fd fa : Nat) (nd na : Nat) (cells : List (Nat × Nat × Nat)) : State :=
  let s := withMem (record1 0x40000100 (fd * 2 ^ 59 + 0xFFFFFFFFD00200) nd ++ record1 0x40000140 (fa * 2 ^ 59 + 0x10000200) na
    ++ record1 0x40000180 (fa * 2 ^ 59 + 0x10000280) na ++ cells) plain
  { s with th := { s.th with r := (((s.th.r.wsh 0 0x10000100).wsh 1 0x10000140).wsh 2 0x10000180).wg 9 0x10000100 } }

/-- ShapedOperations: records that are found, at their last element: equal formats for a sum, a fused sum and a move; a record to set, valid and not. -/
theorem test_witness_shaped :
    let s := shapes 1 1 1 1 [(0x40000200, 4, 0x3FC00000), (0x40000280, 4, 0x40100000), (selfPa 0x200, 4, 0x3F800000)]
    (s.th.r.guard ⟨0, 0⟩ = true ∧ ownedLevels s s.th = [] ∧ nextElement s.th = 0)
      ∧ (decide (addr (s.th.r.rg 9) % 64 = 0) && readableB s 0x10000100 64 && (recordAt s (s.th.r.rg 9)).valid && fmtAssigned (recordAt s (s.th.r.rg 9)).fmt
        && !(recordAt s 0x10000200).valid) = true
      ∧ shapeAnd s 0 (fun x s1 => shapeAnd s1 1 fun y s2 => shapeAnd s2 2 fun z s3 => decide (0 + 1 = x.total ∧ x.rank = y.rank ∧ x.rank = z.rank
          ∧ (List.range 4).map x.size = (List.range 4).map y.size ∧ (List.range 4).map x.size = (List.range 4).map z.size ∧ y.fmt = x.fmt ∧ z.fmt = x.fmt
          ∧ tsewAccepts 0 x.fmt = true ∧ tsewAccepts 5 x.fmt = true ∧ tsewAccepts 6 x.fmt = true)
          && loadAnd (s3.visiting 0) (y.address (x.index 0)) 4 (fun s4 => loadAnd s4 (z.address (x.index 0)) 4 fun s5 =>
            loadAnd s5 (x.address (x.index 0)) 4 (fun s6 => writableB s6 (x.address (x.index 0)) 4 true) && writableB s5 (x.address (x.index 0)) 4 true)) = true
      ∧ (after (.tsew ⟨0, 0⟩ 0 1 2 0) s (fun t => decide (Mem.read t.mem (selfPa 0x200) 4 = 0x40700000 ∧ t.th.resume = 0))
        && after (.tsew ⟨0, 0⟩ 0 1 2 6) s (fun t => decide (Mem.read t.mem (selfPa 0x200) 4 = 0x408C0000))
        && after (.tsew ⟨0, 0⟩ 0 1 0 5) s (fun t => decide (Mem.read t.mem (selfPa 0x200) 4 = 0x3FC00000))
        && after (.shset ⟨0, 0⟩ 3 9) s (fun t => decide (t.th.r.rsh 3 = 0x10000100))
        && after (.shget ⟨0, 0⟩ 4 1) s (fun t => decide (t.th.r.rg 4 = 0x10000140))) = true := by
  decide +kernel

/-- ShapedOperations: a conversion between integers, and one from a nested block at its last element. -/
theorem test_witness_shaped_conversions :
    let i := shapes 8 6 1 1 [(0x40000200, 1, 0x80)]
    let q := shapes 1 18 8 8 [(0x40000200, 5, 0xCB6B0A52FF)]
    let q := { q with th := { q.th with resume := 0x8000000000000007 } }
    shapeAnd i 0 (fun x s1 => shapeAnd s1 1 fun y s2 => decide (x.nested = false ∧ (intFmt x.fmt).isSome ∧ (intFmt y.fmt).isSome ∧ 0 + 1 = x.total)
          && loadAnd (s2.visiting 0) (y.address (x.index 0)) 1 fun s4 => writableB s4 (x.address (x.index 0)) 4 true) = true
      ∧ shapeAnd q 0 (fun x s1 => shapeAnd s1 1 fun y s2 => decide (x.nested = false ∧ y.nested = true
          ∧ 1 ≤ x.fmt ∧ 7 + 1 = x.total ∧ nextElement s2.th = 7) && loadAnd (s2.visiting 7) (y.blockOf (x.index 7)).1 y.blockSize fun s4 =>
            writableB s4 (x.address (x.index 7)) 4 true) = true
      ∧ (after (.tscvt ⟨0, 0⟩ 0 1 0) i (fun t => decide (Mem.read t.mem (selfPa 0x200) 4 = 0xFFFFFF80))
        && after (.tscvt ⟨0, 0⟩ 0 1 0) q (fun t => decide (Mem.read t.mem (selfPa 0x21C) 4 = 0x3F000000))) = true := by
  decide +kernel

/-- ShapedOperations: a conversion into a nested block, the values of the worked example of R230, and a reduction. -/
theorem test_witness_shaped_blocks :
    let n := shapes 18 1 8 8 [(0x40000200, 8, 0xBF0000003FC00000), (0x40000208, 8, 0x4060000000000000), (0x40000210, 8, 0x3F800000C0800000),
      (0x40000218, 8, 0x3F000000C0200000)]
    let r := shapes 1 1 1 3 [(0x40000200, 8, 0x3F8000004B800000), (0x40000208, 4, 0x3F800000)]
    shapeAnd n 0 (fun x s1 => shapeAnd s1 1 fun y s2 => decide (x.nested = true ∧ x.rank = 1 ∧ (floatFmt y.fmt).isSome ∧ 0 + x.blockLen = x.total
          ∧ (x.blockOf (x.index 0)).2 = 0) && readsB (y.elementPlaces ((List.range 8).map fun k => [k, 0, 0, 0])) (s2.visiting 0)
            && writableB s2 (x.blockOf (x.index 0)).1 x.blockSize true) = true
      ∧ shapeAnd r 0 (fun x s1 => shapeAnd s1 1 fun y s2 => decide (0 + 1 = x.total ∧ x.size 0 = 1 ∧ x.rank = y.rank ∧ [1, 2, 3].map x.size = [1, 2, 3].map y.size)
          && readsB (y.elementPlaces ((List.range 3).map fun k => [k, 0, 0, 0])) (s2.visiting 0)) = true
      ∧ (after (.tscvt ⟨0, 0⟩ 0 1 0) n (fun t => decide (Mem.read t.mem (selfPa 0x200) 5 = 0x2041585000))
        && after (.tsred ⟨0, 0⟩ 0 1 0) r (fun t => decide (Mem.read t.mem (selfPa 0x200) 4 = 0x4B800001))) = true := by
  decide +kernel

/-- HeapWords: heaps with room, full above and below an entry, and empty, in the thread's own local memory. -/
theorem test_witness_heaps :
    let s (head : Nat) := withMem [(selfPa 0x100, 8, head), (selfPa 0x108, 8, 0x4000000000000000), (selfPa 0x110, 8, 0x40A0000000000001)] plain
    HeapAt (s 0x12) 0xFFFFFFFFD00100 3 .store ∧ HeapAt (s 0x12) 0xFFFFFFFFD00100 1 .atomic
      ∧ HeapAt (s 0x12) 0xFFFFFFFFD00100 3 .atomic
      ∧ (addr ((s 0).th.r.rg 5) % 8 = 0 ∧ ∀ h ∈ [0x02, 0x12, 0x22], 1 ≤ h % 16 ∧ h % 16 ≤ 8 ∧ h / 16 % 16 ≤ h % 16)
      ∧ heapAbove 0x40A0000000000002 0x4000000000000000 = true ∧ heapAbove 0x3F80000000000003 0x4000000000000000 = false
      ∧ cleanAt (s 0x12) 0xFFFFFFFFD00100 8 ∧ HeapAt (lockedAt (s 0x12) 0xFFFFFFFFD00100 8) 0xFFFFFFFFD00100 3 .atomic := by
  exact ⟨heap_of (by decide +kernel), heap_of (by decide +kernel), heap_of (by decide +kernel), by decide +kernel, by decide +kernel, by decide +kernel,
    by unfold cleanAt; decide +kernel, heap_of (by decide +kernel)⟩

/-- A domain of level 1 with these members and arrivals. -/
def dom (members : List ThreadId) (arrivals : List Arrival) : Domain :=
  { launch := 0, level := 1, index := 0, members := members, nodes := [0], arrivals := arrivals }

/-- An arrival at a SYNC that answers in no register. -/
def arrived (t : ThreadId) (w : Word) : Arrival := { t := t, kind := .sync, operand := w }

/-- The thread is a member at level 1 of a domain. -/
def member (d : Domain) (s : State) : State := { s with th := { s.th with domset := 0x80000000000 }, domains := [d] }

/-- CollectivesAndTimelines: SYNC that arrives, and one whose result is there; a node that may send; the domain of R33's example, complete; timelines behind, at
and past the operand. -/
theorem test_witness_collectives :
    let s := one (regs [(4, 0x100000005), (5, 3), (6, 2)])
    let me : ThreadId := ⟨1, 0x100⟩
    let D : Domain := dom [⟨1, 1⟩, ⟨1, 2⟩, me] [arrived ⟨1, 1⟩ 0x4FFFFFFF0, arrived ⟨1, 2⟩ 0x8000000000000020]
    let all : Domain := { D with arrivals := D.arrivals ++ [{ arrived me 0x100000005 with dst := 7 }] }
    let w : Word := 0x80000005FFFFFFFF
    let p : State := { member all s with th := { (member all s).th with st := .parked, wait := .collective 0 } }
    let ended : Domain := { D with arrivals := [], results := [(me, .value w)] }
    let back : State := let b := member ended s; { b with th := { b.th with waited := true } }
    let dom8 (as : List Arrival) : Domain := { dom [me] as with nodes := [0, 8] }
    let away : State := member (dom8 [arrived me 0]) { s with th := { s.th with hearth := 8, home := 8, place := .strand 32 } }
    let tl : State := { s with th := { s.th with timelines := (Vector.replicate 5 {}).set 0 ⟨3, 2, []⟩ } }
    (s.th.r.guard ⟨0, 0⟩ = true ∧ (member D s).th.domset.getLsbD 43 = true ∧ s.th.inTask = false ∧ computing s s.th = none ∧ openCollective (member D s) me = none
        ∧ domainAt (member D s) (member D s).th 1 = some 0 ∧ domainGet (member D s) 0 = some D ∧ quietB (member D s) = true)
      ∧ (back.th.rejoins = true ∧ openCollective back me = some 0 ∧ ended.resultOf me = some (.value w)
        ∧ after (.sync ⟨0, 0⟩ 7 4 1) back (fun t => decide (t.th.r.rg 7 = w ∧ t.th.r.pc = 0x10000004)) = true)
      ∧ (canSend away (dom8 [arrived me 0]) 1 = true ∧ canSend away (dom8 []) 1 = false
        ∧ after (.barrierArrivalMessage 0 1) away (fun t => decide ((domainGet t 0).map (·.sent) = some [1])) = true)
      ∧ (canComplete all = true ∧ all.results = [] ∧ (∀ q ∈ all.arrivals, q.kind = .sync) ∧ p.th.id ∈ all.members ∧ p.th.wait = .collective 0
        ∧ after (.barrierComplete 0) p (fun t => match domainGet t 0 with
          | some d => decide (d.generation = 1 ∧ d.resultOf me = some (.value w) ∧ t.th.st = .ready ∧ t.th.wait = .none)
          | none => false) = true
        ∧ after (.barrierComplete 0) { p with th := { p.th with st := .trapped } } (fun t => decide (t.th.st = .trapped ∧ t.th.r.rg 7 = w ∧ t.th.r.pc = 0x10000004)) = true)
      ∧ after (.sync ⟨0, 0⟩ 7 4 1) (member D s) (fun t => decide (t.th.st = .parked ∧ t.th.wait = .collective 0 ∧ domainGet t 0 = some all)) = true
      ∧ ((tl.th.timeline 0).last = 3 ∧ (tl.th.timeline 0).completed = 2 ∧ after (.tlwait ⟨0, 0⟩ 7 5 0) tl (fun t => decide (t.th.wait = .timeline 0 3)) = true
        ∧ after (.tlwait ⟨0, 0⟩ 7 6 0) tl (fun t => decide (t.th.r.rg 7 = 2)) = true
        ∧ after (.tlwait ⟨0, 0⟩ 7 4 0) tl (fun t => decide (t.th.st = .trapped ∧ t.th.record.value = 0x100000005)) = true
        ∧ after (.tlread ⟨0, 0⟩ 7 1 0) tl (fun t => decide (t.th.r.rg 7 = 3)) = true) := by
  decide +kernel

/-- A thread with one open level over a page of data, with these lines, and a pool of shadow lines. -/
def levelled (lines : List ShadowLine) : State :=
  let s := one (regs [(4, 0x101), (5, 0x10004000), (6, 0x1111111111111111), (8, 0x10000100), (9, 0x777)])
  { s with th := { s.th with levels := [{ tag := 0x101, base := 0x10004000, len := 0x1000, fallback := 0, lines := lines }] }
           spaces := [(1, { shpool := 0x50000010, serial := 1 })] }

/-- SnapshotWords: a descriptor to open a level; a store that the only level covers; a level with one line to accept and to reject; a tag that is open and one
that is not. With R110's example: the accepted bytes replace the published ones. -/
theorem test_witness_snapshots :
    let line : ShadowLine := ⟨0x200080, 0, 0xFF, 0x1111111111111111, false⟩
    let mem : List (Nat × Nat × Nat) := [(0x40000100, 8, 0x10004000), (0x40000108, 8, 0x1000), (0x40000110, 8, 0x10000200), (0x40004000, 8, 0x2222222222222222),
      (0x40004008, 8, 0x3333333333333333)]
    let s := withMem mem (levelled [])
    let l := withMem mem (levelled [line])
    (s.th.r.guard ⟨0, 0⟩ = true ∧ computing s s.th = none ∧ s.th.st = .running ∧ openCollective s s.th.id = none ∧ quietB s = true)
      ∧ (addr (s.th.r.rg 8) % 32 = 0 ∧ s.th.levels.length < 8 ∧ readableB s 0x10000100 32 = true ∧ (
          let w (j : Nat) : Word := BitVec.ofNat 64 (loaded s 0x10000100 32 / 2 ^ (64 * j) % 2 ^ 64)
          (w 0).toNat % 2 ^ 56 % 128 = 0 ∧ w 1 ≠ 0 ∧ (w 1).toNat % 128 = 0 ∧ (w 0).toNat % 2 ^ 56 + (w 1).toNat ≤ 0xFFFFFFFFD00000 ∧ (w 2).toNat % 4 = 0
            ∧ (w 3).extractLsb' 4 60 = 0 ∧ (w 3).getLsbD 0 = false)
        ∧ after (.snap ⟨0, 0⟩ 7 8) s (fun t => decide (t.th.r.rg 7 = 0x202 ∧ t.th.levels.length = 2 ∧ (spaceOf t 1).serial = 2)) = true)
      ∧ (watchHit (debugOf s s.th) s.th.id.asid false true 0x10004000 8 s.th.passBreak = none ∧ s.domains = [] ∧ (s.th.levels.all fun x => decide (x.base ≤ 0x10004000 ∧ x.lines = [])) = true
        ∧ delaysOffB s = true ∧ reachAnd s 0x10004000 8 .store (fun ps t => hereB ps && ps.all (fun q => !readOnly t s.th.id.asid q.va q.pa && (localHearth q.pa).isNone)
          && decide (poolUsed t t.th.id.asid < poolLines t t.th.id.asid t.th.secure ∧ entriesUsed t 0 < entryLimit t 0)) = true
        ∧ after (.st ⟨0, 0⟩ 6 5 3 0) s (fun t => decide (t.mem = s.mem ∧ t.pending = [] ∧ t.th.levels.map (·.lines) = [[line]])) = true)
      ∧ (threadLevelOf l.th 0x101 = some 0 ∧ threadLevelOf l.th 0x777 = none ∧ domainLevelOf l l.th 0x777 = none ∧ l.th.levels.length = 1 ∧ l.domains = []
        ∧ (match placeLines (agentOf l.th) (linesOf (l.th.levels.take 1)) (drainHearth l.th.view l) with
          | (.ok [(k, p)], _) => decide (k = 0x200080 ∧ p.pa = 0x40004000) && hereB [p]
          | _ => false) = true
        ∧ after (.accept ⟨0, 0⟩ 7 4) l (fun t => decide (t.th.r.rg 7 = 0 ∧ t.th.levels = [] ∧ Mem.read t.mem 0x40004000 8 = 0x1111111111111111
          ∧ Mem.read t.mem 0x40004008 8 = 0x3333333333333333)) = true
        ∧ after (.reject ⟨0, 0⟩ 7 4) l (fun t => decide (t.th.r.rg 7 = 0 ∧ t.th.levels = [] ∧ t.mem = l.mem)) = true
        ∧ after (.accept ⟨0, 0⟩ 7 9) l (fun t => decide (t.th.r.rg 7 = 1 ∧ t.th.levels.length = 1)) = true
        ∧ after (.snapq ⟨0, 0⟩ 7 4) l (fun t => decide (t.th.r.rg 7 &&& 0x80F00000FFFFFFFF = 0x8010000000000001)) = true) := by
  decide +kernel

/-- OrderedTasks: a domain to bind to, with and without its group; a timestamp to begin; an open task at the cursor and past it; a task that has waited
its limit. -/
theorem test_witness_tasks :
    let s := one (regs [(4, 5), (6, 6)])
    let me : ThreadId := ⟨1, 0x100⟩
    let D (g : Option Group) : Domain := { dom [me] [] with group := g }
    let G : Group := { base := 5, cursor := 5 }
    let bind (g : Option Group) : State := let m := member (D g) s; { m with th := { m.th with bound := true, tlevel := 1 } }
    let task (w : Word) : State := let b := bind (some { G with taken := [w] })
      { b with th := { b.th with levels := [{ tag := 0, task := true, base := 0, len := 2 ^ 56, fallback := 0 }], stamp := w, saved := some (regs [(9, 9)]) } }
    let stalled : Thread := { (task 6).th with id := ⟨1, 0x102⟩, st := .parked, wait := .commit 0 6, parkedAt := 0, place := .off }
    let late : State := { bind (some G) with others := [stalled], cyc := 0x200000 }
    (s.th.r.guard ⟨0, 0⟩ = true ∧ s.th.st = .running ∧ (member (D none) s).th.domset.getLsbD 43 = true ∧ domainAt (member (D none) s) (member (D none) s).th 1 = some 0
        ∧ (D none).group = none ∧ (D (some G)).group.map (·.base) = some (s.th.r.rg 4)
        ∧ after (.torder ⟨0, 0⟩ 4 1) (member (D none) s) (fun t => decide (t.th.bound = true ∧ (domainGet t 0).bind (·.group) = some G)) = true)
      ∧ ((bind (some G)).th.inTask = false ∧ groupOfThread (bind (some G)) = some (0, G) ∧ G.cursor.toNat ≤ (s.th.r.rg 6).toNat ∧ s.th.r.rg 6 ∉ G.taken
        ∧ (bind (some G)).th.levels.length < 8 ∧ after (.tbegin ⟨0, 0⟩ 6) (bind (some G)) (fun t => decide (t.th.inTask = true ∧ t.th.stamp = 6 ∧ t.th.saved = some s.th.r)) = true)
      ∧ ((task 5).th.inTask = true ∧ groupOfThread (task 5) = some (0, { G with taken := [5] }) ∧ G.cursor = (task 5).th.stamp ∧ quietB (task 5) = true
        ∧ (task 5).others = [] ∧ G.abandoned.contains (G.cursor + 1) = false
        ∧ (match placeLines (agentOf (task 5).th) (linesOf ((task 5).th.levels.take 1)) (drainHearth (task 5).th.view (task 5)) with
          | (.ok _, _) => true
          | _ => false) = true
        ∧ after (.tcommit ⟨0, 0⟩) (task 5) (fun t => decide (t.th.levels = [] ∧ ((domainGet t 0).bind (·.group)).map (·.cursor) = some 6)) = true
        ∧ G.cursor ≠ (task 6).th.stamp ∧ after (.tcommit ⟨0, 0⟩) (task 6) (fun t => decide (t.th.st = .parked ∧ t.th.wait = .commit 0 6)) = true
        ∧ after (.tabort ⟨0, 0⟩) (task 6) (fun t => decide (t.th.levels = [] ∧ t.th.saved = none)) = true)
      ∧ (findThread late ⟨1, 0x102⟩ = some stalled ∧ orderStallDue late stalled = true
        ∧ after (.orderStallTimeout ⟨1, 0x102⟩) late (fun t => t.others.all fun x => decide (x.st = .trapped ∧ x.record.value = 6 ∧ x.record.head.extractLsb' 0 8 = 0x1A)) = true) := by
  decide +kernel

/-- MessageWords: a destination, no open packet, one for it, one that is full and one for another; the consumer of R215's example, live, with room; a queue with and
without words; a bound and an unbound mailbox. The header is the example's. -/
theorem test_witness_messages :
    let s0 := one (regs [(4, 0x40020302A000), (5, 1), (6, 2), (10, 0x101000)])
    let s : State := { s0 with node := 5, th := { s0.th with id := ⟨1, 0x4000203⟩ }, spaces := [(1, { msgpool := 0x10 })] }
    let dst : ThreadId := ⟨1, 0x101⟩
    let withPacket (p : OpenPacket) : State := { s with th := { s.th with packet := some p } }
    let q : Packet := { kind := .plain, dst := .thread dst, src := s.th.id, srcHearth := 0, secure := false, words := [0x040000400020300A, 1, 2] }
    let mail : State := { s with th := { s.th with recv := [7, 8] }, packets := [q], others := [other .running] }
    let box (b : Word) : State := { s with hearths := [(0, { hearthOf s 0 with mboxbind := b, mailbox := [11, 12] })] }
    (s.th.r.guard ⟨0, 0⟩ = true ∧ s.th.st = .running ∧ quietB s = true ∧ (s.th.r.rg 10).getLsbD 63 = false ∧ (s.th.r.rg 10).extractLsb' 56 7 = 0
        ∧ (s.th.r.rg 10).extractLsb' 0 12 = 0 ∧ openPackets s s.th.hearth < 8)
      ∧ ((withPacket ⟨0x101000, [3], 0, 0⟩).th.packet.map (·.dst) = some (s.th.r.rg 10) ∧ ([3] : List Word).length < 63 ∧ 63 ≤ (List.replicate 63 (0 : Word)).length
        ∧ (0x102000 : Word) ≠ s.th.r.rg 10)
      ∧ after (.msend ⟨0, 0⟩ 10 5) s (fun t => decide (t.th.packet = some ⟨0x101000, [1], 0, 0⟩)) = true
      ∧ after (.msende ⟨0, 0⟩ 10 6) (withPacket ⟨0x101000, [1], 0, 0⟩) (fun t => decide (t.th.packet = none ∧ t.packets.map (·.words) = [[0x040000400020300A, 1, 2]])) = true
      ∧ (mail.packets[0]? = some q ∧ firstOfPair mail.packets 0 = true ∧ liveThread mail dst = some (other .running) ∧ poolChunks mail 1 ≠ 0
        ∧ queueRoom mail (other .running) 3 false = true ∧ (other .running).wait ≠ .recv
        ∧ after (.packetDeliver 0) mail (fun t => decide (t.packets = [] ∧ t.others.map (·.recv.length) = [3])) = true)
      ∧ (mail.th.recv = 7 :: [8] ∧ s.th.recv = [] ∧ after (.mrecv ⟨0, 0⟩ 7 1 0 0) mail (fun t => decide (t.th.r.rg 7 = 7 ∧ t.th.r.rp 1 = true ∧ t.th.recv = [8])) = true
        ∧ after (.mrecv ⟨0, 0⟩ 7 1 1 0) s (fun t => decide (t.th.r.rp 1 = false ∧ t.th.r.pc = 0x10000004)) = true
        ∧ after (.mrecv ⟨0, 0⟩ 7 1 0 0) s (fun t => decide (t.th.st = .parked ∧ t.th.wait = .recv)) = true)
      ∧ (s.th.onHearth = some 0 ∧ s.th.hearth = 0 ∧ mailboxBound (hearthOf (box 0x8000000100000000) 0) 1 false = true ∧ mailboxBound (hearthOf (box 0) 0) 1 false = false
        ∧ after (.mrecv ⟨0, 0⟩ 7 1 1 1) (box 0x8000000100000000) (fun t => decide (t.th.r.rg 7 = 11 ∧ (hearthOf t 0).mailbox = [12])) = true
        ∧ after (.mrecv ⟨0, 0⟩ 7 1 1 1) (box 0) (fun t => decide (t.th.st = .trapped ∧ t.th.record.head.extractLsb' 0 8 = 0x13)) = true) := by
  decide +kernel

/-- DepositsAndRemoteReads: a frame page to name; a deposit of each class that arrives; a reader with a ready target, one past its time, and one with its reply. -/
theorem test_witness_deposits :
    let s := one (regs [(4, 0x101000), (6, 0x77)])
    let dst : ThreadId := ⟨1, 0x101⟩
    let y : Thread := { other .running with place := .strand 1, r := regs [(9, 0x55)] }
    let sent (c : BitVec 3) (r : BitVec 5) : Deposit := ⟨s.th.id, 0x80101000, none, dst, c, r, 0x77⟩
    let dep (c : BitVec 3) (r : BitVec 5) : State := { s with deposits := [sent c r], others := [y] }
    let q : NRead := { reader := s.th.id, target := dst, reg := 9, issued := 0, found := some 0x55 }
    let rd : State := { s with nreads := [q], others := [y] }
    let late : State := { s with nreads := [{ q with found := none }], others := [y], cyc := 1000 }
    (s.th.r.guard ⟨0, 0⟩ = true ∧ quietB s = true ∧ (s.th.r.rg 4).toNat % 2 ^ 56 % 4096 = 0 ∧ reachAnd s 0x101000 1 .store (fun ps _ => hereB ps && decide (ps.length = 1)) = true
        ∧ after (.deposit ⟨0, 0⟩ 6 4 9 0) s (fun t => decide (t.deposits = [])) = true
        ∧ after (.deposit ⟨0, 0⟩ 6 4 9 0) { s with others := [y] } (fun t => decide (t.deposits = [sent 0 9])) = true)
      ∧ ((dep 0 9).deposits[0]? = some (sent 0 9) ∧ firstDeposit (dep 0 9).deposits 0 = true ∧ liveThread (dep 0 9) dst = some y ∧ y.resident = 0xFFFF
        ∧ after (.depositArrive 0) (dep 0 9) (fun t => decide (t.others.map (·.r.rg 9) = [0x77] ∧ t.deposits = [])) = true
        ∧ after (.depositArrive 0) (dep 1 3) (fun t => decide (t.others.map (·.r.rp 3) = [true])) = true
        ∧ after (.depositArrive 0) (dep 2 3) (fun t => decide (t.others.map (·.r.rm 3) = [0x77])) = true)
      ∧ ((∀ x ∈ s.nreads, x.reader ≠ s.th.id) ∧ rd.nreads.find? (fun x => decide (x.reader = s.th.id ∧ x.reply = none)) = some q
        ∧ rd.nreads.filter (fun x => decide (x.reader = s.th.id)) = [q] ∧ liveThread rd q.target = some y 
        ∧ nreadReady rd 0 y = true ∧ after (.nreadReply s.th.id) rd (fun t => decide (t.nreads.map (·.reply) = [some (some 0x55)])) = true
        ∧ (hearthOf late 0).nreadto.toNat < (late.cyc - q.issued).toNat
        ∧ after (.nreadTimeout s.th.id) late (fun t => decide (t.nreads.map (·.reply) = [some none])) = true)
      ∧ after (.nread ⟨0, 0⟩ 7 4 9 2) s (fun t => decide (t.nreads.length = 1 ∧ t.th.st = .stalledMemory)) = true
      ∧ after (.nread ⟨0, 0⟩ 7 4 9 2) { rd with nreads := [{ q with reply := some (some 0x55) }] } (fun t => decide (t.th.r.rg 7 = 0x55 ∧ t.th.r.rp 2 = true ∧ t.nreads = [])) = true := by
  decide +kernel

/-- DevicePackets: a trap's packet whose handler is live with room; a miss to report to a walker thread; a packet held for its limit. With the record of R359's
example: the message that the steward's handler receives. -/
theorem test_witness_device_packets :
    let x0 := (one (regs [])).th
    let x : Thread := { x0 with id := ⟨5, 0x4000203⟩, hearth := 17, home := 17, place := .strand 69, r := { x0.r with pc := 0x100000040 }, failed := some (0x700001, .pageData) }
    let s : State := { (one (regs [])) with th := x, node := 5, cyc := 0x1234, spaces := [(1, { msgpool := 0x10 }), (5, { trapvec := #v[0, 0x8000000000101001, 0], msgpool := 0x10 })], others := [other .running] }
    let t := takeTrap .pageData 0x700001000 s
    let h : ThreadId := ⟨1, 0x101⟩
    let m : Miss := { index := 3, asid := 1, page := 0x10000, kinds := 1, secure := false, priv := 0, hearth := 0, ctx := 0x100, cyc := 9 }
    let b : State := { s with benches := [(2, { misses := [m], walkctx := 0x8000000000101001 })] }
    let held : State := { s with others := [{ other .running with place := .strand 1, packet := some ⟨0x77000, [1], 0, 0x100000⟩ }] }
    (t.packets.map (·.words) = [[0x090000400020300A, 0x0000000500000110, 0x100000040, 0x700001000, 0x1234]] ∧ t.packets.map (·.kind) = [.trap x.id]
        ∧ t.packets.map (·.dst) = [.thread h] ∧ liveThread t h = some (other .running) ∧ (other .running).wait ≠ .recv ∧ findThread t x.id = some t.th ∧ x.id ≠ h
        ∧ 0 < poolChunks t 1 ∧ queueRoom t (other .running) 5 true = true
        ∧ after (.trapPacketDeliver x.id) { t with th := { t.th with st := .running } } (fun u => decide (u.packets = [] ∧ u.others.map (·.recv.length) = [5]
          ∧ u.th.record.handler = 0x8000000000101001)) = true)
      ∧ ((benchOf b 2).misses = [m] ∧ m.index = 3 ∧ m.sent = false ∧ (benchOf b 2).walkctx.getLsbD 63 = true ∧ m.hearth < 256 ∧ liveThread b h = some (other .running)
        ∧ queueRoom b (other .running) 4 true = true ∧ after (.missMessageSend 2 3) b (fun u => decide (u.others.map (·.recv) = [[0x070000000010000A, 0x10000001, 0x10300, 9]])) = true)
      ∧ (findThread held h = some { other .running with place := .strand 1, packet := some ⟨0x77000, [1], 0, 0x100000⟩ } ∧ max 1024 (hearthOf held 0).freezewd.toNat ≤ 0x100000
        ∧ after (.packetWatchdog h) held (fun u => u.others.all fun y => decide (y.st = .trapped ∧ y.record.value = 0x77000)) = true) := by
  decide +kernel

/-- `PagesRead`, as a check. -/
def pagesReadB (va stop : Nat) : Nat → State → Bool
  | 0, _ => true
  | n + 1, s => decide (stop ≤ va) || (reachAnd s va 1 .load (fun ps t => hereB ps && !refreshHolds t ps)
      && pagesReadB ((va / 4096 + 1) * 4096) stop n (translated s va 1 .load))

theorem pagesRead_of {stop : Nat} : ∀ {n va : Nat} {s : State}, pagesReadB va stop n s = true → PagesRead va stop n s
  | 0, _, _, _ => trivial
  | n + 1, va, s, h => by
    simp only [pagesReadB, Bool.or_eq_true, Bool.and_eq_true, decide_eq_true_eq] at h
    rcases h with h | h
    · exact .inl h
    · obtain ⟨e, h2⟩ := reach_of h.1
      simp only [Bool.and_eq_true, Bool.not_eq_true'] at h2
      exact .inr ⟨⟨e, here_of h2.1⟩, h2.2, pagesRead_of h.2⟩

/-- WeightBindings: a handle, a record of an aligned base and length in mapped pages, and a handle above 255. -/
theorem test_witness_bindings :
    let s := withMem [(0x40000200, 8, 0x9000000010001000), (0x40000208, 8, 0x1000)] (one (regs [(4, 3), (5, 0x10000200), (6, 256)]))
    s.th.r.guard ⟨0, 0⟩ = true ∧ (s.th.r.rg 4).toNat ≤ 255 ∧ addr (s.th.r.rg 5) % 16 = 0 ∧ readableB s 0x10000200 16 = true ∧ s.th.inTask = false ∧ quietB s = true
      ∧ (let w (k : Nat) : Nat := loaded s 0x10000200 16 / 2 ^ (64 * k) % 2 ^ 64
        w 0 % 64 = 0 ∧ w 1 % 64 = 0 ∧ w 1 < 2 ^ 48 ∧ w 0 % 2 ^ 56 + w 1 ≤ 2 ^ 56) ∧ pagesReadB 0x10001000 0x10002000 3 (fetched s 0x10000200 16) = true
      ∧ 255 < (s.th.r.rg 6).toNat
      ∧ after (.rebind ⟨0, 0⟩ 7 4 5) s (fun t => decide (t.th.r.rg 7 = 1 ∧ bindingOf t 1 3 = ⟨0x9000000010001000, 0x1000, 1⟩)
          && after (.bindq ⟨0, 0⟩ 7 4 1) t fun u => decide (u.th.r.rg 7 = 0x1000)) = true
      ∧ after (.bindq ⟨0, 0⟩ 7 6 0) s (fun t => decide (t.th.st = .trapped ∧ t.th.record.value = 256)) = true := by
  decide +kernel

/-- A thread at a level, in a world, with a unit selected. -/
def levelAt (priv : BitVec 2) (secure : Bool) (v : Word) : State :=
  let s := one (regs [(4, v)])
  { s with th := { s.th with priv := priv, secure := secure, dbgsel := 5 } }

/-- ReadRegisters, WriteRegisters: a strand seat at each level, in each world, with a unit selected, a level that is too low, and a poisoned line. -/
theorem test_witness_registers :
    let s := levelAt 2 true 0xFFFFFFFFFFFFFFFF
    let reads (s : State) (n : BitVec 12) (w : Word) : Bool := after (.srd ⟨0, 0⟩ 7 n) s fun t => decide (t.th.r.rg 7 = w)
    let keeps (n : BitVec 12) (mask : Word) : Bool := after (.swr ⟨0, 0⟩ 4 n) s fun t => decide (readReg t n.toNat = mask ∧ t.mem = s.mem)
    (s.th.r.guard ⟨0, 0⟩ = true ∧ s.th.place = .strand 0 ∧ 1 ≤ s.th.priv.toNat ∧ s.th.priv ≠ 3 ∧ s.th.priv.toNat = 2 ∧ (levelAt 0 false 0).th.priv.toNat < readLevel 0x100
        ∧ (levelAt 0 false 0).th.priv.toNat < writeLevel 0x015 ∧ (levelAt 2 false 0).th.secure = false ∧ s.th.secure = true ∧ selectedUnit s.th = some (.core 5))
      ∧ (0x10000080 / 128 ∈ ({ s with poison := [0x10000080 / 128] } : State).poison ∧ (0x10000080 : Word).toNat % 2 ^ 52 / 128 = 0x10000080 / 128)
      ∧ (reads s 0x004 1 && reads s 0x005 1 && reads s 0x100 0x100000 && reads s 0x102 3 && reads s 0x103 0x8421 && reads s 0x8FF 5
        && after (.srd ⟨0, 0⟩ 7 0x100) (levelAt 0 false 0) (fun t => decide (t.th.st = .trapped ∧ t.th.record.value = 0x100 ∧ t.th.record.head.extractLsb' 0 8 = 0x04))) = true
      ∧ (keeps 0x013 0x000FFFFFFFFF003F && keeps 0x100 0xFFFFFFFF && keeps 0x200 0x80FFFFFFFFFFF3FF && keeps 0x320 0x800FFFFFFFFFF01F && keeps 0x400 0x800FFFFFFFFFF0FF
        && keeps 0x810 0xE0FFFFFFFFFFFFFC && keeps 0x015 0xFFFFFFFFFFFFFFFF) = true
      ∧ (after (.vlgrp 0 0x3E) s (fun t => decide ((hearthOf t 0).vlgrp = 0x3E)) && after (.vlgrp 0 0x80) s (fun t => decide ((hearthOf t 0).vlgrp = 3))
        && after (.poisclr 0 0x10000080) { s with poison := [0x10000080 / 128] } (fun t => decide (t.poison = []))
        && after (.thrstat 0x0000000000000938) { s with th := { s.th with r := { s.th.r with flags := 0x3F } } } (fun t => decide (t.th.r.rnd = 1 ∧ t.th.r.ftz = true ∧ t.th.r.flags = 0x07))) = true := by
  decide +kernel

/-- TrapEntry, TrapsAndReturns: a strand thread with and without a handler of the class; a trapped thread to resume, skip and end; levels 0 and 2; hearths to halt and
release, drained and not, and a number that is none; a unit that runs. -/
theorem test_witness_traps :
    let s0 := one (regs [(4, 0x101001), (5, 0), (6, 192)])
    let dead : Thread := { other .trapped with record := { pc := 0x10000000, head := 0x0113 } }
    let s : State := { s0 with th := { s0.th with priv := 2 }, others := [dead], spaces := [(1, { trapvec := #v[0, 0x8000000000103001, 0] })] }
    let w := s.th.r.rg 4
    (s.th.st = .running ∧ s.th.place = .strand 0 ∧ handlerOf false (spaceOf s 1).trapvec 0 = some 0x8000000000103001 ∧ handlerOf false (spaceOf s 1).trapvec 2 = none
        ∧ (spaceOf s 1).trapvec.toList[1]? = some 0x8000000000103001 ∧ (0x8000000000103001 : Word).getLsbD 63 = true ∧ (spaceOf s0 1).trapvec.toList[1]? = some 0)
      ∧ (s.th.r.guard ⟨0, 0⟩ = true ∧ 1 ≤ s.th.priv.toNat ∧ s.th.priv ≠ 1 ∧ w.extractLsb' 56 8 = 0 ∧ w.extractLsb' 10 2 = 0 ∧ dead.id = ⟨w.extractLsb' 0 10, w.extractLsb' 12 44⟩
        ∧ liveThread s dead.id = some dead ∧ dead.id ≠ s.th.id ∧ dead.st = .trapped ∧ dead.place = .off ∧ dead.secure = false ∧ quietB s = true ∧ dead.queue = []
        ∧ dead.forge = false ∧ dead.r.frame.n = 0)
      ∧ (s0.th.priv = 0 ∧ 191 < (s.th.r.rg 6).toNat ∧ (s.th.r.rg 5).toNat ≤ 191 ∧ (hearthOf s 0).quiesced = false ∧ drained s 0 = false ∧ drained s 7 = true
        ∧ partnerUnit s (.core 9) = none ∧ (moduleOf s (.core 9)).stopped = false)
      ∧ (after (.trapi ⟨0, 0⟩ 4 7) s (fun t => decide (t.th.st = .trapped ∧ t.th.record.value = w ∧ t.th.record.pc = 0x10000004 ∧ t.th.record.head.extractLsb' 48 8 = 7))
        && after (.brk ⟨0, 0⟩ 7) s (fun t => decide (t.th.st = .trapped ∧ t.th.record.pc = 0x10000000 ∧ t.th.record.head.extractLsb' 0 8 = 0x30))
        && after (.tretResume ⟨0, 0⟩ 4 0) s (fun t => t.others.all fun y => decide (y.st = .ready ∧ y.r.pc = dead.r.pc))
        && after (.tretSkip ⟨0, 0⟩ 4 0) s (fun t => t.others.all fun y => decide (y.st = .ready ∧ y.r.pc = 0x10000004))
        && after (.tretKill ⟨0, 0⟩ 4 0) s (fun t => t.others.all fun y => decide (y.st = .done ∧ y.r.g.get 0 = 0x8000000000000013))
        && after (.tretResume ⟨0, 0⟩ 4 0) s0 (fun t => decide (t.th.st = .trapped ∧ t.th.record.head.extractLsb' 0 8 = 0x04))
        && after (.haltcQuiesce ⟨0, 0⟩ 5) s (fun t => decide ((hearthOf t 0).quiesced = true ∧ t.th.wait = .halted 0))
        && after (.haltcRelease ⟨0, 0⟩ 6) s (fun t => decide (t.th.st = .trapped ∧ t.th.record.value = 192))
        && after (.dbgctlStop (.core 9)) s (fun t => decide ((moduleOf t (.core 9)).stopped = true))) = true := by
  decide +kernel

/-- A walker thread of bench 0 at level 2, with the registers of R394's example. -/
def walker (g : List (Reg × Word)) : State :=
  let s := one (regs g)
  { s with th := { s.th with id := ⟨1, 0x300⟩, priv := 2, place := .walker 0, hearth := 0, home := 0 }
           benches := [(0, { tlb := [⟨0x9E00002000000007, 0x1000200000⟩, page 1 0 0x80000000], shoot := ⟨40, 40, []⟩ })] }

/-- WalkerWords: a good entry and a bad one, a failed miss, a range of 512 pages, a query of its own bench, a frame that is absent, one with a block to write back, and one with a
block to fetch; a level that is too low. With R394's example: the shootdown is number 41 and removes the old entry. -/
theorem test_witness_walker :
    let s := walker [(4, 0x8400002000003007), (5, 0x1000203000), (6, 0), (8, 0x2000000000), (9, 0x0800700000000200), (10, 0x100100000), (12, 0x101001), (13, 1), (14, 7), (16, 0x2000003008), (18, 7), (19, 0x2000003008)]
    let y : Thread := { other .ready with r := regs [(1, 0xAB)], dirty := 1 }
    let lacks : State := withMem [(0x80101008, 8, 0x5A)] { s with others := [{ y with resident := 0xFFFE }] }
    let has : State := { s with others := [y] }
    (s.th.r.guard ⟨0, 0⟩ = true ∧ s.th.st = .running ∧ s.th.priv = 2 ∧ (one (regs [])).th.priv.toNat < 2 ∧ s.th.r.rg 6 = BitVec.ofNat 64 0
        ∧ badEntry ⟨s.th.r.rg 4, s.th.r.rg 5⟩ = false ∧ badEntry ⟨s.th.r.rg 14, s.th.r.rg 15⟩ = true ∧ s.shootdowns = [] ∧ (∀ x ∈ threads s, x.queue = [])
        ∧ s.th.r.rg 10 ≠ 0 ∧ badRange (s.th.r.rg 8) (s.th.r.rg 9) = false ∧ quietB s = true
        ∧ ((s.th.r.rg 18).extractLsb' 21 43 = 0 ∧ (s.th.r.rg 18).extractLsb' 10 6 = 0 ∧ ((s.th.r.rg 18).extractLsb' 16 5).toNat = 0))
      ∧ ((s.th.r.rg 12).extractLsb' 56 8 = 0 ∧ (s.th.r.rg 12).extractLsb' 10 2 = 0 ∧ s.th.r.rg 13 = BitVec.ofNat 64 (2 ^ 0) ∧ liveThread s ⟨1, 0x101⟩ = none
        ∧ liveThread has ⟨1, 0x101⟩ = some y ∧ y.id ≠ s.th.id ∧ y.secure = false ∧ hasBlock y.resident 0 = true ∧ pinned y 0 = false ∧ has.remotes = []
        ∧ (match placeBlock y 0 has with
          | (.ok (p :: _), t) => decide (p.node = none ∧ p.pa = 0x80101000) && !poisoned t p.pa 256
          | _ => false) = true
        ∧ hasBlock 0xFFFE 0 = false ∧ blocksResident lacks 0 < 1024)
      ∧ (after (.tlbw ⟨0, 0⟩ 4 6) s (fun t => decide ((benchOf t 0).tlb.head? = some ⟨0x8400002000003007, 0x1000203000⟩))
        && after (.tlbinv ⟨0, 0⟩ 3 8 0 3) s (fun t => decide (t.th.r.rg 3 = 41 ∧ (benchOf t 0).tlb = [page 1 0 0x80000000] ∧ t.th.wait = .shootdown 0 41))
        && after (.tlbq ⟨0, 0⟩ 20 18 0) s (fun t => decide (t.th.r.rg 20 = 0x9E00002000000007 ∧ t.th.r.rg 21 = 0x1000200000))
        && after (.ctxevict ⟨0, 0⟩ 12 13) has (fun t => t.others.all (fun x => decide (x.resident = 0xFFFE)) && decide (Mem.read t.mem 0x80101008 8 = 0xAB))
        && after (.ctxfill ⟨0, 0⟩ 12 13) lacks (fun t => t.others.all fun x => decide (x.resident = 0xFFFF ∧ x.r.rg 1 = 0x5A))) = true := by
  decide +kernel

/-- TranslationEvents: a stalled thread without a translation; a shootdown that nothing holds up; a stalled thread whose wait is over; a block that is wanted and absent, one that
is present, and one whose page is refused. -/
theorem test_witness_translation_events :
    let s := one (regs [])
    let y : Thread := { other .stalledMemory with place := .strand 1, hearth := 0 }
    let at_ (y : Thread) : State := { s with others := [y] }
    let lacks : Thread := { y with st := .stalledRegister, wanted := 2, resident := 0xFFFD }
    let parked : Thread := { other .parked with wait := .park, dirty := 2 }
    let d : Shootdown := { issuer := 0, n := 1, base := 0, word := 0, benches := [0], cyc := 0 }
    let ro : State := { at_ parked with hearths := [], benches := [(0, { tlb := [⟨0x9C00000000000001, 0x80000000⟩] })] }
    (liveThread (at_ y) y.id = some y ∧ y.st = .stalledMemory ∧ y.bench = 0 ∧ lookupTlb 1 0x70000000 (benchOf (at_ y) 0).tlb = none ∧ (benchOf (at_ y) 0).misses = []
        ∧ freeIndex [] = some 0 ∧ after (.tlbBenchMiss 0 y.id 0x70000 0) (at_ y) (fun t => decide ((benchOf t 0).misses.map (·.page) = [0x70000])) = true)
      ∧ (d.issuer = 0 ∧ shootdownDone { at_ y with shootdowns := [d] } d = true ∧ (benchOf (at_ y) 0).shoot.ahead = [] ∧ d.n = (benchOf (at_ y) 0).shoot.completed + 1
        ∧ after (.shootdownComplete 0) { at_ y with shootdowns := [d] } (fun t => decide (t.shootdowns = [] ∧ (benchOf t 0).shoot.completed = 1)) = true)
      ∧ (stillWaits (at_ y) y.id = false ∧ after (.memoryReply y.id) (at_ y) (fun t => t.others.all fun x => decide (x.st = .seated)) = true)
      ∧ ((match placeBlock lacks 1 (at_ lacks) with
          | (.ok (p :: _), t) => decide (p.node = none) && !poisoned t p.pa 256
          | _ => false) = true ∧ hasBlock lacks.wanted 1 = true ∧ hasBlock lacks.resident 1 = false ∧ blocksResident (at_ lacks) 0 < 1024
        ∧ after (.registerBlockArrive y.id 1) (withMem [(0x80101100, 8, 7)] (at_ lacks)) (fun t => t.others.all fun x => decide (x.st = .seated ∧ x.resident = 0xFFFF)) = true)
      ∧ (hasBlock parked.resident 1 = true ∧ pinned parked 1 = false ∧ (match placeBlock parked 1 (at_ parked) with
          | (.ok (p :: _), _) => decide (p.node = none)
          | _ => false) = true
        ∧ after (.registerBlockWriteback y.id 1) (at_ parked) (fun t => t.others.all fun x => decide (x.resident = 0xFFFD)) = true)
      ∧ (liveThread ro y.id = some parked ∧ (match placeBlock parked 1 ro with
          | (.fault c, _) => decide (c = .protection)
          | _ => false) = true ∧ parked.stuckBlock ≠ some 1 ∧ parked.st = .parked
        ∧ after (.blockWritebackFail y.id 1) ro (fun t => t.others.all fun x => decide (x.stuckBlock = some 1)) = true) := by
  decide +kernel

/-! Witnesses for the forge. -/

/-- A shape of rank 1 in memory. -/
def flat1 (base size : Nat) : Shape := ⟨0x10000100, [BitVec.ofNat 64 base, BitVec.ofNat 64 size, 0, 1, 0, 1, 0, 0]⟩

/-- A forge thread whose pipeline has these streams and results in flight. -/
def forging (r : Regs) (qs : List (QReg × Stream)) (fl : List InFlight) : State :=
  let s := forger r
  { s with hearths := [(0, { hearthOf s 0 with forge := qs.foldl (fun f x => f.setStream x.1 (some x.2)) {}, inflight := fl })] }

/-- Every byte of an access lies in the local memory of the thread's own hearth, as a check. -/
def ownB (s : State) (va n : Nat) (k : AccessKind) : Bool := reachAnd s va n k fun ps t => hereB ps && ps.all (ownLocal t.th)

theorem own_of {s : State} {va n : Nat} {k : AccessKind} (h : ownB s va n k = true) : resolves s va n k ∧ landsOwn s va n k := by
  obtain ⟨e, h1⟩ := reach_of h
  simp only [Bool.and_eq_true, List.all_eq_true] at h1
  exact ⟨⟨e, here_of h1.1⟩, h1.2⟩

/-- `ReadsPieces`, as a check. -/
def readsPiecesB (q : QReg) (ps : List (Nat × Nat)) (s : State) : Bool :=
  match ps with
  | [] => true
  | (va, n) :: ps => readableB s va n && readsPiecesB q ps (s.tookPiece q va n)

theorem readsPieces_of {q : QReg} : ∀ {ps : List (Nat × Nat)} {s : State}, readsPiecesB q ps s = true → ReadsPieces q ps s
  | [], _, _ => trivial
  | (va, n) :: ps, s, h => by
    simp only [readsPiecesB, Bool.and_eq_true] at h
    exact ⟨readable_of h.1, readsPieces_of h.2⟩

/-- ForgeControl: a true and a false guard; a count of 0, a legal and an illegal one; six open levels; timelines before, at and past the operand; a free landing; a barrier to arrive at,
and its result. -/
theorem test_witness_forge_control :
    let s := forger (regs [(4, 3), (5, 0x4000000), (6, 0x1234)])
    let me : ThreadId := ⟨1, 0x100⟩
    let full : Regs := { regs [(4, 3)] with loops := Vector.replicate 6 ⟨0x4000000, true, 0, 3, 9⟩ }
    let D := dom [me] []
    let ended := { D with results := [(me, .value 77)] }
    let tl : State := { s with th := { s.th with timelines := (Vector.replicate 5 {}).set 0 ⟨3, 2, []⟩ } }
    (s.th.r.slotGuard ⟨0, 0⟩ = true ∧ s.th.r.slotGuard ⟨1, 0⟩ = false ∧ (s.th.r.rg 9).toNat = 0 ∧ (s.th.r.rg 4).toNat ≠ 0 ∧ (s.th.r.rg 4).toNat ≤ 0x3FFFFFF ∧ s.th.r.depth = 0
        ∧ full.depth = 6 ∧ 0x3FFFFFF < (s.th.r.rg 5).toNat ∧ (tl.th.timeline 0).last < (s.th.r.rg 6).toNat ∧ (s.th.r.rg 9).toNat ≤ (tl.th.timeline 0).completed
        ∧ (s.th.r.rg 4).toNat ≤ (tl.th.timeline 0).last ∧ (tl.th.timeline 0).completed < (s.th.r.rg 4).toNat ∧ (hearthOf s 0).inflight = [])
      ∧ ((member D s).th.domset.getLsbD 43 = true ∧ s.th.inTask = false ∧ openCollective (member D s) me = none ∧ domainAt (member D s) (member D s).th 1 = some 0 ∧ quietB (member D s) = true
        ∧ openCollective (member ended s) me = some 0 ∧ ended.resultOf me = some (.value 77))
      ∧ (after (.bbr ⟨0, 0⟩ 2) s (fun t => decide (t.th.r.pc = 0x10000040)) && after (.bbr ⟨1, 0⟩ 2) s (fun t => decide (t.th.r.pc = 0x10000020))
        && after (.bloop ⟨0, 0⟩ 4 4) s (fun t => decide (t.th.r.pc = 0x10000020 ∧ t.th.r.lx 0 = ⟨0x4000008, true, 0, 3, 4⟩))
        && after (.bloop ⟨0, 0⟩ 9 4) s (fun t => decide (t.th.r.pc = 0x100000A0)) && after (.bleave ⟨0, 0⟩) s (fun t => decide ((hearthOf t 0).forge.leaving = true ∧ t.th.r.pc = 0x10000020))
        && after (.bwaittl ⟨0, 0⟩ 4 0) tl (fun t => decide (t.th.st = .frozen ∧ (hearthOf t 0).frozen = some 6))
        && after (.bsync ⟨0, 0⟩ 7 6 0) s (fun t => decide ((hearthOf t 0).inflight = [⟨0, .g 7, .scalar 0x1234, 1⟩]))
        && after (.bsync ⟨0, 0⟩ 7 6 1) (member D s) (fun t => decide ((hearthOf t 0).frozen = some 7 ∧ (domainGet t 0).map (·.arrivals.length) = some 1))
        && after (.bsync ⟨0, 0⟩ 7 6 1) (member ended s) (fun t => decide ((hearthOf t 0).inflight = [⟨0, .g 7, .scalar 77, 1⟩] ∧ t.th.r.pc = 0x10000020))) = true := by
  decide +kernel

/-- ForgeScalars: a landing that is free and one that is not; a scalar stream with a unit at its head, one with room for an append, and one that is not bound. -/
theorem test_witness_forge_scalars :
    let S : Stream := { kind := readKind, unit := scalarUnit, shape := flat1 0x800000010000200 4, position := 1, units := [.bytes 1 0 [1, 2, 3, 4]] }
    let W : Stream := { kind := writeKind, unit := scalarUnit, shape := flat1 0x4000000010000200 4 }
    let s := forging (regs [(4, 100), (5, 0xFFFFFFFFFFFFFFFF)]) [(1, S), (2, W)] []
    let busy := forging (regs []) [] [⟨2, .g 7, .scalar 0, 1⟩]
    (s.th.r.slotGuard ⟨0, 0⟩ = true ∧ (hearthOf s 0).forge.stream 1 = some S ∧ S.popsUnit scalarUnit = true ∧ S.held = false ∧ S.units.head? = some (.bytes 1 0 [1, 2, 3, 4])
        ∧ S.used + 1 ≤ S.total ∧ S.shape.fmt < 5 ∧ (hearthOf s 0).forge.stream 2 = some W ∧ W.takesUnit scalarUnit = true ∧ W.used + 1 ≤ W.total ∧ (hearthOf s 0).forge.stream 3 = none
        ∧ (hearthOf s 0).inflight = [] ∧ (hearthOf busy 0).inflight.any (collides (.g 7) 1) = true)
      ∧ (after (.sadd ⟨0, 0⟩ 7 4 5 0 0) s (fun t => decide ((hearthOf t 0).inflight = [⟨1, .g 7, .scalar 99, 1⟩]))
        && after (.sadd ⟨0, 0⟩ 7 4 31 1 63) s (fun t => decide ((hearthOf t 0).inflight = [⟨1, .g 7, .scalar 99, 1⟩]))
        && after (.sadd ⟨0, 0⟩ 7 4 5 0 0) busy (fun t => decide (t.th.st = .trapped ∧ t.th.record.value = 0x0100000010000001))
        && after (.scmp ⟨0, 0⟩ 2 5 4 0 2) s (fun t => decide ((hearthOf t 0).inflight = [⟨1, .p 2, .scalar 1, 1⟩]))
        && after (.smovqPop ⟨0, 0⟩ 7 1) s (fun t => decide ((hearthOf t 0).inflight = [⟨1, .g 7, .scalar 0x04030201, 1⟩] ∧ ((hearthOf t 0).forge.stream 1).map (·.used) = some 1))
        && after (.smovqAppend ⟨0, 0⟩ 2 4) s (fun t => decide ((hearthOf t 0).inflight = [⟨1, .q 2, .scalar 100, 1⟩]))
        && after (.smovqPop ⟨0, 0⟩ 7 3) s (fun t => decide (t.th.st = .trapped ∧ t.th.record.value = 0x0500000010000001))) = true := by
  decide +kernel

/-- ForgeVectors: a vector stream with a unit at its head, one with room, and free landings; each slot operation on registers. -/
theorem test_witness_forge_vectors :
    let S : Stream := { kind := readKind, unit := vectorUnit, shape := flat1 0x800000010000200 16, position := 1, units := [.bytes 1 0 (natToBytes 64 (lanes32 [0x3F800000, 0x40000000]).toNat)] }
    let W : Stream := { kind := writeKind, unit := vectorUnit, shape := flat1 0x800000010000200 16 }
    let s := forging (vregs [(1, lanes32 [0x3F800000, 0x40000000]), (2, lanes32 [0x40000000, 0x40400000]), (4, lanes32 [0xFFFFFFFF, 7])] (regs [])) [(1, S), (2, W)] []
    let flies (i : Instr) (r : Reg) (v : Vec) (l : Nat) : Bool := after i s fun t => decide ((hearthOf t 0).inflight = [⟨2, .v r, .vector v, l⟩])
    (s.th.r.slotGuard ⟨0, 0⟩ = true ∧ (hearthOf s 0).forge.stream (qOf 1) = some S ∧ S.popsUnit vectorUnit = true ∧ S.held = false ∧ (S.units.head?).isSome ∧ S.used + 1 ≤ S.total
        ∧ S.kind = readKind ∧ (S.group).isSome ∧ (hearthOf s 0).forge.stream (qOf 2) = some W ∧ W.takesUnit vectorUnit = true ∧ W.used + 1 ≤ W.total ∧ (hearthOf s 0).inflight = []
        ∧ (operandOf s 1 1).map (·.1) = some (lanes32 [0x3F800000, 0x40000000]) ∧ (operandOf s 0 2).map (·.1) = some (s.th.r.rv 2)
        ∧ ((operandOf s 1 1).bind fun z => operandOf z.2 0 2).isSome)
      ∧ (flies (.bvadd ⟨0, 0⟩ 0 3 1 2 0 0 0 0) 3 (lanes32 [0x40400000, 0x40A00000]) 3 && flies (.bvmul ⟨0, 0⟩ 0 3 1 2 0 0 0 0) 3 (lanes32 [0x40000000, 0x40C00000]) 3
        && flies (.bvmax ⟨0, 0⟩ 0 3 1 2 0 0 0 0) 3 (lanes32 [0x40000000, 0x40400000]) 3 && flies (.bvadd ⟨0, 0⟩ 0 3 4 4 2 0 0 0) 3 (lanes32 [0xFFFFFFFE, 14]) 3
        && flies (.bvmul ⟨0, 0⟩ 0 3 4 4 2 0 0 0) 3 (lanes32 [1, 49]) 3 && flies (.bvmax ⟨0, 0⟩ 0 3 4 1 2 0 0 0) 3 (lanes32 [0x3F800000, 0x40000000]) 3
        && flies (.bvfma ⟨0, 0⟩ 0 1 1 2 0 0 0) 1 (lanes32 [0x40400000, 0x41000000]) 4 && flies (.bvmov ⟨0, 0⟩ 0 3 1 0 0) 3 (lanes32 [0x3F800000, 0x40000000]) 1
        && flies (.bvcvt ⟨0, 0⟩ 0 3 1 0 0 0 0) 3 (BitVec.ofNat 512 0x40003F80) 4 && flies (.bvsel ⟨0, 0⟩ 0 3 1 2 0) 3 (lanes32 [0x3F800000, 0x40000000]) 1
        && after (.bvcmp ⟨0, 0⟩ 0 8 1 2 0 0 2) s (fun t => decide ((hearthOf t 0).inflight = [⟨2, .p 8, .scalar 1, 2⟩]))
        && after (.bvqnt ⟨0, 0⟩ 0 3 1 9 2 0 0) s (fun t => decide ((hearthOf t 0).inflight.map (·.dst) = [.v 3, .g 9]))
        && after (.bvmov ⟨0, 0⟩ 0 2 1 1 1) s (fun t => decide ((hearthOf t 0).inflight = [⟨2, .q 2, .vector (lanes32 [0x3F800000, 0x40000000]), 1⟩]))) = true := by
  decide +kernel

/-- CrossbarAndStreams: distinct and equal places for a permutation; records to bind, fit and not; a receive descriptor in local memory; generators of each kind with units; a seat with results
that land, one that is blocked, a unit to read, one to write, one for a channel, and one that enters a receive buffer. -/
theorem test_witness_streams :
    let r := vregs [(1, lanes32 [5, 6, 7]), (2, lanes32 (List.range 16)), (3, lanes32 [])] ((regs [(4, 2), (5, 0xFFFFFFFFD00300)]).wsh 2 0x10000100)
    let rd : Stream := { kind := readKind, unit := scalarUnit, shape := flat1 0x800000010000200 4, position := 3, units := [.bytes 1 0 [1, 0, 0, 0], .bytes 1 0 [2, 0, 0, 0], .bytes 1 0 [3, 0, 0, 0]] }
    let wr : Stream := { kind := writeKind, unit := scalarUnit, shape := flat1 0x800000010000200 4, used := 1, position := 1, appends := [(0, .bytes 1 0 [9, 9, 9, 9])] }
    let rc : Stream := { kind := receiveKind, unit := scalarUnit, shape := ⟨0, []⟩, channel := 7, size := 4096, units := [.bytes 0 0 [1], .bytes 0 0 [2]] }
    let ow : Stream := { wr with shape := flat1 0x8FFFFFFFFD00200 4 }
    let ch : Stream := { wr with shape := ⟨0x10000100, [0x800000010000200, 4, 0, 1, 0, 1, 0x8000000007000000, 0]⟩, channel := 7 }
    let s := withMem (record1 0x40000100 0x800000010000200 4 ++ [(selfPa 0x300, 8, 0xFFFFFFFFD01000), (selfPa 0x308, 8, 0x700001000)])
      (forging r [(1, rd), (3, rc), (4, wr), (5, ch), (6, ow)] [⟨1, .g 7, .scalar 9, 1⟩, ⟨2, .v 3, .vector 0, 2⟩])
    let free := withMem (record1 0x40000100 0x800000010000200 4 ++ [(selfPa 0x300, 8, 0xFFFFFFFFD01000), (selfPa 0x308, 8, 0x700001000)]) (forging r [(1, rd), (4, { wr with appends := [] })] [])
    let blocked := forging r [(4, { wr with appends := List.replicate 64 (0, .bytes 1 0 [0, 0, 0, 0]) })] [⟨1, .q 4, .scalar 9, 1⟩]
    (s.th.st ≠ .unborn ∧ r.slotGuard ⟨0, 0⟩ = true ∧ r.slotGuard ⟨1, 0⟩ = false ∧ (List.range 16).map (fun j => lane 32 (r.rv 2) j % 16) = List.range 16 ∧ lane 32 (r.rv 3) 0 % 16 = lane 32 (r.rv 3) 1 % 16)
      ∧ ((hearthOf s 0).forge.stream 0 = none ∧ shapeAnd s 2 (fun x _ => unitAccepts 0 0 x && !unitAccepts 0 2 x) = true
        ∧ addr (r.rg 5) % 16 = 0 ∧ readableB free 0xFFFFFFFFD00300 16 = true
        ∧ (let n := loaded free 0xFFFFFFFFD00300 16
           let s1 := fetched free 0xFFFFFFFFD00300 16
           let s2 := translated s1 0xFFFFFFFFD00300 16 .load
           let s3 := translated s2 0xFFFFFFFFD01000 1 .load
           (n % 2 ^ 56 = 0xFFFFFFFFD01000 ∧ n / 2 ^ 64 % 2 ^ 32 = 2 ^ 12 ∧ n / 2 ^ 56 % 2 ^ 8 = 0 ∧ n / 2 ^ 112 = 0 ∧ n % 2 ^ 56 % 2 ^ 12 = 0)
             ∧ (ownB s1 0xFFFFFFFFD00300 16 .load && ownB s2 0xFFFFFFFFD01000 1 .load && ownB s3 0xFFFFFFFFD01FFF 1 .load) = true)
        ∧ receiver (hearthOf free 0) 7 = none)
      ∧ ((hearthOf s 0).forge.stream 1 = some rd ∧ (hearthOf s 0).forge.stream 3 = some rc ∧ (hearthOf s 0).forge.stream 4 = some wr ∧ rd.held = false ∧ (r.rg 4).toNat ≤ rc.units.length
        ∧ wr.used + 2 ≤ wr.total ∧ rd.used + 2 ≤ rd.total ∧ (2 : BitVec 8).toNat + 1 ≤ rd.capacity ∧ rd.capacity ≤ (64 : BitVec 8).toNat)
      ∧ (seatThread s 0 = some s.th.id ∧ (List.range 8).all (fun k => !appendBlocked (hearthOf s 0) (BitVec.ofNat 3 k)) = true ∧ appendBlocked (hearthOf blocked 0) 4 = true ∧ rd.position < rd.total
        ∧ rd.units.length < rd.capacity ∧ (rd.piece = 0 ∧ rd.got = [] ∧ readsPiecesB 1 (rd.pieces rd.position) s = true) ∧ wr.appends.head? = some (0, .bytes 1 0 [9, 9, 9, 9]) ∧ wr.shape.chan = 0
        ∧ (wr.piece = 0 ∧ wr.sent = false ∧ wr.failed = none ∧ s.th.failed = none ∧ streamStoresOut s 0 4 = false)
        ∧ ((hearthOf s 0).forge.stream 6 = some ow ∧ streamStoresOut s 0 6 = false ∧ ow.pieces 0 = [(0xFFFFFFFFD00200, 4)] ∧ writableB s 0xFFFFFFFFD00200 4 true = true)
        ∧ okAnd (storeUnit 0 4 wr 0 [9, 9, 9, 9]) s (fun b s1 => decide (b = true ∧ s1.th.st = s.th.st ∧ s1.remotes = s.remotes)) = true
        ∧ ch.shape.chan ≠ 0 ∧ ch.node = s.node
        ∧ (let v : State := { s with units := [{ hearth := 0, channel := 7, item := .bytes 0 0 [3] }] }
           v.units[0]? = some { hearth := 0, channel := 7, item := .bytes 0 0 [3] } ∧ receiver (hearthOf v 0) 7 = some 3 ∧ 2 + 1 ≤ rc.size
            ∧ after (.channelUnitReceive 0) v (fun t => decide (t.units = [] ∧ ((hearthOf t 0).forge.stream 3).map (·.units.length) = some 3)) = true))
      ∧ (after (.xbcast ⟨0, 0⟩ 6 1 2 1) free (fun t => decide ((hearthOf t 0).inflight = [⟨6, .v 6, .vector (lanes32 (List.replicate 16 6)), 2⟩]))
        && after (.xrot ⟨0, 0⟩ 6 1 2 1) free (fun t => decide ((hearthOf t 0).inflight = [⟨6, .v 6, .vector (lanes32 [0, 5, 6, 7]), 2⟩]))
        && after (.xperm ⟨0, 0⟩ 6 1 2 2) free (fun t => decide ((hearthOf t 0).inflight = [⟨6, .v 6, .vector (lanes32 [5, 6, 7]), 2⟩]))
        && after (.xperm ⟨0, 0⟩ 6 1 3 2) free (fun t => decide (t.th.st = .trapped ∧ t.th.record.value = 0x0200000010000006))
        && after (.qbind ⟨0, 0⟩ 0 0 0 2 0) free (fun t => decide (((hearthOf t 0).forge.stream 0).map (fun x => (x.kind, x.shape.size 0)) = some (0, 4)))
        && after (.qbind ⟨0, 0⟩ 0 0 2 2 0) free (fun t => decide (t.th.st = .trapped ∧ t.th.record.value = 0x10000100))
        && after (.qbind ⟨0, 0⟩ 0 2 0 0 5) free (fun t => decide (((hearthOf t 0).forge.stream 0).map (fun x => (x.channel, x.base, x.size)) = some (7, 0xFFFFFFFFD01000, 4096)))
        && after (.qadv ⟨0, 0⟩ 3 4) s (fun t => decide (((hearthOf t 0).forge.stream 3).map (·.units.length) = some 0))
        && after (.qwaitf ⟨0, 0⟩ 1 2) s (fun t => decide (t.th.st = .running)) && after (.qwaitf ⟨0, 0⟩ 1 3) s (fun t => decide ((hearthOf t 0).frozen = some 8))
        && after (.qwaite ⟨0, 0⟩ 4) s (fun t => decide ((hearthOf t 0).frozen = some 9)) && after (.qwaite ⟨0, 0⟩ 4) free (fun t => decide (t.th.st = .running))
        && after (.resultLanding 0) s (fun t => decide (t.th.r.rg 7 = 9 ∧ (hearthOf t 0).inflight = [⟨2, .v 3, .vector 0, 1⟩]))
        && after (.resultLanding 0) blocked (fun t => decide ((hearthOf t 0).frozen = some 2))
        && after (.streamUnitArrive 0 1) s (fun t => decide (((hearthOf t 0).forge.stream 1).map (·.units.length) = some 4))
        && after (.streamWritePerform 0 4) s (fun t => decide (((hearthOf t 0).forge.stream 4).map (·.appends) = some [] ∧ t.pending.map (·.pa) = [0x40000200]))
        && after (.streamWritePerform 0 6) s (fun t => decide (Mem.read t.mem (selfPa 0x200) 4 = 0x09090909 ∧ t.pending = []))
        && after (.streamWritePerform 0 5) s (fun t => decide (t.units.map (·.channel) = [7]))) = true := by
  decide +kernel

/-! Witnesses for the Anvil. -/

/-- R68 to R70: the two worked examples of exact_add, their drains, and the words in which cells travel. -/
theorem test_cells :
    let a := exactAdd { i := 3, x := -2 } 5 4
    let b := exactAdd { i := 1, x := 0 } 1 95
    (a.i = 0x143 ∧ a.x = -2 ∧ a.sticky = false ∧ a.alignLoss = false) ∧ (b.i = 0x400000000000000000000000 ∧ b.x = 1 ∧ b.sticky = true ∧ b.alignLoss = true)
      ∧ (drainCell 1 false a).1 = natToBytes 4 0x42A18000 ∧ (drainCell 2 false a).1 = natToBytes 2 0x42A2 ∧ (drainCell 1 false b).1 = natToBytes 4 0x6F000000
      ∧ a.words = [0x143, 0xFFFE] ∧ ({ i := -3, x := -7 } : Cell).words = [0xFFFFFFFFFFFFFFFD, 0xFFFFFFFF0000FFF9] := by
  decide +kernel

/-- R68, R69: 2^134 + 1 − 2^134 loses the 1 but for the sticky bit, and drains to the zero just below it. -/
theorem test_sticky_zero :
    let c := exactAdd (exactAdd (exactAdd {} 1 134) 1 0) (-1) 134
    c.i = 0 ∧ c.sticky = true ∧ (drainCell 1 false c).1 = natToBytes 4 0 := by
  decide +kernel

/-- A row of A of one block of 256 elements at two planes: exponent 1, its first two elements 1, the others 0. -/
def rowBytes : List Byte := [1] ++ List.replicate 32 0 ++ [3] ++ List.replicate 31 0

/-- A tile whose column 0 has the exponent 2 and begins 1, −2. -/
def tileCells : List Host.Cell := [(0, 2), (1, 2), (33, 1)]

def tileWord : Word := 0x8500000010000200

/-- A forge thread with a loaded bank, and a forge as given. -/
def anvil (g : List (Reg × Word)) (f : ForgeState) (load : Option Nat) : State :=
  let s := forger (regs g)
  { s with hearths := [(0, { (hearthOf s 0).setBank 0 (({} : Bank).load 1 false .awld 0 tileWord 2 tileCells load) with forge := f })] }

/-- AnvilOperations, banks: a bank that is free, with an entry in its queue; an empty queue and a load under way; words that are no tile tag, that are misaligned, and a tile that can be read; a load
whose cycles have passed. -/
theorem test_witness_anvil_banks :
    let s := anvil [(4, 0x8500000010000200), (5, 0x8500000010000210), (6, 0x9800000010000200)] {} none
    let queued : State := { s with hearths := (hearthOf s 0 |> fun x => [(0, { x with bankQueue := x.bankQueue.setIfInBounds 1 [(tileCells, tileWord, 2)] })]) }
    let wait := anvil [] {} (some 3)
    let due := anvil [] {} (some 0)
    (s.th.st ≠ .unborn ∧ s.th.hearth = 0 ∧ s.th.r.slotGuard ⟨1, 0⟩ = false ∧ s.th.r.slotGuard ⟨0, 0⟩ = true)
      ∧ ((hearthOf queued 0).bank 1).pinned = none ∧ ((hearthOf queued 0).bank 1).loading = none ∧ (hearthOf queued 0).bankQueue.toList.getD 1 [] = [(tileCells, tileWord, 2)]
      ∧ (tileTag tileWord 2).isSome ∧ (hearthOf s 0).bankQueue.toList.getD 1 [] = [] ∧ ((hearthOf wait 0).bank 0).loading.isSome ∧ tileTag (s.th.r.rg 6) 1 = none
      ∧ tileTag (s.th.r.rg 5) 1 = some (2, 256) ∧ addr (s.th.r.rg 5) % 64 ≠ 0 ∧ tileTag (s.th.r.rg 4) 1 = some (2, 256) ∧ addr (s.th.r.rg 4) % 64 = 0
      ∧ ((hearthOf due 0).bank 0).loading = some 0
      ∧ (after (.awld ⟨0, 0⟩ 1 1 0 1) queued (fun t => decide (((hearthOf t 0).bank 1).data = tileCells ∧ ((hearthOf t 0).bank 1).planes = 2 ∧ (hearthOf t 0).bankQueue.toList.getD 1 [] = []))
        && after (.awld ⟨0, 0⟩ 1 1 0 1) s (fun t => decide ((hearthOf t 0).frozen = some 5)) && after (.awld ⟨0, 0⟩ 0 1 0 1) wait (fun t => decide ((hearthOf t 0).frozen = some 5))
        && after (.awld ⟨0, 0⟩ 1 0 6 0) s (fun t => decide (t.th.st = .trapped ∧ t.th.record.value = 0x9800000010000200))
        && after (.awld ⟨0, 0⟩ 1 0 5 0) s (fun t => decide (t.th.st = .trapped ∧ t.th.record.value = 0x10000210))
        && after (.bankLoadComplete 0 0) due (fun t => decide (((hearthOf t 0).bank 0).loading = none))
        && after (.aswapSlot ⟨0, 0⟩ 1 1) s (fun t => decide ((hearthOf t 0).forge.sel = 1)) && after (.aswapSlot ⟨0, 0⟩ 0 0) s (fun t => decide ((hearthOf t 0).forge.sel = 1))) = true := by
  decide +kernel

/-- AnvilOperations, AISS: a bank that is not valid, a busy Anvil, too few rows in the buffer, a row that does not suit, a bank that loads, and rows of a stream and of the buffer that are multiplied;
and SCEXP of the sums, with R65's partial sum 1 × 1 + 1 × (−2) at the exponent 1 + 2. -/
theorem test_witness_anvil_issue :
    let row := rowOf 16 5 rowBytes
    let S : Stream := { kind := readKind, unit := rowUnit, shape := flat1 0x8500000010000200 256, position := 1, units := [.bytes 16 5 rowBytes] }
    let f : ForgeState := (({} : ForgeState).setStream 1 (some S))
    let s := anvil [(4, 0xFFFE)] f none
    let buf := anvil [] { f with rowBuf := [row] } none
    let ready (u : State) : Bool := decide (((hearthOf u 0).bank (hearthOf u 0).forge.sel).usable 1 false = true ∧ (hearthOf u 0).forge.busy = 0 ∧ (hearthOf u 0).forge.expQueue.length < 16)
    let other := anvil [] { f with rowBuf := [{ row with len := 6 }] } none
    let loads := anvil [] { f with rowBuf := [row] } (some 9)
    let P : PortSums := { remain := 0, rows := [[[-1], []]], index := 0, fmtA := 16, fmtB := 16, len := 256 }
    let E : ExpEntry := { exps := [[1]], tile := [[2], []], r := 3, two := false }
    let sums := anvil [(4, 0xFFFE)] { f with port := [P], expQueue := [E] } none
    (ready s && ready buf && ready other && ready loads) = true
      ∧ ((hearthOf (forger (regs [])) 0).bank 0).usable 1 false = false ∧ (hearthOf s 0).forge.rowBuf.length < 1 ∧ suits { row with len := 6 } 2 ((hearthOf other 0).bank 0) = false
      ∧ suits row 2 ((hearthOf buf 0).bank 0) = true ∧ ((hearthOf loads 0).bank 0).loading.isSome ∧ rowsAt s 1 0 1 = some [row] ∧ rowsAt buf 1 1 1 = some [row] ∧ (hearthOf s 0).forge.stream 1 = some S
      ∧ (hearthOf sums 0).forge.port.find? (fun x => decide (x.remain = 0)) = some P ∧ (hearthOf s 0).forge.port = []
      ∧ (after (.aiss ⟨0, 0⟩ 1 0 0 1 3) (forger (regs [])) (fun t => decide (t.th.record.value = 0x0B00000010000004))
        && after (.aiss ⟨0, 0⟩ 1 0 0 1 3) (anvil [] { f with busy := 2 } none) (fun t => decide (t.th.record.value = 0x0300000010000004))
        && after (.aiss ⟨0, 0⟩ 1 1 0 1 3) s (fun t => decide (t.th.record.value = 0x0C00000010000004))
        && after (.aiss ⟨0, 0⟩ 1 1 0 1 3) other (fun t => decide (t.th.st = .trapped ∧ t.th.record.head.toNat % 256 = Cause.format.code ∧ t.th.record.value = 0)) && after (.aiss ⟨0, 0⟩ 1 1 0 1 3) loads (fun t => decide ((hearthOf t 0).frozen = some 4))
        && after (.aiss ⟨0, 0⟩ 1 0 0 1 3) s (fun t =>
          let g := (hearthOf t 0).forge
          decide (g.busy = 2 ∧ g.issued = 1 ∧ g.port.map (fun y => (y.remain, (y.rows.map (fun z => z.take 2)))) = [(10, [[[-1], [0]]])] ∧ g.expQueue.map (fun e => (e.exps, e.tile.take 2, e.r)) = [([[1]], [[2], [0]], 3)]))
        && after (.scexp ⟨0, 0⟩ 4) sums (fun t => decide (cellAt (hearthOf t 0).forge.cells (3 * 256) = { i := -1, x := 1 } ∧ cellAt (hearthOf t 0).forge.cells (3 * 256 + 1) = {} ∧ (hearthOf t 0).forge.expQueue = []))
        && after (.scexp ⟨0, 0⟩ 4) s (fun t => (hearthOf t 0).forge.scexpIdle)) = true := by
  decide +kernel

/-- AnvilOperations, rows of cells and status: a drain stream with room and a drain under way; sums that were not taken; free landings for APROV. -/
theorem test_witness_anvil_rows :
    let W : Stream := { kind := writeKind, unit := rowUnit, shape := flat1 0x800000010000200 1024 }
    let f : ForgeState := { (({} : ForgeState).setStream 2 (some W)) with cells := [(3 * 256 + 1, { i := 5 }), (9 * 256, { i := 7 })] }
    let s := anvil [] f none
    let D : Drain := { q := 2, fmt := 1, clr := true, r := 3, n := 2, wait := 1 }
    let d := anvil [] { f with drain := some D } none
    let P : PortSums := { remain := 0, rows := [], index := 0, fmtA := 16, fmtB := 16, len := 256 }
    (f.drain = none ∧ f.stream 2 = some W ∧ W.drain = true ∧ W.shape.fmt = 1 ∧ W.held = false ∧ W.used + 2 ≤ W.total ∧ (hearthOf s 0).inflight = [] ∧ (6 : Reg).getLsbD 0 = false
        ∧ seatThread s 0 = some s.th.id ∧ (hearthOf d 0).forge.drain = some D ∧ D.k < D.n ∧ D.wait ≤ 1)
      ∧ (after (.azero ⟨0, 0⟩ 2 1) s (fun t => decide ((hearthOf t 0).forge.cells = [(9 * 256, { i := 7 })]))
        && after (.azero ⟨0, 0⟩ 127 1) s (fun t => decide (t.th.record.value = 0x0900000010000004))
        && after (.ashout ⟨0, 0⟩ 2 0 1 3 1) s (fun t => decide ((hearthOf t 0).forge.drain = some { D with wait := 3 }))
        && after (.aprov ⟨0, 0⟩ 7 1 0) s (fun t => decide ((hearthOf t 0).inflight = [⟨4, .g 7, .scalar 4, 2⟩]))
        && after (.aprov ⟨0, 0⟩ 6 0 0) s (fun t => decide ((hearthOf t 0).inflight.map (·.dst) = [.g 6, .g 7]))
        && after (.scalePortSums 0) (anvil [] { f with port := [P, { P with remain := 4 }] } none) (fun t => decide ((hearthOf t 0).forge.scexpMiss = true ∧ (hearthOf t 0).forge.port.map (·.remain) = [3]))
        && after (.ashoutRowDrain 0) d (fun t =>
          decide ((hearthOf t 0).forge.drain = some { D with k := 1 } ∧ (hearthOf t 0).forge.cells = [(9 * 256, { i := 7 })])
            && ((hearthOf t 0).forge.drained.map (fun x => match x.2.2 with
              | .bytes fm _ bs => (x.1, x.2.1, fm, bs.take 12)
              | _ => (x.1, 0, 0, []))) == [(2, 3, 1, natToBytes 4 0 ++ natToBytes 4 0x40A00000 ++ natToBytes 4 0)])) = true := by
  decide +kernel

/-- AnvilOperations, AWLD: a tile of two planes in local memory, of which one plane is read. -/
theorem test_witness_anvil_load :
    let va := 0xFFFFFFFFD01000
    let s := withMem [(selfPa 0x1000, 1, 2), (selfPa 0x1001, 1, 2)] (anvil [(4, BitVec.ofNat 64 (0x8500000000000000 + va))] {} none)
    (tileTag (s.th.r.rg 4) 1 = some (2, 256) ∧ va % 64 = 0 ∧ ((hearthOf s 0).bank 1).pinned = none ∧ ((hearthOf s 0).bank 1).loading = none)
      ∧ (reachAnd s va 1 .load (fun ps t => hereB ps && !refreshHolds t ps && ps.all fun p => (localHearth p.pa).isSome)
        && readsB ((tilePieces 2 256 2 va).take 1) (translated s va 1 .load)) = true
      ∧ (tilePieces 2 256 2 va).length = 260 ∧ loaded s va 2 = 0x0202 := by
  decide +kernel

/-! Witnesses for the engines. -/

/-- Command records and a transfer list at 0x10000400 on, the numbers of R293's example, and 16 bytes to copy. -/
def commands : State :=
  let s := one (regs [(4, 0x10000400), (5, 16), (6, 0x10000440), (7, 3), (8, 0x10000408), (9, 0x10000480), (10, 15)])
  let rows := (List.range 4).flatMap fun r => (List.range 16).map fun k => (0x40000A00 + 16 * r + k, 1, 0xA0 + r)
  withMem ([(0x40000400, 8, 0x10000800), (0x40000408, 8, 0x10000840), (0x40000840, 8, 0x1122334455667788), (0x40000848, 8, 0x99),
      (0x40000440, 8, 0x10000900), (0x40000448, 8, 0x10000A00), (0x40000450, 8, 0x10000B00), (0x40000458, 8, 0x100000010), (0x40000460, 8, 16), (0x40000468, 8, 16),
      (0x40000B00, 4, 2), (0x40000B04, 4, 0xFFFFFFFF), (0x40000480, 8, 1), (0x400004A0, 8, 0x10000800), (0x400004A8, 8, 0x10000840), (0x400004B0, 8, 16)] ++ rows)
    { s with benches := [(0, { tlb := [page 1 0x10000000 0x40000000] })] }

/-- `EngineReaches`, as a check, and with what the places satisfy. -/
def engineReachB (s : State) (o : EngineOp) (va n : Nat) (k : AccessKind) (f : List Spot → State → Bool) : Bool :=
  decide (0 < n ∧ va % 4096 + n ≤ 4096 ∧ va < 2 ^ 56) && match reach o.agent va n k s with
    | (.ok ps, t) => hereB ps && !ps.isEmpty && f ps t
    | _ => false

theorem engineReach_of {s : State} {o : EngineOp} {va n : Nat} {k : AccessKind} {f : List Spot → State → Bool} (h : engineReachB s o va n k f = true) :
    EngineReaches s o va n k ∧ f (enginePlaces s o va n k) (engineMoved s o va n k) = true := by
  unfold engineReachB at h
  simp only [Bool.and_eq_true, decide_eq_true_eq] at h
  obtain ⟨h1, h2⟩ := h
  split at h2
  · next ps t e =>
    simp only [Bool.and_eq_true] at h2
    have e1 : enginePlaces s o va n k = ps := by simp only [enginePlaces, e]
    have e2 : engineMoved s o va n k = t := by simp only [engineMoved, e]
    exact ⟨⟨h1, by rw [e1, e], e1 ▸ here_of h2.1.1⟩, by rw [e1, e2]; exact h2.2⟩
  · simp at h2

/-- `EngineReads` and `EngineWrites`, as checks. -/
def engineReadsB (s : State) (o : EngineOp) (va n : Nat) : Bool :=
  engineReachB s o va n .load fun ps t => !refreshHolds t ps && !ps.any fun q => poisoned t q.pa 1
def engineWritesB (s : State) (o : EngineOp) (m : WriteMode) (va n : Nat) : Bool :=
  engineReachB s o va n .store fun ps t => m.ingot || ps.all fun q => !readOnly t o.t.asid q.va q.pa

theorem engineReads_of {s : State} {o : EngineOp} {va n : Nat} (h : engineReadsB s o va n = true) : EngineReads s o va n := by
  obtain ⟨h1, h2⟩ := engineReach_of h
  simp only [Bool.and_eq_true, Bool.not_eq_true'] at h2
  exact ⟨h1, h2.1, h2.2⟩

theorem engineWrites_of {s : State} {o : EngineOp} {m : WriteMode} {va n : Nat} (h : engineWritesB s o m va n = true) : EngineWrites s o m va n := by
  obtain ⟨h1, h2⟩ := engineReach_of h
  simp only [Bool.or_eq_true, List.all_eq_true, Bool.not_eq_true'] at h2
  exact ⟨h1, h2⟩

/-- `ListAt`, as a check. -/
def listB (s : State) (va : Nat) : Bool :=
  let w := wordsAt s va 4
  decide (va % 32 = 0 ∧ 1 ≤ (w.getD 0 0).toNat ∧ (w.getD 0 0).toNat ≤ 65535 ∧ w.getD 3 0 = 0) && readableB s va 32 && readsB (listPieces s va) (fetched s va 32)
    && !(entriesOf (w.getD 0 0).toNat (listEntryWords s va)).any badEntryWords

theorem list_of {s : State} {va : Nat} (h : listB s va = true) : ListAt s va := by
  simp only [listB, Bool.and_eq_true, decide_eq_true_eq, Bool.not_eq_true'] at h
  obtain ⟨⟨⟨h1, h2⟩, h3⟩, h4⟩ := h
  exact ⟨h1.1, readable_of h2, h1.2, reads_of h3, h4⟩

/-- A read of an engine, as a check of its bytes and the state after it. -/
def engineAnd (o : EngineOp) (va n : Nat) (s : State) (f : List Byte → State → Bool) : Bool := okAnd (engineRead o va n) s f

/-- TongsOperations, issue: released threads, records that are in order and not, a misaligned one, a list; a domain with room; and in forge mode a stream of units that nobody holds. -/
theorem test_witness_tongs_issue :
    let s := commands
    let f : State := { forger s.th.r with mem := s.mem }
    let S : Stream := { kind := readKind, unit := scalarUnit, shape := flat1 0x800000010000200 4, position := 1, units := [.bytes 1 0 [1, 2, 3, 4]] }
    let q := { forging (regs [(4, 0x8000000007000000), (5, 1)]) [(1, S)] [] with mem := s.mem }
    let D := dom [s.th.id] []
    let m := member D s
    let free (u : State) : Bool := decide (awaitsRelease scopeSystem u u.th = false ∧ computing u u.th = none)
    let record (u : State) (va : Nat) (g : List Word → Bool) : Bool := readableB (drainHearth u.th.view u) va 64 && g (wordsAt (drainHearth u.th.view u) va 8)
    let isOp (t : State) (kind : EngineKind) (a : Nat) (arg : Word) : Bool :=
      decide (t.ops.map (fun o => (o.e, o.n, o.kind, o.addr, o.arg)) = [(1, 1, kind, a, arg)] ∧ (t.th.timeline 1).last = 1)
    (free s && free f && free q && free m) = true ∧ s.th.r.guard ⟨0, 0⟩ = true ∧ f.th.r.slotGuard ⟨0, 0⟩ = true ∧ writesDone f 0 = true ∧ writesDone q 0 = true
      ∧ (hearthOf f 0).inflight = [] ∧ (hearthOf q 0).inflight = []
      ∧ addr (s.th.r.rg 4) % 64 = 0 ∧ addr (s.th.r.rg 6) % 64 = 0 ∧ addr (s.th.r.rg 8) % 64 ≠ 0 ∧ readableB (drainHearth s.th.view s) 0x10000400 64 = true ∧ readableB (drainHearth s.th.view s) 0x10000440 64 = true
      ∧ readableB (drainHearth f.th.view f) 0x10000400 64 = true
      ∧ record s 0x10000400 (fun ws => !badCommand .cpy ws 16 && badCommand .cpy ws 15 && badCommand .gath ws 3) = true
      ∧ record s 0x10000440 (fun ws => !badCommand .gath ws 3 && !badCommand .scat ws 3 && badCommand .cpy ws 16) = true
      ∧ record f 0x10000400 (fun ws => !badCommand .cpy ws 16) = true
      ∧ (listB (drainHearth s.th.view s) 0x10000480 && listB (drainHearth f.th.view f) 0x10000480 && listB (drainHearth m.th.view m) 0x10000480) = true
      ∧ payload (listWords (drainHearth s.th.view s) 0x10000480) = 16 ∧ domainAt m m.th 1 = some 0 ∧ domainGet m 0 = some D
      ∧ levelValid m.th.domset 1 = true ∧ D.pendingBytes + 16 < 2 ^ 32
      ∧ (hearthOf q 0).forge.stream 1 = some S ∧ S.held = false ∧ badChannel (q.th.r.rg 4) = false ∧ S.used + 1 ≤ S.total
      ∧ (after (.cpy ⟨0, 0⟩ 3 4 5) s (fun t => isOp t .cpy 0x10000400 16 && decide (t.th.r.rg 3 = 1)) && after (.gath ⟨0, 0⟩ 3 6 7) s (fun t => isOp t .gath 0x10000440 3)
        && after (.scat ⟨0, 0⟩ 3 6 7) s (fun t => isOp t .scat 0x10000440 3)
        && after (.cpy ⟨0, 0⟩ 3 4 10) s (fun t => decide (t.th.st = .trapped ∧ t.th.record.value = 0x10000400 ∧ t.ops = []))
        && after (.gath ⟨0, 0⟩ 3 8 5) s (fun t => decide (t.th.st = .trapped ∧ t.th.record.value = 0x10000408))
        && after (.xfer ⟨0, 0⟩ 3 9) s (fun t => isOp t .xfer 0x10000480 0) && after (.xchg ⟨0, 0⟩ 3 9 0) s (fun t => isOp t .xfer 0x10000480 0)
        && after (.xchg ⟨0, 0⟩ 3 9 1) m (fun t => isOp t .xfer 0x10000480 0 && decide (t.ops.map (fun o => (o.domain, o.counted)) = [(some 0, 16)] ∧ (domainGet t 0).map (·.pendingBytes) = some 16))
        && after (.tcopy ⟨0, 0⟩ 3 4 5) f (fun t => isOp t .cpy 0x10000400 16 && decide ((hearthOf t 0).inflight = [⟨5, .g 3, .scalar 1, 1⟩]))
        && after (.tgath ⟨0, 0⟩ 3 6 7) f (fun t => isOp t .gath 0x10000440 3) && after (.tscat ⟨0, 0⟩ 3 6 7) f (fun t => isOp t .scat 0x10000440 3)
        && after (.txfer ⟨0, 0⟩ 3 9 5) f (fun t => isOp t .xfer 0x10000480 0)
        && after (.tsend ⟨0, 0⟩ 3 4 5 1) q (fun t => isOp t .send 1 1 && decide (((hearthOf t 0).forge.stream 1).map (·.held) = some true))) = true := by
  decide +kernel

/-- TongsOperations, performance: ranges of one page that an engine reaches, in a page it may write and in one that is read-only; the copy, the rows and the list of the records above. With
R293's example: GATH leaves rows of A2, 00 and A0 and the status 0x8000000000000003. -/
theorem test_witness_tongs_effects :
    let s := commands
    let me := s.th.id
    let o (kind : EngineKind) (a : Nat) (arg : Word) : EngineOp :=
      { s.th.operation kind 1 1 a ((List.range 8).map fun k => BitVec.ofNat 64 (Mem.read s.mem (a - 0x10000000 + 0x40000000 + 8 * k) 8)) with arg := arg }
    let cpy := o .cpy 0x10000400 16
    let gath := o .gath 0x10000440 3
    let scat := o .scat 0x10000440 1
    let list := o .xfer 0x10000480 0
    let ran (x : EngineOp) (f : State → Bool) : Bool := after (.tongsOpComplete me 1) { s with th := { s.th with timelines := (Vector.replicate 5 {}).set 1 ⟨1, 0, []⟩ }, ops := [x] }
      fun t => decide (findOp t me 1 1 = none ∧ (t.th.timeline 1).completed = 1) && f t
    let pair (x : EngineOp) (src dst n : Nat) (m : WriteMode) : Bool :=
      engineAnd x src n { s with ops := [x] } fun bs t => decide (bs.length = n) && okAnd (engineWrite x m dst bs) t fun _ _ => true
    let reachesIn (s : State) (x : EngineOp) (va n : Nat) (k : AccessKind) : Bool := match reach x.agent va n k s with
      | (.ok ps, t) => !ps.isEmpty && hereB ps && (k == .load || ps.all fun z => !readOnly t x.t.asid z.va z.pa) && !ps.any (fun z => poisoned t z.pa 1)
      | _ => false
    let reaches := reachesIn s
    let locked : State := { s with benches := [(0, { tlb := [page 1 0x10000000 0xFE00000000000] })] }
    (cpy.failed = none ∧ (reaches cpy 0x10000840 16 .load && reaches cpy 0x10000800 16 .store) = true
        ∧ (match reach cpy.agent 0x10000800 8 .store locked with
          | (.ok (p :: ps), t) => hereB (p :: ps) && readOnly t 1 p.va p.pa
          | _ => false) = true)
      ∧ (addr (cpy.word 0) % 4096 + 16 ≤ 4096 ∧ pair cpy 0x10000840 0x10000800 16 { heals := true } = true)
      ∧ okAnd (engineWord gath (0x10000B00 + 4 * 2) 4) { s with ops := [gath] } (fun k _ => decide (k = 0 ∧ gath.field 3 32 1 = 1)) = true
      ∧ (pair gath (rowAddr (gath.word 1) 0 16) (rowAddr (gath.word 0) 2 16) 16 {} && pair scat (rowAddr (scat.word 1) 2 16) (rowAddr (scat.word 0) 0 16) 16 {}) = true
      ∧ (listEntries (list.desc.take 4 ++ [0x10000800, 0x10000840, 16, 0]) = [⟨0x10000800, 0x10000840, 16, false⟩] ∧ pair list 0x10000840 0x10000800 16 { heals := true } = true)
      ∧ (let s0 : State := { s with ops := [cpy] }
         let s1 := engineFetched s0 cpy 0x10000840 16
         let s2 := engineMoved s1 cpy 0x10000800 16 .store
         (cpy.phase = 0 ∧ cpy.log = [] ∧ cpy.hand = [] ∧ cpy.base = 0 ∧ cpy.failed = none ∧ cpy.replies = []) ∧ opWaits cpy s0 = false
           ∧ (engineReadsB s0 cpy 0x10000840 16 && engineWritesB s1 cpy {} 0x10000800 16 && engineWritesB s2 cpy {} 0x10000430 8) = true)
      ∧ (okAnd (tongsEffects cpy) (({ s with ops := [cpy] } : State).begun cpy) (fun _ t => !opWaits cpy t && reachesIn t cpy 0x10000430 8 .store)) = true
      ∧ (ran cpy (fun t => decide (Mem.read t.mem 0x40000800 16 = 0x991122334455667788 ∧ Mem.read t.mem 0x40000430 8 = 0x8000000000000001))
        && ran gath (fun t => decide (Mem.read t.mem 0x40000900 48 = 0xA2A2A2A2A2A2A2A2A2A2A2A2A2A2A2A2 + 0xA0A0A0A0A0A0A0A0A0A0A0A0A0A0A0A0 * 2 ^ 256
          ∧ Mem.read t.mem 0x40000470 8 = 0x8000000000000003))
        && ran scat (fun t => decide (Mem.read t.mem 0x40000920 16 = 0xA0A0A0A0A0A0A0A0A0A0A0A0A0A0A0A0))
        && ran list (fun t => decide (Mem.read t.mem 0x40000800 16 = 0x991122334455667788 ∧ Mem.read t.mem 0x40000488 8 = 0x8000000000000001))) = true := by
  decide +kernel

/-- The hypothesis of TongsOperations and ExpertOperations that speaks of every change of an operation's record holds where the place is reached: a translation does not read the record. -/
theorem test_witness_reach {o : EngineOp} {s s2 : State} {ps : List Spot} {place : Nat} (h : reach o.agent place 8 .store s = (.ok ps, s2)) (t : ThreadId) (e n : Nat) :
    ∀ f, reach o.agent place 8 .store (modOp t e n f s) = (.ok ps, modOp t e n f s2) :=
  reach_modOp h t e n

/-- A job of one row and one column tile at 0x10000400: A at 0x1000 and B at 0x2000 of local memory, two planes of A and one of B, the tile name 7. -/
def jobWords : List Word := [0x85FFFFFFFFD01000, 0x85FFFFFFFFD02000, 0x8000000101, 7, 0, 0, 0, 0]

/-- Words as one number, the first lowest. -/
def wordsNat (ws : List Word) : Nat := ws.foldr (fun w n => w.toNat + 2 ^ 64 * n) 0

def jobState (r : Regs) : State :=
  withMem ([(0x40000400, 64, wordsNat jobWords), (0x40000440, 64, wordsNat (jobWords.set 2 0x8000000100)), (0x40000480, 64, wordsNat (jobWords.set 1 0xC5FFFFFFFFD02000)), (selfPa 0x1000, 1, 1), (selfPa 0x1021, 1, 3), (selfPa 0x2000, 1, 2), (selfPa 0x2001, 1, 2)])
    (one r)

/-- MatrixJobs, issue and groups: a job that is in order and one of no rows; slots that are free, and none left; groups that are open, closed, complete and forgotten. -/
theorem test_witness_matrix_issue :
    let s := jobState (regs [(4, 0x10000400), (5, 0x10000440), (6, 3), (7, 2), (8, 9), (10, 0x10000480)])
    let me := s.th.id
    let o := s.th.operation .group 5 0 0x10000400 jobWords
    let full : State := { s with hearths := [(0, { hearthOf s 0 with accMap := (List.range 64).map fun k => { t := me, name := BitVec.ofNat 16 (100 + k) } })] }
    let groups (last done : Nat) (gs : List MatrixGroup) : State := { s with th := { s.th with timelines := (Vector.replicate 5 {}).set 0 ⟨last, done, []⟩, groups := gs } }
    let g := groups 3 2 [{ n := 2, jobs := 1, rows := 5 }, { n := 3, jobs := 1 }]
    let old := groups 20 20 []
    let ring : State := { groups 3 2 [{ n := 3, jobs := 1, prov := { w0 := 0x8000000000000005, w1 := 6 } }] with dies := [(0, { provctl := 0x800000004020000C, provWritten := 129 })] }
    (s.th.r.guard ⟨0, 0⟩ = true ∧ awaitsRelease scopeSystem s s.th = false ∧ addr (s.th.r.rg 4) % 64 = 0
        ∧ readableB (drainHearth s.th.view s) 0x10000440 64 = true
        ∧ (let s0 := drainHearth s.th.view s
           let p := s.th.operation .group 5 0 0x10000440 (wordsAt s0 0x10000440 8)
           let q := s.th.operation .group 5 0 0x10000480 (wordsAt s0 0x10000480 8)
           badJob p = true ∧ reservedFmt p = none ∧ wordsAt s0 0x10000400 8 = jobWords ∧ reservedFmt o = none ∧ (reservedFmt q).isSome
             ∧ (readableB s0 0x10000400 64 && readableB s0 0x10000480 64) = true
             ∧ okAnd (jobPlaces o) (afterLoad s0 0x10000400 64) (fun _ t => decide (t.th.id = me ∧ t.ops = s.ops ∧ t.mem = s.mem ∧ newNames (hearthOf t 0) me (jobNames o) = [7]
               ∧ 1 ≤ freeSlots (hearthOf t 0))) = true)
        ∧ badJob o = false ∧ o.word 4 = 0 ∧ freeSlots (hearthOf full 0) < (newNames (hearthOf full 0) me (jobNames o)).length)
      ∧ ((s.th.r.rg 9).toNat = 0 ∧ (g.th.timeline 0).last < (g.th.r.rg 8).toNat ∧ (g.th.timeline 0).completed < (g.th.r.rg 6).toNat ∧ (g.th.r.rg 6).toNat ≤ (g.th.timeline 0).last
        ∧ (groupOf? g.th 2).isSome ∧ (groupOf? g.th 3).map (·.left) = some 0 ∧ (g.th.r.rg 7).toNat + 16 ≤ (old.th.timeline 0).last ∧ findThread g me = some g.th ∧ (g.th.timeline 0).ahead.contains 3 = false)
      ∧ (after (.mmj ⟨0, 0⟩ 4) s (fun t => decide (t.ops.map (fun x => (x.e, x.n, x.desc)) = [(5, 2 ^ 32, jobWords)] ∧ (hearthOf t 0).accReserved = [(me, 7)] ∧ (hearthOf t 0).jobs = [⟨me, 2 ^ 32, 1, 0⟩]
          ∧ t.th.groups.map (fun x => (x.n, x.jobs, x.left)) = [(1, 1, 1)]))
        && after (.mmj ⟨0, 0⟩ 5) s (fun t => decide (t.th.st = .trapped ∧ t.th.record.value = 0x10000440)) && after (.mmj ⟨0, 0⟩ 4) full (fun t => decide (t.th.st = .trapped ∧ t.th.record.value = 1))
        && after (.mmj ⟨0, 0⟩ 10) s (fun t => decide (t.th.st = .trapped ∧ t.th.record.head.toNat % 256 = Cause.format.code ∧ t.th.record.value = 0xC5FFFFFFFFD02000 ∧ t.ops = []))
        && after (.mcommit ⟨0, 0⟩ 3) s (fun t => decide (t.th.r.rg 3 = 1 ∧ t.th.timeline 0 = ⟨1, 1, []⟩))
        && after (.mwait ⟨0, 0⟩ 3 9 0) g (fun t => decide (t.th.st = .trapped)) && after (.mwait ⟨0, 0⟩ 3 8 0) g (fun t => decide (t.th.record.value = 9))
        && after (.mwait ⟨0, 0⟩ 3 6 0) g (fun t => decide (t.th.st = .parked)) && after (.mwait ⟨0, 0⟩ 3 7 0) g (fun t => decide (t.th.r.rg 3 = 0x8000000000000005))
        && after (.mwait ⟨0, 0⟩ 3 7 0) old (fun t => decide (t.th.r.rg 3 = 0x8000000000000000))
        && decide (provRoom (dieOf ring 0) = some 128 ∧ provRoom (dieOf g 0) = none)
        && after (.matrixGroupComplete me 3) ring (fun t => decide (Mem.read t.mem 0x40200020 8 = 0x8000000000000005 ∧ Mem.read t.mem 0x40200028 8 = 6 ∧ Mem.read t.mem 0x40200030 2 = 1
          ∧ (dieOf t 0).provWritten = 130))
        && after (.matrixGroupComplete me 3) g (fun t => decide ((t.th.timeline 0).completed = 3))) = true := by
  decide +kernel

/-- MatrixJobs, runs and tiles: a job at the head of its hearth, the free Anvil, a bank that is not pinned and a thread that lives; a row and a bank with an exponent for every sum; a name that no job
has and one that a job has; a tile that can be stored. -/
theorem test_witness_matrix_tiles :
    let s := jobState (regs [(4, 7), (5, 0x10000800), (6, 0x10007)])
    let me := s.th.id
    let o := { s.th.operation .group 5 (2 ^ 32) 0x10000400 jobWords with arg := 0 }
    let tile : State := { s with hearths := [(0, { hearthOf s 0 with accMap := [{ t := me, name := 7, cells := [(33, { i := 5 })] }] })] }
    let busy : State := { tile with ops := [o] }
    let row := rowOf 16 5 rowBytes
    let bank := ({} : Bank).load 1 false .matrix 0 tileWord 2 tileCells none
    (s.th.r.guard ⟨0, 0⟩ = true ∧ (s.th.r.rg 4).toNat < 2 ^ 16 ∧ jobNaming tile me 7 = false ∧ jobNaming busy me 7 = true
        ∧ jobCol0 o + jobNcol o ≤ 8 ∧ ((row.read (jobPa o)).zip (bank.column (jobPw o) 0)).length ≤ row.exps.length ∧ ((row.read (jobPa o)).zip (bank.column (jobPw o) 0)).length ≤ (bank.column bank.planes 0).length)
      ∧ (okAnd (storeRows (hearthOf tile 0) me 7 1 0x10000800 64 0 32) tile (fun f t => decide (f = 0 ∧ t.th.hearth = 0)) = true)
      ∧ tileCell (addJobRow { o with desc := jobWords.set 2 0x8000001101 } ⟨me, 2 ^ 32, 1, 0⟩ row bank 0 (hearthOf tile 0)).1 me 7 0 = { i := -1, x := 3 }
      ∧ (after (.accrel ⟨0, 0⟩ 4) tile (fun t => decide ((hearthOf t 0).accMap = [])) && after (.accrel ⟨0, 0⟩ 4) busy (fun t => decide (t.th.st = .parked ∧ t.th.wait = .matrix))
        && (rowImage 0 false (fun c => tileCell (hearthOf tile 0) me 7 (32 + c)) 32).1.take 8 == natToBytes 8 0x40A0000000000000) = true := by
  decide +kernel

/-- MatrixJobs: a job that runs to its end. -/
theorem test_witness_matrix_run :
    let s := jobState (regs [])
    let me := s.th.id
    let o := { s.th.operation .group 5 (2 ^ 32) 0x10000400 jobWords with arg := 0 }
    let j : MatrixJob := ⟨me, 2 ^ 32, 1, 0⟩
    let u : State := { s with th := { s.th with groups := [{ n := 1, jobs := 1, left := 1 }] }, ops := [o]
                              hearths := [(0, { (hearthOf s 0).setBank 1 { pinned := some 0 } with jobs := [j], accReserved := [(me, 7)] })] }
    ((hearthOf u 0).jobs = [j] ∧ findOp u me 5 (2 ^ 32) = some o ∧ o.phase = 0 ∧ o.word 5 = 0 ∧ o.hearth = 0)
      ∧ (match anvilFree o u with
        | some s1 => okAnd (runJob o j) (s1.begun o) fun _ t => decide (opWaits o t = false ∧ (findThread t me).any (·.live) = true
            ∧ (t.th.groups.map fun g => (g.n, g.left)) = [(1, 1)] ∧ ((findOp t me 5 (2 ^ 32)).map (·.progress)) = some 1)
        | none => false) = true := by
  decide +kernel

/-- Records of the dispatch engine, the grouped matrix operation and Bellows from 0x10000400 on; a route list, a destination map, an expert table and counts; and one launch that binds the handle 0. -/
def experts (r : Regs) : State :=
  let s := one r
  withMem [(0x40000400, 64, wordsNat [0x10000800, 0x10000840, 0x10000880, 0x100008C0, 0x4000000001, 0x4000000040, 0, 0]),
      (0x40000440, 64, wordsNat [0x10000900, 0x100008C0, 0x10001800, 0x100000001, 0x4000000010, 0, 0, 0]),
      (0x40000480, 64, wordsNat [0x10000A00, 0x80000, 0, 0, 0, 0, 0, 0]),
      (0x400004C0, 64, wordsNat [0x10000800, 0x10001C00, 0, 64, 0, 0, 0, 0]),
      (0x40000500, 64, wordsNat [0x8500000010002000, 0x8500000010006000, 0x200005, 1, 128, 0, 0, 0]),
      (0x40000540, 32, wordsNat [0x10000B08, 0x10000B40, 0x10000B80, 0x200001]),
      (0x400005C0, 64, wordsNat [0xC500000010002000, 0x8500000010006000, 0x200005, 1, 128, 0, 0, 0]), (0x40000580, 64, 2 ^ 512 - 1), (0x40000800, 8, 0x1111), (0x40000840, 8, 0x700010001), (0x40000884, 4, 2), (0x400008E0, 24, wordsNat [0x10001000, 0x10001400, 4]),
      (0x40000900, 16, wordsNat [0x100010001, 0x40000000]), (0x40001040, 4, 0x3FC00000), (0x40000A00, 8, 1), (0x40000B08, 8, 0x600000005), (0x40000C40, 8, 0x1000000)]
    { s with benches := [(0, { tlb := [page 1 0x10000000 0x40000000] })], spaces := [(1, { exptbl := 0x10000C01 })], domains := [dom [s.th.id] []]
             launches := [{ id := 0, asid := 1, secure := false, priv := 0, prio := 0, addr := 0, record := [], binding := [(0, ⟨0x8500000010002000, 0x4200, 0⟩)] }]
             th := { s.th with domset := 0x80000000000 } }

/-- An operation of the thread, number 1 of its context, with its record from memory. -/
def expertOp (s : State) (kind : EngineKind) (e a : Nat) : EngineOp :=
  s.th.operation kind e 1 a ((List.range 8).map fun k => BitVec.ofNat 64 (Mem.read s.mem (a - 0x10000000 + 0x40000000 + 8 * k) 8))

/-- ExpertOperations, issue: a released thread, records in order and one that breaks every limit, a level that is valid and one that is not, operands for places and residencies. -/
theorem test_witness_expert_issue :
    let s := experts (regs [(4, 0x10000400), (5, 0x10000440), (6, 0x10000480), (7, 0x100004C0), (8, 0x10000540), (9, 0x10000580), (10, 1), (11, 0), (12, 3), (13, 0x100005C0)])
    let out : State := { s with th := { s.th with domset := 0 } }
    let record (va : Nat) (kind : EngineKind) (g : EngineOp → Bool) : Bool := readableB (drainHearth s.th.view s) va 64
      && g (s.th.operation kind 2 1 va (wordsAt (drainHearth s.th.view s) va 8))
    let badGo (o : EngineOp) : Bool := decide (goRow o % 64 ≠ 0 ∨ goRow o = 0 ∨ 65536 < goRow o ∨ goBinStride o < goRow o ∨ goBinStride o % 64 ≠ 0 ∨ o.word 7 ≠ 0)
    let badCmb (o : EngineOp) : Bool := decide (o.field 3 38 26 ≠ 0 ∨ 1 < cmbFmt o ∨ cmbK o = 0 ∨ 8 < cmbK o ∨ cmbWidth o % 16 ≠ 0 ∨ 16384 < cmbWidth o ∨ o.word 6 ≠ 0 ∨ o.word 7 ≠ 0)
    let badGmm (o : EngineOp) : Bool := decide (o.field 0 0 5 ≠ 0 ∨ o.field 1 28 36 ≠ 0 ∨ o.field 1 16 3 ≠ 0 ∨ o.field 2 0 6 ≠ 0 ∨ o.word 6 ≠ 0 ∨ o.word 7 ≠ 0)
    let isOp (i : Instr) (kind : EngineKind) (e : Nat) : Bool := after i s fun t =>
      decide (t.ops.map (fun o => (o.e, o.n, o.kind)) = [(e, 1, kind)] ∧ (t.th.timeline e).last = 1 ∧ t.th.r.rg 3 = 1 ∧ t.th.r.pc = 0x10000004)
    let refuses (i : Instr) (u : State) (v : Word) : Bool := after i u fun t => decide (t.th.st = .trapped ∧ t.th.record.value = v ∧ t.ops = [])
    (awaitsRelease scopeSystem s s.th = false ∧ computing s s.th = none ∧ s.th.r.guard ⟨0, 0⟩ = true)
      ∧ (record 0x10000400 .dspgo (fun o => !badGo o) && record 0x10000440 .dspcmb (fun o => !badCmb o) && record 0x10000480 .gmm (fun o => !badGmm o)
        && record 0x100004C0 .wstream (fun o => !badStream o && (streamReserved o).isNone)
        && record 0x10000500 .wstream (fun o => !badStream o && (streamReserved o).isNone) && record 0x100005C0 .wstream (fun o => decide (streamReserved o = some 0xC500000010002000)) && record 0x10000580 .dspgo (fun o => badGo o && badCmb o && badGmm o && badStream o)
        && readableB (drainHearth s.th.view s) 0x10000540 32
        && (let o := s.th.operation .dspcnt 2 1 0x10000540 (wordsAt (drainHearth s.th.view s) 0x10000540 4)
          decide (o.field 3 24 40 = 0 ∧ o.field 3 16 5 = 0 ∧ o.field 3 21 3 = 1 ∧ o.field 0 0 3 = 0))) = true
      ∧ levelValid s.th.domset 1 = true ∧ levelValid out.th.domset 1 = false ∧ domainAt s s.th 1 = some 0 ∧ badPlace (s.th.r.rg 11) = false ∧ (s.th.r.rg 12).toNat ≤ 3
      ∧ (isOp (.dspgo ⟨0, 0⟩ 3 4) .dspgo 2 && isOp (.dspcmb ⟨0, 0⟩ 3 5) .dspcmb 2 && isOp (.gmm ⟨0, 0⟩ 3 6) .gmm 2 && isOp (.wstream ⟨0, 0⟩ 3 7) .wstream 3 && isOp (.dspcnt ⟨0, 0⟩ 3 8 10) .dspcnt 2
        && isOp (.wpin ⟨0, 0⟩ 3 10 11) .wpin 3 && isOp (.wunpin ⟨0, 0⟩ 3 10 11) .wunpin 3 && isOp (.wpol ⟨0, 0⟩ 3 10 12) .wpol 3
        && [Instr.dspgo ⟨0, 0⟩ 3 9, .dspcmb ⟨0, 0⟩ 3 9, .gmm ⟨0, 0⟩ 3 9, .wstream ⟨0, 0⟩ 3 9].all (fun i => refuses i s 0x10000580)
        && refuses (.wstream ⟨0, 0⟩ 3 13) s 0xC500000010002000 && refuses (.dspcnt ⟨0, 0⟩ 3 8 10) out 0x10000540
        && after (.gmmq ⟨0, 0⟩ 3 0) { s with th := { s.th with gmm := { n := 1, progress := 77 } } } (fun t => decide (t.th.r.rg 3 = 77))) = true := by
  decide +kernel

/-- ExpertOperations, performance of DSPGO, DSPCMB, DSPCNT and of a stream of bytes: a valid and an invalid route entry with a permit, a valid entry of a token's list, counts of one member, and the
place of each status; the row stands in its slot with its index, the sum is 2 × 1.5, the counts are 5 and 6 with nothing before them. -/
theorem test_witness_expert_dispatch :
    let s := experts (regs [])
    let me := s.th.id
    let go := { expertOp s .dspgo 2 0x10000400 with permits := 1, runs := [(1, 2, 1)] }
    let held := { expertOp s .dspgo 2 0x10000400 with request := some (1, 2, 4, 0) }
    let cmb := { expertOp s .dspcmb 2 0x10000440 with arg := 64 }
    let cnt := { expertOp s .dspcnt 2 0x10000540 with domain := some 0, desc := [0x10000B08, 0x10000B40, 0x10000B80, 0x200001] }
    let str := expertOp s .wstream 3 0x100004C0
    let holding (x : EngineOp) : State := { s with th := { s.th with timelines := (Vector.replicate 5 {}).set 2 ⟨1, 0, []⟩ |>.set 3 ⟨1, 0, []⟩ }, ops := [x] }
    let done (x : EngineOp) (place : Nat) (effects : M Unit) : Bool :=
      okAnd effects ((holding x).begun x) fun _ t => decide (opWaits x t = false ∧ (findThread t me).isSome = true) && (findOp t me x.e 1).any (fun z =>
          decide (z.agent = x.agent ∧ z.kind = x.kind ∧ z.addr = x.addr ∧ z.word 0 = x.word 0 ∧ z.domain = none))
        && (match reach x.agent place 8 .store t with
          | (.ok qs, v) => !qs.isEmpty && hereB qs && qs.all (fun z => !readOnly v 1 z.va z.pa)
          | _ => false)
    let ran (i : Instr) (x : EngineOp) (f : State → Bool) : Bool := after i (holding x) fun t => decide (findOp t me x.e 1 = none ∧ (t.th.timeline x.e).completed = 1) && f t
    (findOp (holding go) me 2 1 = some go ∧ go.phase = 0)
      ∧ (okAnd (engineWord go (offAddr (go.word 1) 0) 8) (holding go) (fun w _ => w.testBit 16) && okAnd (engineWord go (offAddr (go.word 1) 8) 8) (holding go) (fun w _ => !w.testBit 16)) = true
      ∧ (okAnd (engineWord go (offAddr (go.word 2) 4) 4) (holding go) (fun base _ => decide (base = 2)) && okAnd (mapEntry go (go.word 3) 1) (holding go) (fun m t =>
          decide (m = ⟨0x10001000, 0x10001400, 4, 0⟩) && (findOp t me 2 1).any (fun z => granted z 1 2 && !granted z 1 3)
          && okAnd (engineRead go (offAddr (go.word 0) 0) 64) t (fun bs u => okAnd (engineWrite go {} 0x10001080 bs) u (fun _ v => okAnd (engineStore go 0x10001408 4 7) v (fun _ w =>
            okAnd (once go (modify (usePermit go 0))) w (fun _ v => (findOp v me 2 1).any fun z => decide (z.permits = 0))))))) = true
      ∧ (okAnd (mapEntry cmb (cmb.word 1) 1) (holding cmb) (fun m t => decide (m.bin = 0x10001000) && okAnd (engineRead cmb (0x10001000 + 64) 64) t (fun _ _ => true))) = true
      ∧ (okAnd (engineWrite cnt {} (addr (cnt.word 1)) []) (holding cnt) (fun _ t => okAnd (engineWrite cnt {} (addr (cnt.word 2)) []) t (fun _ _ => true))) = true
      ∧ (done go 0x10000430 (goFrom go 0 (goEntries go) []) && done cmb 0x10000468 (unitsFrom cmb (cmbToken cmb) 0 (cmbTokens cmb)) && done str 0x100004E8 (streamEffects str)) = true
      ∧ (cnt.desc.length = 4 ∧ countGroup (holding cnt) 0 = some [cnt] ∧ (let s0 := holding cnt
         okAnd (countAll [cnt] s0) (modOp me 2 1 (·.begins none) s0) fun _ s3 => match findOp s3 me 2 1 with
           | some z => decide (z.phase = 0 ∧ z.kind = .dspcnt ∧ z.desc.length ≠ 4 ∧ z.agent = cnt.agent)
             && okAnd (writeCounts z) (s3.begun z) (fun _ t => decide (opWaits cnt t = false) && (findOp t me 2 1).any (fun y =>
                decide (y.agent = cnt.agent ∧ y.kind = .dspcnt ∧ y.addr = cnt.addr ∧ y.word 0 = cnt.word 0 ∧ y.domain = cnt.domain))
              && (match reach cnt.agent 0x10000B00 8 .store t with
                | (.ok qs, v) => !qs.isEmpty && hereB qs && qs.all (fun q => !readOnly v 1 q.va q.pa)
                | _ => false))
           | none => false) = true)
      ∧ (receivingBench (holding held) 0 = some 0 ∧ (benchOf (holding held) 0).credits = 65536)
      ∧ (after (.dispatchPermitGrant me 1 3) (holding held) (fun t => decide ((findOp t me 2 1).map (fun z => (z.permits, z.runs)) = some (2, [(1, 2, 2)])))
        && after (.dispatchPermitGrant me 1 3) (holding go) (fun t => decide ((findOp t me 2 1).map (·.permits) = some 1))
        && ran (.dspgoComplete me 1) go (fun t => decide (Mem.read t.mem 0x40001080 8 = 0x1111 ∧ Mem.read t.mem 0x40001408 4 = 7 ∧ Mem.read t.mem 0x40000430 8 = 0x8000000000000001))
        && ran (.dspcmbComplete me 1) cmb (fun t => decide (Mem.read t.mem 0x40001800 8 = 0x40400000 ∧ Mem.read t.mem 0x40000468 8 = 0x8000000000000001))
        && ran (.dspcntComplete me 1) cnt (fun t => decide (Mem.read t.mem 0x40000B40 8 = 0x600000005 ∧ Mem.read t.mem 0x40000B80 8 = 0 ∧ Mem.read t.mem 0x40000B00 8 = 0x8000000000000002))
        && ran (.bellowsOpComplete me 1) str (fun t => decide (Mem.read t.mem 0x40001C00 8 = 0x1111 ∧ Mem.read t.mem 0x400004E8 8 = 0x8000000000000040))) = true := by
  decide +kernel

/-- ExpertOperations, weights: a bin of no rows; a GMM of it, a pin, its end, and a residency that are performed; an expert with and without a cost. R308's example: a chunk of two segments. -/
theorem test_witness_expert_weights :
    let s := experts (regs [])
    let me := s.th.id
    let gmm := expertOp s .gmm 2 0x10000480
    let e3 (kind : EngineKind) (w : Word) : EngineOp := s.th.operation kind 3 1 0 [1, w]
    let holding (x : EngineOp) : State := { s with th := { s.th with timelines := (Vector.replicate 5 {}).set 2 ⟨1, 0, []⟩ |>.set 3 ⟨1, 0, []⟩ }, ops := [x] }
    let ends (x : EngineOp) (effects : EngineOp → M Unit) : Bool := okAnd (effects x) ((holding x).begun x) fun _ t =>
      decide (opWaits x t = false) && (findThread t me).isSome && (findOp t me x.e 1).isSome
    let E : Expert := ⟨0, 0, 0, 1, 0, 2, 100, 0⟩
    let chunk := chunkBytes 0x8000000000000001 (List.replicate 64 1 ++ List.replicate 64 2) 64
    let pinned : State := let u := holding (e3 .wunpin 0)
      { u with hearths := [(0, { (hearthOf u 0).setBank 0 { pinned := some 1 } with seat := none })] }
    (okAnd (engineWord gmm (offAddr (gmm.word 0) 0) 24) (holding gmm) (fun w _ => decide (w / 2 ^ 16 % 2 ^ 16 = 0 ∧ w / 2 ^ 32 % 2 ^ 32 = 0)) && ends gmm gmmAll && ends (e3 .wunpin 0) unpinTile && ends (e3 .wpol 3) setResidency) = true
      ∧ (hearthOf (holding gmm) 0).seat = none ∧ (hearthOf (holding gmm) 0).owner = none ∧ anvilTaken gmm (holding gmm) = false ∧ earlierBellows (holding (e3 .wpol 3)) (e3 .wpol 3) = false
      ∧ ((hearthOf pinned 0).bank 0).pinned = some 1 ∧ E.cost ≠ 0 ∧ 0 ≤ E.budget * 256 ∧ accepted E 0 9 = 5
      ∧ [0, 63, 64, 4031, 4032, 4095].map (fun k => chunk[k]?) = [some 1, some 1, some 0, some 0, some 2, some 2]
      ∧ (after (.gmmComplete me 1) (holding gmm) (fun t => decide ((t.th.timeline 2).completed = 1 ∧ Mem.read t.mem 0x40000A18 8 = 0x9000000000000000))
        && after (.bellowsOpComplete me 1) (holding (e3 .wpol 3)) (fun t => decide ((t.th.timeline 3).completed = 1 ∧ Mem.read t.mem 0x40000C40 8 = 0x1000300))
        && after (.bellowsOpComplete me 1) pinned (fun t => decide (((hearthOf t 0).bank 0).pinned = none))) = true := by
  decide +kernel

/-- ExpertOperations: a pin whose tile is read. -/
theorem test_witness_expert_pin :
    let s := experts (regs [])
    let x := s.th.operation .wpin 3 1 0 [1, 0]
    let u : State := { s with ops := [x] }
    okAnd (pinTile x) (u.begun x) (fun _ t => decide (opWaits x t = false) && (findThread t s.th.id).isSome && (findOp t s.th.id 3 1).isSome && decide (((hearthOf t 0).bank 0).pinned = some 1)) = true := by
  decide +kernel

/-- ExpertOperations: a tile that a stream delivers to a bank queue with room. -/
theorem test_witness_expert_tile :
    let s := experts (regs [])
    let x := expertOp s .wstream 3 0x10000500
    let u : State := { s with ops := [x] }
    (findOp u s.th.id 3 1 = some x ∧ x.kind = .wstream ∧ strKind x = 1 ∧ x.phase = 0 ∧ x.progress < strCount x ∧ ((hearthOf u 0).bankQueue.toList.getD 0 []).length < 2 ∧ strHearth x = 0
        ∧ tileTag (x.word 1) 1 = some (2, 256))
      ∧ okAnd (makeTile x 0) (drainHearth 0 u) (fun _ t => (findOp t s.th.id 3 1).isSome) = true := by
  decide +kernel

/-! Witnesses for launches, seats, and what memory does by itself. -/

/-- A launch record: entry, argument, word 2 above its thread count, the thread count, word 3, and the words from 4 on. -/
def launchRecord (w2 threads w3 : Nat) (rest : List Word) : List Word :=
  [0x10000000, 0x55, BitVec.ofNat 64 (2 ^ 42 + w2 + threads), BitVec.ofNat 64 w3] ++ rest ++ List.replicate (12 - rest.length) 0

/-- A launch of one hearth, one thread on it, and its level 1. -/
def small : List Word := launchRecord 0 1 0x110101 [0x10008000]

def launchState (r : Regs) : State :=
  let s := one r
  withMem [(0x40000400, 128, wordsNat small), (0x40000480, 128, wordsNat (small.set 2 0x80000000001)), (0x40000520, 32, wordsNat [0, 3, 0, 0]),
      (0x40000C00, 16, wordsNat [0x10000D00, 0]), (0x40000D00, 32, wordsNat [0x10000020, 9, 0x200000001, 0]), (0x40000D40, 32, wordsNat [0x10000020, 9, 0x300000001, 0])]
    { s with benches := [(0, { tlb := [page 1 0x10000000 0x40000000, page 1 0x10200000 0x40200000] })] }

/-- A launch of the thread's address space with a record. -/
def aLaunch (s : State) (record : List Word) : Launch :=
  { id := 1, issuer := some (s.th.id, 1), asid := 1, secure := false, priv := 0, prio := 3, addr := 0x10000400, record := record }

/-- LaunchesAndSupersteps, LAUNCH, LSTAT and acceptance: records of this address space and of another, a launch to report, one never issued and one forgotten; heads that are placed, that do not fit
now, and that never fit; a root thread and tile records to start; a launch that is done and one that is not. -/
theorem test_witness_launches :
    let s := launchState (regs [(4, 0x10000400), (5, 0x10000480), (6, 1), (7, 2)])
    let me := s.th.id
    let late (n : Nat) (ls : List Launch) : State := { s with th := { s.th with timelines := (Vector.replicate 5 {}).set 4 ⟨n, 0, []⟩ }, launches := ls }
    let L := aLaunch s small
    let one1 := late 1 [{ L with state := .running, doneCount := 7, tag := 9 }]
    let ready := { L with checked := true }
    let tiled : Launch := { ready with record := launchRecord 0 0 0x110101 [0x10008000, 0, 0, 0, 0, 0, 0x10000500, 2] }
    let wide : Launch := { ready with record := launchRecord 0 192 0x1E80100 [0x10008000] }
    let two : Launch := { ready with secure := true }
    let narrow : State := { late 1 [wide] with hearths := [(0, { hearthOf s 0 with quiesced := true })] }
    let L1 := { ready with state := .running, hearths := [0], domsets := [(0, 0x1000080000000000)] }
    let T1 := { tiled with state := .running, hearths := [0] }
    let done : Launch := { L1 with next := 1, threads := 1, doneCount := 1 }
    let running (u : State) : State := { u with ops := u.launches.map fun l => launchOp l 0 }
    let places (u : State) (l : Launch) (id : ThreadId) : Bool := let o := opOfLaunch u l
      decide (findThread u id = none ∧ o.failed = none ∧ (hearthOf u 0).quiesced = false) && engineWritesB (modOp o.t o.e o.n (·.begins none) u) { o with hearth := 0 } {} (frameVa id) 1
    let tile (k : Nat) (bad : Bool) : Bool :=
      let u := running (late 1 [{ T1 with next := k }])
      let o := opOfLaunch u { T1 with next := k }
      let v := modOp o.t o.e o.n (·.begins none) u
      let va := 0x10000500 + 32 * k
      decide ((findOp u o.t o.e o.n).isSome = true ∧ o.phase = 0 ∧ o.log = [] ∧ o.hand = [] ∧ o.base = 0 ∧ o.failed = none ∧ o.replies = []
          ∧ badTile (wordsOf (engineBytes v o va 32)) = bad) && engineReadsB v o va 32
        && okAnd (engineRead o va 32) v fun _ t => engineWritesB t { o with hearth := 0 } {} (frameVa ⟨1, 0x10008 + BitVec.ofNat 44 k⟩) 1
    (s.th.r.guard ⟨0, 0⟩ = true ∧ awaitsRelease scopeSystem s s.th = false ∧ computing s s.th = none ∧ readsB (pagePieces 2 0x10000400 128) (drainHearth s.th.view s) = true
        ∧ readsB (pagePieces 2 0x10000480 128) (drainHearth s.th.view s) = true
        ∧ (s.th.timeline 4).last < (s.th.r.rg 6).toNat ∧ (one1.launches.find? fun l => decide (l.issuer = some (me, 1))) = some { L with state := .running, doneCount := 7, tag := 9 })
      ∧ (placeLaunch (late 1 [tiled]) tiled = some [1] ∧ tiled.tiles ≠ 0 ∧ tiled.field 11 0 32 ≠ 0
        ∧ placeLaunch narrow wide = none ∧ asksTooMuch narrow wide = false ∧ placeLaunch s two = none ∧ asksTooMuch s two = true)
      ∧ (L1.det = false ∧ L1.tiles = 0 ∧ L1.field 2 0 32 = 1 ∧ 0 < L1.field 3 8 7 ∧ places (late 1 [L1]) L1 ⟨1, 0x10008⟩ = true)
      ∧ (T1.next < T1.field 11 0 32 ∧ (tile 0 true && tile 1 false) = true ∧ places (late 1 [{ T1 with next := 1 }]) T1 ⟨1, 0x10009⟩ = true
        ∧ ((threads (late 1 [T1])).filter fun y => decide (y.launch = 1 ∧ y.home = 0) && y.started && y.live).length < T1.field 3 8 7)
      ∧ (done.allStarted = true ∧ L1.allStarted = false ∧ opWaits (opOfLaunch (late 1 [done]) done) (late 1 [done]) = false ∧ findThread (late 1 [done]) me = some (late 1 [done]).th)
      ∧ (after (.launch ⟨0, 0⟩ 3 4) s (fun t => decide (t.th.r.rg 3 = 1 ∧ t.launches.map (fun l => (l.id, l.asid, l.addr, l.record == small)) = [(1, 1, 0x10000400, true)]))
        && after (.launch ⟨0, 0⟩ 3 5) s (fun t => decide (t.th.st = .trapped ∧ t.th.record.head.toNat % 256 = 5 ∧ t.launches = []))
        && after (.lstat ⟨0, 0⟩ 3 6 0) s (fun t => decide (t.th.st = .trapped ∧ t.th.record.value = 1)) && after (.lstat ⟨0, 0⟩ 3 6 0) one1 (fun t => decide (t.th.r.rg 3 = 0x0000000200000007))
        && after (.lstat ⟨0, 0⟩ 3 6 3) one1 (fun t => decide (t.th.r.rg 3 = 9)) && after (.lstat ⟨0, 0⟩ 3 6 0) (late 65 []) (fun t => decide (t.th.r.rg 3 = 0x8000000000000000))
        && after .launchAccept (late 1 [tiled]) (fun t => decide (t.launches.map (fun l => (l.state, l.hearths)) = [(.running, [1])] ∧ t.domains.map (fun d => (d.level, d.nodes)) = [(1, [1])]))
        && after .launchAccept narrow (fun t => decide (t.launches.map (fun l => (l.state, l.held)) = [(.queued, true)]))
        && after .launchAccept (late 1 [two]) (fun t => decide (t.launches.map (fun l => (l.state, l.fault)) = [(.complete, some (.format, 0x10000400))]))
        && after .launchAccept (late 1 [L1]) (fun t => (findThread t ⟨1, 0x10008⟩).any fun y => decide (y.st = .ready ∧ y.r.rg 1 = 0 ∧ y.r.rg 2 = 0x55 ∧ y.r.pc = 0x10000000 ∧ y.domset = 0x1000080000000000))
        && after (.tileThreadStart 1) (late 1 [T1]) (fun t => decide (t.launches.map (fun l => (l.next, l.skipped, l.threads)) = [(1, 1, 0)]))
        && after (.tileThreadStart 1) (late 1 [{ T1 with next := 1 }]) (fun t => (findThread t ⟨1, 0x10009⟩).any fun y => decide (y.r.rg 1 = 1 ∧ y.r.rg 2 = 0x10000520 ∧ y.r.rg 3 = 0x55 ∧ y.r.rm 0 = 7))
        && after (.launchComplete 1) (late 1 [done]) (fun t => decide ((t.th.timeline 4).completed = 1 ∧ t.launches.map (·.state) = [.complete]))) = true := by
  decide +kernel

/-- LaunchesAndSupersteps, deterministic launches: a superstep that opens, entries of a routine list that run, wait and break the rules, a phase that is over and one that is not, and a pair that is
rolled back or has a lasting fault. -/
theorem test_witness_supersteps :
    let s := launchState (regs [])
    let record := launchRecord (3 * 2 ^ 38) 2 0x120101 [0x10008000, 0, 0, 0x10000C00, 1]
    let P : Position := { index := 0, hearth := 0 }
    let L : Launch := { aLaunch s record with state := .running, hearths := [0, 1], positions := [P], width := some 1 }
    let u := { s with launches := [L] }
    let at_ (p : Position) : State := { s with launches := [{ L with computing := true, positions := [p] }] }
    let run (p : Position) (f : EngineOp → Option Routine → State → Bool) : Bool :=
      let u := at_ p
      let o := opOfPosition u { L with computing := true, positions := [p] } p
      okAnd (readRoutine o p.next) (modOp o.t o.e o.n (·.begins none) u) fun x t => decide (t.launches = u.launches) && f o x t
    let st (k : Nat) : Deferred := { hearth := 0, list := 0, g1 := k, seq := 0, t := s.th.id, pa := 0x40001000, node := none, op := .whole 1 (k + 1) }
    let past : Launch := { L with computing := true, positions := [{ P with ended := true }], deferred := [st 1, st 0] }
    let cells : List Host.Cell := [(5, 7)]
    let pair (p : Position) : State := { at_ p with mem := Mem.set s.mem (localBase + 9) 3 }
    (L.det = true ∧ L.lockstep = true ∧ L.fault = none ∧ opWaits (opOfLaunch u L) u = false ∧ L.superstep < L.supersteps
        ∧ controllersIdle L u = true
        ∧ (let o := opOfLaunch u L
           okAnd (tableEntry { o with hearth := 0 } L 0 0) (drainHearth 0 (modOp o.t o.e o.n (·.begins none) u)) (fun x t => decide (x = (0x10000D00, 0)) && (findLaunch t 1).isSome)) = true)
      ∧ (run { P with next := 0x10000D80 } (fun _ x _ => decide (x = none)) && run { P with next := 0x10000D40, started := 1 } (fun _ x _ => decide (x = some ⟨0x10000020, 9, 1, true, true⟩))
        && run { P with next := 0x10000D00 } (fun o x t => decide (x = some ⟨0x10000020, 9, 1, false, true⟩ ∧ t.th = s.th ∧ t.others = s.others ∧ findThread s ⟨1, 0x10008⟩ = none ∧ o.failed = none
            ∧ (L.routine P ⟨0x10000020, 9, 1, false, true⟩).id = ⟨1, 0x10008⟩)
          && engineWritesB t { o with hearth := 0 } {} (frameVa ⟨1, 0x10008⟩) 1)) = true
      ∧ (past.phaseOver = true ∧ L.phaseOver = false ∧ past.deferred.all (fun e => e.node.isNone && !e.op.isUpdate) = true
        ∧ controllersIdle past { s with launches := [past] } = true ∧ exchangeFault past { s with launches := [past] } = none)
      ∧ (after (.superstepStart 1) u (fun t => (findLaunch t 1).any fun M => decide (M.computing = true ∧ M.startMem = s.mem ∧ M.positions.map (fun q => (q.next, q.checkpoint)) = [(0x10000D00, some [])]))
        && after (.routineEntryStart 1 0) (at_ { P with next := 0x10000D80 }) (fun t => (findLaunch t 1).any fun M => decide (M.fault = some (.format, 0x10000D80)))
        && after (.routineEntryStart 1 0) (at_ { P with next := 0x10000D40, started := 1 }) (fun t => (findLaunch t 1).any fun M => decide (M.positions.map (·.started) = [1]))
        && after (.routineEntryStart 1 0) (at_ { P with next := 0x10000D00 }) (fun t => (findThread t ⟨1, 0x10008⟩).any fun y => decide (y.r.rg 2 = 9 ∧ y.r.pc = 0x10000020))
        && after (.exchangePhase 1) { s with launches := [past] } (fun t => decide (Mem.read t.mem 0x40001000 1 = 2 ∧ t.launches.map (fun M => (M.computing, M.superstep, M.deferred.length)) = [(false, 1, 0)]))
        && after (.lockstepMismatch 1 0 2 50) (pair { P with checkpoint := some cells, list := 0x10000D00, started := 1 }) (fun t =>
          decide (Mem.get t.mem (localBase + 5) = 7 ∧ Mem.get t.mem (localBase + 9) = 0 ∧ (benchOf t 0).rollbacks = 1) && (findLaunch t 1).any fun M => decide (M.positions.map (fun q => (q.next, q.started, q.rollbacks)) = [(0x10000D00, 0, 1)]))
        && after (.lockstepMismatch 1 0 2 50) (pair { P with firstPoint := some (2, 50), rollbacks := 1 }) (fun t =>
          decide ((benchOf t 0).lasting = 1) && (findLaunch t 1).any fun M => decide (M.fault = some (.lockstepLasting, 0) ∧ M.positions.map (·.lasting) = [true]))) = true := by
  decide +kernel

/-- A thread off its seat, with a number of its own and a priority. -/
def idle (k : Nat) (st : TState) (prio : Nat) : Thread :=
  { runner (regs [(5, 7)]) with id := ⟨1, BitVec.ofNat 44 (0x200 + k)⟩, st := st, place := .off, basePrio := prio, effPrio := prio }

/-- Hearth 0 with every strand seat taken at priority 1. -/
def crowded (x : Thread) : State :=
  let s := one (regs [])
  { s with others := x :: (List.range 64).map fun k => { idle (k + 1) .seated 1 with place := .strand (k / 16) }, th := { s.th with place := .off, st := .parked } }

/-- SeatsAndReliability, seats: a seat frozen past its limit and within it; a queue whose head has its blocks and one whose head lacks them; a seat wanted at a permitted point and elsewhere; a free
core and a ready thread; no free core, with threads of a higher and of the same priority. -/
theorem test_witness_seats :
    let f := forger (regs [])
    let frozen (n : Nat) : State := { f with hearths := [(0, { hearthOf f 0 with freezewd := 1024, frozen := some 8, frozenFor := n })] }
    let s := one (regs [])
    let queued (x : Thread) : State := { s with others := [x], hearths := [(0, { hearthOf s 0 with forgeQueue := [x.id] })] }
    let q := { idle 0 .parked 1 with wait := .forgeSeat }
    let bare := { q with resident := 0 }
    let want (b : Bool) : State := { f with hearths := [(0, { hearthOf f 0 with preempt := true, boundary := b })] }
    let x := idle 0 .ready 3
    let ready : State := { s with others := [x] }
    let y := idle 0 .ready 1
    let victim := { idle 1 .seated 1 with place := .strand 0 }
    let quiet (u : State) : State := { u with hearths := [(0, { hearthOf u 0 with quiesced := true })] }
    let spill : Word := BitVec.ofNat 64 (2 ^ 60 + 0x401 * 2 ^ 20)
    let owned (k : ThreadId) : State := { queued q with hearths := [(0, { hearthOf (queued q) 0 with owner := some k, forgespill := spill, forge := { issued := 5 } })] }
    let away : State := { f with hearths := [(0, { hearthOf f 0 with boundary := true, preempt := true, quiesced := true, owner := some f.th.id, forgespill := spill, forge := { issued := 5 } })] }
    let full : State := { want true with hearths := [(0, { hearthOf (want true) 0 with forgeQueue := (List.range 64).map fun k => ⟨1, BitVec.ofNat 44 (0x900 + k)⟩ })] }
    (seatThread f 0 = some f.th.id ∧ (hearthOf (frozen 2000) 0).frozen = some 8 ∧ (hearthOf (frozen 2000) 0).freezewd.toNat = 1024)
      ∧ ((hearthOf (queued q) 0).seat = none ∧ (hearthOf (queued q) 0).quiesced = false ∧ seatCandidate (ownWorld (queued q) 0) (hearthOf (queued q) 0) = some q.id ∧ q.preempted = false ∧ findThread (queued q) q.id = some q ∧ q.redirect = none
        ∧ 0x87FF &&& ~~~q.resident = 0 ∧ 0x87FF &&& ~~~bare.resident ≠ 0 ∧ findThread (queued bare) q.id = some bare ∧ (hearthOf (queued q) 0).owner = none)
      ∧ ((hearthOf (queued q) 0).forgeQueue.length = 1 ∧ (threads (queued q)).all (fun y => decide (y.wait ≠ .forgeQueue 0)) = true ∧ ownWorld (queued q) 0 q.id = true)
      ∧ (overdue (hearthOf (want true) 0) = false ∧ f.th.asyncTrap = none ∧ preemptWanted (want false) (hearthOf (want false) 0) f.th = false)
      ∧ (freeSpill (hearthOf (owned s.th.id) 0) = some 0 ∧ freeSpill (hearthOf away 0) = some 0 ∧ preemptible (hearthOf away 0) = true ∧ preemptible (hearthOf full 0) = true
        ∧ (hearthOf full 0).forgeQueue.length = 64 ∧ ((seatedOn (quiet s) 0).find? (strandPreemptible (quiet s))).map (·.id) = some s.th.id ∧ (hearthOf (quiet s) 0).quiesced = true)
      ∧ (findThread (want true) f.th.id = some f.th ∧ (hearthOf (want true) 0).preempt = true ∧ preemptible (hearthOf (want true) 0) = true ∧ preemptible (hearthOf (want false) 0) = false)
      ∧ (freeCore ready 0 = some 1 ∧ seatChoice ready 0 = some x ∧ findThread ready x.id = some x ∧ 0x8200 &&& ~~~x.resident = 0)
      ∧ (freeCore (crowded x) 0 = none ∧ seatChoice (crowded x) 0 = some x ∧ seatVictim (crowded x) 0 = some (victim, 0) ∧ findThread (crowded x) victim.id = some victim ∧ victim.effPrio < x.effPrio
        ∧ y.effPrio ≤ victim.effPrio ∧ strandPreemptible (crowded x) victim = true ∧ seatChoice (crowded y) 0 = some y)
      ∧ (after (.freezeWatchdog 0) (frozen 2000) (fun t => decide (t.th.st = .trapped ∧ t.th.record.value = 8)) && after (.freezeWatchdog 0) (frozen 1024) (fun t => decide (t.th.st = .running))
        && after (.forgeSeatGrant 0) (queued q) (fun t => decide ((hearthOf t 0).seat = some q.id) && (findThread t q.id).any fun z => decide (z.st = .running ∧ z.forge = true ∧ z.r.pc = 0x10000020))
        && after (.forgeSeatGrant 0) (queued bare) (fun t => (findThread t q.id).any fun z => decide (z.wanted = 0x87FF ∧ z.st = .parked))
        && after (.forgePreempt 0) (want true) (fun t => decide ((hearthOf t 0).seat = none ∧ t.th.st = .parked ∧ (hearthOf t 0).forgeQueue = [f.th.id])) && after (.forgePreempt 0) (want false) (fun t => decide (t.th.st = .running))
        && after (.forgePreempt 0) away (fun t => decide ((hearthOf t 0).owner = none ∧ (hearthOf t 0).spill.map (fun x => (x.1, x.2.1)) = [(0, f.th.id)]))
        && after (.forgePreempt 0) full (fun t => decide (t.th.wait = .forgeQueue 0 ∧ (hearthOf t 0).forgeQueue.length = 64))
        && after (.forgeSeatGrant 0) (owned s.th.id) (fun t => decide ((hearthOf t 0).seat = some q.id ∧ (hearthOf t 0).spill.map (fun x => (x.1, x.2.1)) = [(0, s.th.id)]))
        && after (.seatPreempt 0) (quiet s) (fun t => decide (t.th.st = .ready ∧ t.th.place = .off))
        && after (.threadSeat 0) ready (fun t => (findThread t x.id).any fun z => decide (z.st = .seated ∧ z.place = .strand 1))
        && after (.seatPreempt 0) (crowded x) (fun t => (findThread t x.id).any (fun z => decide (z.place = .strand 0)) && (findThread t victim.id).any fun z => decide (z.place = .off ∧ z.st = .ready))
        && after (.seatPreempt 0) (crowded y) (fun t => (findThread t y.id).any fun z => decide (z.place = .off))
        && after (.priorityAging x.id) { ready with others := [{ x with readyFor := 131072 }] } (fun t => (findThread t x.id).any fun z => decide (z.effPrio = 5))) = true := by
  decide +kernel

/-- SeatsAndReliability, lanes and memory: a free group with an entry that waits, no free group, a bound entry; stores and updates that may be performed, that wait, and of a poisoned line; a bank in
its refresh window; memory that is there and that is not; a module that traces, with room, one that is off, and periods in and out of range. -/
theorem test_witness_memory_events :
    let s := one (regs [])
    let entry : VectorEntry := { t := s.th.id }
    let lanes (v : BitVec 8) (g : Option Nat) : State := { s with hearths := [(0, { hearthOf s 0 with vlgrpNow := v })], cores := [(0, { vqueue := [{ entry with group := g }] })] }
    let p : Pending := { hearth := 0, pa := 0x40001000, op := .whole 2 0x1234 }
    let up : Pending := { hearth := 0, pa := 0x40001001, op := .update 0 10 5 }
    let st : State := { s with pending := [p, up] }
    let add : State := { s with pending := [up] }
    let mod (w : Word) : State := { s with cores := [(0, { debug := { tracectl := w, nextRecord := 2 } })] }
    let on := mod (BitVec.ofNat 64 (2 ^ 63 + 20 * 2 ^ 54 + 0x40100 * 2 ^ 12 + 12))
    let cached (dirty : BitVec 16) : State := { s with others := [{ other .parked with wait := .park, dirty := dirty }] }
    (freeGroups (lanes 0xFE none) 0 = [0] ∧ (chooseCore (lanes 0xFE none) 0 [] (hearthOf (lanes 0xFE none) 0)).1 = some 0 ∧ freeGroups (lanes 0xFF none) 0 = []
        ∧ (coreOf (lanes 0xFE (some 0)) 0).vqueue.any (fun e => e.group.isSome) = true)
      ∧ (st.pending[0]? = some p ∧ storeBlocked st.pending 0 p = false ∧ p.op.isUpdate = false ∧ storeBlocked st.pending 1 up = true ∧ st.pending[1]? = some up
        ∧ add.pending[0]? = some up ∧ storeBlocked add.pending 0 up = false ∧ up.op.isUpdate = true ∧ poisoned add up.pa up.op.size = false
        ∧ poisoned { add with poison := [0x40001001 / 128] } up.pa up.op.size = true)
      ∧ (s.cyc.toNat % 16384 / 128 ≠ 2 * 3 ∧ s.cyc.toNat % 16384 / 128 = 2 * 0 ∧ paExists 0x40000000 = true ∧ paExists 0xF000000000000 = false ∧ (dieOf s (homeDie 0x40000000)).ecclog.getLsbD 63 = false
        ∧ (dieOf { s with dies := [(0, { ecclog := 0x8000000000000000 })] } (homeDie 0x40000000)).ecclog.getLsbD 63 = true)
      ∧ (traceRoom (moduleOf on (.core 0)) = some 128 ∧ (moduleOf on (.core 0)).nextRecord.toNat < 128 ∧ ((moduleOf on (.core 0)).tracectl.extractLsb' 54 6).toNat = 20
        ∧ traceRoom (moduleOf (mod 0x0500000000000000) (.core 0)) = none ∧ ((moduleOf (mod 0x0500000000000000) (.core 0)).tracectl.extractLsb' 54 6).toNat = 20
        ∧ ((moduleOf s (.core 0)).tracectl.extractLsb' 54 6).toNat < 10)
      ∧ (after (.laneGroupBind 0) (lanes 0xFE none) (fun t => decide ((coreOf t 0).vqueue = [{ entry with group := some 0 }])) && after (.vectorEntryComplete 0) (lanes 0xFE (some 0)) (fun t => decide ((coreOf t 0).vqueue = []))
        && after (.storeCompletion 0) st (fun t => decide (Mem.read t.mem 0x40001000 2 = 0x1234 ∧ t.pending = [up])) && after (.updateLineMerge 1) st (fun t => decide (t.pending = [p, up]))
        && after (.updateLineMerge 0) add (fun t => decide (Mem.read t.mem 0x40001001 4 = 5 ∧ t.pending = []))
        && after (.updateLineMerge 0) { add with poison := [0x40001001 / 128] } (fun t => decide (t.mem = [] ∧ t.pending = []))
        && after (.refreshWindowEnd 0 3) { s with th := { s.th with st := .stalledMemory } } (fun t => decide (t.th.st = .seated))
        && after (.eccUncorrectable 1 0x40000085 true) s (fun t => decide (t.poison = [0x40000080 / 128] ∧ (dieOf t (homeDie 0x40000085)).ecclog = 0xB000000040000080))
        && (cachedBlock 0x80101010 (cached 1)).any (fun z => decide (z.2 = 0 ∧ hasBlock z.1.dirty 0 = true)) && (cachedBlock 0x80101010 (cached 0)).any (fun z => decide (hasBlock z.1.dirty z.2 = false))
        && decide (cachedBlock 0x90000000 (cached 1) = none ∧ localHearth 0x80101010 = none)
        && after (.eccUncorrectable 3 0x80101010 true) (cached 0) (fun t => decide (t.poison = [] ∧ (dieOf t (homeDie 0x80101010)).transient = 1))
        && after (.eccUncorrectable 3 0x80101010 true) (cached 1) (fun t => decide (t.poison = [0x80101010 / 128]))
        && after (.eccUncorrectable 1 0x40000085 false) s (fun t => decide (t.poison = [] ∧ (dieOf t (homeDie 0x40000085)).transient = 1))
        && (match exec (.eccUncorrectable 1 0xF000000000000 false) s with
          | .fault (.noMemory a) => a == 0xF000000000000
          | _ => false)
        && after (.traceTimestamp (.core 0)) on (fun t => decide (Mem.read t.mem 0x40100040 8 = 5 * 2 ^ 60 ∧ (moduleOf t (.core 0)).nextRecord = 3))
        && after (.traceTimestamp (.core 0)) s (fun t => decide (t.mem = []))) = true := by
  decide +kernel

/-! Witnesses for the fabric, the host port and start-up. -/

/-- R446: an image of no body, version 3, under the prime 2^3072 − 47 as modulus, with a salt of zeros; its signature was made from the header, outside the model, by the method that R446 names. -/
def signature : Nat :=
  0x2409e684ff877fdabaf4aa214875ed1cd8de51c0bde91d67bd8436c9d0cf202bb1ffbd29ea358072797f3c62a8273172fe29b5f6ba06c053879becbe7db1cc501d1d1209b3ae681f892ea7af20a5639f34b587e3a1b377868dd9bbbe996a299ef23d2986e521276c4af57e59bf3636001b1d82a260ac2a8ded14111db22aa7d3c29411e8ddfe9739c4ce46cc126f9111110b01f44da11637d36af7345576323e6b0b6ba72e40d4f04869a642d111b2220ef8902c67df3a6ea0f6c7ba0c268643d6e1e34bc5bb8e619fe47e060910fd33a3941e7a3d4e0500893a95660351bd6202747a0b6f432530dda29b797c578b9a50e21c814a26fa2aac9c4dc11dc29f0c2924d87d51bd4a81024fab75df4c48b22d519b9995f9336cf3ee8407549112b1ca39ffce2200df533eead6551ee13b456d8b34fa089e8f3790592932e2057b2fa8057a10818c9ec03be2876c04174d1a3a98a8df495c8cbefe8ed9b3deb9339aaa30cddb3b6a6cfba1743b500b5b3567f17a8e5b577c853daf1c114f0ff325b5

def image : List Byte :=
  natToBytes 4 0x4C434743 ++ natToBytes 4 3 ++ natToBytes 8 0 ++ bigBytes 32 0xe3b0c44298fc1c149afbf4c8996fb92427ae41e4649b934ca495991b7852b855
    ++ bigBytes 384 (2 ^ 3072 - 47) ++ List.replicate 80 0 ++ bigBytes 384 signature

/-- The fuses that hold its key. -/
def fuses : Boot := { keyHash := bigBytes 32 0xc0b76447f182c71dfc95fb6af1c6f9610089f9f88dac223bc74f7fce5d1bb960, minVersion := 3 }

/-- The hash of the three-letter message of the standard that R446 names. -/
theorem test_hash : sha256 [0x61, 0x62, 0x63] = bigBytes 32 0xba7816bf8f01cfea414140de5dae2223b00361a396177a9cb410ff61f20015ad := by decide +kernel

/-- The image passes every check. -/
theorem test_image : checkImage fuses image = none := by decide +kernel

/-- The checks before the signature are failed by images that break them. -/
theorem test_image_header : checkImage fuses (image.set 0 0) = some .magic ∧ checkImage fuses (image.set 0x1B0 1) = some .reserved ∧ checkImage fuses (image.set 0x40 0) = some .key := by
  decide +kernel

/-- A signature that is not the key's fails. -/
theorem test_image_signature : checkImage fuses (image.set 0x21F 1) = some .signature := by decide +kernel

/-- A version below the fuses' fails. -/
theorem test_image_version : checkImage { fuses with minVersion := 4 } image = some .version := by
  decide +kernel

/-- Memory in which one page is secure, and host queue 3 has a ring of 16 entries for address space 1. -/
def fabric (fetched done error : Nat) : State :=
  let s := one (regs [])
  withMem [(0x60000000, 8, 2 ^ 63 + 2 ^ 62 + 0x61000000), (0x60000008, 8, 0x61001000), (0x500000C8, 8, 2 ^ 63 + 2 ^ 32 + 4), (0x500000D0, 8, fetched), (0x500000D8, 8, done), (0x500000E0, 8, error)]
    { s with regiontbl := BitVec.ofNat 64 (2 ^ 63 + 0x60000000), mgmt := { qtbase := 0x50000000 }, queues := [(3, { served := true })] }

/-- FabricWords: memory that is there, absent, secure, poisoned, and of an ingot store; a domain that waits for a member; requests of each kind of waiter, one held behind another, one past its time-out;
rates at their limit and below it, an enabled table, and a time in an odd and in an even slot. -/
theorem test_witness_fabric :
    let s := fabric 0 0 0
    let me := s.th.id
    let D := dom [me] []
    let ask (who : Waiter) (req : RemoteRequest) : Remote := { who := who, node := 5, req := req, va := 0x10000000, issued := 0, bytes := 64, sent := some 0 }
    let load := ask (.access me) (.load false 0x100 8)
    let store := ask (.queued me) (.store false 0x100 [1])
    let op := s.th.operation .cpy 1 1 0 []
    let opStore := ask (.operation me 1 1) (.store false 0x200 [1])
    let rs : State := { s with remotes := [load, { load with va := 1 }, store, opStore], ops := [op] }
    let old : State := { s with remotes := [load], cyc := 2 ^ 24 }
    let slow : State := { s with nodes := [(5, { rate := 1600 })], cyc := 1024 }
    let table : State := { s with mgmt := { s.mgmt with fst := 0x8000000070000000 } }
    let odd : State := { s with tlock := true, cyc := 128 }
    (refuseRemote s false 0x40000000 8 = none ∧ refuseRemote s false 0xF000000000000 8 = some .noMemory ∧ refuseRemote s false 0x61000000 8 = some .wrongWorld ∧ refuseRemote s true 0x61000000 8 = none
        ∧ poisoned s 0x40000000 8 = false ∧ poisoned { s with poison := [0x40000000 / 128] } 0x40000000 8 = true ∧ ingotDie 0x40000000 = none ∧ (ingotDie 0xFE00000000000).isSome = true
        ∧ refuseRemote s false 0xFE00000000000 1 = none)
      ∧ (domainGet { s with domains := [D] } 0 = some D ∧ me ∈ D.members ∧ D.arrivals.any (fun z => decide (z.t = me)) = false)
      ∧ (rs.remotes[0]? = some load ∧ heldBehind rs.remotes 0 load = false ∧ heldBehind rs.remotes 1 { load with va := 1 } = true ∧ heldBehind rs.remotes 2 store = false ∧ findThread rs me = some rs.th
        ∧ valueReturning load.req = true ∧ valueReturning opStore.req = false ∧ heldBehind rs.remotes 3 opStore = false ∧ findOp rs me 1 1 = some op ∧ rs.th.st = .running)
      ∧ (1024 ≤ (slow.cyc - (nodeOf slow 5).changedAt).toNat ∧ (nodeOf slow 5).rate < 3200 ∧ 3200 ≤ (nodeOf s 5).rate ∧ table.mgmt.fst.getLsbD 63 = true ∧ s.mgmt.fst.getLsbD 63 = false
        ∧ odd.cyc.toNat % 16384 / 128 % 2 = 1 ∧ elapsed odd.cyc odd.slewAt 1024 = true)
      ∧ (let held := { load with sent := none }
        let full : State := { s with remotes := [held], nodes := [(5, { cap := 4096, out := 4090 })] }
        let early : State := { s with remotes := [held], nodes := [(5, { free := 9 })], cyc := 8 }
        let late : State := { early with cyc := 9 }
        mayLeave full 0 held = false ∧ mayLeave early 0 held = false ∧ mayLeave late 0 held = true
        ∧ (tryLeave late 0).remotes.map (·.sent) = [some 9] ∧ ((nodeOf (tryLeave late 0) 5).out, (nodeOf (tryLeave late 0) 5).free) = (64, 11)
        ∧ elapsed slow.cyc (nodeOf slow 5).markedAt 1024 = true ∧ elapsed 100 (some 50) 1024 = false
        ∧ after (.remoteResponse 0 (.data [1])) { s with remotes := [held] } (fun t => decide (t.remotes.length = 1)) = true)
      ∧ (after (.remoteRequestServe (.store false 0x40000000 [7, 8])) s (fun t => decide (t.responses = [.data []] ∧ Mem.read t.mem 0x40000000 2 = 0x807))
        && after (.remoteRequestServe (.load false 0x61000000 8)) s (fun t => decide (t.responses = [.wrongWorld])) && after (.remoteRequestServe (.store false 0xFE00000000000 [7])) s (fun t => decide (t.responses = [.noMemory]))
        && after (.remoteRequestServe (.arrival 0 9 me)) { s with domains := [D] } (fun t => decide ((domainGet t 0).map (·.arrivals) = some [arrived me 9]))
        && after (.remoteResponse 0 (.data [1])) rs (fun t => decide (t.th.replies.map (·.result) = [.data [1]] ∧ t.remotes.length = 3)) && after (.remoteResponse 1 .noMemory) rs (fun t => decide (t.remotes.length = 4))
        && after (.remoteResponse 2 .wrongWorld) rs (fun t => decide (t.th.st = .trapped ∧ t.th.record.value = 0x10000000))
        && after (.remoteResponse 3 .poisoned) rs (fun t => decide ((findOp t me 1 1).map (fun o => o.replies.map (·.result)) = some [.poisoned]))
        && after (.remoteTimeout 0) old (fun t => decide (t.th.replies.map (·.result) = [.noMemory])) && after (.remoteTimeout 0) rs (fun t => decide (t.remotes.length = 4))
        && after (.linkLost [5]) { s with remotes := [load] } (fun t => decide (t.remotes = [] ∧ t.lostNodes = [5]))
        && after (.markedResponse 5) s (fun t => decide ((nodeOf t 5).rate = 1600 ∧ (nodeOf t 5).marks = 1)) && after (.rateIncrease 5) slow (fun t => decide ((nodeOf t 5).rate = 1632))
        && after (.fabEn 77) s (fun t => decide (t.cyc = 77 ∧ t.tlock = true)) && after (.cycSlewStep true) odd (fun t => decide (t.cyc = 129)) && after (.cycSlewStep false) odd (fun t => t.withhold)) = true := by
  decide +kernel

/-- HostAndStartUp, queues and memory: a served queue with entries to fetch, one in error, one past its ring, a read that came long ago; entries with the stamp and without; a launch that is complete, with a block and without; and a ready
package. -/
theorem test_witness_host :
    let s := fabric 5 5 0
    let bad := fabric 5 5 (2 ^ 63)
    let entry (stamp : Nat) : List Byte := natToBytes 8 0x10000400 ++ natToBytes 8 (0x7700000000 + stamp) ++ natToBytes 48 0
    let asked : State := { s with queues := [(3, { served := true, target := some 7 })] }
    let read : State := { s with queues := [(3, { served := true, target := some 7, firstRead := some 0 })], cyc := 4096 }
    let L (cpl : Word) : Launch := { id := 1, host := some (3, 6, 0x77, cpl), asid := 1, secure := false, priv := 0, prio := 0, addr := 0x10000400, record := [], state := .complete }
    let ended (cpl : Word) : State := { s with launches := [L cpl], ops := [launchOp (L cpl) 0], benches := [(0, { tlb := [page 1 0x10000000 0x40000000] })] }
    let place (u : State) (va : Nat) : Bool := okAnd (enginePlace (launchOp (L 0x10000600) 0) va 8 .store) u fun ps t => !ps.isEmpty && hereB ps && ps.all fun r => !readOnly t 1 r.va r.pa
    (ringLog s 3 = some 4 ∧ ringLog s 4 = none ∧ pendingEntries asked 3 = 2 ∧ (queueWord asked 3 4).getLsbD 63 = false ∧ (queueWord bad 3 4).getLsbD 63 = true ∧ (hostQueue read 3).firstRead = some 0
        ∧ 4096 ≤ (read.cyc - 0).toNat ∧ (hostQueue s 3).firstRead = none ∧ (hostQueue s 3).completedAhead = [] ∧ (hostQueue s 3).served = true ∧ (queueWord s 3 3).toNat + 1 < 2 ^ 64)
      ∧ ((entry 6).length = 64 ∧ ((wordsOf (entry 6)).getD 1 0).extractLsb' 0 16 = 6 ∧ badRingEntry (wordsOf (entry 6)) = false ∧ badRingEntry (wordsOf (entry 0x10006)) = true ∧ asked.launches = [])
      ∧ (findLaunch (ended 0) 1 = some (L 0) ∧ findOp (ended 0) ⟨1, 0⟩ 6 1 = some (launchOp (L 0) 0) ∧ opWaits (launchOp (L 0) 0) (ended 0) = false
        ∧ (place (ended 0x10000600) 0x10000600 && place (ended 0x10000600) 0x10000608) = true)
      ∧ (s.boot.state = .ready ∧ (0x1008 : BitVec 20) = BitVec.ofNat 20 (0x1000 + 8 * 1) ∧ (0x2018 : BitVec 20) = BitVec.ofNat 20 (0x2000 + 8 * 3) ∧ paExists 0xF000000000000 = false ∧ paExists 0x40000000 = true
        ∧ touchesSecure s 0x61000000 8 = true ∧ touchesSecure s 0x40000000 8 = false)
      ∧ (after (.doorbellWrite 3 7) s (fun t => decide (pendingEntries t 3 = 2)) && after (.doorbellWrite 3 22) s (fun t => decide (queueWord t 3 4 = 0x8002000000000005))
        && after (.doorbellWrite 3 7) bad (fun t => decide (queueWord t 3 4 = 0 ∧ pendingEntries t 3 = 2))
        && after (.ringEntryFetch 3 none) asked (fun t => decide (queueWord t 3 4 = 0x8003000000000005)) && after (.queueNotReady 3 9) read (fun t => decide (queueWord t 3 4 = 0x8001000900000005))
        && after (.ringEntryFetch 3 (some (entry 6))) asked (fun t => decide (queueWord t 3 2 = 6 ∧ t.launches.map (fun l => (l.id, l.asid, l.addr, l.state)) = [(1, 1, 0x10000400, .queued)]))
        && after (.ringEntryFetch 3 (some (entry 0x10006))) asked (fun t => decide (t.launches.map (·.state) = [.complete])) && after (.ringEntryFetch 3 (some (entry 7))) asked (fun t => decide ((hostQueue t 3).firstRead = some 0))
        && after (.mgmtWindowWrite 0x8 0x123456789ABCDEF0 true) s (fun t => decide (t.mgmt.qtbase = 0x000456789AB00000)) && after (.mgmtWindowWrite 0x1008 7 false) s (fun t => decide (lookup 0 t.mgmt.intena 1 = 7))
        && after (.hostLaunchCompletion 1) (ended 0) (fun t => decide (queueWord t 3 3 = 6 ∧ t.ops = []))
        && after (.hostLaunchCompletion 1) (ended 0x10000600) (fun t => decide (Mem.read t.mem 0x40000600 8 = 0x8000000300000000 ∧ Mem.read t.mem 0x40000608 8 = 0x77))
        && after (.hostMemoryAccess 0x40000000 (some [1, 2]) 0) s (fun t => decide (Mem.read t.mem 0x40000000 2 = 0x201)) && after (.hostMemoryAccess 0x500000D0 none 2) s (fun t => decide (t.hostReads = [[5, 0]]))) = true := by
  decide +kernel

/-- An image is checked against the fuses alone. -/
theorem check_fuses (b : Boot) (x : List Byte) (h : b.keyHash = fuses.keyHash ∧ b.minVersion = fuses.minVersion) : checkImage b x = checkImage fuses x := by
  unfold checkImage
  rw [h.1, h.2]

/-- A package whose slot A does not pass and whose other slots do, with a withdrawn pair, and one whose steward firmware does not pass. -/
def booting (steward : List Byte) : State :=
  { boot := { fuses with slots := [[], image, steward, image], withdrawn := [5], nonces := [List.replicate 32 1], firmware := { node := 9 } } }

/-- HostAndStartUp, start-up: slots whose images pass, and slots whose monitor or whose steward fails. -/
theorem test_witness_images : monitorImage (booting image).boot = .ok image ∧ monitorImage (booting []).boot = .ok image ∧ checkImage (booting image).boot image = none
    ∧ checkImage (booting []).boot [] = some .magic ∧ monitorImage (one (regs [])).boot = .error .magic := by
  have h (x : List Byte) : checkImage (booting x).boot image = none := (check_fuses _ _ ⟨rfl, rfl⟩).trans test_image
  have e (x : List Byte) : checkImage (booting x).boot [] = some .magic := rfl
  have m (x : List Byte) : monitorImage (booting x).boot = .ok image := by
    unfold monitorImage
    rw [show (booting x).boot.slots.getD 0 [] = [] from rfl, show (booting x).boot.slots.getD 1 [] = image from rfl]
    dsimp only
    rw [e, h]
  exact ⟨m _, m _, h _, e _, rfl⟩

/-- HostAndStartUp: a package that is held and one that is ready, nonces of 32 bytes and of another length, a temperature below the trip and at it. -/
theorem test_witness_start :
    let s := one (regs [])
    let held : State := {}
    (held.boot.state ≠ .ready ∧ s.boot.state = .ready ∧ s.boot.nonces = [])
      ∧ (after .powerOnReset s (fun t => decide (t.boot.state = .recovery 2 .magic ∧ t.th.st = .unborn))
        && after (.attestationRequest (List.replicate 32 1)) held (fun t => decide (t.boot.nonces.length = 1)) && after (.attestationRequest [1]) held (fun t => decide (t.boot.nonces = []))
        && after (.attestationRequest (List.replicate 32 1)) s (fun t => decide (t.boot.reports.length = 1))
        && after (.thermtrip 119) s (fun t => decide (t.th.st = .running)) && after (.thermtrip 120) s (fun t => decide (t.th.st = .unborn ∧ t.tripped = true ∧ t.boot.state = .held))) = true := by
  decide +kernel

end Sys2Proof.Tests
end

/-!
Compares and predicate logic (R162, R163): what a condition code means, and what compares and predicate words leave.
-/

namespace Sys2Proof.Machine

/-- The conditions of R162, by code. -/
theorem condition_meanings (x y : Word) :
    condition 0 x y = decide (x = y) ∧ condition 1 x y = decide (x ≠ y)
      ∧ condition 2 x y = decide (x.toInt < y.toInt) ∧ condition 3 x y = decide (x.toInt ≤ y.toInt)
      ∧ condition 4 x y = decide (x.toNat < y.toNat) ∧ condition 5 x y = decide (x.toNat ≤ y.toNat) :=
  ⟨rfl, rfl, rfl, rfl, rfl, rfl⟩

section
variable {g : Guard} {s : State} (h : s.th.r.guard g = true) (d : PReg)
include h

theorem exec_cmp (a b : Reg) (c : BitVec 7) :
    exec (.cmp g d a b c) s = .next (s.completed (s.th.r.wp d (condition c.toNat (s.th.r.rg a) (s.th.r.rg b)))) :=
  compute_true (effCmp c.toNat d a b) h

theorem exec_cmpi (a : Reg) (c : BitVec 3) (i : BitVec 9) :
    exec (.cmpi g d a c i) s = .next (s.completed (s.th.r.wp d (condition c.toNat (s.th.r.rg a) (i.signExtend 64)))) :=
  compute_true (effCmpi c.toNat d a i) h

/-- The predicate words complete with their logical value (R163). -/
theorem exec_predicate_words (p q : PReg) :
    let u := s.th.r.rp p
    let v := s.th.r.rp q
    let after (c : Bool) : Out := .next (s.completed (s.th.r.wp d c))
    exec (.pand g d p q) s = after (u && v) ∧ exec (.por g d p q) s = after (u || v) ∧ exec (.pxor g d p q) s = after (u != v)
      ∧ exec (.pandn g d p q) s = after (u && !v) ∧ exec (.pnot g d p) s = after (!u)
      ∧ exec (.pset g d) s = after true ∧ exec (.pclr g d) s = after false :=
  ⟨compute_true (effP (· && ·) d p q) h, compute_true (effP (· || ·) d p q) h, compute_true (effP xor d p q) h,
    compute_true (effP (fun x y => x && !y) d p q) h, compute_true (fun r => r.wp d (!r.rp p)) h,
    compute_true (fun r => r.wp d true) h, compute_true (fun r => r.wp d false) h⟩

end

/-- What is read of the written predicate: p0 stays 1 (R7). -/
theorem Regs.rp_wp_same (r : Regs) (d : PReg) (c : Bool) : (r.wp d c).rp d = if d = 0 then true else c := by
  rw [Regs.rp_wp]
  by_cases hd : d = 0
  · subst hd; rfl
  · rw [if_pos ⟨rfl, hd⟩, if_neg hd]

theorem Regs.rp_wp_other (r : Regs) {d n : PReg} (c : Bool) (h : n ≠ d) : (r.wp d c).rp n = r.rp n := by
  rw [Regs.rp_wp, if_neg fun e => h e.1]

/-- Settles O13: compares by the meaning of their condition code, predicate words by their logical value, p0 by the law of its writes. -/
theorem comparesAndPredicates : Obligations.ComparesAndPredicates := by
  intro g d p q a b i s h x y z u v after
  obtain ⟨eq, ne, lt, le, ltz, lez⟩ := condition_meanings x y
  obtain ⟨eqi, nei, lti, lei, ltzi, lezi⟩ := condition_meanings x z
  obtain ⟨hand, hor, hxor, handn, hnot, hset, hclr⟩ := exec_predicate_words h d p q
  have cmp (c : BitVec 7) : exec (.cmp g d a b c) s = after (condition c.toNat x y) := exec_cmp h d a b c
  have cmpi (c : BitVec 3) : exec (.cmpi g d a c i) s = after (condition c.toNat x z) := exec_cmpi h d a c i
  exact ⟨eq ▸ cmp 0, ne ▸ cmp 1, lt ▸ cmp 2, le ▸ cmp 3, ltz ▸ cmp 4, lez ▸ cmp 5,
    eqi ▸ cmpi 0, nei ▸ cmpi 1, lti ▸ cmpi 2, lei ▸ cmpi 3, ltzi ▸ cmpi 4, lezi ▸ cmpi 5,
    hand, hor, hxor, handn, hnot, hset, hclr,
    fun c => ⟨s.th.r.rp_wp_same d c, fun n hn => s.th.r.rp_wp_other c hn⟩⟩

end Sys2Proof.Machine

/-!
The frame of vector words (R7, R29, R219): an effect on registers stays within its destinations, flags only rise, and the word adds an
entry to its core's vector queue.
-/

namespace Sys2Proof.Machine

open Sys2Proof

/-! ### Effects within their destinations -/

/-- From r to r' nothing changes but the listed g, v and mask registers, the flags, which only rise, the PC and the loop stack. -/
structure WritesOnly (ds : List (Reg ⊕ Reg ⊕ QReg)) (r r' : Regs) : Prop where
  g : ∀ n, Sum.inl n ∉ ds → r'.rg n = r.rg n
  v : ∀ n, Sum.inr (Sum.inl n) ∉ ds → r'.rv n = r.rv n
  m : ∀ n, Sum.inr (Sum.inr n) ∉ ds → r'.rm n = r.rm n
  p : r'.p = r.p
  sh : r'.sh = r.sh
  frame : r'.frame = r.frame
  rng : r'.rng = r.rng
  rnd : r'.rnd = r.rnd
  ftz : r'.ftz = r.ftz
  flags : r'.flags &&& r.flags = r.flags

namespace WritesOnly

variable {ds : List (Reg ⊕ Reg ⊕ QReg)} {r r' : Regs}

theorem refl (ds : List (Reg ⊕ Reg ⊕ QReg)) (r : Regs) : WritesOnly ds r r :=
  ⟨fun _ _ => rfl, fun _ _ => rfl, fun _ _ => rfl, rfl, rfl, rfl, rfl, rfl, rfl, BitVec.and_self⟩

theorem wg (h : WritesOnly ds r r') (d : Reg) (w : Word) (hd : Sum.inl d ∈ ds) : WritesOnly ds r (r'.wg d w) := by
  obtain ⟨hv, hm, hp, hsh, -, hframe, hrng, hrnd, hftz, hflags, -⟩ := r'.wg_fields d w
  exact
    { g := fun n hn => (r'.rg_wg_other w (by rintro rfl; exact hn hd)).trans (h.g n hn)
      v := fun n hn => (congrArg (·.get n.toFin) hv).trans (h.v n hn)
      m := fun n hn => (congrArg (·.get n.toFin) hm).trans (h.m n hn)
      p := hp.trans h.p, sh := hsh.trans h.sh, frame := hframe.trans h.frame, rng := hrng.trans h.rng
      rnd := hrnd.trans h.rnd, ftz := hftz.trans h.ftz, flags := hflags ▸ h.flags }

theorem wv (h : WritesOnly ds r r') (d : Reg) (x : Vec) (hd : Sum.inr (Sum.inl d) ∈ ds) : WritesOnly ds r (r'.wv d x) :=
  { h with v := fun n hn => by rw [Regs.rv_wv, if_neg (by rintro rfl; exact hn hd), h.v n hn] }

theorem wm (h : WritesOnly ds r r') (d : QReg) (w : Word) (hd : Sum.inr (Sum.inr d) ∈ ds) : WritesOnly ds r (r'.wm d w) :=
  { h with m := fun n hn => by rw [Regs.rm_wm, if_neg (by rintro rfl; exact hn hd), h.m n hn] }

/-- Flags that stand stay when others are raised (R56). -/
theorem raise (h : WritesOnly ds r r') (f : BitVec 6) : WritesOnly ds r (r'.raise f) :=
  have hflags : (r'.flags ||| f) &&& r.flags = r.flags := by
    ext i hi
    have hi' := congrArg (·[i]) h.flags
    simp only [BitVec.getElem_or, BitVec.getElem_and] at hi' ⊢
    cases hr : r.flags[i] <;> simp_all
  { h with flags := hflags }

theorem advance (h : WritesOnly ds r r') : WritesOnly ds r r'.advance := by
  have hc : r'.advance = { r' with pc := r'.advance.pc, loops := r'.advance.loops } := r'.advance_control
  rw [hc]
  exact { h with }

end WritesOnly

theorem writeLanes_writesOnly (w : Nat) (d : Reg) (xs : List (Nat × BitVec 6)) (r : Regs) :
    WritesOnly [.inr (.inl d)] r (writeLanes w d xs r) :=
  ((WritesOnly.refl _ r).wv d _ (List.mem_singleton_self _)).raise _

/-- A vector written whole, without flags. -/
theorem wv_writesOnly (d : Reg) (x : Vec) (r : Regs) : WritesOnly [.inr (.inl d)] r (r.wv d x) :=
  (WritesOnly.refl _ r).wv d x (List.mem_singleton_self _)

theorem wg_writesOnly (d : Reg) (w : Word) (r : Regs) : WritesOnly [.inl d] r (r.wg d w) :=
  (WritesOnly.refl _ r).wg d w (List.mem_singleton_self _)

theorem wm_writesOnly (d : QReg) (w : Word) (r : Regs) : WritesOnly [.inr (.inr d)] r (r.wm d w) :=
  (WritesOnly.refl _ r).wm d w (List.mem_singleton_self _)

theorem effVcmp_writesOnly (d : QReg) (a b : Reg) (t : BitVec 4) (c : BitVec 3) (r : Regs) :
    WritesOnly [.inr (.inr d)] r (effVcmp d a b t c r) :=
  (wm_writesOnly d _ r).raise _

theorem effVred_writesOnly (op : Rounding → Nat → Nat → Nat × BitVec 6) (excluded : Nat) (t : BitVec 4) (d a : Reg) (b : QReg) (r : Regs) :
    WritesOnly [.inl d] r (effVred op excluded t d a b r) :=
  (wg_writesOnly d _ r).raise _

theorem effVcvt_writesOnly (key : Word) (d a : Reg) (m : BitVec 3) (c : BitVec 2) (t : BitVec 4) (r : Regs) :
    WritesOnly [.inr (.inl d)] r (effVcvt key d a m c t r) := by
  unfold effVcvt
  exact writeLanes_writesOnly _ d _ r

theorem effVdqnt_writesOnly (d a b : Reg) (t : BitVec 4) (r : Regs) : WritesOnly [.inr (.inl d)] r (effVdqnt d a b t r) :=
  writeLanes_writesOnly _ d _ r

/-- VQNT writes its integers and its exponent (R230). -/
theorem effVqnt_writesOnly (d a b : Reg) (t : BitVec 4) (r : Regs) :
    WritesOnly [.inr (.inl d), .inl b] r (effVqnt d a b t r) :=
  (((WritesOnly.refl _ r).wv d _ List.mem_cons_self).wg b _ (List.mem_cons_of_mem _ List.mem_cons_self)).raise _

/-! ### Vector words as effects -/

/-- A word is an effect on registers under a guard, within given destinations, with an entry of the vector queue. -/
def IsVectorWord (i : Instr) (ds : List (Reg ⊕ Reg ⊕ QReg)) (s : State) : Prop :=
  ∃ g f, exec i s = vector g f s ∧ ∀ r, WritesOnly ds r (f r)

/-- Every word that names vector results is such an effect: one arm per word of majors 0x2B to 0x32. -/
theorem isVectorWord {i : Instr} {ds : List (Reg ⊕ Reg ⊕ QReg)} (h : vectorResults i = some ds) (s : State) : IsVectorWord i ds s := by
  cases i with
  | vadd g d a b t | vsub g d a b t | vmul g d a b t | vfma g d a b t | vfms g d a b t | vmin g d a b t | vmax g d a b t | vdiv g d a b t
  | viadd g d a b t | visub g d a b t | vimul g d a b t | vshl g d a b t | vshr g d a b t | vperm g d a b t =>
    cases h; exact ⟨g, _, rfl, fun r => writeLanes_writesOnly _ d _ r⟩
  | vabs g d a t | vneg g d a t | vsqrt g d a t | vrcp g d a t | vrsq g d a t | vexp g d a t | vlog2 g d a t | vsig g d a t
  | vbcast g d a t => cases h; exact ⟨g, _, rfl, fun r => writeLanes_writesOnly _ d _ r⟩
  | vcvt g d a m c t => cases h; exact ⟨g, _, rfl, effVcvt_writesOnly _ d a m c t⟩
  | vdqnt g d a b t => cases h; exact ⟨g, _, rfl, effVdqnt_writesOnly d a b t⟩
  | vand g d a b t | vor g d a b t | vxor g d a b t | vins g d a b t | vslide g d a b t =>
    cases h; exact ⟨g, _, rfl, fun r => wv_writesOnly d _ r⟩
  | vselm g d a b t => cases h; exact ⟨g, _, rfl, fun r => wv_writesOnly d _ r⟩
  | vqnt g d a b t => cases h; exact ⟨g, _, rfl, effVqnt_writesOnly d a b t⟩
  | vcmp g m a b t c => cases h; exact ⟨g, _, rfl, effVcmp_writesOnly m a b t c⟩
  | mand g m a b | mor g m a b | mxor g m a b => cases h; exact ⟨g, _, rfl, fun r => wm_writesOnly m _ r⟩
  | mnot g m a => cases h; exact ⟨g, _, rfl, fun r => wm_writesOnly m _ r⟩
  | mpop g d a => cases h; exact ⟨g, fun r => r.wg d (valPopc (r.rm a)), rfl, fun r => wg_writesOnly d _ r⟩
  | mfirst g d a => cases h; exact ⟨g, fun r => r.wg d (valMfirst (r.rm a)), rfl, fun r => wg_writesOnly d _ r⟩
  | vext g d a b t => cases h; exact ⟨g, _, rfl, fun r => wg_writesOnly d _ r⟩
  | vredadd g d a b t | vredmax g d a b t | vredmin g d a b t =>
    cases h; exact ⟨g, _, rfl, effVred_writesOnly _ _ t d a b⟩
  | vredx g d a b t => cases h; exact ⟨g, _, rfl, fun r => wg_writesOnly d _ r⟩
  | _ => cases h

/-! ### What a vector word leaves -/

/-- An entry of the vector queue changes the table of cores only (R29). -/
theorem pushVector_frame (s : State) (shaped : Bool) : pushVector s shaped = { s with cores := (pushVector s shaped).cores } := by
  unfold pushVector
  split <;> rfl

/-- A vector word ends with its effect on the registers, or with none, and leaves everything but the registers and the cores. -/
theorem vector_next (g : Guard) (f : Regs → Regs) (s : State) :
    ∃ r cs, vector g f s = .next { s with th := { s.th with r := r.advance }, cores := cs } ∧ (r = s.th.r ∨ r = f s.th.r) := by
  cases hg : s.th.r.guard g with
  | false => exact ⟨s.th.r, s.cores, by rw [vector, hg]; exact compute_false f hg, .inl rfl⟩
  | true =>
    have hp := pushVector_frame s false
    refine ⟨f s.th.r, (pushVector s).cores, ?_, .inr rfl⟩
    rw [vector, hg, if_pos rfl, hp]
    exact compute_true f hg

/-- Settles O22: every vector word is an effect within its destinations, which completion does not widen. -/
theorem vectorFrame : Obligations.VectorFrame := by
  intro i s t hi ht
  obtain ⟨ds, hds⟩ := Option.isSome_iff_exists.mp hi
  obtain ⟨g, f, hexec, hf⟩ := isVectorWord hds s
  obtain ⟨r, cs, hnext, hr⟩ := vector_next g f s
  rw [hexec, hnext] at ht
  cases ht
  have hw : WritesOnly ds s.th.r r.advance :=
    WritesOnly.advance (hr.elim (fun e => e ▸ WritesOnly.refl ds s.th.r) fun e => e ▸ hf s.th.r)
  rw [hds]
  refine ⟨fun d hd => ?_, hw.p, hw.sh, hw.frame, hw.rng, hw.rnd, hw.ftz, hw.flags, fun _ => rfl, rfl⟩
  cases hd
  exact ⟨hw.g, hw.v, hw.m⟩

end Sys2Proof.Machine

/-!
Writes of the system registers (R350 to R359, R362): what forbids a write, what a write reads back as, what it leaves, and the register
writes that have rules of their own.
-/

namespace Sys2Proof.Machine

open Sys2Proof

/-! ### Writable bits -/

/-- The bits under a mask, as a word. -/
theorem masked_eq_and (mask : Nat) (v : Word) : masked mask v.toNat = v &&& BitVec.ofNat 64 mask := by
  simp [masked, natWord, BitVec.ofNat_and]

/-- The low n bits of a word. -/
theorem setWidth_low_eq_and {n : Nat} (hn : n ≤ 64) (v : Word) :
    (v.extractLsb' 0 n).setWidth 64 = v &&& BitVec.ofNat 64 (2 ^ n - 1) := by
  apply BitVec.eq_of_toNat_eq
  have hlt : 2 ^ n - 1 < 2 ^ 64 := by have := Nat.pow_le_pow_right (n := 2) (by omega) hn; omega
  have h64 : 2 ^ n ≤ 2 ^ 64 := Nat.pow_le_pow_right (by omega) hn
  have hmod : v.toNat % 2 ^ n < 2 ^ 64 := Nat.lt_of_lt_of_le (Nat.mod_lt _ (Nat.two_pow_pos n)) h64
  simp only [BitVec.toNat_setWidth, BitVec.extractLsb'_toNat, BitVec.toNat_and, BitVec.toNat_ofNat, Nat.shiftRight_zero,
    Nat.mod_eq_of_lt hmod, Nat.mod_eq_of_lt hlt, Nat.and_two_pow_sub_one_eq_mod]

/-! ### What forbids a write -/

theorem writeLevel_le_two (n : Nat) : writeLevel n ≤ 2 := by
  unfold writeLevel
  split <;> omega

/-- A write below its least level (R350). -/
theorem writeFault_privilege {s : State} {n : Nat} (h : s.th.priv.toNat < writeLevel n) : writeFault s n = some .privilege :=
  if_pos h

/-- A non-secure write of a register that only a secure thread may write (R351, R354). -/
theorem writeFault_world {s : State} {n : Nat} (h : writeLevel n ≤ s.th.priv.toNat) (hn : secureOnly n = true) (hs : s.th.secure = false) :
    writeFault s n = some .world := by
  simp [writeFault, Nat.not_lt.mpr h, hn, hs]

/-- A write that nothing forbids. -/
theorem writeFault_none {s : State} {n : Nat} (h : writeLevel n ≤ s.th.priv.toNat) (hs : secureOnly n = true → s.th.secure = true) :
    writeFault s n = none := by
  cases hn : secureOnly n <;> simp_all [writeFault, Nat.not_lt.mpr h]

theorem writeLevel_le_of_level_two {s : State} (h : s.th.priv = 2) (n : Nat) : writeLevel n ≤ s.th.priv.toNat := h ▸ writeLevel_le_two n

/-- At level 2 a write of a register that is not for secure threads only. -/
theorem writeFault_none_of_level_two {s : State} {n : Nat} (h : s.th.priv = 2) (hn : secureOnly n = false) : writeFault s n = none :=
  writeFault_none (writeLevel_le_of_level_two h n) fun e => absurd (hn.symm.trans e) Bool.false_ne_true

/-- At level 2 a write by a secure thread. -/
theorem writeFault_none_of_secure {s : State} (n : Nat) (h : s.th.priv = 2) (hs : s.th.secure = true) : writeFault s n = none :=
  writeFault_none (writeLevel_le_of_level_two h n) fun _ => hs

/-! ### What a write leaves -/

/-- The registers of the current thread and memory are as before. -/
def KeepsRegsAndMemory (s t : State) : Prop := t.th.r = s.th.r ∧ t.mem = s.mem

theorem KeepsRegsAndMemory.refl (s : State) : KeepsRegsAndMemory s s := ⟨rfl, rfl⟩

theorem KeepsRegsAndMemory.trans {s t u : State} (h : KeepsRegsAndMemory s t) (k : KeepsRegsAndMemory t u) : KeepsRegsAndMemory s u :=
  ⟨k.1.trans h.1, k.2.trans h.2⟩

theorem KeepsRegsAndMemory.ite {s t u : State} {p : Prop} [Decidable p] (h : KeepsRegsAndMemory s t) (k : KeepsRegsAndMemory s u) :
    KeepsRegsAndMemory s (if p then t else u) := by
  split
  · exact h
  · exact k

theorem KeepsRegsAndMemory.elim {α : Type} {s : State} {f : α → State} {o : Option α} (h : ∀ x, KeepsRegsAndMemory s (f x)) :
    KeepsRegsAndMemory s (o.elim s f) := by
  cases o with
  | none => exact .refl s
  | some x => exact h x

theorem putModule_keeps (u : DebugUnit) (m : DebugModule) (s : State) : KeepsRegsAndMemory s (putModule u m s) := by
  cases u <;> exact .refl s

theorem stopUnit_keeps (u : DebugUnit) (reason : BitVec 4) (s : State) : KeepsRegsAndMemory s (stopUnit u reason s) := by
  unfold stopUnit
  extract_lets m s1
  have h1 : KeepsRegsAndMemory s s1 := by
    unfold s1
    split <;> exact putModule_keeps _ _ _
  split
  · exact h1
  · dsimp only
    split
    · exact h1
    · exact h1.trans (putModule_keeps _ _ _)

theorem runUnit_keeps (u : DebugUnit) (s : State) : KeepsRegsAndMemory s (runUnit u s) := by
  unfold runUnit
  extract_lets go s1
  have h1 : KeepsRegsAndMemory s s1 := putModule_keeps _ _ _
  split
  · exact h1
  · exact h1.trans (putModule_keeps _ _ _)

theorem writeModule_keeps (u : DebugUnit) (n : Nat) (v : Word) (s : State) : KeepsRegsAndMemory s (writeModule u n v s) := by
  have put (m : DebugModule) : KeepsRegsAndMemory s (putModule u m s) := putModule_keeps u m s
  exact .ite (put _) <| .ite (.ite (stopUnit_keeps u 1 s) (runUnit_keeps u s)) <| .ite (put _) <| .ite (put _) <| .ite (put _)
    <| .ite (put _) <| .ite (put _) <| .ite (put _) (.refl s)

theorem writeLow_keeps {n : Nat} (v : Word) (s : State) (h : n ≠ 0x002) : KeepsRegsAndMemory s (writeLow n v s) := by
  unfold writeLow
  split
  case h_1 => exact absurd rfl h
  all_goals exact ⟨rfl, rfl⟩

theorem writeCore_keeps (n : Nat) (v : Word) (s : State) : KeepsRegsAndMemory s (writeCore n v s) := by
  unfold writeCore
  dsimp only
  split
  · exact .ite ⟨rfl, rfl⟩ (.refl s)
  · exact ⟨rfl, rfl⟩
  · exact .refl s

theorem writeVlgrp_keeps (h : Nat) (v : Word) (s : State) : KeepsRegsAndMemory s (writeVlgrp h v s) :=
  .ite ⟨rfl, rfl⟩ (.refl s)

theorem writeHworld_keeps (h : Nat) (v : Word) (s : State) : KeepsRegsAndMemory s (writeHworld h v s) :=
  .ite ⟨rfl, rfl⟩ (.refl s)

theorem writeHearth_keeps (h n : Nat) (v : Word) (s : State) : KeepsRegsAndMemory s (writeHearth h n v s) := by
  unfold writeHearth
  dsimp only
  split
  case h_3 => exact writeVlgrp_keeps h v s
  case h_6 => exact writeHworld_keeps h v s
  all_goals exact ⟨rfl, rfl⟩

theorem writeBench_keeps (k n : Nat) (v : Word) (s : State) : KeepsRegsAndMemory s (writeBench k n v s) := by
  unfold writeBench
  dsimp only
  split <;> exact ⟨rfl, rfl⟩

theorem writeDie_keeps (k : Nat) {n : Nat} (v : Word) (s : State) (h : n ≠ 0x302) : KeepsRegsAndMemory s (writeDie k n v s) := by
  unfold writeDie
  dsimp only
  split
  case h_3 => exact absurd rfl h
  all_goals exact ⟨rfl, rfl⟩

/-- A write of a system register other than THRSTAT and POISCLR changes no register of the thread and no memory. -/
theorem writeReg_keeps {n : Nat} (v : Word) (s : State) (h2 : n ≠ 0x002) (h302 : n ≠ 0x302) : KeepsRegsAndMemory s (writeReg n v s) := by
  refine .ite (writeLow_keeps v s h2) <| .ite (writeCore_keeps n v s) <| .ite (.elim fun h => writeHearth_keeps h n v s)
    <| .ite (.elim fun b => writeBench_keeps b n v s) <| .ite (writeDie_keeps _ v s h302) <| .ite ⟨rfl, rfl⟩ <| .ite ⟨rfl, rfl⟩
    <| .ite (.elim fun u => writeModule_keeps u n v s) <| .ite ⟨rfl, rfl⟩ (.refl s)

/-- What a thread reads of a system register but THRSTAT does not rest on its registers. -/
theorem readReg_setRegs (r : Regs) (s : State) {n : Nat} (h : n ≠ 0x002) : readReg (setRegs r s) n = readReg s n := by
  have hlow : readLow (setRegs r s) n = readLow s n := by
    unfold readLow
    dsimp only
    split
    case h_3 => exact absurd rfl h
    all_goals rfl
  unfold readReg
  rw [hlow]
  rfl

/-! ### SWR -/

theorem writeChecked_run {s : State} {n : Nat} (v : Word) (h : writeFault s n = none) :
    writeChecked n v s = .ok ⟨⟩ (writeReg n v s) := by
  simp [writeChecked, M.bind_eq, h]

theorem writeChecked_fault {s : State} {n : Nat} {c : Cause} (v : Word) (h : writeFault s n = some c) :
    writeChecked n v s = .error (.trap c (BitVec.ofNat 64 n)) s := by
  simp [writeChecked, M.bind_eq, h]

section
variable {g : Guard} {s : State} (hg : s.th.r.guard g = true) (d : Reg) {m : BitVec 12}
include hg

/-- SWR of a register that the thread may write. -/
theorem exec_swr_run (h : writeFault s m.toNat = none) :
    exec (.swr g d m) s
      = .next (setRegs (writeReg m.toNat (s.th.r.rg d) s).th.r.advance (writeReg m.toNat (s.th.r.rg d) s)) :=
  (strand_true _ hg).trans (outcome_ok (by
    rw [M.bind_ok (readG_run d s), M.bind_ok (writeChecked_run _ h)]
    exact advance_run _))

/-- SWR of a register that the thread may not write traps with the register's number (R362). -/
theorem exec_swr_trap {c : Cause} (h : writeFault s m.toNat = some c) :
    exec (.swr g d m) s = .next (takeTrap c (m.setWidth 64) s) := by
  rw [← BitVec.ofNat_toNat]
  exact (strand_true _ hg).trans (outcome_trap (by
    rw [M.bind_ok (readG_run d s)]
    exact M.bind_error (writeChecked_fault _ h)))

/-- SWR leaves a register at what its write reads back as, and neither registers nor memory changed. -/
theorem exec_swr_keeps {mask : Word} (h : writeFault s m.toNat = none) (h2 : m.toNat ≠ 0x002) (h302 : m.toNat ≠ 0x302)
    (hr : readReg (writeReg m.toNat (s.th.r.rg d) s) m.toNat = s.th.r.rg d &&& mask) :
    ∃ w, exec (.swr g d m) s = .next w ∧ readReg w m.toNat = s.th.r.rg d &&& mask ∧ w.th.r = s.th.r.advance ∧ w.mem = s.mem := by
  obtain ⟨hregs, hmem⟩ := writeReg_keeps (s.th.r.rg d) s h2 h302
  exact ⟨_, exec_swr_run hg d h, (readReg_setRegs _ _ h2).trans hr, congrArg Regs.advance hregs, hmem⟩

end

/-! ### What a write reads back as -/

/-- All 64 bits writable, as the tables spell the mask. -/
theorem and_all_ones (v : Word) : v &&& 0xFFFFFFFFFFFFFFFF#64 = v := BitVec.and_allOnes

/-- The two halves of a word, as TLBEVT and TRACEPTR divide it (R390, R419). -/
theorem halves_append (v : Word) : v.extractLsb' 32 32 ++ v.extractLsb' 0 32 = v := by
  rw [BitVec.extractLsb'_append_extractLsb'_eq_extractLsb' (start₂ := 32) (start₁ := 0) rfl, BitVec.extractLsb'_eq_self]

/-- The three fields of ECCCNT. -/
theorem counts_append (v : Word) : v.extractLsb' 48 16 ++ v.extractLsb' 24 24 ++ v.extractLsb' 0 24 = v := by
  rw [BitVec.extractLsb'_append_extractLsb'_eq_extractLsb' (start₂ := 48) (start₁ := 24) rfl,
    BitVec.extractLsb'_append_extractLsb'_eq_extractLsb' (start₂ := 24) (start₁ := 0) rfl, BitVec.extractLsb'_eq_self]

section
variable (v : Word) (s : State)

/-- The registers of an address space, and UNITSEL (R354). -/
theorem readReg_writeReg_low :
    readReg (writeReg 0x013 v s) 0x013 = v &&& 0x000FFFFFFFFF003F ∧ readReg (writeReg 0x014 v s) 0x014 = v &&& 0x00FFFFFFFFFF001F
      ∧ readReg (writeReg 0x015 v s) 0x015 = v &&& 0xFFFFFFFFFFFFFFFF ∧ readReg (writeReg 0x016 v s) 0x016 = v &&& 0x00FFFFFFFFFFFFFF
      ∧ readReg (writeReg 0x018 v s) 0x018 = v &&& 0x80000000000000FF := by
  simp [readReg, writeReg, readLow, writeLow, masked_eq_and, bits, and_all_ones]

/-- The registers of a strand core (R353, R376). -/
theorem readReg_writeReg_core {c : Nat} (hp : s.th.place = .strand c) (hc : c < 768) :
    readReg (writeReg 0x103 v s) 0x103 = v &&& 0xFFFF ∧ readReg (writeReg 0x107 v s) 0x107 = v &&& 0x800FFFFFFFFFFC00 := by
  have hscope : coreScope s.th = c := by simp [coreScope, accountCore, hp]
  simp [readReg, writeReg, readCore, writeCore, hscope, hc, masked_eq_and, setWidth_low_eq_and, bits]

/-- The registers of a hearth. -/
theorem readReg_writeReg_hearth {h : Nat} (hscope : hearthScope s.th = some h) :
    readReg (writeReg 0x100 v s) 0x100 = v &&& 0xFFFFFFFF ∧ readReg (writeReg 0x101 v s) 0x101 = v &&& 0xFFFF
      ∧ readReg (writeReg 0x104 v s) 0x104 = v &&& 0xF00FFFFFFFF00000 := by
  simp [readReg, writeReg, readHearth, writeHearth, hscope, masked_eq_and, setWidth_low_eq_and, bits]

/-- The registers of a bench (R390). -/
theorem readReg_writeReg_bench {b : Nat} (hscope : benchScope s.th = some b) :
    readReg (writeReg 0x200 v s) 0x200 = v &&& 0x80FFFFFFFFFFF3FF ∧ readReg (writeReg 0x201 v s) 0x201 = v &&& 0xFFFFFFFFFFFFFFFF := by
  simp [readReg, writeReg, readBench, writeBench, hscope, masked_eq_and, halves_append, and_all_ones, bits]

/-- The registers of a die (R411, R412, R422). -/
theorem readReg_writeReg_die :
    readReg (writeReg 0x300 v s) 0x300 = v &&& 0xFFFFFFFFFFFFFFFF ∧ readReg (writeReg 0x311 v s) 0x311 = v &&& 0x000FFFFFFFF00000
      ∧ readReg (writeReg 0x312 v s) 0x312 = v &&& 0xFFFF ∧ readReg (writeReg 0x320 v s) 0x320 = v &&& 0x800FFFFFFFFFF01F := by
  simp [readReg, writeReg, readDie, writeDie, masked_eq_and, setWidth_low_eq_and, counts_append, and_all_ones, bits]

/-- The region table and DBGSEL (R354, R413). -/
theorem readReg_writeReg_package :
    readReg (writeReg 0x400 v s) 0x400 = v &&& 0x800FFFFFFFFFF0FF ∧ readReg (writeReg 0x8FF v s) 0x8FF = v &&& 0x80000000000003FF := by
  simp [readReg, writeReg, masked_eq_and, bits]

theorem moduleOf_putModule (u : DebugUnit) (m : DebugModule) : moduleOf (putModule u m s) u = m := by
  cases u <;> simp [moduleOf, putModule]

theorem putModule_th (u : DebugUnit) (m : DebugModule) : (putModule u m s).th = s.th := by
  cases u <;> rfl

/-- The registers of the debug module that DBGSEL selects (R413 to R419). -/
theorem readReg_writeReg_module {u : DebugUnit} (hsel : selectedUnit s.th = some u) :
    readReg (writeReg 0x800 v s) 0x800 = v &&& 0xFFCFFFFFFFFFF01F ∧ readReg (writeReg 0x802 v s) 0x802 = v &&& 0x80FFFFFFFFFFF3FF
      ∧ readReg (writeReg 0x803 v s) 0x803 = v &&& 0xFFFFFFFFFFFFFFFF ∧ readReg (writeReg 0x810 v s) 0x810 = v &&& 0xE0FFFFFFFFFFFFFC
      ∧ readReg (writeReg 0x818 v s) 0x818 = v &&& 0x3FF ∧ readReg (writeReg 0x820 v s) 0x820 = v &&& 0x00FFFFFFFFFFFFFF
      ∧ readReg (writeReg 0x824 v s) 0x824 = v &&& 0xF80000000000003F := by
  simp [readReg, writeReg, readModule, writeModule, hsel, moduleOf_putModule, putModule_th, masked_eq_and, setWidth_low_eq_and,
    halves_append, and_all_ones, bits]

end

/-! ### Writes with rules of their own -/

section
variable {s : State} (v : Word)

/-- THRSTAT (R349, R355). -/
theorem exec_thrstat_run (h : writeFault s 0x002 = none) : exec (.thrstat v) s = .next (writeThrstat v s) :=
  outcome_ok (writeChecked_run v h)

theorem class_lt_three {k : BitVec 2} (hk : k ≠ 3) : k.toNat < 3 := by
  have hlt := k.isLt
  have hne : k.toNat ≠ 3 := fun e => hk (BitVec.eq_of_toNat_eq e)
  omega

/-- TRAPVEC of a class that exists (R356). -/
theorem exec_trapvec_run {k : BitVec 2} (hk : k ≠ 3) (h : writeFault s (0x010 + k.toNat) = none) :
    exec (.trapvec k v) s = .next (writeTrapvec k.toNat v s) := by
  have hw : writeReg (0x010 + k.toNat) v s = writeTrapvec k.toNat v s := by
    have h3 := class_lt_three hk
    match k.toNat, h3 with
    | 0, _ => rfl
    | 1, _ => rfl
    | 2, _ => rfl
  exact (if_neg hk).trans (outcome_ok (hw ▸ writeChecked_run v h))

/-- A hearth's register, written by whatever thread may. -/
theorem hearthWrite_run {n h : Nat} (w : Nat → Word → State → State) (hh : h < 192) (hf : writeFault s n = none) :
    hearthWrite n h w v s = .next (w h v s) :=
  outcome_ok (a := ⟨⟩) (by simp [M.bind_eq, hf, hh])

theorem exec_poisclr_run {die : Nat} (hd : die < 4) (hf : writeFault s 0x302 = none) :
    exec (.poisclr die v) s = .next (writePoisclr die v s) :=
  outcome_ok (a := ⟨⟩) (by simp [M.bind_eq, hf, hd])

theorem exec_pwrcap_run (h : writeFault s 0x401 = none) : exec (.pwrcap v) s = .next (writePwrcap v s) :=
  outcome_ok (writeChecked_run v h)

/-- THRSTAT's privilege field lowers level 2 only, and never to 3 (R349). -/
theorem writeThrstat_priv (s : State) :
    (writeThrstat v s).th.priv = if s.th.priv = 2 ∧ v.extractLsb' 40 2 ≠ 3 then v.extractLsb' 40 2 else s.th.priv := by
  have e : (s.th.priv.toNat = 2) = (s.th.priv = 2) := propext ⟨fun h => BitVec.eq_of_toNat_eq h, fun h => by rw [h]; rfl⟩
  simp only [writeThrstat, e]

/-- The vector that a thread of level 2 writes: only a secure thread can set the secure bit (R356). -/
theorem writeTrapvec_vector {k : Nat} (hk : k < 3) (hp : s.th.priv = 2) :
    (spaceOf (writeTrapvec k v s) s.th.id.asid).trapvec.toList[k]?
      = some (v &&& (if s.th.secure then 0xC0FFFFFFFFFFF3FF else 0x80FFFFFFFFFFF3FF)) := by
  have h1 : s.th.priv.toNat ≠ 1 := by rw [hp]; decide
  cases hs : s.th.secure <;> simp [writeTrapvec, h1, hs, hk, masked_eq_and, bits, BitVec.and_assoc]

/-- MBOXBIND keeps its writable bits; the drop count is 0 (R359). -/
theorem writeMboxbind_mboxbind (s : State) (h : Nat) : (hearthOf (writeMboxbind h v s) h).mboxbind = v &&& 0xC00003FF00000000 := by
  simp [writeMboxbind, masked_eq_and, bits]

/-- VLGRP takes two to six groups and ignores any other number (R377). -/
theorem writeVlgrp_vlgrp (s : State) (h : Nat) :
    (hearthOf (writeVlgrp h v s) h).vlgrp =
      let n := ((List.range 8).filter fun j => v.getLsbD j).length
      if 2 ≤ n ∧ n ≤ 6 then v.extractLsb' 0 8 else (hearthOf s h).vlgrp := by
  unfold writeVlgrp
  dsimp only
  split
  · rw [hearthOf_putHearth_same]
  · rfl

/-- HWORLD changes while its hearth is quiesced only (R354). -/
theorem writeHworld_secure (s : State) (h : Nat) :
    (hearthOf (writeHworld h v s) h).secure = if (hearthOf s h).quiesced then v.getLsbD 0 else (hearthOf s h).secure := by
  unfold writeHworld
  dsimp only
  split
  · rw [hearthOf_putHearth_same]
  · rfl

end

/-! ### POISCLR (R403) -/

theorem noteLine_poison (pa : Nat) (s : State) : (noteLine pa s).poison = s.poison := by
  unfold noteLine
  split
  · rfl
  · dsimp only
    split
    · split <;> rfl
    · rfl

/-- Taking checkpoint lines poisons and clears no line. -/
theorem noteCheckpoint_poison (pa n : Nat) (s : State) : (noteCheckpoint pa n s).poison = s.poison := by
  unfold noteCheckpoint
  split
  · rename_i h
    clear h
    generalize List.range _ = ks
    induction ks generalizing s with
    | nil => rfl
    | cons k ks ih => exact (ih _).trans (noteLine_poison _ _)
  · rfl

/-- A cleared line is not poisoned; the thread is as it was; and a line that was poisoned reads as zero, memory outside it as before. -/
theorem clearPoison_spec (line : Nat) (s : State) :
    line ∉ (clearPoison line s).poison ∧ (clearPoison line s).th = s.th
      ∧ (line ∈ s.poison → ∀ a, Mem.get (clearPoison line s).mem a = if a / 128 = line then 0 else Mem.get s.mem a) := by
  unfold clearPoison
  split
  · obtain ⟨hmem, hth, -⟩ := noteCheckpoint_frame (128 * line) 128
      { s with poison := s.poison.filter fun l => decide (l ≠ line), mem := clearRange (128 * line) 128 s.mem }
    refine ⟨?_, hth, fun _ a => ?_⟩
    · rw [noteCheckpoint_poison]
      simp
    · have hline : (128 * line ≤ a ∧ a < 128 * line + 128) = (a / 128 = line) := propext (by omega)
      rw [hmem, get_clearRange]
      simp only [hline]
  · rename_i h
    have hl : line ∉ s.poison := fun hm => h (by simp [hm])
    exact ⟨hl, rfl, fun hm => absurd hm hl⟩

/-- The line that POISCLR names (R412). -/
theorem poisclr_line (v : Word) : (masked (bits 7 45) v.toNat).toNat / 128 = v.toNat % 2 ^ 52 / 128 := by
  have hand : (v.toNat &&& bits 7 45) >>> 7 = v.toNat >>> 7 % 2 ^ 45 := by
    rw [Nat.shiftRight_and_distrib, show bits 7 45 >>> 7 = 2 ^ 45 - 1 from rfl, Nat.and_two_pow_sub_one_eq_mod]
  have hlt : (v.toNat &&& bits 7 45) < 2 ^ 64 := Nat.lt_of_le_of_lt Nat.and_le_left v.isLt
  rw [masked, natWord, BitVec.toNat_ofNat, Nat.mod_eq_of_lt hlt]
  simp only [Nat.shiftRight_eq_div_pow] at hand
  omega

/-- What POISCLR leaves (R403, R412). -/
theorem writePoisclr_spec (die : Nat) (v : Word) (s : State) :
    let line := v.toNat % 2 ^ 52 / 128
    let w := writePoisclr die v s
    line ∉ w.poison ∧ w.th = s.th
      ∧ (line ∈ s.poison → ∀ a, Mem.get w.mem a = if a / 128 = line then 0 else Mem.get s.mem a) := by
  have h := clearPoison_spec ((masked (bits 7 45) v.toNat).toNat / 128) (putDie s die { dieOf s die with poisclr := masked (bits 7 45) v.toNat })
  rw [poisclr_line] at h
  unfold writePoisclr
  dsimp only
  rw [poisclr_line]
  exact h

/-! ### The statement -/

/-- Settles O44: a write that nothing forbids reads back as its writable bits, by scope of the register. -/
theorem writeRegisters : Obligations.WriteRegisters := by
  intro g d m c die k u v s hg hp hc hv t h keeps writes
  have trap {n : BitVec 12} {e : Cause} (hf : writeFault s n.toNat = some e) :
      exec (.swr g d n) s = .next (takeTrap e (n.setWidth 64) s) := exec_swr_trap hg d hf
  have keep {n : BitVec 12} {mask : Word} (hf : writeFault s n.toNat = none) (hn : n.toNat ≠ 0x002 ∧ n.toNat ≠ 0x302)
      (hr : readReg (writeReg n.toNat v s) n.toNat = v &&& mask) : keeps n mask := by
    subst hv
    exact exec_swr_keeps hg d hf hn.1 hn.2 hr
  have hhearth : hearthScope s.th = some h := by simp [hearthScope, hp, h]
  have hbench : benchScope s.th = some (h / 8) := by simp [benchScope, hp, hhearth]
  obtain ⟨r013, r014, r015, r016, r018⟩ := readReg_writeReg_low v s
  refine ⟨fun hl => trap (writeFault_privilege hl), fun h2 hs => ?_, fun h1 h3 => ?_, fun h2 => ?_, fun h1 => ?_, fun h2 hk => ?_,
    fun h2 hh => ?_⟩
  · have hl := writeLevel_le_of_level_two h2
    exact ⟨trap (writeFault_world (hl _) rfl hs), trap (writeFault_world (hl _) rfl hs)⟩
  · exact ⟨keep (writeFault_none h1 nofun) (by decide) r015, keep (writeFault_none h1 nofun) (by decide) r016⟩
  · have free {n : BitVec 12} {mask : Word} (hn : secureOnly n.toNat = false ∧ n.toNat ≠ 0x002 ∧ n.toNat ≠ 0x302)
        (hr : readReg (writeReg n.toNat v s) n.toNat = v &&& mask) : keeps n mask :=
      keep (writeFault_none_of_level_two h2 hn.1) hn.2 hr
    obtain ⟨r103, r107⟩ := readReg_writeReg_core v s hp hc
    obtain ⟨r100, r101, r104⟩ := readReg_writeReg_hearth v s hhearth
    obtain ⟨r200, r201⟩ := readReg_writeReg_bench v s hbench
    obtain ⟨r300, r311, r312, r320⟩ := readReg_writeReg_die v s
    obtain ⟨r400, r8FF⟩ := readReg_writeReg_package v s
    refine ⟨free (by decide) r013, free (by decide) r014, free (by decide) r018, free (by decide) r100, free (by decide) r101,
      free (by decide) r103, free (by decide) r104, free (by decide) r107, free (by decide) r200, free (by decide) r201,
      free (by decide) r300, free (by decide) r311, free (by decide) r312, free (by decide) r320, free (by decide) r8FF,
      fun hs => keep (writeFault_none_of_secure _ h2 hs) (by decide) r400, fun hsel => ?_⟩
    obtain ⟨r800, r802, r803, r810, r818, r820, r824⟩ := readReg_writeReg_module v s hsel
    exact ⟨free (by decide) r800, free (by decide) r802, free (by decide) r803, free (by decide) r810, free (by decide) r818,
      free (by decide) r820, free (by decide) r824⟩
  · exact ⟨_, exec_thrstat_run v (writeFault_none h1 nofun), rfl, writeThrstat_priv v s, rfl⟩
  · have hk3 := class_lt_three hk
    have hn : secureOnly (0x010 + k.toNat) = false := decide_eq_false (by omega)
    exact ⟨_, exec_trapvec_run v hk (writeFault_none_of_level_two h2 hn), writeTrapvec_vector v hk3 h2, rfl⟩
  · have free {n : Nat} (hn : secureOnly n = false) : writeFault s n = none := writeFault_none_of_level_two h2 hn
    exact ⟨⟨_, hearthWrite_run v writeMboxbind hh (free rfl), writeMboxbind_mboxbind v s h⟩,
      ⟨_, hearthWrite_run v writeVlgrp hh (free rfl), writeVlgrp_vlgrp v s h⟩,
      fun hs => ⟨_, hearthWrite_run v writeHworld hh (writeFault_none_of_secure _ h2 hs), writeHworld_secure v s h⟩,
      fun hd => ⟨_, exec_poisclr_run v hd (free rfl), writePoisclr_spec die v s⟩, ⟨_, exec_pwrcap_run v (free rfl), rfl, rfl, rfl⟩⟩

end Sys2Proof.Machine

/-!
The state after reset (R354, R445).
-/

namespace Sys2Proof.Machine

open Sys2Proof

/-- Settles O6: after reset no unit is listed in a table, so every unit reads as the default, which is its reset values. -/
theorem resetState : Obligations.ResetState := by
  have hearth (h : Nat) : hearthOf State.reset h = {} := lookup_nil _ _
  have core (c : Nat) : coreOf State.reset c = {} := lookup_nil _ _
  have space (a : BitVec 10) : spaceOf State.reset a = {} := lookup_nil _ _
  refine ⟨rfl, rfl, rfl, Mem.wf_reset, rfl, rfl, rfl, rfl, fun h => ?_, fun c => ?_, fun a => ?_, rfl, rfl, rfl⟩
  · rw [hearth]; exact ⟨rfl, rfl, rfl, rfl, rfl⟩
  · rw [core]; exact ⟨rfl, rfl⟩
  · rw [space]; exact ⟨rfl, rfl, rfl⟩

end Sys2Proof.Machine

/-!
The fabric (R15, R423 to R432): requests served for other packages, responses and failures of requests sent, congestion, the fabric
state table, and the time.
-/

namespace Sys2Proof.Machine

open Sys2Proof

/-! ### What performed operations leave (R97, R406) -/

theorem noteLine_only (pa : Nat) (s : State) : ∃ ls bs, noteLine pa s = { s with launches := ls, benches := bs } := by
  unfold noteLine
  split
  · exact ⟨s.launches, s.benches, rfl⟩
  · dsimp only
    split
    · split <;> exact ⟨_, _, rfl⟩
    · exact ⟨s.launches, s.benches, rfl⟩

theorem noteCheckpoint_only (pa n : Nat) (s : State) : ∃ ls bs, noteCheckpoint pa n s = { s with launches := ls, benches := bs } := by
  have lines (ks : List Nat) (s : State) :
      ∃ ls bs, ks.foldl (fun s k => noteLine (pa / 128 * 128 + 128 * k) s) s = { s with launches := ls, benches := bs } := by
    induction ks generalizing s with
    | nil => exact ⟨s.launches, s.benches, rfl⟩
    | cons k ks ih =>
      obtain ⟨ls, bs, e⟩ := noteLine_only (pa / 128 * 128 + 128 * k) s
      obtain ⟨ls', bs', e'⟩ := ih (noteLine (pa / 128 * 128 + 128 * k) s)
      exact ⟨ls', bs', e'.trans (by rw [e])⟩
  unfold noteCheckpoint
  split
  · exact lines _ _
  · exact ⟨s.launches, s.benches, rfl⟩

/-- A performed operation changes memory, and the checkpoints and their counts; nothing else. -/
theorem performOp_only (o : StoreOp) (pa : Nat) (s : State) :
    ∃ ls bs, performOp o pa s = { s with mem := (performOp o pa s).mem, launches := ls, benches := bs } := by
  have noted (m : List Host.Cell) : ∃ ls bs, noteCheckpoint pa o.size { s with mem := m }
      = { s with mem := (noteCheckpoint pa o.size { s with mem := m }).mem, launches := ls, benches := bs } := by
    obtain ⟨ls, bs, e⟩ := noteCheckpoint_only pa o.size { s with mem := m }
    exact ⟨ls, bs, by rw [e]⟩
  cases o with
  | bytes n d k => exact noted _
  | update op f c =>
    simp only [performOp]
    split
    · exact ⟨s.launches, s.benches, rfl⟩
    · exact noted _

theorem performOp_bytes_mem (n d k pa : Nat) (s : State) : (performOp (.bytes n d k) pa s).mem = (StoreOp.bytes n d k).apply pa s.mem :=
  (noteCheckpoint_frame pa n { s with mem := (StoreOp.bytes n d k).apply pa s.mem }).1

/-- An update of a location that is not poisoned is merged into it (R403). -/
theorem performOp_update_mem {op : BitVec 2} {fmt : BitVec 5} (c : Word) {pa : Nat} {s : State} (h : poisoned s pa (updateBytes fmt) = false) :
    (performOp (.update op fmt c) pa s).mem = (StoreOp.update op fmt c).apply pa s.mem := by
  have hs : poisoned s pa (StoreOp.update op fmt c).size = false := h
  rw [performOp, if_neg (by rw [hs]; exact Bool.false_ne_true)]
  exact (noteCheckpoint_frame pa _ _).1

theorem foldl_performOp_poison_responses (ps : List Pending) (s : State) :
    (ps.foldl (fun s p => performOp p.op p.pa s) s).poison = s.poison
      ∧ (ps.foldl (fun s p => performOp p.op p.pa s) s).responses = s.responses := by
  induction ps generalizing s with
  | nil => exact ⟨rfl, rfl⟩
  | cons p ps ih =>
    obtain ⟨ls, bs, e⟩ := performOp_only p.op p.pa s
    obtain ⟨hp, hr⟩ := ih (performOp p.op p.pa s)
    exact ⟨hp.trans (by rw [e]), hr.trans (by rw [e])⟩

/-- Merging the updates that wait for a location poisons no line and gives no response. -/
theorem mergeReads_poison_responses (pas : List Nat) (s : State) :
    (mergeReads pas s).poison = s.poison ∧ (mergeReads pas s).responses = s.responses := by
  unfold mergeReads
  dsimp only
  split
  · exact foldl_performOp_poison_responses _ _
  · exact ⟨rfl, rfl⟩

/-! ### Serving requests (R423, R424) -/

theorem refuseRemote_eq (s : State) (secure : Bool) (a n : Nat) :
    refuseRemote s secure a n = if (∃ j < n, paExists (a + j) = false) then some .noMemory
      else if secure = false ∧ touchesSecure s a n = true then some .wrongWorld else none := by
  simp [refuseRemote]

/-- The state in which a request reads its bytes: with the updates that wait for them merged (R97). -/
def servedFrom (s : State) (a n : Nat) : State := mergeReads ((List.range n).map (a + ·)) s

theorem poisoned_servedFrom (s : State) (a n b k : Nat) : poisoned (servedFrom s a n) b k = poisoned s b k := by
  unfold poisoned servedFrom
  rw [(mergeReads_poison_responses _ s).1]

theorem serveAccess_run {s : State} {secure write : Bool} {a n : Nat} (f : State → State) (hr : refuseRemote s secure a n = none)
    (hw : write = true → ingotDie a = none) : serveAccess secure a n write f s = f (servedFrom s a n) := by
  have hi : (write && (ingotDie a).isSome) = false := by
    cases write with
    | false => rfl
    | true => rw [hw rfl]; rfl
  rw [serveAccess, hr]
  dsimp only
  rw [if_neg (by rw [hi]; exact Bool.false_ne_true)]
  rfl

theorem serveAccess_refused {s : State} {secure : Bool} {a n : Nat} {z : RemoteResult} (write : Bool) (f : State → State)
    (hr : refuseRemote s secure a n = some z) : serveAccess secure a n write f s = respond z s := by
  rw [serveAccess, hr]

/-- A write of the ingot store is answered as memory that is not there (R80, R81). -/
theorem serveAccess_ingot {s : State} {secure : Bool} {a n : Nat} (f : State → State) (hr : refuseRemote s secure a n = none)
    (hi : (ingotDie a).isSome) : serveAccess secure a n true f s = respond .noMemory s := by
  rw [serveAccess, hr]
  dsimp only
  rw [if_pos (by rw [hi]; rfl)]

/-- A state that has given one response more, with a memory and the thread as before. -/
def Answers (v u : State) (z : RemoteResult) (m : List Host.Cell) : Prop :=
  u.responses = v.responses ++ [z] ∧ u.mem = m ∧ u.th = v.th

theorem answers_respond (z : RemoteResult) (v : State) : Answers v (respond z v) z v.mem := ⟨rfl, rfl, rfl⟩

/-- An operation performed beside the response, before or after it. -/
theorem answers_performOp (z : RemoteResult) (o : StoreOp) (a : Nat) (v : State) :
    Answers v (respond z (performOp o a v)) z (performOp o a v).mem
      ∧ Answers v (performOp o a (respond z v)) z (performOp o a (respond z v)).mem := by
  obtain ⟨ls, bs, e⟩ := performOp_only o a v
  obtain ⟨ls', bs', e'⟩ := performOp_only o a (respond z v)
  exact ⟨⟨by rw [e]; rfl, rfl, by rw [e]; rfl⟩, ⟨by rw [e']; rfl, rfl, by rw [e']; rfl⟩⟩

theorem exec_remoteRequestServe_eq (req : RemoteRequest) (s : State) : exec (.remoteRequestServe req) s = .next (serveRequest req s) := rfl

/-- A request that nothing refuses is answered from the state in which it reads its bytes. -/
theorem exec_serve_run {req : RemoteRequest} {s : State} {secure write : Bool} {a n : Nat} {f : State → State} {z : RemoteResult}
    {m : List Host.Cell} (hq : serveRequest req s = serveAccess secure a n write f s) (hr : refuseRemote s secure a n = none)
    (hw : write = true → ingotDie a = none) (hf : Answers (servedFrom s a n) (f (servedFrom s a n)) z m) :
    ∃ u, exec (.remoteRequestServe req) s = .next u ∧ u.responses = s.responses ++ [z] ∧ u.mem = m ∧ u.th = s.th := by
  obtain ⟨hz, hm, ht⟩ := hf
  exact ⟨_, by rw [exec_remoteRequestServe_eq, hq, serveAccess_run f hr hw], hz.trans (by rw [servedFrom, (mergeReads_poison_responses _ s).2]), hm,
    ht.trans (mergeReads_frame _ s).2.1⟩

section
variable {s : State} {secure : Bool} {pa : BitVec 52} {n : Nat} (hr : refuseRemote s secure pa.toNat n = none)
include hr

theorem serve_load_clean (hp : poisoned s pa.toNat n = false) :
    ∃ u, exec (.remoteRequestServe (.load secure pa n)) s = .next u
      ∧ u.responses = s.responses ++ [.data ((List.range n).map fun j => Mem.get (servedFrom s pa.toNat n).mem (pa.toNat + j))]
      ∧ u.mem = (servedFrom s pa.toNat n).mem ∧ u.th = s.th := by
  refine exec_serve_run (write := false) (by rw [serveRequest]) hr nofun ?_
  rw [poisoned_servedFrom, hp]
  exact answers_respond _ _

theorem serve_load_poisoned (hp : poisoned s pa.toNat n = true) :
    ∃ u, exec (.remoteRequestServe (.load secure pa n)) s = .next u ∧ u.responses = s.responses ++ [.poisoned]
      ∧ u.mem = (servedFrom s pa.toNat n).mem ∧ u.th = s.th := by
  refine exec_serve_run (write := false) (by rw [serveRequest]) hr nofun ?_
  rw [poisoned_servedFrom, hp]
  exact answers_respond _ _

theorem serve_masked (data mask : Nat) (hi : ingotDie pa.toNat = none) :
    ∃ u, exec (.remoteRequestServe (.masked secure pa n data mask)) s = .next u ∧ u.responses = s.responses ++ [.data []]
      ∧ u.mem = (StoreOp.bytes n data mask).apply pa.toNat (servedFrom s pa.toNat n).mem ∧ u.th = s.th := by
  refine exec_serve_run (by rw [serveRequest]) hr (fun _ => hi) ?_
  rw [← performOp_bytes_mem]
  exact (answers_performOp _ _ _ _).1

theorem serve_atomic (op : BitVec 5) (operand expect : Nat) (hp : poisoned s pa.toNat n = false) (hi : ingotDie pa.toNat = none) :
    ∃ u, exec (.remoteRequestServe (.atomic secure op pa n operand expect)) s = .next u
      ∧ u.responses = s.responses ++ [.data (natToBytes n (Mem.read (servedFrom s pa.toNat n).mem pa.toNat n))]
      ∧ u.mem = (match atomicValue op.toNat n (Mem.read (servedFrom s pa.toNat n).mem pa.toNat n) operand expect with
        | some x => (StoreOp.whole n x).apply pa.toNat (servedFrom s pa.toNat n).mem
        | none => (servedFrom s pa.toNat n).mem) ∧ u.th = s.th := by
  refine exec_serve_run (by rw [serveRequest]) hr (fun _ => hi) ?_
  dsimp only
  rw [poisoned_servedFrom, hp, if_neg Bool.false_ne_true]
  generalize atomicValue _ _ _ _ _ = y
  cases y with
  | none => exact answers_respond _ _
  | some x =>
    have h := (answers_performOp (.data (natToBytes n (Mem.read (servedFrom s pa.toNat n).mem pa.toNat n))) (.whole n x) pa.toNat
      (servedFrom s pa.toNat n)).2
    rwa [StoreOp.whole, performOp_bytes_mem] at h

end

theorem serve_store {s : State} {secure : Bool} {pa : BitVec 52} {bs : List Byte} (hr : refuseRemote s secure pa.toNat bs.length = none)
    (hi : ingotDie pa.toNat = none) :
    ∃ u, exec (.remoteRequestServe (.store secure pa bs)) s = .next u ∧ u.responses = s.responses ++ [.data []]
      ∧ u.mem = (StoreOp.whole bs.length (bytesToNat bs)).apply pa.toNat (servedFrom s pa.toNat bs.length).mem ∧ u.th = s.th := by
  refine exec_serve_run (by rw [serveRequest]) hr (fun _ => hi) ?_
  rw [StoreOp.whole, ← performOp_bytes_mem]
  exact (answers_performOp _ _ _ _).1

theorem serve_update {s : State} {secure : Bool} {fmt : BitVec 5} {pa : BitVec 52} (op : BitVec 2) (operand : Nat)
    (hp : poisoned s pa.toNat (updateBytes fmt) = false) (hr : refuseRemote s secure pa.toNat (updateBytes fmt) = none)
    (hi : ingotDie pa.toNat = none) :
    ∃ u, exec (.remoteRequestServe (.update secure op fmt pa operand)) s = .next u ∧ u.responses = s.responses ++ [.data []]
      ∧ u.mem = (StoreOp.update op fmt (BitVec.ofNat 64 operand)).apply pa.toNat (servedFrom s pa.toNat (updateBytes fmt)).mem ∧ u.th = s.th := by
  refine exec_serve_run (by rw [serveRequest]) hr (fun _ => hi) ?_
  rw [← performOp_update_mem _ ((poisoned_servedFrom _ _ _ _ _).trans hp)]
  exact (answers_performOp _ _ _ _).1

theorem serve_load_refused {s : State} {secure : Bool} {pa : BitVec 52} {n : Nat} {z : RemoteResult} (hr : refuseRemote s secure pa.toNat n = some z) :
    exec (.remoteRequestServe (.load secure pa n)) s = .next (respond z s) := by
  rw [exec_remoteRequestServe_eq, serveRequest, serveAccess_refused false _ hr]

theorem serve_store_ingot {s : State} {secure : Bool} {pa : BitVec 52} {bs : List Byte} (hr : refuseRemote s secure pa.toNat bs.length = none)
    (hi : (ingotDie pa.toNat).isSome) : exec (.remoteRequestServe (.store secure pa bs)) s = .next (respond .noMemory s) := by
  rw [exec_remoteRequestServe_eq, serveRequest, serveAccess_ingot _ hr hi]

/-- A member's word arrives once in a generation (R372). -/
theorem serve_arrival {s : State} {k : Nat} {t : ThreadId} {D : Domain} (w : Word) (hd : domainGet s k = some D) (hm : t ∈ D.members)
    (ha : (D.arrivals.any fun z => decide (z.t = t)) = false) : ∃ u, exec (.remoteRequestServe (.arrival k w t)) s = .next u
      ∧ domainGet u k = some { D with arrivals := D.arrivals ++ [{ t := t, kind := .sync, operand := w }] } ∧ u.th = s.th := by
  have harr : arriveMember w t D = { D with arrivals := D.arrivals ++ [{ t := t, kind := .sync, operand := w }] } := by
    simp [arriveMember, hm, ha]
  refine ⟨_, rfl, ?_, rfl⟩
  rw [← harr]
  unfold domainGet at hd ⊢
  simp [serveRequest, modDomain, hd]

/-! ### Waiters and their replies (R424, R426) -/

/-- Changing what a search looks for, so that the search still finds it, changes what it finds. -/
theorem find?_map_if {α : Type} {p : α → Bool} {f : α → α} (hf : ∀ z, p z = true → p (f z) = true) (l : List α) :
    (l.map fun z => if p z then f z else z).find? p = (l.find? p).map f := by
  have hp : (p ∘ fun z => if p z then f z else z) = p := by
    funext z
    by_cases h : p z = true
    · simp [h, hf z h]
    · simp [h]
  rw [List.find?_map, hp]
  cases h : l.find? p with
  | none => rfl
  | some y => simp [List.find?_some h]

/-- The thread that replaced one of its name is found by that name. -/
theorem findThread_putThread {s : State} {t : ThreadId} {x y : Thread} (h : findThread s t = some y) (hid : x.id = t) (hx : x.st ≠ .unborn) :
    findThread (putThread s x) t = some x := by
  subst hid
  unfold findThread at h ⊢
  unfold putThread
  split at h
  · rename_i hc
    simp [hc, hx]
  · rename_i hc
    have hm := find?_map_if (p := fun z : Thread => decide (z.id = x.id ∧ z.st ≠ .unborn)) (f := fun _ => x) (by simp [hx]) s.others
    rw [h] at hm
    simp only [decide_eq_true_eq] at hm
    rw [if_neg hc, if_neg hc]
    exact hm

theorem findOp_modOp {s : State} {t : ThreadId} {e n : Nat} {o : EngineOp} {f : EngineOp → EngineOp} (h : findOp s t e n = some o)
    (hf : ∀ z, (f z).named t e n = z.named t e n) : findOp (modOp t e n f s) t e n = some (f o) := by
  have hm := find?_map_if (p := fun z : EngineOp => z.named t e n) (f := f) (fun z hz => (hf z).trans hz) s.ops
  unfold findOp at h ⊢
  rw [h] at hm
  simpa [modOp, EngineOp.named] using hm

/-- The thread as it was found, with one reply more. -/
def Replied (t : ThreadId) (y : Thread) (node : BitVec 11) (x : RemoteResult) (u : State) : Prop :=
  ∃ z q, findThread u t = some z ∧ z.replies = y.replies ++ [q] ∧ q.result = x ∧ q.node = node

section
variable {s : State} {r : Remote} {t : ThreadId} {y : Thread} (hw : r.who = .access t) (hy : findThread s t = some y)
  (hv : valueReturning r.req = true) (x : RemoteResult)
include hw hy hv

theorem deliverResponse_access : deliverResponse r x s = putThread s { y with replies := y.replies ++ [replyOf r x] } := by
  simp [deliverResponse, hw, hy, hv]

theorem deliverResponse_replied : Replied t y r.node x (deliverResponse r x s) := by
  obtain ⟨hid, hst⟩ := findThread_some hy
  rw [deliverResponse_access hw hy hv]
  exact ⟨_, _, findThread_putThread hy hid hst, rfl, rfl, rfl⟩

theorem deliverResponse_access_fields :
    (deliverResponse r x s).remotes = s.remotes ∧ (deliverResponse r x s).mem = s.mem ∧ (deliverResponse r x s).nodes = s.nodes
      ∧ (deliverResponse r x s).lostNodes = s.lostNodes := by
  rw [deliverResponse_access hw hy hv]
  simp

end

section
variable {s : State} {r : Remote} {t : ThreadId} {e n : Nat} (hw : r.who = .operation t e n) (x : RemoteResult)
include hw

theorem deliverResponse_operation_span {a k : Nat} (hs : requestSpan r.req = some (a, k)) :
    deliverResponse r x s = modOp t e n (fun o => { o with replies := o.replies ++ [⟨a, r.node, k, x⟩] }) s := by
  simp [deliverResponse, hw, hs, replyOf]

theorem deliverResponse_operation_noSpan (hs : requestSpan r.req = none) :
    deliverResponse r x s = modOp t e n (fun o => { o with fault := o.fault.or ((RemoteResult.cause x).map fun c => (c, r.va)) }) s := by
  cases hc : RemoteResult.cause x with
  | none => simp [deliverResponse, hw, hs, hc]
  | some c => simp [deliverResponse, hw, hs, hc]

end

/-! ### Responses and failures of requests -/

/-- The state once request i has left the list, with the congestion state of its node as the response leaves it. -/
def answered (i : Nat) (r : Remote) (s : State) : State :=
  putNode { s with remotes := s.remotes.eraseIdx i } r.node (afterResponse s r (nodeOf s r.node))

theorem exec_remoteResponse_eq (i : Nat) (x : RemoteResult) (s : State) : exec (.remoteResponse i x) s = .next (answerRemote i x s) := rfl

theorem exec_remoteResponse_run {s : State} {i : Nat} {r : Remote} (x : RemoteResult) (hi : s.remotes[i]? = some r)
    (hh : heldBehind s.remotes i r = false) (hs : r.sent.isSome = true) :
    exec (.remoteResponse i x) s = .next (deliverResponse r x (answered i r s)) := by
  rw [exec_remoteResponse_eq, answerRemote, hi]
  dsimp only
  rw [if_neg (by simp [hh, Option.isSome_iff_ne_none.mp hs])]
  rfl

theorem exec_remoteResponse_waits {s : State} {i : Nat} {r : Remote} (x : RemoteResult) (hi : s.remotes[i]? = some r)
    (h : heldBehind s.remotes i r = true ∨ r.sent = none) : exec (.remoteResponse i x) s = .next s := by
  rw [exec_remoteResponse_eq, answerRemote, hi]
  dsimp only
  rw [if_pos (by simpa using h)]

@[simp] theorem nodeOf_putNode_same (s : State) (n : BitVec 11) (x : NodeState) : nodeOf (putNode s n x) n = x := lookup_insert_same _ _ _ _

theorem afterResponse_out (s : State) (r : Remote) (x : NodeState) : (afterResponse s r x).out = x.out - r.bytes := by
  unfold afterResponse
  dsimp only
  split <;> split <;> rfl

theorem nodeOf_congr {s u : State} (h : u.nodes = s.nodes) (n : BitVec 11) : nodeOf u n = nodeOf s n := by
  unfold nodeOf
  rw [h]

section
variable {s : State} {r : Remote} {t : ThreadId} {y : Thread} {i : Nat} (hi : s.remotes[i]? = some r) (hw : r.who = .access t)
  (hy : findThread s t = some y) (hv : valueReturning r.req = true)
include hi hw hy hv

theorem exec_remoteResponse_access (x : RemoteResult) (hh : heldBehind s.remotes i r = false) (hs : r.sent.isSome = true) :
    ∃ u, exec (.remoteResponse i x) s = .next u ∧ Replied t y r.node x u ∧ u.remotes = s.remotes.eraseIdx i ∧ sameMemory s u
      ∧ (nodeOf u r.node).out = (nodeOf s r.node).out - r.bytes := by
  have hy' : findThread (answered i r s) t = some y := hy
  obtain ⟨hrem, hmem, hnodes, -⟩ := deliverResponse_access_fields hw hy' hv x
  refine ⟨_, exec_remoteResponse_run x hi hh hs, deliverResponse_replied hw hy' hv x, hrem, fun a => by rw [hmem]; rfl, ?_⟩
  rw [nodeOf_congr hnodes, answered, nodeOf_putNode_same, afterResponse_out]

/-- A request that fails is answered as memory that is not there, and leaves the list (R424). -/
theorem failRemote_access : Replied t y r.node .noMemory (failRemote i s) ∧ (failRemote i s).remotes = s.remotes.eraseIdx i
    ∧ (failRemote i s).mem = s.mem ∧ (failRemote i s).lostNodes = s.lostNodes := by
  rw [failRemote, hi]
  dsimp only
  generalize hu : putNode { s with remotes := s.remotes.eraseIdx i } r.node _ = u
  have hy' : findThread u t = some y := by rw [← hu]; exact hy
  obtain ⟨hrem, hmem, -, hlost⟩ := deliverResponse_access_fields hw hy' hv .noMemory
  exact ⟨deliverResponse_replied hw hy' hv .noMemory, hrem.trans (by rw [← hu]; rfl), hmem.trans (by rw [← hu]; rfl),
    hlost.trans (by rw [← hu]; rfl)⟩

end

section
variable {s : State} {i : Nat} {r : Remote} (hi : s.remotes[i]? = some r)
include hi

theorem exec_remoteTimeout_of : exec (.remoteTimeout i) s
    = .next (if fabricTimeout s ≤ (s.cyc - r.issued).toNat then failRemote i s else s) := by
  show execRemoteTimeout i s = _
  rw [execRemoteTimeout, hi]

theorem exec_remoteTimeout_early (h : (s.cyc - r.issued).toNat < fabricTimeout s) : exec (.remoteTimeout i) s = .next s := by
  rw [exec_remoteTimeout_of hi, if_neg (Nat.not_le.mpr h)]

theorem exec_remoteTimeout_late (h : fabricTimeout s ≤ (s.cyc - r.issued).toNat) : exec (.remoteTimeout i) s = .next (failRemote i s) := by
  rw [exec_remoteTimeout_of hi, if_pos h]

end

/-- A link lost to the node of the one request outstanding fails it. -/
theorem exec_linkLost_one {s : State} {r : Remote} {nodes : List (BitVec 11)} (h : s.remotes = [r]) (hn : r.node ∈ nodes) :
    exec (.linkLost nodes) s = .next (failRemote 0 { s with lostNodes := nodes.map (·.toNat) }) := by
  have hc : (nodes.map (·.toNat)).contains r.node.toNat = true := by
    rw [List.contains_iff_mem]
    exact List.mem_map_of_mem hn
  have he : exec (.linkLost nodes) s
      = .next (failLost (nodes.map (·.toNat)) s.remotes.length { s with lostNodes := nodes.map (·.toNat) }) := rfl
  rw [he, h]
  simp only [List.length_singleton, failLost, List.findIdx?_cons, hc]
  rfl

/-! ### A fault of a queued store (R424) -/

theorem asyncTrap_running {s : State} (c : Cause) (v : Word) (h : s.th.st = .running) : asyncTrap c v s.th.id s = takeTrap c v s := by
  have hu : s.th.st ≠ .unborn := by rw [h]; nofun
  unfold asyncTrap asThread runM runResult
  rw [if_pos ⟨rfl, hu⟩]
  dsimp only
  rw [M.bind_ok (getTh_run s), if_neg (by simp [h]), if_neg (by simp [h])]
  rfl

theorem kick_th {s : State} (h : s.th.st ≠ .stalledMemory) : (kick s).th = s.th := if_neg h

/-- Latching a pipeline leaves the threads of the state, memory, and the thread's name (R257). -/
theorem latch_frame (c : Nat) (t : Thread) (s : State) : (latch c t s).1.th = s.th ∧ (latch c t s).1.mem = s.mem ∧ (latch c t s).2.id = t.id := by
  unfold latch
  split <;> exact ⟨rfl, rfl, rfl⟩

/-- A thread that traps stands trapped with its record, whatever its place; memory stays. -/
theorem takeTrap_trapped {s : State} (c : Cause) (v : Word) (h : s.th.st ≠ .unborn) :
    (takeTrap c v s).th.st = .trapped ∧ (takeTrap c v s).th.record.value = v ∧ (takeTrap c v s).mem = s.mem := by
  obtain ⟨hth, hmem, hid⟩ := latch_frame c.code s.th s
  unfold takeTrap trapThread
  dsimp only
  generalize latch c.code s.th s = p at hth hmem hid
  rw [putThread_current (hth ▸ hid.symm) (hth ▸ h)]
  split <;> exact ⟨rfl, rfl, hmem⟩

theorem deliverResponse_queued {s : State} {r : Remote} (hw : r.who = .queued s.th.id) (hs : s.th.st = .running) :
    (deliverResponse r .wrongWorld s).th.st = .trapped ∧ (deliverResponse r .wrongWorld s).th.record.value = BitVec.ofNat 64 r.va
      ∧ (deliverResponse r .wrongWorld s).mem = s.mem := by
  have hd : deliverResponse r .wrongWorld s = kick (takeTrap .world (natWord r.va) s) := by
    rw [← asyncTrap_running _ _ hs]
    simp [deliverResponse, hw, RemoteResult.cause]
  obtain ⟨hst, hrec, hmem⟩ := takeTrap_trapped .world (natWord r.va) (s := s) (by rw [hs]; nofun)
  rw [hd, kick_th (by rw [hst]; nofun)]
  exact ⟨hst, hrec, hmem⟩

/-! ### Leaving the source, and congestion (R426, R428, R429) -/

theorem mayLeave_eq (s : State) (i : Nat) (r : Remote) :
    mayLeave s i r = decide (r.sent = none ∧ heldBehind s.remotes i r = false
      ∧ (r.bytes = 0 ∨ ((nodeOf s r.node).out = 0 ∨ (nodeOf s r.node).out + r.bytes ≤ (nodeOf s r.node).cap)
        ∧ (nodeOf s r.node).free.toNat ≤ s.cyc.toNat)) := by
  rw [Bool.eq_iff_iff]
  simp [mayLeave, and_assoc]

theorem tryLeave_of {s : State} {i : Nat} {r : Remote} (hi : s.remotes[i]? = some r) :
    tryLeave s i = if mayLeave s i r then leaveSource i r s else s := by
  rw [tryLeave, hi]

theorem leaveSource_spec {s : State} {i : Nat} {r : Remote} (hi : s.remotes[i]? = some r) :
    (leaveSource i r s).remotes[i]? = some { r with sent := some s.cyc }
      ∧ (nodeOf (leaveSource i r s) r.node).out = (nodeOf s r.node).out + r.bytes := by
  obtain ⟨hlt, -⟩ := List.getElem?_eq_some_iff.mp hi
  refine ⟨?_, by rw [leaveSource, nodeOf_putNode_same]⟩
  show (s.remotes.set i _)[i]? = _
  rw [List.getElem?_set_self hlt]

/-- A mark is counted, and halves the rate unless it was halved within 512 cycles (R428). -/
theorem exec_markedResponse_spec (node : BitVec 11) (s : State) :
    ∃ u, exec (.markedResponse node) s = .next u ∧ (nodeOf u node).marks = min 0xFFFFFFFF ((nodeOf s node).marks + 1)
      ∧ (nodeOf u node).rate = (if elapsed s.cyc (nodeOf s node).halvedAt 512 then max 16 ((nodeOf s node).rate / 2) else (nodeOf s node).rate)
      ∧ u.th = s.th ∧ sameMemory s u := by
  refine ⟨_, rfl, ?_, ?_, rfl, fun _ => rfl⟩
  · rw [nodeOf_putNode_same]
    split <;> rfl
  · rw [nodeOf_putNode_same]
    split <;> rfl

section
variable {node : BitVec 11} {s : State}

/-- The rate rises once 1,024 cycles have brought neither a mark nor a change of it (R428). -/
theorem exec_rateIncrease_run (hq : 1024 ≤ (s.cyc - (nodeOf s node).changedAt).toNat) (hm : elapsed s.cyc (nodeOf s node).markedAt 1024 = true)
    (hlt : (nodeOf s node).rate < 3200) : ∃ u, exec (.rateIncrease node) s = .next u
      ∧ (nodeOf u node).rate = min 3200 ((nodeOf s node).rate + 32) ∧ (nodeOf u node).changedAt = s.cyc := by
  refine ⟨_, congrArg Host.Outcome.next (if_pos ⟨hq, hm, hlt⟩), ?_, ?_⟩ <;> rw [nodeOf_putNode_same]

theorem exec_rateIncrease_stays (h : (s.cyc - (nodeOf s node).changedAt).toNat < 1024 ∨ elapsed s.cyc (nodeOf s node).markedAt 1024 = false
    ∨ 3200 ≤ (nodeOf s node).rate) : exec (.rateIncrease node) s = .next s := by
  refine congrArg Host.Outcome.next (if_neg ?_)
  rintro ⟨hq, hm, hlt⟩
  rcases h with hq' | hm' | hlt'
  · omega
  · exact Bool.false_ne_true (hm'.symm.trans hm)
  · omega

end

/-! ### The fabric state table (R432) -/

/-- Memory after n entries are written, one each stride bytes from a base on. -/
def writeTable (base stride : Nat) (ws : Nat → List Word) (n : Nat) (m : List Host.Cell) : List Host.Cell :=
  (List.range n).foldl (fun m k => writeWords (base + stride * k) (ws k) m) m

theorem writeTable_succ (base stride : Nat) (ws : Nat → List Word) (n : Nat) (m : List Host.Cell) :
    writeTable base stride ws (n + 1) m = writeWords (base + stride * n) (ws n) (writeTable base stride ws n m) := by
  simp [writeTable, List.range_succ]

theorem read_writeWords {ws : List Word} {j : Nat} {w : Word} (h : ws[j]? = some w) (pa : Nat) (m : List Host.Cell) :
    Mem.read (writeWords pa ws m) (pa + 8 * j) 8 = w.toNat := by
  induction ws generalizing pa m j with
  | nil => simp at h
  | cons x ws ih =>
    rw [writeWords]
    cases j with
    | zero =>
      obtain rfl : x = w := by simpa using h
      calc Mem.read (writeWords (pa + 8) ws (Mem.write m pa 8 x.toNat)) pa 8
          = Mem.read (Mem.write m pa 8 x.toNat) pa 8 := Mem.read_congr _ _ _ _ fun j hj => writeWords_other _ _ _ (.inl (by omega))
        _ = x.toNat := by rw [Mem.read_write]; exact Nat.mod_eq_of_lt x.isLt
    | succ j =>
      rw [show pa + 8 * (j + 1) = pa + 8 + 8 * j by omega]
      exact ih (by simpa using h) _ _

section
variable {base stride : Nat} {ws : Nat → List Word} (hws : ∀ k, 8 * (ws k).length ≤ stride) (m : List Host.Cell)
include hws

theorem writeTable_other {n a : Nat} (h : a < base ∨ base + stride * n ≤ a) :
    Mem.get (writeTable base stride ws n m) a = Mem.get m a := by
  induction n with
  | zero => rfl
  | succ n ih =>
    have hl := hws n
    rw [Nat.mul_succ] at h
    rw [writeTable_succ, writeWords_other _ _ _ (by omega), ih (by omega)]

theorem read_writeTable {n k j : Nat} {w : Word} (hk : k < n) (hw : (ws k)[j]? = some w) :
    Mem.read (writeTable base stride ws n m) (base + stride * k + 8 * j) 8 = w.toNat := by
  induction n with
  | zero => omega
  | succ n ih =>
    rw [writeTable_succ]
    rcases Nat.lt_succ_iff_lt_or_eq.mp hk with hlt | rfl
    · obtain ⟨hj, -⟩ := List.getElem?_eq_some_iff.mp hw
      have hl := hws k
      have hnext : stride * (k + 1) ≤ stride * n := Nat.mul_le_mul_left _ hlt
      rw [Nat.mul_succ] at hnext
      rw [← ih hlt]
      exact Mem.read_congr _ _ _ _ fun b hb => writeWords_other _ _ _ (.inl (by omega))
    · exact read_writeWords hw _ _

end

theorem nodeWords_fit (Z : NodeState) : 8 * (nodeWords Z).length ≤ 16 := Nat.le_refl 16

theorem benchWords_fit (s : State) (b : Nat) : 8 * (benchWords s b).length ≤ 32 := Nat.le_refl 32

/-- The table's entries of nodes and then of benches, in memory. -/
def stateTable (base : Nat) (s : State) : List Host.Cell :=
  writeTable (base + 0x8000) 32 (benchWords s) 24 (writeTable base 16 (fun p => nodeWords (lookup {} s.nodes p)) 2048 s.mem)

theorem wfield_eq_extract (w : Word) (lo len : Nat) : wfield w lo len = (w.extractLsb' lo len).toNat := by
  rw [wfield, field, BitVec.extractLsb'_toNat]

theorem exec_fabricStateUpdate_eq (s : State) : exec .fabricStateUpdate s
    = .next (if s.mgmt.fst.getLsbD 63 then { s with mem := stateTable (wfield s.mgmt.fst 16 36 * 65536) s } else s) := rfl

section
variable (base : Nat) (s : State)

theorem stateTable_other {c : Nat} (h : c < base ∨ base + 0x8300 ≤ c) : Mem.get (stateTable base s) c = Mem.get s.mem c := by
  rw [stateTable, writeTable_other (benchWords_fit s) _ (by omega), writeTable_other (fun p => nodeWords_fit (lookup {} s.nodes p)) _ (by omega)]

theorem stateTable_bench {b : Nat} (hb : b < 24) : Mem.read (stateTable base s) (base + 0x8000 + 32 * b + 16) 8 = (benchOf s b).credits % 2 ^ 32 := by
  have hw : (benchWords s b)[2]? = some (natWord ((benchOf s b).credits % 2 ^ 32)) := rfl
  refine (read_writeTable (benchWords_fit s) _ hb hw).trans ?_
  rw [natWord, BitVec.toNat_ofNat]
  omega

/-- Word j of a node's entry lies before the benches' entries, which leave it. -/
theorem stateTable_nodeWord {p j : Nat} {w : Word} (hp : p < 2048) (hw : (nodeWords (lookup {} s.nodes p))[j]? = some w) :
    Mem.read (stateTable base s) (base + 16 * p + 8 * j) 8 = w.toNat := by
  have hj : j < 2 := (List.getElem?_eq_some_iff.mp hw).1
  rw [← read_writeTable (ws := fun p => nodeWords (lookup {} s.nodes p)) (fun p => nodeWords_fit (lookup {} s.nodes p)) s.mem hp hw]
  exact Mem.read_congr _ _ _ _ fun b hb => writeTable_other (benchWords_fit s) _ (.inl (by omega))

/-- Both words of a node's entry. -/
theorem stateTable_node {p : Nat} (hp : p < 2048) :
    let Z : NodeState := lookup {} s.nodes p
    Mem.read (stateTable base s) (base + 16 * p + 8) 8 = (Z.marks * 2 ^ 32 + min 0xFFFF Z.srtt) % 2 ^ 64
      ∧ Mem.read (stateTable base s) (base + 16 * p) 8 = Z.rate % 4096 * 2 ^ 36 + Z.cap / 4096 % 512 * 2 ^ 24 + Z.out % 2 ^ 21 := by
  refine ⟨(stateTable_nodeWord base s hp (j := 1) rfl).trans (BitVec.toNat_ofNat _ _), (stateTable_nodeWord base s hp (j := 0) rfl).trans ?_⟩
  rw [natWord, BitVec.toNat_ofNat, Nat.mod_eq_of_lt (by omega)]

end

theorem exec_fabricStateUpdate_on {s : State} (h : s.mgmt.fst.getLsbD 63 = true) :
    let base := (s.mgmt.fst.extractLsb' 16 36).toNat * 65536
    ∃ u, exec .fabricStateUpdate s = .next u ∧ u.th = s.th ∧ (∀ c, c < base ∨ base + 0x8300 ≤ c → Mem.get u.mem c = Mem.get s.mem c)
      ∧ ∀ p < 2048, let Z : NodeState := lookup {} s.nodes p
        Mem.read u.mem (base + 16 * p + 8) 8 = (Z.marks * 2 ^ 32 + min 0xFFFF Z.srtt) % 2 ^ 64
        ∧ Mem.read u.mem (base + 16 * p) 8 = Z.rate % 4096 * 2 ^ 36 + Z.cap / 4096 % 512 * 2 ^ 24 + Z.out % 2 ^ 21
      ∧ ∀ b < 24, Mem.read u.mem (base + 0x8000 + 32 * b + 16) 8 = (benchOf s b).credits % 2 ^ 32 := by
  intro base
  have he := exec_fabricStateUpdate_eq s
  rw [if_pos h, wfield_eq_extract] at he
  have hother {c : Nat} := stateTable_other base s (c := c)
  have hnode {p : Nat} := stateTable_node base s (p := p)
  have hbench {b : Nat} := stateTable_bench base s (b := b)
  generalize stateTable base s = m at he hother hnode hbench
  refine ⟨_, he, rfl, fun c hc => hother hc, fun p hp => ?_⟩
  obtain ⟨hmarks, hrate⟩ := hnode hp
  exact ⟨hmarks, hrate, fun b hb => hbench hb⟩

theorem exec_fabricStateUpdate_off {s : State} (h : s.mgmt.fst.getLsbD 63 = false) : exec .fabricStateUpdate s = .next s := by
  rw [exec_fabricStateUpdate_eq, if_neg (by rw [h]; exact Bool.false_ne_true)]

/-! ### Time (R15) -/

theorem exec_fabEn_spec (reference : Word) (s : State) :
    ∃ u, exec (.fabEn reference) s = .next u ∧ u.mgmt.fabEn = true ∧ u.tlock = true ∧ u.cyc = (if s.tlock then s.cyc else reference)
      ∧ u.th = s.th ∧ sameMemory s u := by
  have he : exec (.fabEn reference) s = .next (resetNodes (if s.tlock then { s with mgmt := { s.mgmt with fabEn := true } }
    else { s with mgmt := { s.mgmt with fabEn := true }, cyc := reference, tlock := true })) := rfl
  refine ⟨_, he, ?_⟩
  cases hl : s.tlock with
  | true => exact ⟨rfl, rfl, rfl, rfl, fun _ => rfl⟩
  | false => exact ⟨rfl, rfl, rfl, rfl, fun _ => rfl⟩

theorem exec_cycSlewStep_eq (add : Bool) (s : State) :
    exec (.cycSlewStep add) s = .next (if s.tlock ∧ s.cyc.toNat % 16384 / 128 % 2 = 1 ∧ !(add ∧ s.cyc.toNat % 128 = 127) ∧ elapsed s.cyc s.slewAt 1024 then
      (if add then { s with slewAt := some s.cyc, cyc := s.cyc + 1 } else { s with slewAt := some s.cyc, withhold := true }) else s) := rfl

/-- The condition of a slew step, without its Boolean negation. -/
theorem slewDue_iff (add : Bool) (s : State) :
    (s.tlock ∧ s.cyc.toNat % 16384 / 128 % 2 = 1 ∧ !(add ∧ s.cyc.toNat % 128 = 127) ∧ elapsed s.cyc s.slewAt 1024)
      ↔ s.tlock = true ∧ s.cyc.toNat % 16384 / 128 % 2 = 1 ∧ ¬ (add = true ∧ s.cyc.toNat % 128 = 127) ∧ elapsed s.cyc s.slewAt 1024 = true := by
  rw [Bool.not_eq_true', decide_eq_false_iff_not]

/-! ### The statement -/

/-- Settles O59: each word by its meaning, with the search that finds a replaced thread or operation again, and the entries of a table
that later entries leave. -/
theorem fabricWords : Obligations.FabricWords := by
  intro pa secure add op op2 fmt n operand expect i e k h bs ch node t ws r x y o reference s _ a N serves
  refine ⟨refuseRemote_eq s secure a n, fun hp hr _ => serve_load_clean hr hp, fun hp hr _ => serve_load_poisoned hr hp,
    fun hr hi => serve_store hr (hi rfl), fun hr hi => serve_masked hr operand expect (hi rfl),
    fun hp hr hi => serve_atomic hr op operand expect hp (hi rfl), fun hp hr hi => serve_update op2 operand hp hr (hi rfl),
    fun z hz => ⟨_, serve_load_refused hz, rfl, fun _ => rfl⟩, fun hr hi => ⟨_, serve_store_ingot hr hi, rfl, fun _ => rfl⟩,
    ⟨_, _, rfl, rfl, rfl, rfl, rfl⟩, ⟨_, _, rfl, rfl, rfl, rfl⟩, rfl, fun D hd hm ha => serve_arrival reference hd hm ha,
    fun hi hh hs => ⟨fun hw hy hv => ?_, fun hw ho => ?_, fun hw hx hrun => ?_⟩, fun hi => ⟨fun hlt => ?_, fun hle hw hy hv => ?_⟩,
    fun hi hwait => exec_remoteResponse_waits x hi hwait, mayLeave_eq s i r, fun hi => ⟨tryLeave_of hi, leaveSource_spec hi⟩,
    fun hone hw hy hv nodes hn => ?_, exec_markedResponse_spec node s, exec_rateIncrease_run, exec_rateIncrease_stays, exec_fabricStateUpdate_on,
    exec_fabricStateUpdate_off, exec_fabEn_spec reference s, fun hdue => ?_, fun hdue => ?_⟩
  · obtain ⟨u, he, ⟨z, q, hz, hrep, hres, hnode⟩, hrest⟩ := exec_remoteResponse_access hi hw hy hv x hh hs
    exact ⟨u, z, q, he, hz, hrep, hres, hnode, hrest⟩
  · have ho' : findOp (answered i r s) t e n = some o := ho
    have he := exec_remoteResponse_run x hi hh hs
    cases hspan : requestSpan r.req with
    | some p =>
      obtain ⟨pa', k'⟩ := p
      rw [deliverResponse_operation_span hw x hspan] at he
      exact ⟨_, _, he, findOp_modOp ho' fun _ => rfl, fun _ _ hp => by cases hp; rfl, nofun⟩
    | none =>
      rw [deliverResponse_operation_noSpan hw x hspan] at he
      refine ⟨_, _, he, findOp_modOp ho' fun _ => rfl, nofun, fun _ => ?_⟩
      cases o.fault <;> cases RemoteResult.cause x <;> rfl
  · subst hx
    obtain ⟨hst, hrec, hmem⟩ := deliverResponse_queued (s := answered i r s) hw hrun
    exact ⟨_, exec_remoteResponse_run _ hi hh hs, hst, hrec, fun c => by rw [hmem]; rfl⟩
  · exact exec_remoteTimeout_early hi hlt
  · obtain ⟨⟨z, q, hz, hrep, hres, hnode⟩, hrem, hmem, -⟩ := failRemote_access hi hw hy hv
    exact ⟨_, z, q, exec_remoteTimeout_late hi hle, hz, hrep, hres, hnode, hrem, fun c => by rw [hmem]⟩
  · obtain ⟨⟨z, q, hz, hrep, hres, -⟩, hrem, -, hlost⟩ :=
      failRemote_access (s := { s with lostNodes := nodes.map (·.toNat) }) (i := 0) (by rw [hone]; rfl) hw hy hv
    exact ⟨_, z, q, exec_linkLost_one hone hn, hrem.trans (by rw [hone]; rfl), hz, hrep, hres, hlost⟩
  · rw [exec_cycSlewStep_eq, if_pos ((slewDue_iff add s).mpr hdue)]
  · rw [exec_cycSlewStep_eq, if_neg fun hc => hdue ((slewDue_iff add s).mp hc)]

end Sys2Proof.Machine

/-!
Integer vector words (R48, R226, R233): the elements of a vector, the integer that an element is under a type, and what each word leaves.
-/

namespace Sys2Proof.Machine

open Sys2Proof

/-! ### Elements of a vector (R48) -/

/-- A field of a number that lies within the width of a vector is a field of the vector. -/
theorem field_toNat_ofNat (x lo len : Nat) {n : Nat} (h : lo + len ≤ n) : field (BitVec.ofNat n x).toNat lo len = field x lo len := by
  obtain ⟨m, rfl⟩ := Nat.exists_eq_add_of_le (Nat.le_of_add_right_le h)
  rw [BitVec.toNat_ofNat, field, field, Nat.shiftRight_eq_div_pow, Nat.shiftRight_eq_div_pow, Nat.pow_add, Nat.mod_mul_right_div_self,
    Nat.mod_mod_of_dvd _ (Nat.pow_dvd_pow 2 (by omega))]

theorem field_packLanes (w : Nat) (xs : List Nat) (k : Nat) : field (packLanes w xs) (w * k) w = xs.getD k 0 % 2 ^ w := by
  induction xs generalizing k with
  | nil => simp [packLanes, field]
  | cons x xs ih =>
    cases k with
    | zero => simp [packLanes, field]
    | succ k =>
      have hlt : x % 2 ^ w < 2 ^ w := Nat.mod_lt _ (Nat.two_pow_pos w)
      rw [List.getD_cons_succ, ← ih k, field, field, packLanes, show w * (k + 1) = w + w * k by rw [Nat.mul_succ, Nat.add_comm],
        Nat.shiftRight_add, Nat.shiftRight_eq_div_pow _ w, Nat.add_mul_div_left _ _ (Nat.two_pow_pos w), Nat.div_eq_of_lt hlt, Nat.zero_add]

/-- An element lies within the vector. -/
theorem lane_fits {w k : Nat} (h : k < 512 / w) : w * k + w ≤ 512 :=
  calc w * k + w = w * (k + 1) := (Nat.mul_succ w k).symm
    _ ≤ w * (512 / w) := Nat.mul_le_mul_left w h
    _ ≤ 512 := Nat.mul_div_le 512 w

/-- An element of a vector made of elements. -/
theorem lane_fromLanes {w k : Nat} (h : k < 512 / w) (f : Nat → Nat) :
    lane w (fromLanes w ((List.range (512 / w)).map f)) k = f k % 2 ^ w := by
  rw [lane, fromLanes, field_toNat_ofNat _ _ _ (lane_fits h), field_packLanes, List.getD_eq_getElem?_getD, List.getElem?_map,
    List.getElem?_range h]
  rfl

theorem lane_lt (w : Nat) (v : Vec) (k : Nat) : lane w v k < 2 ^ w := Nat.mod_lt _ (Nat.two_pow_pos w)

theorem lane_and (w : Nat) (x y : Vec) (k : Nat) : lane w (x &&& y) k = lane w x k &&& lane w y k := by
  simp only [lane, field, BitVec.toNat_and, Nat.shiftRight_and_distrib, Nat.and_mod_two_pow]

theorem lane_or (w : Nat) (x y : Vec) (k : Nat) : lane w (x ||| y) k = lane w x k ||| lane w y k := by
  simp only [lane, field, BitVec.toNat_or, Nat.shiftRight_or_distrib, Nat.or_mod_two_pow]

theorem lane_xor (w : Nat) (x y : Vec) (k : Nat) : lane w (x ^^^ y) k = lane w x k ^^^ lane w y k := by
  simp only [lane, field, BitVec.toNat_xor, Nat.shiftRight_xor_distrib, Nat.xor_mod_two_pow]

/-! ### Integers of an element (R58) -/

theorem unsignedBits_mod (w : Nat) (x : Int) : ((unsignedBits w x % 2 ^ w : Nat) : Int) = x % 2 ^ w := by
  have hpos : (0 : Int) < (2 ^ w : Nat) := by exact_mod_cast Nat.two_pow_pos w
  rw [unsignedBits, Int.natCast_emod, Int.toNat_of_nonneg (Int.emod_nonneg _ (by omega)), Int.emod_emod_of_dvd _ (Int.dvd_refl _)]
  push_cast
  rfl

section
variable {m x x' y y' : Int} (hx : x % m = x' % m) (hy : y % m = y' % m)
include hx hy

theorem add_emod_congr : (x + y) % m = (x' + y') % m := by rw [Int.add_emod, hx, hy, ← Int.add_emod]

theorem sub_emod_congr : (x - y) % m = (x' - y') % m := by rw [Int.sub_emod, hx, hy, ← Int.sub_emod]

theorem mul_emod_congr : x * y % m = x' * y' % m := by rw [Int.mul_emod, hx, hy, ← Int.mul_emod]

end

/-- The integer of an element and its bits agree modulo the width. -/
theorem readInt_emod (sign : Bool) (w x : Nat) : readInt sign w x % 2 ^ w = x % 2 ^ w := by
  have hn : ((x % 2 ^ w : Nat) : Int) % 2 ^ w = x % 2 ^ w := by push_cast; exact Int.emod_emod_of_dvd _ (Int.dvd_refl _)
  unfold readInt signed
  split
  · split
    · exact hn
    · rw [show ((2 ^ w : Nat) : Int) = 2 ^ w by push_cast; rfl, Int.sub_emod_right]
      exact hn
  · exact hn

/-- The integer of an element: what its bits stand for, minus the modulus where the type is signed and the topmost bit is set. -/
theorem readInt_eq (sign : Bool) (w x : Nat) :
    readInt sign w x = if sign = true ∧ 2 ^ (w - 1) ≤ x % 2 ^ w then ((x % 2 ^ w : Nat) : Int) - 2 ^ w else (x % 2 ^ w : Nat) := by
  unfold readInt signed
  cases sign with
  | false => simp
  | true =>
    by_cases hx : x % 2 ^ w < 2 ^ (w - 1)
    · rw [if_pos rfl, if_pos hx, if_neg (by omega)]
    · rw [if_pos rfl, if_neg hx, if_pos ⟨rfl, by omega⟩]
      push_cast
      rfl

/-! ### The words (R226, R233) -/

/-- A vector word whose guard holds applies its function to the registers, enters the vector queue and completes. -/
theorem vector_true {g : Guard} {s : State} (f : Regs → Regs) (h : s.th.r.guard g = true) :
    vector g f s = .next ((pushVector s).completed (f s.th.r)) := by
  have hth : (pushVector s).th = s.th := by rw [pushVector_frame]
  rw [vector, if_pos h, compute_true f (by rw [hth]; exact h), hth]
  rfl

theorem orFlags_zero (n : Nat) : orFlags ((List.range n).map fun _ => 0) = 0 := by
  induction n with
  | zero => rfl
  | succ n ih => rw [List.range_succ, List.map_append, orFlags, List.foldl_append, ← orFlags, ih]; exact BitVec.or_zero

/-- An element-wise word that raises no flag writes its elements only. -/
theorem effLanes_noFlags (w : Nat) (f : Nat → Nat → Nat) (d a b : Reg) (r : Regs) :
    effLanes w (fun x y _ => (f x y, 0)) d a b r
      = r.wv d (fromLanes w ((List.range (512 / w)).map fun k => f (lane w (r.rv a) k) (lane w (r.rv b) k))) := by
  rw [effLanes, writeLanes, List.map_map, List.map_map]
  show (r.wv d _).raise (orFlags ((List.range (512 / w)).map fun _ => 0)) = _
  rw [orFlags_zero, Regs.raise]
  exact congrArg (fun fl => { r.wv d _ with flags := fl }) (BitVec.or_zero)

/-- A word completes with a vector whose elements are given, modulo their width. -/
def GivesLanes (o : Out) (s : State) (d : Reg) (w : Nat) (f : Nat → Int) : Prop :=
  ∃ v, o = .next ((pushVector s).completed (s.th.r.wv d v)) ∧ ∀ k < 512 / w, (lane w v k : Int) = f k % 2 ^ w

section
variable {g : Guard} {s : State} (h : s.th.r.guard g = true) (d a b : Reg)
include h

theorem vector_lanes (w : Nat) (f : Nat → Nat → Nat) :
    GivesLanes (vector g (effLanes w (fun x y _ => (f x y, 0)) d a b) s) s d w
      fun k => f (lane w (s.th.r.rv a) k) (lane w (s.th.r.rv b) k) := by
  refine ⟨_, by rw [vector_true _ h, effLanes_noFlags], fun k hk => ?_⟩
  rw [lane_fromLanes hk]
  push_cast
  rfl

/-- An integer word: the bits of its result are those of the exact result on the elements' bits, where it respects the modulus. -/
theorem vector_int (t : BitVec 4) {op : Int → Int → Int}
    (hop : ∀ {m x x' y y' : Int}, x % m = x' % m → y % m = y' % m → op x y % m = op x' y' % m) :
    GivesLanes (vector g (effInt op t d a b) s) s d (typeBits t)
      fun k => op (lane (typeBits t) (s.th.r.rv a) k) (lane (typeBits t) (s.th.r.rv b) k) := by
  obtain ⟨v, hv, hl⟩ := vector_lanes h d a b (typeBits t)
    fun x y => unsignedBits (typeBits t) (op (readInt (typeSigned t) (typeBits t) x) (readInt (typeSigned t) (typeBits t) y))
  refine ⟨v, hv, fun k hk => (hl k hk).trans ?_⟩
  have hu := unsignedBits_mod (typeBits t)
  push_cast at hu
  rw [hu]
  exact hop (readInt_emod _ _ _) (readInt_emod _ _ _)

theorem vector_bits (w : Nat) {op : Vec → Vec → Vec} {f : Nat → Nat → Nat}
    (hop : ∀ x y k, lane w (op x y) k = f (lane w x k) (lane w y k)) :
    GivesLanes (vector g (effBits op d a b) s) s d w fun k => f (lane w (s.th.r.rv a) k) (lane w (s.th.r.rv b) k) := by
  refine ⟨_, vector_true _ h, fun k _ => ?_⟩
  dsimp only
  rw [← hop]
  exact (Int.emod_eq_of_lt (Int.natCast_nonneg _) (by exact_mod_cast lane_lt _ _ _)).symm

end

/-- Settles O15: each word writes its elements modulo their width, which is all that the integers of the operands' elements decide. -/
theorem vectorIntegers : Obligations.VectorIntegers := by
  intro g d a b q t s hg _ w x y num gives
  have hnum (v : Vec) (k : Nat) : readInt (typeSigned t) (typeBits t) (lane (typeBits t) v k) = num (lane (typeBits t) v k) := by
    rw [readInt_eq, Nat.mod_eq_of_lt (lane_lt _ v k)]
    simp only [num, typeSigned, decide_eq_true_eq]
    rfl
  refine ⟨vector_int hg d a b t add_emod_congr, vector_int hg d a b t sub_emod_congr, vector_int hg d a b t mul_emod_congr,
    vector_bits hg d a b w (lane_and w), vector_bits hg d a b w (lane_or w), vector_bits hg d a b w (lane_xor w), ?_, ?_, ?_⟩
  · obtain ⟨v, hv, hl⟩ := vector_lanes hg d a b w fun x y => x * 2 ^ (y % w)
    exact ⟨v, hv, fun k hk => by rw [hl k hk]; push_cast; rfl⟩
  · obtain ⟨v, hv, hl⟩ := vector_lanes hg d a b w fun x y => unsignedBits w (readInt (typeSigned t) w x / 2 ^ (y % w))
    have hu := unsignedBits_mod w
    push_cast at hu
    exact ⟨v, hv, fun k hk => by rw [hl k hk, hu, hnum]⟩
  · refine (vector_true (effVredx t d a q) hg).trans ?_
    simp only [effVredx, hnum]
    rfl

end Sys2Proof.Machine

/-!
Commutative updates, fences and queries (R34, R97, R191, R194 to R196, R198).
-/

namespace Sys2Proof.Machine

open Sys2Proof

/-! ### The value of an update (R194) -/

/-- The integer formats of updates: 6 to 9 are signed, and the width doubles from one to the next (R46). -/
theorem intFmt_update {n : Nat} (h6 : 6 ≤ n) (h13 : n ≤ 13) : intFmt n = some (decide (n - 6 < 4), 8 * 2 ^ ((n - 6) % 4)) := by
  have h : ∀ k < 8, intFmt (6 + k) = some (decide (k < 4), 8 * 2 ^ (k % 4)) := by decide
  have hn := h (n - 6) (by omega)
  rwa [Nat.add_sub_cancel' h6] at hn

theorem readInt_mod (sign : Bool) (w x : Nat) : readInt sign w (x % 2 ^ w) = readInt sign w x := by
  rw [readInt_eq, readInt_eq, Nat.mod_mod]

section
variable {f : BitVec 5} {sg : Bool} {n : Nat} (hf : intFmt f.toNat = some (sg, 8 * n))
include hf

theorem updateBytes_of : updateBytes f = n := by simp [updateBytes, hf]

theorem updated_add (x : Nat) (c : Word) : updated 0 f x c = (x + c.toNat % 2 ^ (8 * n)) % 2 ^ (8 * n) := by simp [updated, hf]

/-- The larger of two values, as integers of the format. -/
theorem readInt_updated_max (x : Nat) (c : Word) :
    readInt sg (8 * n) (updated 1 f x c) = max (readInt sg (8 * n) x) (readInt sg (8 * n) c.toNat) := by
  have h : updated 1 f x c = if readInt sg (8 * n) x < readInt sg (8 * n) (c.toNat % 2 ^ (8 * n)) then c.toNat % 2 ^ (8 * n) else x := by
    simp [updated, hf]
  rw [h, readInt_mod]
  split
  · rw [readInt_mod]; omega
  · omega

/-- The smaller of two values, as integers of the format. -/
theorem readInt_updated_min (x : Nat) (c : Word) :
    readInt sg (8 * n) (updated 2 f x c) = min (readInt sg (8 * n) x) (readInt sg (8 * n) c.toNat) := by
  have h : updated 2 f x c = if readInt sg (8 * n) (c.toNat % 2 ^ (8 * n)) < readInt sg (8 * n) x then c.toNat % 2 ^ (8 * n) else x := by
    simp [updated, hf]
  rw [h, readInt_mod]
  split
  · rw [readInt_mod]; omega
  · omega

theorem updated_or (x : Nat) (c : Word) : updated 3 f x c = x ||| (c.toNat % 2 ^ (8 * n)) := by simp [updated, hf]

end

/-! ### Updates on their way (R97) -/

section
variable {s : State} {va n : Nat} {f : BitVec 5} (hn : updateBytes f = n) (hpos : 0 < n) (hw : Writable s va n) (haway : landsAway s va n .store)
  (hc : computing s s.th = none)
include hn hpos hw haway hc

/-- An update of another place than the thread's own local memory joins its hearth's stores. -/
theorem storeM_update (op : BitVec 2) (c : Word) : ∃ hs bs, storeM va (.update op f c) s
    = .ok ⟨⟩ { s with hearths := hs, benches := bs, pending := s.pending ++ [⟨s.th.view, landing s va n .store, .update op f c⟩] } := by
  obtain ⟨hs, bs, ht⟩ := translated_frame s va n .store
  obtain ⟨pa, node, hspots⟩ := reach_onePage (reach_eq hw.reached) hw.onePage
  obtain ⟨p, ps, hp⟩ : ∃ p ps, placesOf s va n .store = p :: ps := by
    rw [hspots]
    obtain ⟨m, rfl⟩ := Nat.exists_eq_succ_of_ne_zero (Nat.ne_of_gt hpos)
    simp [spotsFrom, List.range_succ_eq_map]
  have hmem : p ∈ placesOf s va n .store := hp ▸ List.mem_cons_self
  have hland : landing s va n .store = p.pa := by rw [landing, hp]; rfl
  have hpub : publish p (.update op f c) (translated s va n .store) = .ok ⟨⟩
      { s with hearths := hs, benches := bs, pending := s.pending ++ [⟨s.th.view, p.pa, .update op f c⟩] } := by
    have hown := haway p hmem
    rw [ht] at hown ⊢
    exact publish_pending _ hown hc (hw.reached.2 p hmem).1
  rw [hland]
  exact ⟨hs, bs, storeAt_writable (o := .update op f c) hn hw hp (.inl rfl) (.inr hc) hpub (delaysOff_of hw.quiet rfl rfl)⟩

theorem cupd_joins {g : Guard} {a b : Reg} (hg : s.th.r.guard g = true) (hva : va = addr (s.th.r.rg a)) (hal : va % n = 0) (op : BitVec 2) :
    ∃ t, strand g (cupd op a b f) s = .next t ∧ t.th.r = s.th.r.advance ∧ t.mem = s.mem
      ∧ t.pending = s.pending ++ [⟨s.th.view, landing s va n .store, .update op f (s.th.r.rg b)⟩] ∧ onlyMemory s t := by
  obtain ⟨hs, bs, hrun⟩ := storeM_update hn hpos hw haway hc op (s.th.r.rg b)
  have hbody : cupd op a b f s = .ok ⟨⟩ (setRegs s.th.r.advance
      { s with hearths := hs, benches := bs, pending := s.pending ++ [⟨s.th.view, landing s va n .store, .update op f (s.th.r.rg b)⟩] }) := by
    unfold cupd aligned
    rw [M.bind_ok (readG_run a s), ← hva, hn, if_pos hal, M.bind_ok (M.pure_run _ s), M.bind_ok (readG_run b s), M.bind_ok hrun, advance_run]
  exact ⟨_, (strand_true _ hg).trans (outcome_ok hbody), rfl, rfl, rfl, rfl⟩

end

/-! ### Fences (R196) -/

section
variable {g : Guard} {c : BitVec 3} {s : State} (hg : s.th.r.guard g = true)
include hg

/-- A fence that nothing holds performs the hearth's stores at a scope above the hearth's, and completes. -/
theorem exec_fence_run (h : awaitsRelease c.toNat s s.th = false) :
    exec (.fence g c) s = .next ((if 1 < c.toNat then drainHearth s.th.view s else s).completed s.th.r) := by
  have hth : (if 1 < c.toNat then drainHearth s.th.view s else s).th = s.th := by
    split
    · exact (drainHearth_frame _ s).2.1
    · rfl
  show strand g (releaseAt c.toNat >>= fun _ => advance) s = _
  rw [strand_true _ hg]
  have hrun : (releaseAt c.toNat >>= fun _ => advance) s
      = .ok ⟨⟩ ((if 1 < c.toNat then drainHearth s.th.view s else s).completed s.th.r) := by
    rw [M.bind_ok (releaseAt_run h), advance_run, show scopeHearth = 1 from rfl, hth]
    rfl
  exact outcome_ok hrun

theorem exec_fencee_run (he : s.th.enginesIdle = true) : exec (.fencee g c) s = exec (.fence g c) s := by
  have hidle : awaitEngines s = .ok ⟨⟩ s := by
    unfold awaitEngines
    rw [M.bind_ok (getTh_run s), if_pos he]
    rfl
  show strand g (awaitEngines >>= fun _ => releaseAt c.toNat >>= fun _ => advance) s = strand g (releaseAt c.toNat >>= fun _ => advance) s
  rw [strand_true _ hg, strand_true _ hg, outcome, M.bind_ok hidle, outcome]

end

theorem drainHearth_pending {h : Nat} {s : State} : ∀ q ∈ (drainHearth h s).pending, q.hearth ≠ h := by
  rw [(drainHearth_frame h s).2.2.2.1]
  intro q hq
  simpa using (List.mem_filter.mp hq).2

/-! ### Queries (R34, R198) -/

/-- DOMGET of a level reads its field of the domain word where the level is valid, and all ones otherwise (R34). -/
theorem domgetValue_level (w : Word) {l lo len : Nat} (hl : (l, lo, len) ∈ [(1, 35, 8), (2, 27, 8), (3, 19, 8), (4, 8, 11), (5, 0, 8)]) :
    (domgetValue w l).toNat = if w.getLsbD (42 + l) then w.toNat / 2 ^ lo % 2 ^ len else 2 ^ 64 - 1 := by
  have hval : domgetValue w l = if w.getLsbD (42 + l) then natWord (wfield w lo len) else BitVec.allOnes 64 := by
    simp only [List.mem_cons, Prod.mk.injEq, List.not_mem_nil, or_false] at hl
    rcases hl with ⟨rfl, rfl, rfl⟩ | ⟨rfl, rfl, rfl⟩ | ⟨rfl, rfl, rfl⟩ | ⟨rfl, rfl, rfl⟩ | ⟨rfl, rfl, rfl⟩ <;> rfl
  have hlen : len ≤ 64 := by
    simp only [List.mem_cons, Prod.mk.injEq, List.not_mem_nil, or_false] at hl
    omega
  have hlt : wfield w lo len < 2 ^ 64 := Nat.lt_of_lt_of_le (Nat.mod_lt _ (Nat.two_pow_pos len)) (Nat.pow_le_pow_right (by omega) hlen)
  rw [hval]
  split
  · rw [natWord, BitVec.toNat_ofNat, Nat.mod_eq_of_lt hlt, wfield, field, Nat.shiftRight_eq_div_pow]
  · rfl

/-- Settles O33: updates join the hearth's stores, an update's value by its format, fences by their release, queries by their value. -/
theorem updatesAndOrdering : Obligations.UpdatesAndOrdering := by
  intro g d a b f c l s hg r va k n joins num
  refine ⟨fun h6 h13 hal hw haway hc => ?_, fun h6 h13 x w hx => ?_, fun h => ?_, compute_true (fun r => r) hg, ?_, ?_⟩
  · have hn : updateBytes f = n := updateBytes_of (intFmt_update h6 h13)
    have hjoins := cupd_joins (b := b) hn (Nat.two_pow_pos _) hw haway hc hg rfl hal
    exact ⟨hjoins 0, hjoins 1, hjoins 2, hjoins 3⟩
  · have hf : intFmt f.toNat = some (decide (k < 4), 8 * n) := intFmt_update h6 h13
    have hnum (y : Nat) : readInt (decide (k < 4)) (8 * n) y = num y := by simp only [readInt_eq, num, decide_eq_true_eq]
    refine ⟨updateBytes_of hf, ?_, ?_, ?_, updated_or hf x w⟩
    · rw [updated_add hf, Nat.add_mod_mod]
      push_cast
      rfl
    · rw [← hnum, ← hnum, ← hnum]
      exact readInt_updated_max hf x w
    · rw [← hnum, ← hnum, ← hnum]
      exact readInt_updated_min hf x w
  · intro after
    refine ⟨exec_fence_run hg h, fun he => (exec_fencee_run hg he).trans (exec_fence_run hg h), fun hc => ?_⟩
    rw [show after = drainHearth s.th.view s from if_pos hc]
    exact drainHearth_pending
  · refine ⟨domgetValue s.th.domset l.toNat, compute_true (fun r => r.wg d (domgetValue s.th.domset l.toNat)) hg, ?_, ?_⟩
    · rintro rfl; rfl
    · rintro ⟨l', lo, len⟩ he rfl
      exact domgetValue_level _ he
  · refine ⟨phaseValue s, compute_true (fun r => r.wg d (phaseValue s)) hg, fun hnone => ?_, fun x hx => ?_⟩
    · have hf : (s.launches.find? fun l => decide (l.id = s.th.launch)) = none := by
        rw [List.find?_eq_none]
        intro x hx
        simpa using hnone x hx
      rw [phaseValue, hf]
    · rw [phaseValue, hx]
      dsimp only
      split
      · rw [natWord, BitVec.ofNat_add]
        rfl
      · rfl

end Sys2Proof.Machine

/-!
The end of a collective for a thread that a TRET has killed (R201, R363): it is released from no wait.
-/

namespace Sys2Proof.Machine

open Sys2Proof

/-- The only member of a domain, arrived at a SYNC. -/
def loneDomain : Domain :=
  { launch := 0, level := 1, index := 0, members := [⟨0, 0⟩], nodes := [], arrivals := [{ t := ⟨0, 0⟩, kind := .sync, operand := 0 }] }

/-- A member that waits for a barrier which everyone has reached, and that a TRET has killed. -/
def killedMember : State :=
  { th := { st := .parked, wait := .collective 0, killed := some 0 }, domains := [loneDomain] }

/-- The barrier completes, and the killed member stays parked in its wait. -/
theorem exec_barrierComplete_killedMember : exec (.barrierComplete 0) killedMember
    = .next { killedMember with domains := [{ loneDomain with generation := 1, arrivals := [], results := [(⟨0, 0⟩, .value 0)] }] } := rfl

/-- Refutes O36: a barrier that completes ends a member's wait only where the member is not killed. The member of `killedMember` is parked in
the collective with an exit value of a TRET that has killed it, and keeps its wait. -/
theorem not_collectivesAndTimelines : ¬ Obligations.CollectivesAndTimelines := by
  intro h
  obtain ⟨-, -, -, -, complete, -⟩ := h ⟨0, 0⟩ 0 0 0 0 0 0 0 0 loneDomain killedMember rfl
  obtain ⟨t, D', hexec, -, -, -, hparked, -⟩ := complete rfl rfl rfl (by decide) rfl
  obtain ⟨-, hwait, -⟩ := hparked (List.mem_singleton_self _) rfl rfl
  rw [exec_barrierComplete_killedMember] at hexec
  cases hexec
  cases hwait

end Sys2Proof.Machine

/-!
Misses, shootdowns, replies and register blocks (R22, R27, R28, R388, R393, R397, R398).
-/

namespace Sys2Proof.Machine

open Sys2Proof

/-! ### Live threads -/

theorem liveThread_some {s : State} {t : ThreadId} {x : Thread} (h : liveThread s t = some x) : findThread s t = some x ∧ x.live = true :=
  Option.filter_eq_some_iff.mp h

theorem liveThread_of {s : State} {t : ThreadId} {x : Thread} (h : findThread s t = some x) (hx : x.live = true) : liveThread s t = some x :=
  Option.filter_eq_some_iff.mpr ⟨h, hx⟩

theorem Thread.live_iff (t : Thread) : t.live = true ↔ t.st ≠ .unborn ∧ t.st ≠ .done := by rw [Thread.live, decide_eq_true_eq]

/-- The search for a thread reads the threads only. -/
theorem findThread_congr {s u : State} (ht : u.th = s.th) (ho : u.others = s.others) (t : ThreadId) : findThread u t = findThread s t := by
  unfold findThread
  rw [ht, ho]

/-- The live thread that replaced one of its name is found by that name. -/
theorem liveThread_putThread {s : State} {t : ThreadId} {x y : Thread} (h : findThread s t = some y) (hid : x.id = t) (hx : x.live = true) :
    liveThread (putThread s x) t = some x :=
  liveThread_of (findThread_putThread h hid (x.live_iff.mp hx).1) hx

/-- Changing every thread, none in its name or birth, changes the thread that a name finds. -/
theorem findThread_mapThreads {f : Thread → Thread} (hid : ∀ y, (f y).id = y.id) (hst : ∀ y, (f y).st = .unborn ↔ y.st = .unborn) (s : State)
    (t : ThreadId) : findThread (mapThreads f s) t = (findThread s t).map f := by
  have hp : (fun y : Thread => decide (y.id = t ∧ y.st ≠ .unborn)) ∘ f = fun y => decide (y.id = t ∧ y.st ≠ .unborn) := by
    funext y
    simp only [Function.comp_apply, hid, ne_eq, hst]
  unfold findThread mapThreads
  dsimp only
  rw [hid, List.find?_map, hp]
  simp only [ne_eq, hst]
  split <;> rfl

/-! ### Misses (R388) -/

/-- A miss that no entry covers takes a free one (R388). -/
theorem addMiss_new {ag : Agent} {va i : Nat} {s : State} (ctx : BitVec 44) (w : Waiter) (kind : AccessKind)
    (hnew : ∀ m ∈ (benchOf s ag.bench).misses, m.page ≠ BitVec.ofNat 44 (va / 4096)) (hi : freeIndex (benchOf s ag.bench).misses = some i) :
    ∃ m, addMiss ag ctx w va kind s = putBench s ag.bench { benchOf s ag.bench with misses := (benchOf s ag.bench).misses ++ [m] }
      ∧ m.index = i ∧ m.asid = ag.asid ∧ m.page = BitVec.ofNat 44 (va / 4096) ∧ m.sent = false ∧ m.ctx = (if ag.engine then 0 else ctx)
      ∧ m.waiters = [⟨w, va, kind⟩] := by
  have hany : ((benchOf s ag.bench).misses.any fun m => decide (m.asid = ag.asid ∧ m.page = BitVec.ofNat 44 (va / 4096))) = false := by
    rw [List.any_eq_false]
    intro m hm
    simp [hnew m hm]
  unfold addMiss
  dsimp only
  rw [if_neg (by rw [hany]; exact Bool.false_ne_true), hi]
  exact ⟨_, rfl, rfl, rfl, rfl, rfl, rfl, rfl⟩

theorem exec_tlbBenchMiss_new {bench i : Nat} {page : BitVec 44} {x : Thread} {s : State} (kind : BitVec 2) (hlive : liveThread s x.id = some x)
    (hst : x.st = .stalledMemory) (hb : x.bench = bench) (hself : page.toNat * 4096 < selfWindow)
    (hmiss : lookupTlb x.id.asid (page.toNat * 4096) (benchOf s bench).tlb = none) (hnew : ∀ m ∈ (benchOf s bench).misses, m.page ≠ page)
    (hi : freeIndex (benchOf s bench).misses = some i) :
    ∃ u m, exec (.tlbBenchMiss bench x.id page kind) s = .next u ∧ (benchOf u bench).misses = (benchOf s bench).misses ++ [m] ∧ m.index = i
      ∧ m.asid = x.id.asid ∧ m.page = page ∧ m.sent = false ∧ m.ctx = x.id.ctx ∧ m.waiters = [⟨.access x.id, page.toNat * 4096, kindOf kind⟩]
      ∧ u.th = s.th ∧ u.mem = s.mem := by
  subst hb
  have hpage : BitVec.ofNat 44 (page.toNat * 4096 / 4096) = page := by
    rw [Nat.mul_div_cancel _ (by omega), BitVec.ofNat_toNat, BitVec.setWidth_eq]
  obtain ⟨m, hadd, hindex, hasid, hp, hsent, hctx, hwait⟩ := addMiss_new (ag := agentOf x) (va := page.toNat * 4096) x.id.ctx (.access x.id)
    (kindOf kind) (by rw [hpage]; exact hnew) hi
  have hexec : exec (.tlbBenchMiss x.bench x.id page kind) s
      = .next (addMiss (agentOf x) x.id.ctx (.access x.id) (page.toNat * 4096) (kindOf kind) s) := by
    show execTlbBenchMiss x.bench x.id page kind s = _
    rw [execTlbBenchMiss, hlive]
    dsimp only
    rw [if_pos ⟨hst, rfl, hself, by rw [hmiss]; rfl⟩]
  refine ⟨_, m, hexec.trans (congrArg _ hadd), ?_, hindex, hasid, hp.trans hpage, hsent, hctx, hwait, rfl, rfl⟩
  show (lookup {} (insert s.benches x.bench _) x.bench).misses = _
  rw [lookup_insert_same]
  rfl

/-! ### Shootdowns (R393) -/

/-- The next number of a timeline completes it, where none is complete ahead. -/
theorem Timeline.complete_next {l : Timeline} (h : l.ahead = []) : (l.complete (l.completed + 1)).completed = l.completed + 1 := by
  simp [Timeline.complete, Timeline.complete.raise, h]

/-- The end of a wait leaves a thread's name, registers and life. -/
theorem Thread.release_frame (t : Thread) : t.release.id = t.id ∧ t.release.r = t.r ∧ (t.release.st = .unborn ↔ t.st = .unborn)
    ∧ (t.release.st = .done ↔ t.st = .done) := by
  unfold Thread.release
  split
  · next h => cases hs : t.place.service <;> simp [Thread.readied, h, hs]
  · exact ⟨rfl, rfl, Iff.rfl, Iff.rfl⟩

/-- A parked thread that no TRET has killed is released from its wait. -/
theorem Thread.release_parked {t : Thread} (h : t.st = .parked) (hk : t.killed = none) : t.release.wait = .none ∧ t.release.st ≠ .parked := by
  rw [Thread.release, if_pos ⟨h, hk⟩]
  refine ⟨rfl, ?_⟩
  show t.readied ≠ .parked
  unfold Thread.readied
  split <;> nofun

/-- A thread where the waits that meet a condition end. -/
theorem liveThread_releaseIf {s : State} {t : ThreadId} {x : Thread} (c : Thread → Bool) (h : liveThread s t = some x) :
    liveThread (releaseIf c s) t = some (if c x then x.release else x) := by
  obtain ⟨hfind, hlive⟩ := liveThread_some h
  have hframe (y : Thread) : let z := if c y then y.release else y
      z.id = y.id ∧ (z.st = .unborn ↔ y.st = .unborn) ∧ (z.st = .done ↔ y.st = .done) := by
    dsimp only
    split
    · obtain ⟨hid, -, hu, hd⟩ := y.release_frame
      exact ⟨hid, hu, hd⟩
    · exact ⟨rfl, Iff.rfl, Iff.rfl⟩
  refine liveThread_of ?_ ?_
  · unfold releaseIf
    rw [findThread_mapThreads (fun y => (hframe y).1) (fun y => (hframe y).2.1), hfind]
    rfl
  · rw [Thread.live_iff] at hlive ⊢
    obtain ⟨-, hu, hd⟩ := hframe x
    exact ⟨fun h => hlive.1 (hu.mp h), fun h => hlive.2 (hd.mp h)⟩

theorem exec_shootdownComplete_run {bench : Nat} {d : Shootdown} {s : State} (hs : s.shootdowns = [d]) (hd : d.issuer = bench)
    (hdone : shootdownDone s d = true) : exec (.shootdownComplete bench) s
      = .next (releaseIf (fun t => decide (t.wait = .shootdown bench d.n)) (putBench { s with shootdowns := [] } bench
          { benchOf s bench with shoot := (benchOf s bench).shoot.complete d.n })) := by
  show execShootdownComplete bench s = _
  rw [execShootdownComplete, hs]
  simp [hd, hdone]

theorem exec_shootdownComplete_spec {bench : Nat} {d : Shootdown} {x : Thread} {s : State} (hlive : liveThread s x.id = some x)
    (hs : s.shootdowns = [d]) (hd : d.issuer = bench) (hdone : shootdownDone s d = true) (hahead : (benchOf s bench).shoot.ahead = [])
    (hn : d.n = (benchOf s bench).shoot.completed + 1) :
    ∃ u y, exec (.shootdownComplete bench) s = .next u ∧ u.shootdowns = [] ∧ (benchOf u bench).shoot.completed = d.n ∧ u.mem = s.mem
      ∧ liveThread u x.id = some y ∧ y.r = x.r
      ∧ (x.st = .parked → x.killed = none → x.wait = .shootdown bench d.n → y.wait = .none ∧ y.st ≠ .parked) := by
  refine ⟨_, _, exec_shootdownComplete_run hs hd hdone, rfl, ?_, rfl, liveThread_releaseIf _ hlive, ?_, fun hp hk hw => ?_⟩
  · show (lookup {} (insert s.benches bench _) bench).shoot.completed = _
    rw [lookup_insert_same, hn]
    exact Timeline.complete_next hahead
  · split
    · exact x.release_frame.2.1
    · rfl
  · rw [if_pos (decide_eq_true hw)]
    exact Thread.release_parked hp hk

/-! ### Replies (R398) -/

theorem exec_memoryReply_run {x : Thread} {s : State} (hlive : liveThread s x.id = some x) (hst : x.st = .stalledMemory)
    (hw : stillWaits s x.id = false) :
    ∃ u y, exec (.memoryReply x.id) s = .next u ∧ liveThread u x.id = some y ∧ y = { x with st := .seated } ∧ u.mem = s.mem := by
  obtain ⟨hfind, -⟩ := liveThread_some hlive
  have hexec : exec (.memoryReply x.id) s = .next (putThread s { x with st := .seated }) := by
    show execMemoryReply x.id s = _
    rw [execMemoryReply, hfind]
    dsimp only
    rw [if_pos ⟨hst, by rw [hw]; rfl⟩]
  exact ⟨_, _, hexec, liveThread_putThread hfind rfl rfl, rfl, (putThread_fields s _).2.2.2.2.2.2.1⟩

/-! ### Where a block lies -/

/-- Finding a block's place changes the translation caches only. -/
theorem placeBlockFor_frame (ag : Agent) (x : Thread) (b : Nat) (s : State) :
    ∃ hs bs, (placeBlockFor ag x b s).2 = { s with hearths := hs, benches := bs } := by
  obtain ⟨hs, bs, e⟩ := reach_frame ag (frameVa x.id + 256 * b) 256 .block s
  unfold placeBlockFor
  split
  · next h =>
    rw [h] at e
    split <;> exact ⟨hs, bs, e⟩
  · exact ⟨hs, bs, e⟩

theorem placeBlock_frame {x : Thread} {b : Nat} {s s1 : State} {r : Reach} (h : placeBlock x b s = (r, s1)) :
    ∃ hs bs, s1 = { s with hearths := hs, benches := bs } := by
  have e := placeBlockFor_frame (blockAgent x) x b s
  rw [show placeBlockFor (blockAgent x) x b s = (r, s1) from h] at e
  exact e

/-! ### The words of a block (R24) -/

/-- Words that are written are read again. -/
theorem readWords_writeWords (pa : Nat) (ws : List Word) (m : List Host.Cell) : readWords (writeWords pa ws m) pa ws.length = ws := by
  refine List.ext_getElem (by simp [readWords]) fun k _ hk => ?_
  simp only [readWords, List.getElem_map, List.getElem_range]
  rw [read_writeWords (List.getElem?_eq_getElem hk), natWord, BitVec.ofNat_toNat, BitVec.setWidth_eq]

theorem padWords_length (n : Nat) (ws : List Word) : (padWords n ws).length = n := by simp [padWords]

theorem flatMap_length {α β : Type} {f : α → List β} {n : Nat} (hf : ∀ a, (f a).length = n) (l : List α) :
    (l.flatMap f).length = n * l.length := by
  induction l with
  | nil => rfl
  | cons a l ih => rw [List.flatMap_cons, List.length_append, hf, ih, List.length_cons, Nat.mul_succ, Nat.add_comm]

theorem Loop.words_length (l : Loop) : l.words.length = 2 := rfl

theorem vecWords_length (v : Vec) : (vecWords v).length = 8 := rfl

theorem replayWords_length (t : Thread) : (replayWords t).length = 128 := by
  unfold replayWords
  rw [List.length_append, padWords_length]
  rfl

/-- A register block has 32 words (R24). -/
theorem blockWords_length (t : Thread) {b : Nat} (hb : b < 16) : (blockWords t b).length = 32 := by
  unfold blockWords
  split
  · exact Vector.length_toList
  · have hl : (t.r.loops.toList.flatMap Loop.words).length = 2 * 6 := by
      rw [flatMap_length (n := 2) (fun l => Loop.words_length l), Vector.length_toList]
    simp only [List.length_append, List.length_take, Vector.length_toList, hl]
    rfl
  · have hr : (t.r.rng.toList.flatMap fun h => [h.key, h.base]).length = 2 * 2 := by
      rw [flatMap_length (n := 2) (fun _ => rfl), Vector.length_toList]
    simp only [List.length_append, List.length_drop, Vector.length_toList, padWords_length, List.length_map, hr]
    rfl
  · exact padWords_length _ _
  · split
    · rw [flatMap_length (fun _ => vecWords_length _), List.length_range]
    · next h15 _ =>
      rw [List.length_take, List.length_drop, replayWords_length]
      have hlast : b ≠ 15 := h15
      omega

/-! ### Blocks that come and go (R27, R28, R397) -/

section
variable {x : Thread} {blk : BitVec 4} {s s1 : State} {p : Spot} {ps : List Spot} (hlive : liveThread s x.id = some x)
  (hplace : placeBlock x blk.toNat s = (.ok (p :: ps), s1)) (hnode : p.node = none) (hoff : accountsOff s x)
include hlive hplace hnode hoff

/-- A block that a thread waits for arrives with the words of its frame (R28). -/
theorem exec_registerBlockArrive_run (hwant : hasBlock x.wanted blk.toNat = true) (hres : hasBlock x.resident blk.toNat = false)
    (hroom : blocksResident s x.hearth < 1024) (hclean : poisoned s1 p.pa 256 = false) :
    ∃ u, exec (.registerBlockArrive x.id blk) s = .next u ∧ liveThread u x.id = some (arriveBlock x blk.toNat (readWords s.mem p.pa 32))
      ∧ u.mem = s.mem := by
  obtain ⟨hs, bs, hs1⟩ := placeBlock_frame hplace
  obtain ⟨hfind, hl⟩ := liveThread_some hlive
  have hoff1 : accountsOff s1 x := by rw [hs1]; exact hoff
  have hexec : exec (.registerBlockArrive x.id blk) s = .next (putThread s1 (arriveBlock x blk.toNat (readWords s1.mem p.pa 32))) := by
    show execRegisterBlockArrive x.id blk s = _
    unfold execRegisterBlockArrive
    simp only [hlive, hwant, hres, hplace, hnode, hclean, Bool.not_true, Bool.false_eq_true, if_false, if_neg (Nat.not_le.mpr hroom)]
    rw [takeBlock, noteDelay_off hoff1]
  have hst : (arriveBlock x blk.toNat (readWords s.mem p.pa 32)).live = true := by
    rw [Thread.live_iff] at hl ⊢
    show (if _ then TState.seated else x.st) ≠ _ ∧ (if _ then TState.seated else x.st) ≠ _
    split
    · exact ⟨nofun, nofun⟩
    · exact hl
  subst hs1
  refine ⟨_, hexec, liveThread_putThread (y := x) ?_ rfl hst, (putThread_fields _ _).2.2.2.2.2.2.1⟩
  exact (findThread_congr rfl rfl x.id).trans hfind

/-- A dirty block that nothing pins is written back to its frame and leaves (R27). -/
theorem exec_registerBlockWriteback_dirty (hres : hasBlock x.resident blk.toNat = true) (hpin : pinned x blk.toNat = false)
    (hdirty : hasBlock x.dirty blk.toNat = true) :
    ∃ u, exec (.registerBlockWriteback x.id blk) s = .next u ∧ liveThread u x.id = some (x.dropBlock blk.toNat)
      ∧ u.mem = writeWords p.pa (blockWords x blk.toNat) s.mem := by
  obtain ⟨hs, bs, hs1⟩ := placeBlock_frame hplace
  obtain ⟨hfind, hl⟩ := liveThread_some hlive
  obtain ⟨ls, bs', hnote⟩ := noteCheckpoint_only p.pa 256 { s1 with mem := writeWords p.pa (blockWords x blk.toNat) s1.mem }
  have himage : writeImage x blk.toNat (p :: ps) s1
      = { s1 with mem := writeWords p.pa (blockWords x blk.toNat) s1.mem, launches := ls, benches := bs' } := by
    rw [writeImage, hnode]
    exact hnote
  have hout : writeOut x blk.toNat (p :: ps) s1
      = { s1 with mem := writeWords p.pa (blockWords x blk.toNat) s1.mem, launches := ls, benches := bs' } := by
    show noteDelay x p false (writeImage x blk.toNat (p :: ps) s1) = _
    rw [himage]
    refine noteDelay_off ?_ p false
    rw [hs1]
    exact hoff
  have hexec : exec (.registerBlockWriteback x.id blk) s = .next (putThread
      { s1 with mem := writeWords p.pa (blockWords x blk.toNat) s1.mem, launches := ls, benches := bs' } (x.dropBlock blk.toNat)) := by
    show execRegisterBlockWriteback x.id blk s = _
    rw [execRegisterBlockWriteback, hlive]
    dsimp only
    rw [if_pos ⟨hres, by rw [hpin]; rfl⟩, evictBlock, if_neg (by rw [hdirty]; exact Bool.false_ne_true),
      show placeBlockFor (blockAgent x) x blk.toNat s = (.ok (p :: ps), s1) from hplace]
    dsimp only
    rw [hout]
  subst hs1
  refine ⟨_, hexec, liveThread_putThread (y := x) ?_ rfl hl, (putThread_fields _ _).2.2.2.2.2.2.1⟩
  exact (findThread_congr rfl rfl x.id).trans hfind

end

section
variable {x : Thread} {blk : BitVec 4} {s : State} (hlive : liveThread s x.id = some x) (hres : hasBlock x.resident blk.toNat = true)
  (hpin : pinned x blk.toNat = false)
include hlive hres hpin

/-- A clean block that nothing pins leaves at once (R27). -/
theorem exec_registerBlockWriteback_clean (hclean : hasBlock x.dirty blk.toNat = false) :
    exec (.registerBlockWriteback x.id blk) s = .next (putThread s (x.dropBlock blk.toNat)) := by
  show execRegisterBlockWriteback x.id blk s = _
  rw [execRegisterBlockWriteback, hlive]
  dsimp only
  rw [if_pos ⟨hres, by rw [hpin]; rfl⟩, evictBlock, if_pos (by rw [hclean]; rfl)]

/-- A dirty block whose page is refused stays, and its parked owner notes it (R397). -/
theorem exec_blockWritebackFail_parked {c : Cause} {s1 : State} (hplace : placeBlock x blk.toNat s = (.fault c, s1))
    (hdirty : hasBlock x.dirty blk.toNat = true) (hstuck : x.stuckBlock ≠ some blk.toNat) (hst : x.st = .parked) :
    exec (.blockWritebackFail x.id blk) s = .next (putThread s1 { x with stuckBlock := some blk.toNat }) := by
  show execBlockWritebackFail x.id blk s = _
  rw [execBlockWritebackFail, hlive]
  dsimp only
  rw [if_pos ⟨hres, hdirty, by rw [hpin]; rfl, hstuck⟩, hplace]
  dsimp only
  rw [writebackFail]
  simp only [hst]

end

/-- Settles O48: each event by what it makes of the thread it names, its bench and memory. -/
theorem translationEvents : Obligations.TranslationEvents := by
  intro bench i page kind d x blk c s s1 p ps B b hlive
  obtain ⟨hfind, hl⟩ := liveThread_some hlive
  refine ⟨exec_tlbBenchMiss_new kind hlive, exec_shootdownComplete_spec hlive, exec_memoryReply_run hlive,
    fun hplace hnode => ⟨fun hwant hres howed hroom hclean hoff => ?_, fun hres hpin hdirty hoff => ?_⟩, fun hres hpin hclean => ?_,
    fun hplace hres hpin hdirty hstuck hst => ?_⟩
  · obtain ⟨u, hexec, hthread, hmem⟩ := exec_registerBlockArrive_run hlive hplace hnode hoff hwant hres hroom hclean
    refine ⟨u, _, hexec, hthread, rfl, rfl, ?_, hmem, fun hw hst => if_pos ⟨hw, hst⟩⟩
    show (if hasBlock x.owed b then x.r else _) = _
    rw [if_neg (by rw [howed]; exact Bool.false_ne_true)]
  · obtain ⟨u, hexec, hthread, hmem⟩ := exec_registerBlockWriteback_dirty hlive hplace hnode hoff hres hpin hdirty
    have hlen : (blockWords x b).length = 32 := blockWords_length x blk.isLt
    refine ⟨u, _, hexec, hthread, rfl, rfl, ?_, fun a ha => ?_⟩
    · rw [hmem, ← hlen]
      exact readWords_writeWords _ _ _
    · rw [hmem]
      exact writeWords_other _ _ _ (by rw [hlen]; exact ha)
  · exact ⟨_, _, exec_registerBlockWriteback_clean hlive hres hpin hclean, liveThread_putThread hfind rfl hl, rfl, rfl,
      (putThread_fields s _).2.2.2.2.2.2.1⟩
  · obtain ⟨hs, bs, hs1⟩ := placeBlock_frame hplace
    have hexec := exec_blockWritebackFail_parked hlive hres hpin hplace hdirty hstuck hst
    subst hs1
    exact ⟨_, _, hexec, liveThread_putThread (y := x) ((findThread_congr rfl rfl x.id).trans hfind) rfl hl, rfl,
      (putThread_fields _ _).2.2.2.2.2.2.1⟩

end Sys2Proof.Machine

/-!
A mismatch of a lock-step pair at a point where the worker's thread takes POISON (R410): the poison comes before it.
-/

namespace Sys2Proof.Machine

open Sys2Proof

/-- A lock-step pair whose superstep runs unprotected. -/
def unprotectedPair : Position := { index := 0, hearth := 0, unprotected := true }

/-- A deterministic launch over that pair, in its compute phase; bits 38 and 39 of its record's word 2 say so (R312). -/
def lockstepLaunch : Launch :=
  { id := 0, asid := 0, secure := false, priv := 0, prio := 0, addr := 0, record := [0, 0, 0xC000000000], state := .running, computing := true,
    positions := [unprotectedPair] }

/-- The thread that issued last on core 0 of the worker has trapped with the code of POISON. -/
def poisonedWorker : State :=
  { th := { st := .trapped, record := { head := 0x29 } }, cores := [(0, { debug := { last := some ⟨0, 0⟩ } })], launches := [lockstepLaunch] }

/-- The mismatch does nothing: the poison at the same point comes before it. -/
theorem exec_lockstepMismatch_poisonedWorker : exec (.lockstepMismatch 0 0 0 0) poisonedWorker = .next poisonedWorker := rfl

/-- Refutes O57: a mismatch of an unprotected pair is lasting only where the unit's last thread has not taken POISON, which comes before a
mismatch at the same point (R410). On `poisonedWorker` the mismatch leaves the launch without a fault. -/
theorem not_launchesAndSupersteps : ¬ Obligations.LaunchesAndSupersteps := by
  intro h
  obtain ⟨-, -, -, -, -, -, -, phases⟩ := h ⟨0, 0⟩ 0 0 0 ⟨0, 0⟩ 0 0 0 0 0 0 0 lockstepLaunch unprotectedPair ⟨0, 0, 0, false, false⟩ [] []
    {} poisonedWorker poisonedWorker nofun
  obtain ⟨-, -, -, -, mismatch⟩ := phases rfl rfl rfl rfl
  obtain ⟨-, lasts⟩ := mismatch rfl rfl rfl rfl (Nat.zero_le 4)
  obtain ⟨u, M, hexec, hfind, hfault, -⟩ := lasts (.inl rfl)
  rw [exec_lockstepMismatch_poisonedWorker] at hexec
  cases hexec
  cases hfind
  cases hfault

end Sys2Proof.Machine

/-!
A grant of the forge seat where two live threads have the granted name (R380): the place that the grant frees goes to the other one.
-/

namespace Sys2Proof.Machine

open Sys2Proof

/-- The thread at the head of the forge queue, its blocks resident, and a second thread of its name that waits for a place in the queue. -/
def sharedName : State :=
  { th := { st := .parked, wait := .forgeSeat, resident := 0xFFFF },
    others := [{ st := .parked, wait := .forgeQueue 0, forge := true }],
    hearths := [(0, { forgeQueue := [⟨0, 0⟩] })] }

/-- The thread that the granted name finds is parked once more: the second thread has taken the freed place, under that name. -/
theorem exec_forgeSeatGrant_sharedName :
    ∃ u z, exec (.forgeSeatGrant 0) sharedName = .next u ∧ findThread u ⟨0, 0⟩ = some z ∧ z.st = .parked := ⟨_, _, rfl, rfl, rfl⟩

/-- Refutes O58: the statement does not say that a name has one live thread. On `sharedName` the seat is granted to a name that a second
thread has too; that one joins the forge queue in the place which the grant frees, and the name finds a parked thread, not a running one. -/
theorem not_seatsAndReliability : ¬ Obligations.SeatsAndReliability := by
  intro h
  obtain ⟨-, grant, -⟩ := h 0 0 0 0 0 0 ⟨0, 0⟩ sharedName.th {} 0 0 ⟨0, 0⟩ {} ⟨0, 0, .bytes 0 0 0⟩ 0 0 (.core 0) sharedName nofun
  obtain ⟨resident, -⟩ := grant rfl rfl rfl rfl rfl nofun
  obtain ⟨u, z, hexec, hfind, hrun, -⟩ := resident rfl
  obtain ⟨v, y, hgrant, hname, hparked⟩ := exec_forgeSeatGrant_sharedName
  cases hgrant.symm.trans hexec
  cases hname.symm.trans hfind
  cases hparked.symm.trans hrun

end Sys2Proof.Machine
